-- ==== Sys2Proof/Word.lean ====
section
/-! DEFINITION. The words of the hub and the fixed-length table that holds a number of like things. -/

namespace Sys2Proof

/-- One byte of a record or of a line frame. -/
abbrev Byte := BitVec 8

/-- A 16-bit field: key field, lamp field, mask, label. -/
abbrev Half := BitVec 16

/-- A 32-bit field: frame number, tag, host address, register. -/
abbrev Word := BitVec 32

/-- A signed 16-bit sample in two's complement; 0 is silence (00_scope 0.6). -/
abbrev Sample := BitVec 16

/-- One of the eight links. -/
abbrev LinkId := Fin 8

/-- One of the twelve channels of a link in one direction. -/
abbrev Channel := Fin 12

/-- One of the sixteen taps. -/
abbrev TapId := Fin 16

/-- `n` things of one type, numbered from 0: a list that carries its length. -/
structure Table (n : Nat) (α : Type) where
  items : List α
  size_eq : items.length = n
  deriving DecidableEq, Repr

namespace Table

variable {n : Nat} {α β : Type}

/-- The thing numbered `i`. -/
def get (t : Table n α) (i : Fin n) : α :=
  t.items[i.val]'(by rw [t.size_eq]; exact i.isLt)

/-- The table with the thing numbered `i` replaced. -/
def set (t : Table n α) (i : Fin n) (a : α) : Table n α :=
  ⟨t.items.set i.val a, by rw [List.length_set, t.size_eq]⟩

/-- `n` copies of one thing. -/
def fill (n : Nat) (a : α) : Table n α :=
  ⟨List.replicate n a, List.length_replicate⟩

/-- Every thing mapped by one function. -/
def map (f : α → β) (t : Table n α) : Table n β :=
  ⟨t.items.map f, by rw [List.length_map, t.size_eq]⟩

/-- The table whose thing numbered `i` is `f i`. -/
def ofFn (f : Fin n → α) : Table n α :=
  ⟨List.ofFn f, List.length_ofFn⟩

/-- The table whose first things are those of a list and whose others are `a`. -/
def ofList (n : Nat) (a : α) (l : List α) : Table n α :=
  ⟨(l ++ List.replicate n a).take n, by simp⟩

/-- Two tables with the same things are equal. -/
theorem ext_get {t u : Table n α} (h : ∀ i, t.get i = u.get i) : t = u := by
  cases t with
  | mk l hl =>
    cases u with
    | mk m hm =>
      have hlm : l = m := by
        apply List.ext_getElem (by rw [hl, hm])
        intro i h1 _
        exact h ⟨i, hl ▸ h1⟩
      subst hlm
      rfl

@[simp] theorem get_set_same (t : Table n α) (i : Fin n) (a : α) : (t.set i a).get i = a := by
  simp [get, set]

@[simp] theorem get_set_other (t : Table n α) {i j : Fin n} (a : α) (h : i ≠ j) :
    (t.set i a).get j = t.get j := by
  have hv : i.val ≠ j.val := fun e => h (Fin.ext e)
  simp [get, set, List.getElem_set_ne hv]

theorem get_set (t : Table n α) (i j : Fin n) (a : α) :
    (t.set i a).get j = if i = j then a else t.get j := by
  by_cases h : i = j
  · subst h; simp
  · simp [h]

@[simp] theorem get_fill (a : α) (i : Fin n) : (fill n a).get i = a := by
  simp [get, fill]

@[simp] theorem get_map (f : α → β) (t : Table n α) (i : Fin n) :
    (t.map f).get i = f (t.get i) := by
  simp [get, map]

@[simp] theorem get_ofFn (f : Fin n → α) (i : Fin n) : (ofFn f).get i = f i := by
  simp [get, ofFn]

@[simp] theorem set_get_self (t : Table n α) (i : Fin n) : t.set i (t.get i) = t := by
  apply ext_get
  intro j
  rw [get_set]
  by_cases h : i = j
  · subst h; simp
  · simp [h]

@[simp] theorem set_set (t : Table n α) (i : Fin n) (a b : α) : (t.set i a).set i b = t.set i b := by
  apply ext_get
  intro j
  simp only [get_set]
  split <;> rfl

end Table

end Sys2Proof
end

