-- ==== Sys2Proof/Config.lean ====
section
/-! DEFINITION. The numbers the manual fixes for the part (00_scope 0.5 and the chapters' own tables).
The spec leaves no value of the part open, so there is no free value here. -/

namespace Sys2Proof.Config

/-- Source entries in the shared pool (R4). -/
abbrev poolSize : Nat := 256

/-- Places shared by the schedule list and the assembly group (R34). -/
abbrev schedulePlaces : Nat := 8

/-- Places of the staging store (R34). -/
abbrev stagingPlaces : Nat := 64

/-- Commands in a group, at most (R29). -/
abbrev groupLimit : Nat := 16

/-- The schedule horizon in frames (R32). -/
abbrev horizon : Nat := 2 ^ 24

/-- Half the range of the frame number: a due frame this far ahead lies behind (R32). -/
abbrev behind : Nat := 2 ^ 31

/-- Frames in a superframe. -/
abbrev superframe : Nat := 16

/-- Buffers in a tap's list, at most (R55). -/
abbrev bufferLimit : Nat := 8

/-- Shortest buffer in samples (R54). -/
abbrev bufferMin : Nat := 8

/-- Longest buffer in samples (R54). -/
abbrev bufferMax : Nat := 4096

/-- Samples in a transfer run (R61, R62). -/
abbrev runLength : Nat := 8

/-- Runs in a tap's transfer store (R61, R62). -/
abbrev runLimit : Nat := 2

/-- Highest gap count (R58). -/
abbrev gapMax : Nat := 65535

/-- Call length for a call timer field of 0, and at device reset (R86, R87). -/
abbrev defaultCall : Nat := 500

/-- Longest call timer field (R103). -/
abbrev callMax : Nat := 4095

/-- Train, hold, close and loop timers, in superframe starts (R92). -/
abbrev trainLength : Nat := 50
abbrev holdLength : Nat := 32
abbrev closeLength : Nat := 16
abbrev loopLength : Nat := 16

/-- Good frames that confirm a candidate (R78). -/
abbrev confirmFrames : Nat := 2

/-- What an errored frame adds to the error score, and the score that loses lock (R79). -/
abbrev errorWeight : Nat := 4
abbrev errorLimit : Nat := 16

/-- Markers B in a row that give superframe lock, and misses in a row that lose it (R80, R81). -/
abbrev markerGoal : Nat := 3
abbrev missLimit : Nat := 2

/-- Message limits (R114, R116, R117, R124). -/
abbrev messageMax : Nat := 44
abbrev segmentMax : Nat := 11
abbrev outLimit : Nat := 2
abbrev inLimit : Nat := 4
abbrev retryLimit : Nat := 16
abbrev notReadyLimit : Nat := 256

/-- Highest occurrence count of an event record (R148). -/
abbrev countMax : Nat := 65535

/-- Marker A and marker B (R68). -/
abbrev markerA : Byte := 0x2D
abbrev markerB : Byte := 0xD2

/-- CRC-8 polynomial below its top bit, and initial value (R69). -/
abbrev crcPoly : Byte := 0x31
abbrev crcInit : Byte := 0xFF

/-- IDENT: vendor 0x0CA7, part 0x812, revision 0 (10_record_and_frame_formats 10.5). -/
abbrev ident : Word := 0x0CA78120

/-- Length of a route record (R175). -/
abbrev routeRecordLength : Nat := 40

end Sys2Proof.Config
end

