-- ==== Sys2Proof/Syntax.lean ====
section
/-! DEFINITION. The commands of the hub, one constructor for each row of spec/opcode_table.json, and
what a command carries. Data that reaches the hub from a bus or a line is carried as the raw bytes. -/

namespace Sys2Proof

/-- The two rings the hub fetches commands from (R129). -/
inductive CmdRing where
  | a
  | b
  deriving DecidableEq, Repr

/-- The four rings, each with a base register (R129). -/
inductive Ring where
  | ringA
  | ringB
  | completion
  | event
  deriving DecidableEq, Repr

/-- How a host transfer ends: without error or with a host bus error (R160). -/
inductive BusEnd where
  | ok
  | busError
  deriving DecidableEq, Repr

/-- How a playout read ends: with the 16 bytes of one run, or with a host bus error (R62, R175). -/
inductive ReadEnd where
  | data (bytes : Table 16 Byte)
  | busError
  deriving DecidableEq, Repr

/-- Bytes 1 to 63 of a command record as the fetch read them (10.2). Byte 0, the kind code, names
the row (commandOfRecord). -/
structure CommandRecord where
  tail : Table 63 Byte
  deriving DecidableEq, Repr

/-- The 27 bytes of one line frame in the order of sending (R68). -/
structure LineFrame where
  bytes : Table 27 Byte
  deriving DecidableEq, Repr

/-- The three interrupt enables as a CONTROL write carries them (R159, R162). -/
structure Enables where
  cie : Bool
  eie : Bool
  hie : Bool
  deriving DecidableEq, Repr

/-- One command: one event at the hub, whole and indivisible. -/
inductive Instr where
  /-- FRAME_START (R171). -/
  | frameStart
  /-- CALL_TIMER_EXPIRES (R95). -/
  | callTimerExpires (link : LinkId)
  /-- TRAIN_TIMER_EXPIRES (R96). -/
  | trainTimerExpires (link : LinkId)
  /-- HOLD_TIMER_EXPIRES (R98). -/
  | holdTimerExpires (link : LinkId)
  /-- CLOSE_TIMER_EXPIRES (R99). -/
  | closeTimerExpires (link : LinkId)
  /-- LOOP_TIMER_EXPIRES (R101). -/
  | loopTimerExpires (link : LinkId)
  /-- RETRY_LIMIT (R117). -/
  | retryLimit (link : LinkId)
  /-- NOT_READY_LIMIT (R117). -/
  | notReadyLimit (link : LinkId)
  /-- CANDIDATE_MARKER (R77): the eight bits found. -/
  | candidateMarker (link : LinkId) (bits : Byte)
  /-- UPSTREAM_FRAME (R76): the 27 bytes at the expected place of the upstream pair. -/
  | upstreamFrame (link : LinkId) (frame : LineFrame)
  /-- LINE_ACTIVITY (R85). -/
  | lineActivity (link : LinkId)
  /-- FETCH_START (R133). -/
  | fetchStart
  /-- FETCH_ERROR (R135). -/
  | fetchError
  /-- BAD_KIND (R138): a fetched record whose kind code names no command. -/
  | badKind (kind : Byte) (record : CommandRecord)
  /-- SET_ROUTE (R24). -/
  | setRoute (record : CommandRecord)
  /-- CLEAR_ROUTE (R25). -/
  | clearRoute (record : CommandRecord)
  /-- MUTE_ROUTE (R25). -/
  | muteRoute (record : CommandRecord)
  /-- OPEN_TAP (R26). -/
  | openTap (record : CommandRecord)
  /-- CLOSE_TAP (R26). -/
  | closeTap (record : CommandRecord)
  /-- CANCEL_GROUP (R42). -/
  | cancelGroup (record : CommandRecord)
  /-- READ_ROUTE (R20). -/
  | readRoute (record : CommandRecord)
  /-- FENCE (R44). -/
  | fence (record : CommandRecord)
  /-- START_LINK (R103). -/
  | startLink (record : CommandRecord)
  /-- LOOP_LINK (R104). -/
  | loopLink (record : CommandRecord)
  /-- STOP_LINK (R105). -/
  | stopLink (record : CommandRecord)
  /-- QUERY_LINK (R106). -/
  | queryLink (record : CommandRecord)
  /-- SET_LAMPS (R112). -/
  | setLamps (record : CommandRecord)
  /-- SEND_MESSAGE (R116). -/
  | sendMessage (record : CommandRecord)
  /-- CREDIT_TAP (R54). -/
  | creditTap (record : CommandRecord)
  /-- PARKED_EDIT_RETRY (R35). -/
  | parkedEditRetry
  /-- PARKED_READ_ROUTE_TAKEN (R19). -/
  | parkedReadRouteTaken
  /-- FENCE_RELEASE (R44). -/
  | fenceRelease
  /-- ROUTE_RECORD_WRITE_END (R20). -/
  | routeRecordWriteEnd (how : BusEnd)
  /-- CAPTURE_WRITE_START (R61). -/
  | captureWriteStart (tap : TapId)
  /-- TAP_WRITE_END (R61). -/
  | tapWriteEnd (tap : TapId) (how : BusEnd)
  /-- PLAYOUT_READ_START (R62). -/
  | playoutReadStart (tap : TapId)
  /-- TAP_READ_END (R62). -/
  | tapReadEnd (tap : TapId) (how : ReadEnd)
  /-- COMPLETION_WRITE_START (R144). -/
  | completionWriteStart
  /-- COMPLETION_WRITE_END (R144). -/
  | completionWriteEnd (how : BusEnd)
  /-- EVENT_WRITE_START (R153). -/
  | eventWriteStart
  /-- MESSAGE_EVENT (R154). -/
  | messageEvent
  /-- EVENT_WRITE_END (R150). -/
  | eventWriteEnd (how : BusEnd)
  /-- ENABLE_SET (R162): a CONTROL write with ENABLE 1 and both reset bits 0. -/
  | enableSet (enables : Enables)
  /-- ENABLE_CLEAR (R163): a CONTROL write with ENABLE 0 and both reset bits 0. -/
  | enableClear (enables : Enables)
  /-- STOP_END (R163). -/
  | stopEnd
  /-- INTERRUPT_ENABLE_WRITE (R170): a CONTROL write that leaves ENABLE as it is. -/
  | interruptEnableWrite (enables : Enables)
  /-- ENGINE_RESET (R168). -/
  | engineReset
  /-- DEVICE_RESET (R169). -/
  | deviceReset
  /-- RESET_N (R169): the pin goes low. -/
  | resetN
  /-- RING_BASE_WRITE (R165). -/
  | ringBaseWrite (ring : Ring) (value : Word)
  /-- RING_PROD_WRITE (R131). -/
  | ringProdWrite (ring : CmdRing) (value : Word)
  /-- COMP_CONS_WRITE (R131). -/
  | compConsWrite (value : Word)
  /-- EVENT_CONS_WRITE (R131). -/
  | eventConsWrite (value : Word)
  /-- UNSTORED_REGISTER_WRITE (R159): a write at an offset of the window that stores nothing. -/
  | unstoredRegisterWrite (offset : Word) (value : Word)
  /-- RESET_N_RELEASE (R169). -/
  | resetNRelease
  deriving DecidableEq, Repr

end Sys2Proof
end

