-- ==== Sys2Proof/Decode.lean ====
section
/-! DEFINITION. Which row a fetched command record stands for (10.2, 10.6). No row of spec/opcode_table.json
gives bits (the hub has no instruction words: its commands are events), so no word of the table's spells a command. -/

namespace Sys2Proof

/-- The command that a kind code names, still to be given the rest of its record; none for a code that 10.6
does not list (R138, R174). -/
def commandOfKind (kind : Byte) : Option (CommandRecord → Instr) :=
  match kind.toNat with
  | 0x01 => some .setRoute
  | 0x02 => some .clearRoute
  | 0x03 => some .muteRoute
  | 0x04 => some .openTap
  | 0x05 => some .closeTap
  | 0x08 => some .cancelGroup
  | 0x09 => some .readRoute
  | 0x0A => some .fence
  | 0x10 => some .startLink
  | 0x11 => some .loopLink
  | 0x12 => some .stopLink
  | 0x13 => some .queryLink
  | 0x14 => some .setLamps
  | 0x15 => some .sendMessage
  | 0x18 => some .creditTap
  | _ => none

/-- The kind code names no command, as BAD_KIND's row says (R138). -/
def kindUnknown (kind : Byte) : Bool := (commandOfKind kind).isNone

/-- The command that a fetched record of 64 bytes stands for (10.2, R138): byte 0 names its row, and a code
that names none makes it BAD_KIND. -/
def commandOfRecord (bytes : Table 64 Byte) : Instr :=
  let kind := bytes.get 0
  let record : CommandRecord := ⟨Table.ofFn fun i => bytes.get i.succ⟩
  match commandOfKind kind with
  | some command => command record
  | none => .badKind kind record

/-- The command a word spells by the table's bits: none, since no row gives bits. -/
def decodeTableWord (_nbits _w : Nat) : Option Instr := none

end Sys2Proof
end

