-- ==== Sys2Proof/WellFormed.lean ====
section
/-! DEFINITION. Which terms of Instr spell an event of their row. The types already bound links, taps
and record lengths; two rows have a condition on what they carry. -/

namespace Sys2Proof

/-- The offsets of the registers a write of which is stored or acts (R159, 10.5): CONTROL, the four
base registers and the four host indices. -/
def storedOffsets : List Word :=
  [0x04, 0x10, 0x14, 0x18, 0x1C, 0x20, 0x24, 0x28, 0x2C]

/-- The offset names a read-only register or none, as UNSTORED_REGISTER_WRITE's row says (R159). -/
def offsetUnstored (offset : Word) : Bool := !storedOffsets.contains offset

/-- The term spells an event of its row. -/
def Instr.wellFormed (i : Instr) : Bool :=
  match i with
  | .badKind kind _ => kindUnknown kind
  | .unstoredRegisterWrite offset _ => offsetUnstored offset
  | .frameStart => true
  | .callTimerExpires _ => true
  | .trainTimerExpires _ => true
  | .holdTimerExpires _ => true
  | .closeTimerExpires _ => true
  | .loopTimerExpires _ => true
  | .retryLimit _ => true
  | .notReadyLimit _ => true
  | .candidateMarker _ _ => true
  | .upstreamFrame _ _ => true
  | .lineActivity _ => true
  | .fetchStart => true
  | .fetchError => true
  | .setRoute _ => true
  | .clearRoute _ => true
  | .muteRoute _ => true
  | .openTap _ => true
  | .closeTap _ => true
  | .cancelGroup _ => true
  | .readRoute _ => true
  | .fence _ => true
  | .startLink _ => true
  | .loopLink _ => true
  | .stopLink _ => true
  | .queryLink _ => true
  | .setLamps _ => true
  | .sendMessage _ => true
  | .creditTap _ => true
  | .parkedEditRetry => true
  | .parkedReadRouteTaken => true
  | .fenceRelease => true
  | .routeRecordWriteEnd _ => true
  | .captureWriteStart _ => true
  | .tapWriteEnd _ _ => true
  | .playoutReadStart _ => true
  | .tapReadEnd _ _ => true
  | .completionWriteStart => true
  | .completionWriteEnd _ => true
  | .eventWriteStart => true
  | .messageEvent => true
  | .eventWriteEnd _ => true
  | .enableSet _ => true
  | .enableClear _ => true
  | .stopEnd => true
  | .interruptEnableWrite _ => true
  | .engineReset => true
  | .deviceReset => true
  | .resetN => true
  | .ringBaseWrite _ _ => true
  | .ringProdWrite _ _ => true
  | .compConsWrite _ => true
  | .eventConsWrite _ => true
  | .resetNRelease => true

end Sys2Proof
end

