-- ==== Sys2Proof/Machine/State.lean ====
section
/-! DEFINITION. The state of the hub as plain data, block by block, and the state after reset. -/

namespace Sys2Proof.Machine

/-! ## Names -/

/-- The four states of the Ring Engine (R161). -/
inductive EngineState where
  | stopped
  | running
  | stopping
  | halted
  deriving DecidableEq, Repr

/-- The halt cause (R166). -/
inductive HaltCause where
  | none
  | fetchError
  | postError
  | tapError
  | resultError
  | badTail
  | badHead
  deriving DecidableEq, Repr

/-- The 29 completion statuses (10.6). -/
inductive Status where
  | done
  | badKind
  | wrongRing
  | badField
  | groupTooLong
  | groupAborted
  | brokenChain
  | tooFar
  | conflict
  | noRoute
  | poolFull
  | badSource
  | tapBusy
  | notOpen
  | inUse
  | cancelled
  | notFound
  | aborted
  | busy
  | queueFull
  | badBuffer
  | closed
  | noAnswer
  | noEngage
  | refused
  | loopFail
  | noAck
  | notReady
  | linkDown
  deriving DecidableEq, Repr

/-- The nine session states (R86). -/
inductive SessionState where
  | off
  | listen
  | calling
  | training
  | active
  | degraded
  | closing
  | fault
  | loop
  deriving DecidableEq, Repr

/-- Who began a close (R86). -/
inductive ClosingSide where
  | hub
  | station
  deriving DecidableEq, Repr

/-- Why a link is in FAULT (R86, R100). -/
inductive FaultReason where
  | none
  | noAnswer
  | noEngage
  | refused
  | lost
  | protocol
  | station
  | loopFail
  deriving DecidableEq, Repr

/-- Why a session changed state (R102). -/
inductive ChangeReason where
  | hostStart
  | hostLoop
  | hostStop
  | activity
  | answered
  | engaged
  | serviceLost
  | recovered
  | stationRelease
  | confirmed
  | closeTimeout
  | loopLock
  | fault (why : FaultReason)
  deriving DecidableEq, Repr

/-- The five kinds of the supervision timer (R92). -/
inductive TimerKind where
  | call
  | train
  | hold
  | close
  | loop
  deriving DecidableEq, Repr

/-- The seven link words (R84). -/
inductive LinkWord where
  | wake
  | hello
  | engage
  | run
  | release
  | done
  | fault
  deriving DecidableEq, Repr

/-- The link commands whose completion can be owed (R86). -/
inductive LinkOpKind where
  | start
  | loop
  | stop
  deriving DecidableEq, Repr

/-- What the framer does (R71). -/
inductive FramerActivity where
  | atRest
  | sending
  deriving DecidableEq, Repr

/-- The line activity detector (R85). -/
inductive Detector where
  | off
  | armed
  deriving DecidableEq, Repr

/-- Where the aligner listens (R75). -/
inductive AlignerInput where
  | line
  | loopback
  deriving DecidableEq, Repr

/-- Frame alignment (R77 to R79). -/
inductive FrameAlign where
  | hunt
  | confirm
  | locked
  deriving DecidableEq, Repr

/-- Superframe alignment (R80, R81). -/
inductive SuperAlign where
  | search
  | sfLocked
  deriving DecidableEq, Repr

/-- The sense of a gate (R3). -/
inductive Sense where
  | pressed
  | released
  deriving DecidableEq, Repr

/-- The four states of a tap (R49). -/
inductive TapState where
  | closed
  | waiting
  | running
  | starved
  deriving DecidableEq, Repr

/-- The two kinds of message error (R121, R123). -/
inductive MessageErrorKind where
  | badLength
  | tooLong
  deriving DecidableEq, Repr

/-! ## Commands and completions -/

/-- A command's identity (R140): its tag, its ring and its slot index. -/
structure CmdId where
  tag : Word
  ring : CmdRing
  slot : Nat
  deriving DecidableEq, Repr

/-- A completion as an owner hands it (R143). The frame is added when its record is formed. -/
structure Completion where
  id : CmdId
  status : Status
  late : Bool
  result : Word
  deriving DecidableEq, Repr

/-! ## Routes and edits -/

/-- What a source entry names (R2). -/
inductive Source where
  | inbound (link : LinkId) (channel : Channel)
  | playout (tap : TapId)
  deriving DecidableEq, Repr

/-- The key condition of a source entry (R3). -/
structure Gate where
  link : LinkId
  key : Fin 16
  sense : Sense
  deriving DecidableEq, Repr

/-- A source entry (R2). -/
structure SourceEntry where
  source : Source
  step : Fin 8
  gate : Option Gate
  deriving DecidableEq, Repr

/-- A route (R1). Its destination is the place it stands in. -/
structure Route where
  muted : Bool
  entries : List SourceEntry
  deriving DecidableEq, Repr

/-- Kind and point of an open tap (R26, R49). -/
inductive TapUse where
  | captureInbound (link : LinkId) (channel : Channel)
  | captureOutput (link : LinkId) (channel : Channel)
  | playout
  deriving DecidableEq, Repr

/-- An edit whose fields have passed their checks (R24 to R26). -/
inductive EditOp where
  | setRoute (link : LinkId) (channel : Channel) (createOnly : Bool) (route : Route)
  | clearRoute (link : LinkId) (channel : Channel)
  | muteRoute (link : LinkId) (channel : Channel) (muted : Bool)
  | openTap (tap : TapId) (use : TapUse)
  | closeTap (tap : TapId)
  deriving DecidableEq, Repr

/-- A fetched edit (R23, R27). `op` is absent when the failure code BAD_FIELD is attached. -/
structure Edit where
  id : CmdId
  chain : Bool
  scheduled : Bool
  label : Half
  due : Word
  op : Option EditOp
  deriving DecidableEq, Repr

/-- The assembly group (R28): label and timing of its first command, and its commands so far. -/
structure Assembly where
  label : Half
  scheduled : Bool
  due : Word
  members : List (CmdId × Option EditOp)
  deriving DecidableEq, Repr

/-- A scheduled group (R33). -/
structure Group where
  label : Half
  due : Word
  late : Bool
  members : List (CmdId × EditOp)
  deriving DecidableEq, Repr

/-- The one parked ring-A command (R141). -/
inductive Parked where
  | edit (e : Edit)
  | readRoute (id : CmdId) (link : LinkId) (channel : Channel) (address : Word)
  | fence (id : CmdId)
  deriving DecidableEq, Repr

/-! ## Ring Engine -/

/-- The Ring Engine's state (chapters 7 and 9). -/
structure RingEngine where
  mode : EngineState
  enable : Bool
  cie : Bool
  eie : Bool
  hie : Bool
  cause : HaltCause
  startRefused : Bool
  cfgIgnored : Bool
  baseA : Word
  baseB : Word
  baseComp : Word
  baseEvent : Word
  prodA : Nat
  prodB : Nat
  consComp : Nat
  consEvent : Nat
  fetchA : Nat
  fetchB : Nat
  postComp : Nat
  reserved : Nat
  prefer : CmdRing
  fetch : Option (CmdRing × Nat)
  parked : Option Parked
  outstanding : Nat
  postQueue : List Completion
  compWrite : Option (Completion × Word)
  deriving DecidableEq, Repr

/-! ## Edit Scheduler -/

/-- The Edit Scheduler's state (chapter 2). -/
structure Scheduler where
  assembly : Option Assembly
  overflow : Bool
  list : List Group
  deriving DecidableEq, Repr

/-! ## Switch Core -/

/-- The READ ROUTE in the slot (R19, R20): its identity, its host address, and the destination and
route as they stood when it was taken. -/
structure ReadSlot where
  id : CmdId
  address : Word
  link : LinkId
  channel : Channel
  route : Route
  deriving DecidableEq, Repr

/-- The Switch Core's state (chapter 1). -/
structure SwitchCore where
  routes : Table 8 (Table 12 (Option Route))
  free : Nat
  slot : Option ReadSlot
  down : Table 8 (Table 12 Sample)
  deriving DecidableEq, Repr

/-! ## Tap Unit -/

/-- A buffer record (R49). -/
structure Buffer where
  id : CmdId
  address : Word
  length : Nat
  position : Nat
  transferred : Nat
  gapResult : Option Nat
  deriving DecidableEq, Repr

/-- A complete run of 8 samples in a transfer store, with the host address it goes to or came from
(R61, R62). -/
structure Run where
  address : Word
  samples : List Sample
  deriving DecidableEq, Repr

/-- A tap context (R49). `collecting` is the capture run being collected; `runs` are complete capture
runs not yet written or playout runs read ahead, oldest first. `writing` says that a host write of
this tap number is in flight, `reading` that a host read is. -/
structure Tap where
  state : TapState
  use : Option TapUse
  buffers : List Buffer
  gap : Nat
  collecting : List Sample
  runs : List Run
  writing : Bool
  reading : Bool
  deriving DecidableEq, Repr

/-- A tap closed by a cut-over (R52): the runs still to be written and the buffers returned. -/
structure ClosedTap where
  tap : TapId
  playout : Bool
  runs : List Run
  buffers : List Buffer
  deriving DecidableEq, Repr

/-- A group whose DONE completions wait for the last writes of the taps it closed (R39, R52). -/
structure ClosingGroup where
  taps : List ClosedTap
  completions : List Completion
  deriving DecidableEq, Repr

/-! ## Link Unit -/

/-- A pending link operation (R86). -/
structure LinkOp where
  kind : LinkOpKind
  id : CmdId
  deriving DecidableEq, Repr

/-- The upstream block being collected (R83). -/
structure UpBlock where
  bytes : List Byte
  damaged : Bool
  deriving DecidableEq, Repr

/-- The aligner (R75 to R83). `sinceMarker` counts the frames examined since the last counted marker B;
the next one is expected 16 frames after it (R80). -/
structure Aligner where
  input : AlignerInput
  frameAlign : FrameAlign
  confirm : Nat
  score : Nat
  superAlign : SuperAlign
  markers : Nat
  sinceMarker : Nat
  misses : Nat
  phase : Option (Fin 16)
  upBlock : Option UpBlock
  deriving DecidableEq, Repr

/-- The message channel (R114). -/
structure MessageChannel where
  sendSeq : Bool
  segIndex : Nat
  retry : Nat
  notReady : Nat
  peerRdy : Bool
  lastSeq : Option Bool
  assembly : List Byte
  discarding : Bool
  sentRdy : Bool
  deriving DecidableEq, Repr

/-- A queued SEND MESSAGE (R116). `owed` is absent once an engine reset has discarded its completion
(R128). -/
structure OutMessage where
  owed : Option CmdId
  bytes : List Byte
  deriving DecidableEq, Repr

/-- A complete station message with its frame of arrival (R124, R148). -/
structure InMessage where
  bytes : List Byte
  frame : Word
  deriving DecidableEq, Repr

/-- A Link Unit (chapters 4, 5 and 6). -/
structure Link where
  state : SessionState
  loopLock : Bool
  side : Option ClosingSide
  faultReason : FaultReason
  callLength : Nat
  reportKeys : Bool
  timer : Option (TimerKind × Nat)
  op : Option LinkOp
  takenWord : Option LinkWord
  candWord : Option (Option LinkWord)
  takenKeys : Half
  candKeys : Option Half
  framer : FramerActivity
  block : Option (Table 16 Byte)
  lineOut : Option LineFrame
  loopFrame : Option LineFrame
  detector : Detector
  aligner : Aligner
  inbound : Table 12 Sample
  keyTable : Half
  lamps : Half
  chan : MessageChannel
  outQueue : List OutMessage
  inQueue : List InMessage
  deriving DecidableEq, Repr

/-! ## Event Unit -/

/-- A session state with LOOP told apart by its loop lock, as events and BUSY results give it (R148). -/
structure SessionView where
  state : SessionState
  loopLock : Bool
  deriving DecidableEq, Repr

/-- The fields of an event other than MESSAGE (R148). -/
inductive EventBody where
  | linkState (link : LinkId) (old new : SessionView) (reason : ChangeReason)
  | keys (link : LinkId) (field mask : Half)
  | messageError (link : LinkId) (kind : MessageErrorKind)
  | tapStarved (tap : TapId)
  deriving DecidableEq, Repr

/-- An event record in the making (R151). -/
structure EventRecord where
  body : EventBody
  frame : Word
  count : Nat
  deriving DecidableEq, Repr

/-- The event write in flight (R150, R154). -/
inductive EventWrite where
  | event (record : EventRecord)
  | message (link : LinkId) (message : InMessage)
  deriving DecidableEq, Repr

/-- The Event Unit's state (chapter 8). The pending set has one place for each of the 40 sources. -/
structure EventUnit where
  post : Nat
  write : Option EventWrite
  set : Table 40 (Option EventRecord)
  pointer : LinkId
  deriving DecidableEq, Repr

/-! ## The hub -/

/-- The hub. `held` is the reset that RESET_N low holds (R169); `pending` is the model's own queue of
commands that wait, first in, first out (log entry 1). -/
structure State where
  held : Bool
  frame : Word
  engine : RingEngine
  sched : Scheduler
  core : SwitchCore
  taps : Table 16 Tap
  closing : List ClosingGroup
  links : Table 8 Link
  events : EventUnit
  pending : List Instr
  deriving DecidableEq, Repr

/-- Why a step can stop. -/
inductive Fault where
  /-- Raised by exec for a term that spells no event of its row (Instr.wellFormed is false): BAD_KIND
  with a kind code that names a command, UNSTORED_REGISTER_WRITE at the offset of a register that is
  stored. Safe: no event of the hub is left out (log entry 14). -/
  | illFormed
  deriving DecidableEq, Repr

/-- Why a step can be refused. -/
inductive Refusal where
  /-- The command has no meaning in the model yet. No arm of exec answers it. Safe. -/
  | notModelled (mnemonic : String)
  deriving DecidableEq, Repr

/-! ## Reset values -/

/-- The Ring Engine after device reset in the pin form (R169). -/
def RingEngine.reset : RingEngine where
  mode := .stopped
  enable := false
  cie := false
  eie := false
  hie := false
  cause := .none
  startRefused := false
  cfgIgnored := false
  baseA := 0
  baseB := 0
  baseComp := 0
  baseEvent := 0
  prodA := 0
  prodB := 0
  consComp := 0
  consEvent := 0
  fetchA := 0
  fetchB := 0
  postComp := 0
  reserved := 0
  prefer := .a
  fetch := none
  parked := none
  outstanding := 0
  postQueue := []
  compWrite := none

/-- The Edit Scheduler after device reset (R48). -/
def Scheduler.reset : Scheduler where
  assembly := none
  overflow := false
  list := []

/-- The Switch Core after device reset (R5, R16, R19). -/
def SwitchCore.reset : SwitchCore where
  routes := Table.fill 8 (Table.fill 12 none)
  free := Config.poolSize
  slot := none
  down := Table.fill 8 (Table.fill 12 0)

/-- A tap context after device reset (R49). -/
def Tap.reset : Tap where
  state := .closed
  use := none
  buffers := []
  gap := 0
  collecting := []
  runs := []
  writing := false
  reading := false

/-- The aligner after device reset (R75). -/
def Aligner.reset : Aligner where
  input := .line
  frameAlign := .hunt
  confirm := 0
  score := 0
  superAlign := .search
  markers := 0
  sinceMarker := 0
  misses := 0
  phase := none
  upBlock := none

/-- The message channel after device reset (R114). -/
def MessageChannel.reset : MessageChannel where
  sendSeq := false
  segIndex := 0
  retry := 0
  notReady := 0
  peerRdy := false
  lastSeq := none
  assembly := []
  discarding := false
  sentRdy := false

/-- A Link Unit after device reset (R71, R75, R85, R86, R109, R112, R114). -/
def Link.reset : Link where
  state := .off
  loopLock := false
  side := none
  faultReason := .none
  callLength := Config.defaultCall
  reportKeys := false
  timer := none
  op := none
  takenWord := none
  candWord := none
  takenKeys := 0
  candKeys := none
  framer := .atRest
  block := none
  lineOut := none
  loopFrame := none
  detector := .off
  aligner := Aligner.reset
  inbound := Table.fill 12 0
  keyTable := 0
  lamps := 0
  chan := MessageChannel.reset
  outQueue := []
  inQueue := []

/-- The Event Unit after device reset (R158). -/
def EventUnit.reset : EventUnit where
  post := 0
  write := none
  set := Table.fill 40 none
  pointer := 0

/-- The hub right after reset: RESET_N has been low and is released (R169, R171). -/
def State.reset : State where
  held := false
  frame := 0
  engine := RingEngine.reset
  sched := Scheduler.reset
  core := SwitchCore.reset
  taps := Table.fill 16 Tap.reset
  closing := []
  links := Table.fill 8 Link.reset
  events := EventUnit.reset
  pending := []

end Sys2Proof.Machine
end

