-- ==== Sys2Proof/Machine/Ops.lean ====
section
/-! DEFINITION. The shared operations: ring indices and credits, updates of one block, handing a
completion, raising an event, and the halt. -/

namespace Sys2Proof.Machine

/-- What exec and step answer. -/
abbrev Answer := Host.Outcome State Fault Refusal

/-! ## Updates of one block -/

def State.withEngine (s : State) (e : RingEngine) : State := { s with engine := e }
def State.withSched (s : State) (d : Scheduler) : State := { s with sched := d }
def State.withCore (s : State) (c : SwitchCore) : State := { s with core := c }
def State.withTaps (s : State) (t : Table 16 Tap) : State := { s with taps := t }
def State.withClosing (s : State) (c : List ClosingGroup) : State := { s with closing := c }
def State.withLinks (s : State) (l : Table 8 Link) : State := { s with links := l }
def State.withEvents (s : State) (u : EventUnit) : State := { s with events := u }

/-- The state with one Link Unit replaced. -/
def State.setLink (s : State) (n : LinkId) (l : Link) : State := s.withLinks (s.links.set n l)

/-- The state with one tap context replaced. -/
def State.setTap (s : State) (n : TapId) (t : Tap) : State := s.withTaps (s.taps.set n t)

/-- A command that a hub held in reset by RESET_N does not take (R169): nothing changes. -/
def live (s : State) (f : State → State) : Answer :=
  if s.held then .next s else .next (f s)

/-- The first member that meets a test, changed. -/
def updateFirst {α : Type} (p : α → Bool) (f : α → α) : List α → List α
  | [] => []
  | a :: rest => if p a then f a :: rest else a :: updateFirst p f rest

/-! ## Rings and credits -/

/-- Slots of a ring by its base register (R129): codes 1 to 9 give 16 to 4096, any other code leaves
the ring unconfigured. -/
def ringSize (base : Word) : Option Nat :=
  let code := base.toNat % 16
  if 1 ≤ code ∧ code ≤ 9 then some (2 ^ (code + 3)) else none

/-- Base address of a ring: the register with its code bits taken as 0 (R129). -/
def ringAddress (base : Word) : Nat := base.toNat - base.toNat % 16

/-- The slot after slot `i` (R130); on an unconfigured ring the position stays. -/
def nextSlot (base : Word) (i : Nat) : Nat :=
  match ringSize base with
  | none => i
  | some n => if i + 1 < n then i + 1 else 0

/-- Records from the consumer to the producer, modulo the ring's size (R130). -/
def ringDistance (n consumer producer : Nat) : Nat := (producer + n - consumer) % n

/-- Completions posted and not consumed (R136). -/
def RingEngine.posted (e : RingEngine) : Nat :=
  match ringSize e.baseComp with
  | none => 0
  | some n => ringDistance n e.consComp e.postComp

/-- At least one completion credit is free (R133, R136). -/
def RingEngine.creditFree (e : RingEngine) : Bool :=
  match ringSize e.baseComp with
  | none => false
  | some n => e.posted + e.reserved < n - 1

/-! ## Completions -/

/-- A completion reaches the Ring Engine (R144). A halted engine does not post it (R147). -/
def post (c : Completion) (s : State) : State :=
  if s.engine.mode = .halted then s
  else s.withEngine { s.engine with postQueue := s.engine.postQueue ++ [c] }

/-- One counted ring-A command ends (R44). Ring-B commands are not counted. -/
def uncount (ring : CmdRing) (s : State) : State :=
  match ring with
  | .a => s.withEngine { s.engine with outstanding := s.engine.outstanding - 1 }
  | .b => s

/-- An owner hands a completion (R44, R140). -/
def hand (c : Completion) (s : State) : State := post c (uncount c.id.ring s)

/-- Completions handed one after another. -/
def handAll (cs : List Completion) (s : State) : State := cs.foldl (fun t c => hand c t) s

/-- A completion that is not a late DONE. -/
def Completion.plain (id : CmdId) (status : Status) (result : Word) : Completion :=
  ⟨id, status, false, result⟩

/-! ## Events -/

/-- The event's source among the 40, in drain order (R149, R153). -/
def EventBody.source : EventBody → Fin 40
  | .linkState n _ _ _ => ⟨n.val, by omega⟩
  | .keys n _ _ => ⟨8 + n.val, by omega⟩
  | .messageError n _ => ⟨16 + n.val, by omega⟩
  | .tapStarved t => ⟨24 + t.val, by omega⟩

/-- The fields of a merged entry, by kind (R152, R155). -/
def EventBody.merge (earlier later : EventBody) : EventBody :=
  match earlier, later with
  | .linkState _ old _ _, .linkState n _ new reason => .linkState n old new reason
  | .keys _ _ mask, .keys n field mask' => .keys n field (mask ||| mask')
  | _, _ => later

/-- A later event of the same source merged into an earlier one (R152, R155). -/
def EventRecord.merge (earlier later : EventRecord) : EventRecord where
  body := earlier.body.merge later.body
  frame := later.frame
  count := min Config.countMax (earlier.count + later.count)

/-- The entry of its source after one more event (R151). -/
def joinEntry (entry : Option EventRecord) (r : EventRecord) : EventRecord :=
  match entry with
  | none => r
  | some earlier => earlier.merge r

/-- The pending set is empty. -/
def EventUnit.quietSet (u : EventUnit) : Bool := u.set.items.all Option.isNone

/-- The event ring has a free slot (R150). -/
def eventSlotFree (s : State) : Bool :=
  match ringSize s.engine.baseEvent with
  | none => false
  | some n => ringDistance n s.engine.consEvent s.events.post < n - 1

/-- The Event Unit can start an event write (R150). -/
def canStartEvent (s : State) : Bool :=
  eventSlotFree s && s.engine.mode != .halted && s.events.write.isNone

/-- A block hands an event (R150, R151): it is posted directly, or it joins the pending set. -/
def raise (b : EventBody) (s : State) : State :=
  let r : EventRecord := ⟨b, s.frame, 1⟩
  if canStartEvent s && s.events.quietSet then
    s.withEvents { s.events with write := some (.event r) }
  else
    s.withEvents { s.events with
      set := s.events.set.set b.source (some (joinEntry (s.events.set.get b.source) r)) }

/-- An abandoned event write (R155): its record returns to the pending set as the earlier of the two,
a message stays at the head of its queue. -/
def returnEventWrite (s : State) : State :=
  match s.events.write with
  | none => s
  | some (.message _ _) => s.withEvents { s.events with write := none }
  | some (.event r) =>
    s.withEvents { s.events with
      write := none
      set := s.events.set.set r.body.source
        (some (match s.events.set.get r.body.source with
          | none => r
          | some later => r.merge later)) }

/-! ## What a block hands on -/

/-- A completion or an event that a Link Unit or a tap hands on, in order. -/
inductive Effect where
  | complete (c : Completion)
  | event (b : EventBody)
  deriving DecidableEq, Repr

/-- One effect reaches the Ring Engine or the Event Unit. -/
def give (s : State) : Effect → State
  | .complete c => hand c s
  | .event b => raise b s

/-- Effects in the order handed. -/
def emit (es : List Effect) (s : State) : State := es.foldl give s

/-- One Link Unit takes an event and hands on what follows. -/
def State.onLink (s : State) (n : LinkId) (f : Link → Link × List Effect) : State :=
  let r := f (s.links.get n)
  emit r.2 (s.setLink n r.1)

/-- A Link Unit takes a second event after a first. -/
def followedBy (p : Link × List Effect) (f : Link → Link × List Effect) : Link × List Effect :=
  let q := f p.1
  (q.1, p.2 ++ q.2)

/-! ## The halt -/

/-- The Ring Engine's side of the halt (R135, R147, R167). -/
def RingEngine.halted (e : RingEngine) (cause : HaltCause) : RingEngine :=
  { e with
    mode := .halted
    cause := cause
    reserved := if e.fetch.isSome then e.reserved - 1 else e.reserved
    fetch := none
    postQueue := []
    compWrite := none }

/-- The transfers of one tap are abandoned (R65). -/
def Tap.abandon (t : Tap) : Tap := { t with writing := false, reading := false }

/-- The engine halts (R166, R167). A cause taken while it is HALTED is ignored. -/
def halt (cause : HaltCause) (s : State) : State :=
  if s.engine.mode = .halted then s
  else
    let s := returnEventWrite s
    { s with
      engine := s.engine.halted cause
      core := { s.core with slot := none }
      taps := s.taps.map Tap.abandon }

end Sys2Proof.Machine
end

