-- ==== Sys2Proof/Machine/Operands.lean ====
section
/-! DEFINITION. The fields of a command record: byte order, bit positions, and the field checks made at
fetch (10.2, R27, R139, R172 to R174). A parser answers none where a check fails, which is BAD_FIELD. -/

namespace Sys2Proof.Machine

/-! ## Bytes -/

/-- Two bytes, least significant first (R172). -/
def le16 (b0 b1 : Byte) : Half := b1 ++ b0

/-- Four bytes, least significant first (R172). -/
def le32 (b0 b1 b2 b3 : Byte) : Word := (b3 ++ b2 ++ b1 ++ b0 : BitVec 32)

/-- The byte at place `k` of a list; 0 past its end. -/
def byteAt (l : List Byte) (k : Nat) : Byte := l.getD k 0

/-- Byte `k` of the record, k from 1 to 63 (10.2). -/
def recByte (r : CommandRecord) (k : Nat) : Byte := byteAt r.tail.items (k - 1)

/-- The 16-bit field at byte `k`. -/
def recHalf (r : CommandRecord) (k : Nat) : Half := le16 (recByte r k) (recByte r (k + 1))

/-- The 32-bit field at byte `k`. -/
def recWord (r : CommandRecord) (k : Nat) : Word :=
  le32 (recByte r k) (recByte r (k + 1)) (recByte r (k + 2)) (recByte r (k + 3))

/-- Bytes `lo` to `hi - 1` are all zero: a must-be-zero stretch (R173). -/
def recZero (r : CommandRecord) (lo hi : Nat) : Bool :=
  (List.range' lo (hi - lo)).all fun k => recByte r k == 0

/-- A byte that names one of `n` things, checked against its range. -/
def named (n : Nat) (b : Byte) : Option (Fin n) :=
  if h : b.toNat < n then some ⟨b.toNat, h⟩ else none

/-! ## The header -/

/-- The tag, bytes 4 to 7. -/
def recTag (r : CommandRecord) : Word := recWord r 4

/-- CHAIN, bit 0 of the flags. -/
def recChain (r : CommandRecord) : Bool := (recByte r 1).getLsbD 0

/-- SCHEDULED, bit 1 of the flags. -/
def recScheduled (r : CommandRecord) : Bool := (recByte r 1).getLsbD 1

/-- The label, bytes 2 and 3. -/
def recLabel (r : CommandRecord) : Half := recHalf r 2

/-- The due frame, bytes 8 to 11. -/
def recDue (r : CommandRecord) : Word := recWord r 8

/-- The header of an edit: flag bits 2 to 7 and bytes 12 to 15 are must-be-zero (10.2). -/
def editHeader (r : CommandRecord) : Bool :=
  decide ((recByte r 1).toNat < 4) && recZero r 12 16

/-- The header of a command that is not an edit: everything but the tag is must-be-zero (R139). -/
def plainHeader (r : CommandRecord) : Bool := recZero r 1 4 && recZero r 8 16

/-! ## Edits -/

/-- The gate bytes of a source entry at byte `k` (10.2): the outer option is the check, the inner one
says whether the gate is present. -/
def parseGate (r : CommandRecord) (k : Nat) : Option (Option Gate) :=
  let g := recByte r (k + 4)
  let key := recByte r (k + 5)
  if g.getLsbD 7 then
    let sense : Option Sense :=
      if g.toNat = 0x81 then some .pressed
      else if g.toNat = 0x82 then some .released
      else none
    match sense with
    | none => none
    | some sense =>
      if key.getLsbD 3 then none
      else some (some
        { link := Fin.ofNat 8 (key.toNat % 8), key := Fin.ofNat 16 (key.toNat / 16), sense := sense })
  else if g == 0 && key == 0 then some none
  else none

/-- Source kind, source and channel of a source entry at byte `k` (10.2). -/
def parseSource (r : CommandRecord) (k : Nat) : Option Source :=
  if recByte r k = 0 then
    match named 8 (recByte r (k + 1)), named 12 (recByte r (k + 2)) with
    | some n, some c => some (.inbound n c)
    | _, _ => none
  else if recByte r k = 1 then
    match named 16 (recByte r (k + 1)) with
    | some t => if recByte r (k + 2) = 0 then some (.playout t) else none
    | none => none
  else none

/-- A used source entry at byte `k` (R24, 10.2). -/
def parseEntry (r : CommandRecord) (k : Nat) : Option SourceEntry :=
  match parseSource r k, named 8 (recByte r (k + 3)), parseGate r k with
  | some source, some step, some gate =>
    if recZero r (k + 6) (k + 8) then some ⟨source, step, gate⟩ else none
  | _, _, _ => none

/-- `count` source entries from byte `k` on. -/
def parseEntries (r : CommandRecord) : Nat → Nat → Option (List SourceEntry)
  | 0, _ => some []
  | count + 1, k =>
    match parseEntry r k, parseEntries r count (k + 8) with
    | some e, some rest => some (e :: rest)
    | _, _ => none

/-- SET ROUTE (R24). Entries from the entry count on, and bytes 52 to 63, are must-be-zero. -/
def parseSetRoute (r : CommandRecord) : Option EditOp :=
  let flags := recByte r 18
  let count := (recByte r 19).toNat
  if editHeader r && decide (flags.toNat < 4) && decide (1 ≤ count) && decide (count ≤ 4)
      && recZero r (20 + 8 * count) 64 then
    match named 8 (recByte r 16), named 12 (recByte r 17), parseEntries r count 20 with
    | some n, some c, some entries =>
      some (.setRoute n c (flags.getLsbD 0) ⟨flags.getLsbD 1, entries⟩)
    | _, _, _ => none
  else none

/-- CLEAR ROUTE (R25). -/
def parseClearRoute (r : CommandRecord) : Option EditOp :=
  if editHeader r && recZero r 18 64 then
    match named 8 (recByte r 16), named 12 (recByte r 17) with
    | some n, some c => some (.clearRoute n c)
    | _, _ => none
  else none

/-- MUTE ROUTE (R25). -/
def parseMuteRoute (r : CommandRecord) : Option EditOp :=
  if editHeader r && decide ((recByte r 18).toNat < 2) && recZero r 19 64 then
    match named 8 (recByte r 16), named 12 (recByte r 17) with
    | some n, some c => some (.muteRoute n c (recByte r 18 == 1))
    | _, _ => none
  else none

/-- Kind and point of OPEN TAP (R26). -/
def parseTapUse (r : CommandRecord) : Option TapUse :=
  if recByte r 17 = 3 then
    if recZero r 18 20 then some .playout else none
  else
    match named 8 (recByte r 18), named 12 (recByte r 19) with
    | some n, some c =>
      if recByte r 17 = 1 then some (.captureInbound n c)
      else if recByte r 17 = 2 then some (.captureOutput n c)
      else none
    | _, _ => none

/-- OPEN TAP (R26). -/
def parseOpenTap (r : CommandRecord) : Option EditOp :=
  if editHeader r && recZero r 20 64 then
    match named 16 (recByte r 16), parseTapUse r with
    | some t, some use => some (.openTap t use)
    | _, _ => none
  else none

/-- CLOSE TAP (R26). -/
def parseCloseTap (r : CommandRecord) : Option EditOp :=
  if editHeader r && recZero r 17 64 then
    match named 16 (recByte r 16) with
    | some t => some (.closeTap t)
    | none => none
  else none

/-! ## The other commands -/

/-- CANCEL GROUP (R42): every label is valid. -/
def parseCancel (r : CommandRecord) : Option Half :=
  if plainHeader r && recZero r 18 64 then some (recHalf r 16) else none

/-- The fields of READ ROUTE. -/
structure ReadFields where
  link : LinkId
  channel : Channel
  address : Word
  deriving DecidableEq, Repr

/-- READ ROUTE (R139, R175): the address is a multiple of 8 and no greater than 2^32 - 40. -/
def parseReadRoute (r : CommandRecord) : Option ReadFields :=
  let address := recWord r 20
  if plainHeader r && recZero r 18 20 && recZero r 24 64 && decide (address.toNat % 8 = 0)
      && decide (address.toNat + Config.routeRecordLength ≤ 2 ^ 32) then
    match named 8 (recByte r 16), named 12 (recByte r 17) with
    | some n, some c => some ⟨n, c, address⟩
    | _, _ => none
  else none

/-- FENCE: the body is must-be-zero. -/
def parseFence (r : CommandRecord) : Option Unit :=
  if plainHeader r && recZero r 16 64 then some () else none

/-- The mode of START LINK (R103). -/
inductive StartMode where
  | call
  | answer
  deriving DecidableEq, Repr

/-- The fields of START LINK. -/
structure StartFields where
  link : LinkId
  mode : StartMode
  report : Bool
  timer : Nat
  deriving DecidableEq, Repr

/-- START LINK (R103, R139). Bits 1 to 7 of byte 18 are must-be-zero (DEDUCED from R139, log entry 13). -/
def parseStart (r : CommandRecord) : Option StartFields :=
  let mode : Option StartMode :=
    if recByte r 17 = 1 then some .call
    else if recByte r 17 = 2 then some .answer
    else none
  let timer := (recHalf r 20).toNat
  if plainHeader r && decide ((recByte r 18).toNat < 2) && recZero r 19 20 && recZero r 22 64
      && decide (timer ≤ Config.callMax) then
    match named 8 (recByte r 16), mode with
    | some n, some mode => some ⟨n, mode, recByte r 18 == 1, timer⟩
    | _, _ => none
  else none

/-- The fields of LOOP LINK. -/
structure LoopFields where
  link : LinkId
  report : Bool
  deriving DecidableEq, Repr

/-- LOOP LINK (R104). -/
def parseLoop (r : CommandRecord) : Option LoopFields :=
  if plainHeader r && recZero r 17 18 && decide ((recByte r 18).toNat < 2) && recZero r 19 64 then
    match named 8 (recByte r 16) with
    | some n => some ⟨n, recByte r 18 == 1⟩
    | none => none
  else none

/-- STOP LINK and QUERY LINK (R105, R106). -/
def parseLinkOnly (r : CommandRecord) : Option LinkId :=
  if plainHeader r && recZero r 17 64 then named 8 (recByte r 16) else none

/-- The fields of SET LAMPS. -/
structure LampFields where
  link : LinkId
  mask : Half
  value : Half
  deriving DecidableEq, Repr

/-- SET LAMPS (R112). -/
def parseLamps (r : CommandRecord) : Option LampFields :=
  if plainHeader r && recZero r 17 20 && recZero r 24 64 then
    match named 8 (recByte r 16) with
    | some n => some ⟨n, recHalf r 20, recHalf r 22⟩
    | none => none
  else none

/-- The fields of SEND MESSAGE. -/
structure MessageFields where
  link : LinkId
  bytes : List Byte
  deriving DecidableEq, Repr

/-- SEND MESSAGE (R116). The message bytes beyond the length are ignored. -/
def parseMessage (r : CommandRecord) : Option MessageFields :=
  let length := (recByte r 17).toNat
  if plainHeader r && recZero r 18 20 && decide (1 ≤ length)
      && decide (length ≤ Config.messageMax) then
    match named 8 (recByte r 16) with
    | some n => some ⟨n, (List.range length).map fun i => recByte r (20 + i)⟩
    | none => none
  else none

/-- The fields of CREDIT TAP. -/
structure CreditFields where
  tap : TapId
  address : Word
  length : Nat
  deriving DecidableEq, Repr

/-- CREDIT TAP (R54): address and length are the Tap Unit's to judge. -/
def parseCredit (r : CommandRecord) : Option CreditFields :=
  if plainHeader r && recZero r 17 20 && recZero r 26 64 then
    match named 16 (recByte r 16) with
    | some t => some ⟨t, recWord r 20, (recHalf r 24).toNat⟩
    | none => none
  else none

end Sys2Proof.Machine
end

