-- ==== Sys2Proof/Machine/Formats.lean ====
section
/-! DEFINITION. The numeric codes and the byte layouts of what the hub writes (chapter 10): completion,
event and route records, line frames, housekeeping blocks, samples. -/

namespace Sys2Proof.Machine

/-! ## Byte order -/

/-- Bytes of a 16-bit field in host memory, least significant first (R172). -/
def bytes16 (h : Half) : List Byte := [h.extractLsb' 0 8, h.extractLsb' 8 8]

/-- Bytes of a 32-bit field in host memory, least significant first (R172). -/
def bytes32 (w : Word) : List Byte :=
  [w.extractLsb' 0 8, w.extractLsb' 8 8, w.extractLsb' 16 8, w.extractLsb' 24 8]

/-- Bytes of a 16-bit field on the line, high byte first (R172). -/
def lineBytes16 (h : Half) : List Byte := [h.extractLsb' 8 8, h.extractLsb' 0 8]

/-- Zero bytes. -/
def zeroBytes (n : Nat) : List Byte := List.replicate n 0

/-- A list of bytes filled up with zeros to `n`. -/
def padTo (n : Nat) (l : List Byte) : List Byte := l ++ zeroBytes (n - l.length)

/-! ## Codes (10.6) -/

def EngineState.code : EngineState → Nat
  | .stopped => 0
  | .running => 1
  | .stopping => 2
  | .halted => 3

def HaltCause.code : HaltCause → Nat
  | .none => 0
  | .fetchError => 1
  | .postError => 2
  | .tapError => 3
  | .resultError => 4
  | .badTail => 5
  | .badHead => 6

def Status.code : Status → Nat
  | .done => 0
  | .badKind => 1
  | .wrongRing => 2
  | .badField => 3
  | .groupTooLong => 4
  | .groupAborted => 5
  | .brokenChain => 6
  | .tooFar => 7
  | .conflict => 8
  | .noRoute => 9
  | .poolFull => 10
  | .badSource => 11
  | .tapBusy => 12
  | .notOpen => 13
  | .inUse => 14
  | .cancelled => 15
  | .notFound => 16
  | .aborted => 17
  | .busy => 18
  | .queueFull => 19
  | .badBuffer => 20
  | .closed => 21
  | .noAnswer => 22
  | .noEngage => 23
  | .refused => 24
  | .loopFail => 25
  | .noAck => 26
  | .notReady => 27
  | .linkDown => 28

def SessionState.code : SessionState → Nat
  | .off => 0
  | .listen => 1
  | .calling => 2
  | .training => 3
  | .active => 4
  | .degraded => 5
  | .closing => 6
  | .fault => 7
  | .loop => 8

/-- The state code, with LOOP with loop lock given its own (10.6). -/
def SessionView.code (v : SessionView) : Nat :=
  if v.state = .loop ∧ v.loopLock then 9 else v.state.code

def FaultReason.code : FaultReason → Nat
  | .none => 0
  | .noAnswer => 1
  | .noEngage => 2
  | .refused => 3
  | .lost => 4
  | .protocol => 5
  | .station => 6
  | .loopFail => 7

def ChangeReason.code : ChangeReason → Nat
  | .hostStart => 1
  | .hostLoop => 2
  | .hostStop => 3
  | .activity => 4
  | .answered => 5
  | .engaged => 6
  | .serviceLost => 7
  | .recovered => 8
  | .stationRelease => 9
  | .confirmed => 10
  | .closeTimeout => 11
  | .loopLock => 12
  | .fault why => 16 + why.code

def MessageErrorKind.code : MessageErrorKind → Nat
  | .badLength => 1
  | .tooLong => 2

def LinkWord.code : LinkWord → Byte
  | .wake => 0x11
  | .hello => 0x22
  | .engage => 0x33
  | .run => 0x44
  | .release => 0x55
  | .done => 0x66
  | .fault => 0x77

/-- The link word of housekeeping bytes 0 and 1 (R84): none where they carry no word. -/
def linkWordOf (b0 b1 : Byte) : Option LinkWord :=
  if b1 = ~~~b0 then
    [LinkWord.wake, .hello, .engage, .run, .release, .done, .fault].find? fun w => w.code == b0
  else none

def codeByte (n : Nat) : Byte := BitVec.ofNat 8 n

def boolBit (b : Bool) (place : Nat) : Nat := if b then 2 ^ place else 0

/-! ## Records in host memory -/

/-- The completion record (10.3, R143), with the frame in which its write started. -/
def completionBytes (c : Completion) (frame : Word) : List Byte :=
  bytes32 c.id.tag ++ bytes16 (BitVec.ofNat 16 c.id.slot) ++
    [codeByte c.status.code,
     codeByte ((match c.id.ring with | .a => 0 | .b => 1) + boolBit c.late 1)] ++
    bytes32 frame ++ bytes32 c.result

/-- The event header: kind, link or tap, count, frame (10.4). -/
def eventHeader (kind who count : Nat) (frame : Word) : List Byte :=
  [codeByte kind, codeByte who] ++ bytes16 (BitVec.ofNat 16 count) ++ bytes32 frame

/-- The event record of an event other than MESSAGE (10.4). -/
def eventRecordBytes (r : EventRecord) : List Byte :=
  padTo 64 (match r.body with
    | .linkState n old new reason =>
      eventHeader 1 n.val r.count r.frame ++
        [codeByte old.code, codeByte new.code, codeByte reason.code]
    | .keys n field mask => eventHeader 2 n.val r.count r.frame ++ bytes16 field ++ bytes16 mask
    | .messageError n kind => eventHeader 4 n.val r.count r.frame ++ [codeByte kind.code]
    | .tapStarved t => eventHeader 5 t.val r.count r.frame)

/-- The MESSAGE event record (10.4): length in byte 8, message byte i at 20 + i. -/
def messageRecordBytes (n : LinkId) (m : InMessage) : List Byte :=
  padTo 64 (padTo 20 (eventHeader 3 n.val 1 m.frame ++ [codeByte m.bytes.length]) ++ m.bytes)

/-- The record of the event write in flight. -/
def EventWrite.bytes : EventWrite → List Byte
  | .event r => eventRecordBytes r
  | .message n m => messageRecordBytes n m

/-- A source entry in 8 bytes (10.2). -/
def entryBytes (e : SourceEntry) : List Byte :=
  (match e.source with
    | .inbound n c => [0, codeByte n.val, codeByte c.val]
    | .playout t => [1, codeByte t.val, 0]) ++
  [codeByte e.step.val] ++
  (match e.gate with
    | none => [0, 0]
    | some g =>
      [match g.sense with | .pressed => 0x81 | .released => 0x82,
       codeByte (g.link.val + 16 * g.key.val)]) ++
  [0, 0]

/-- The route record (10.4): 40 bytes. -/
def routeRecordBytes (n : LinkId) (c : Channel) (r : Route) : List Byte :=
  padTo Config.routeRecordLength
    ([codeByte n.val, codeByte c.val, codeByte (boolBit r.muted 0), codeByte r.entries.length,
      0, 0, 0, 0] ++ r.entries.flatMap entryBytes)

/-- A run of samples in host memory, each low byte first (R172, R175). -/
def runBytes (samples : List Sample) : List Byte := samples.flatMap bytes16

/-- The samples of a run read from host memory (R172, R175). -/
def runSamples (bytes : Table 16 Byte) : List Sample :=
  (List.range 8).map fun k => le16 (byteAt bytes.items (2 * k)) (byteAt bytes.items (2 * k + 1))

/-! ## The line frame -/

/-- One step of the check register for one data bit (R69). -/
def crcBit (reg : Byte) (bit : Bool) : Byte :=
  let shifted := reg <<< 1
  if reg.getLsbD 7 != bit then shifted ^^^ Config.crcPoly else shifted

/-- The check register after one byte, most significant bit first (R69). -/
def crcByte (reg b : Byte) : Byte :=
  [7, 6, 5, 4, 3, 2, 1, 0].foldl (fun q i => crcBit q (b.getLsbD i)) reg

/-- The check byte of a stretch of bytes (R69). -/
def crc8 (l : List Byte) : Byte := l.foldl crcByte Config.crcInit

def frameMarker (f : LineFrame) : Byte := byteAt f.bytes.items 0

/-- The sample of a channel, high byte first (R68). -/
def frameSample (f : LineFrame) (c : Channel) : Sample :=
  byteAt f.bytes.items (1 + 2 * c.val) ++ byteAt f.bytes.items (2 + 2 * c.val)

def frameHouse (f : LineFrame) : Byte := byteAt f.bytes.items 25

def frameCheck (f : LineFrame) : Byte := byteAt f.bytes.items 26

/-- The 25 bytes the check covers (R69). -/
def frameCovered (f : LineFrame) : List Byte := (f.bytes.items.drop 1).take 25

/-- The marker byte is marker B. -/
def frameIsB (f : LineFrame) : Bool := frameMarker f == Config.markerB

/-- A good frame: one of the two markers, and the check passes (R78, R79). -/
def frameGood (f : LineFrame) : Bool :=
  (frameMarker f == Config.markerA || frameIsB f) && crc8 (frameCovered f) == frameCheck f

/-- The twelve bearer samples. -/
def frameBearer (f : LineFrame) : Table 12 Sample := Table.ofFn (frameSample f)

/-- A frame as the framer sends it (R68, R69). -/
def makeFrame (marker : Byte) (bearer : Table 12 Sample) (house : Byte) : LineFrame :=
  let covered := bearer.items.flatMap lineBytes16 ++ [house]
  ⟨Table.ofList 27 0 ([marker] ++ covered ++ [crc8 covered])⟩

/-- The marker of a downstream frame by its phase (R70). -/
def phaseMarker (phase : Nat) : Byte := if phase = 0 then Config.markerB else Config.markerA

/-! ## The message header byte (10.7) -/

def headerSeq (h : Byte) : Bool := h.getLsbD 7
def headerAck (h : Byte) : Bool := h.getLsbD 6
def headerEnd (h : Byte) : Bool := h.getLsbD 5
def headerRdy (h : Byte) : Bool := h.getLsbD 4
def headerLen (h : Byte) : Nat := h.toNat % 16

/-- The header byte of its fields. -/
def makeHeader (seq ack last rdy : Bool) (len : Nat) : Byte :=
  codeByte (boolBit seq 7 + boolBit ack 6 + boolBit last 5 + boolBit rdy 4 + len)

/-- A housekeeping block of its fields (R72, 10.7). -/
def makeBlock (word : LinkWord) (lamps : Half) (header : Byte) (segment : List Byte) :
    Table 16 Byte :=
  Table.ofList 16 0
    ([word.code, ~~~word.code] ++ lineBytes16 lamps ++ [header] ++ padTo 11 segment)

end Sys2Proof.Machine
end

