-- ==== Sys2Proof/Machine/Flags.lean ====
section
/-! DEFINITION. What the register window reports and what the interrupt line shows (chapter 9, 10.5).
A read changes nothing (R159), so reads are functions of the state. -/

namespace Sys2Proof.Machine

/-- A link owes no completion: no pending operation and no queued SEND MESSAGE that owes one (R164). -/
def Link.owesNothing (l : Link) : Bool := l.op.isNone && l.outQueue.all fun m => m.owed.isNone

/-- QUIET (R164). -/
def quiet (s : State) : Bool :=
  s.sched.list.isEmpty && s.sched.assembly.isNone && s.engine.parked.isNone
    && s.engine.reserved == 0
    && s.taps.items.all (fun t => t.buffers.isEmpty)
    && s.links.items.all Link.owesNothing

/-- Completions waiting (R170). -/
def completionsWaiting (s : State) : Bool := s.engine.postComp != s.engine.consComp

/-- Events waiting (R170). -/
def eventsWaiting (s : State) : Bool := s.events.post != s.engine.consEvent

/-- The engine is HALTED (R170). -/
def haltedCondition (s : State) : Bool := s.engine.mode == .halted

/-- The interrupt line is asserted (R170). The line itself is active low. -/
def State.interrupt (s : State) : Bool :=
  (s.engine.cie && completionsWaiting s) || (s.engine.eie && eventsWaiting s)
    || (s.engine.hie && haltedCondition s)

/-- The CONTROL register as it reads (R159): the reset bits read as 0. -/
def controlRegister (s : State) : Word :=
  BitVec.ofNat 32
    (boolBit s.engine.enable 0 + boolBit s.engine.cie 1 + boolBit s.engine.eie 2
      + boolBit s.engine.hie 3)

/-- The STATUS register (10.5). -/
def statusRegister (s : State) : Word :=
  BitVec.ofNat 32
    (s.engine.mode.code + 16 * s.engine.cause.code + boolBit (quiet s) 8
      + boolBit s.engine.startRefused 9 + boolBit s.engine.cfgIgnored 10
      + boolBit (completionsWaiting s) 12 + boolBit (eventsWaiting s) 13
      + boolBit (haltedCondition s) 14)

/-- A slot number as a register reads it. -/
def slotRegister (i : Nat) : Word := BitVec.ofNat 32 i

/-- A read of the register window at an offset (R159, 10.5): an address that names none of the sixteen
registers reads 0. While RESET_N is held low, when the hub takes no register access (R169), what a read gives is not
said: it is answered as at any other time, which is the model's choice (log entry 22). -/
def readRegister (s : State) (offset : Word) : Word :=
  match offset.toNat with
  | 0x00 => Config.ident
  | 0x04 => controlRegister s
  | 0x08 => statusRegister s
  | 0x0C => s.frame
  | 0x10 => s.engine.baseA
  | 0x14 => s.engine.baseB
  | 0x18 => s.engine.baseComp
  | 0x1C => s.engine.baseEvent
  | 0x20 => slotRegister s.engine.prodA
  | 0x24 => slotRegister s.engine.prodB
  | 0x28 => slotRegister s.engine.consComp
  | 0x2C => slotRegister s.engine.consEvent
  | 0x30 => slotRegister s.engine.fetchA
  | 0x34 => slotRegister s.engine.fetchB
  | 0x38 => slotRegister s.engine.postComp
  | 0x3C => slotRegister s.events.post
  | _ => 0

end Sys2Proof.Machine
end

