-- ==== Sys2Proof/Machine/Messages.lean ====
section
/-! DEFINITION. The key table, the lamp table and the message channel of one Link Unit (chapter 6), as
functions of the link that also give what the link hands on. -/

namespace Sys2Proof.Machine

/-- What a Link Unit is after an event, and what it hands on in order. -/
abbrev LinkStep := Link × List Effect

/-! ## Key table and lamp table -/

/-- The key table takes a new field (R109, R111): a change hands a KEYS event while report keys is yes. -/
def setKeyTable (n : LinkId) (field : Half) (l : Link) : LinkStep :=
  if field = l.keyTable then (l, [])
  else
    ({ l with keyTable := field },
      if l.reportKeys then [.event (.keys n field (l.keyTable ^^^ field))] else [])

/-- The key table follows the taken key field in these states (R109). -/
def followsKeys (state : SessionState) : Bool := state == .active || state == .loop

/-- The lamp table after a SET LAMPS (R112). -/
def lampsAfter (lamps mask value : Half) : Half := (lamps &&& ~~~mask) ||| (value &&& mask)

/-! ## Outbound messages -/

/-- The number of segments of a message of `n` bytes (R116). -/
def segmentCount (n : Nat) : Nat := (n + 10) / 11

/-- Segment `i` of a message (R116). -/
def segmentOf (bytes : List Byte) (i : Nat) : List Byte :=
  (bytes.drop (Config.segmentMax * i)).take Config.segmentMax

/-- The completion of a queued message, where one is still owed (R128). -/
def settleMessage (m : OutMessage) (status : Status) (result : Nat) : List Effect :=
  match m.owed with
  | none => []
  | some id => [.complete (.plain id status (BitVec.ofNat 32 result))]

/-- The channel moves on to the next message (R118, R119): the send SEQ becomes its other value, the
counts and the segment index 0. -/
def MessageChannel.nextMessage (c : MessageChannel) : MessageChannel :=
  { c with sendSeq := !c.sendSeq, segIndex := 0, retry := 0, notReady := 0 }

/-- The oldest message leaves the queue with a status (R118, R119). -/
def dropOldest (status : Status) (result : Nat) (l : Link) : LinkStep :=
  match l.outQueue with
  | [] => (l, [])
  | m :: rest =>
    ({ l with outQueue := rest, chan := l.chan.nextMessage }, settleMessage m status result)

/-- The oldest message fails (R119): its result is the number of bytes acknowledged. -/
def failOldest (status : Status) (l : Link) : LinkStep :=
  dropOldest status (Config.segmentMax * l.chan.segIndex) l

/-- The first step of settling fails the oldest message (R117). -/
def retryDue (l : Link) : Bool := !l.outQueue.isEmpty && decide (Config.retryLimit ≤ l.chan.retry)

/-- The second step of settling fails the oldest message (R117). -/
def notReadyDue (l : Link) : Bool :=
  !l.outQueue.isEmpty && !l.chan.peerRdy && decide (Config.notReadyLimit ≤ l.chan.notReady + 1)

/-- First step of settling (R117). -/
def settleRetry (l : Link) : LinkStep := if retryDue l then failOldest .noAck l else (l, [])

/-- Second step of settling, its failure (R117). -/
def settleNotReady (l : Link) : LinkStep :=
  if notReadyDue l then failOldest .notReady l else (l, [])

/-- Second and third steps for the message that is then the oldest (R117): it waits, or its current
segment is carried. -/
def settleCount (l : Link) : Link :=
  if l.outQueue.isEmpty then l
  else if l.chan.peerRdy then
    { l with chan := { l.chan with notReady := 0, retry := l.chan.retry + 1 } }
  else { l with chan := { l.chan with notReady := l.chan.notReady + 1 } }

/-- The oldest message is settled at a superframe start in ACTIVE or LOOP (R117). -/
def settleOldest (l : Link) : LinkStep :=
  let p := followedBy (settleRetry l) settleNotReady
  (settleCount p.1, p.2)

/-- The segment that the block now formed carries (R115, R117): none unless the peer is ready. -/
def carriedSegment (l : Link) : List Byte :=
  match l.outQueue with
  | [] => []
  | m :: _ => if l.chan.peerRdy then segmentOf m.bytes l.chan.segIndex else []

/-- The current segment is the last of its message. -/
def atLastSegment (l : Link) : Bool :=
  match l.outQueue with
  | [] => false
  | m :: _ => l.chan.segIndex + 1 == segmentCount m.bytes.length

/-- The header of a block in ACTIVE, DEGRADED or LOOP (R115). -/
def channelHeader (l : Link) (segment : List Byte) : Byte :=
  makeHeader l.chan.sendSeq (l.chan.lastSeq.getD true) (!segment.isEmpty && atLastSegment l)
    (decide (l.inQueue.length < Config.inLimit)) segment.length

/-- The ACK of a block read (R118). -/
def readAck (ack : Bool) (l : Link) : LinkStep :=
  match l.outQueue with
  | [] => (l, [])
  | m :: _ =>
    if 0 < l.chan.retry ∧ ack = l.chan.sendSeq then
      if atLastSegment l then dropOldest .done m.bytes.length l
      else
        ({ l with chan := { l.chan with
            segIndex := l.chan.segIndex + 1
            sendSeq := !l.chan.sendSeq
            retry := 0
            notReady := 0 } }, [])
    else (l, [])

/-! ## Inbound messages -/

/-- A segment is accepted (R122). -/
def segmentAccepted (l : Link) (seq last : Bool) : Bool :=
  l.chan.lastSeq != some seq && l.chan.sentRdy
    && !(last && !l.chan.discarding && decide (Config.inLimit ≤ l.inQueue.length))

/-- An accepted segment goes to the assembly (R123). -/
def takeSegment (n : LinkId) (frame : Word) (seq last : Bool) (segment : List Byte) (l : Link) :
    LinkStep :=
  let c := { l.chan with lastSeq := some seq }
  if c.discarding then
    ({ l with chan := { c with discarding := !last } }, [])
  else if Config.messageMax < c.assembly.length + segment.length then
    ({ l with chan := { c with assembly := [], discarding := !last } },
      [.event (.messageError n .tooLong)])
  else if last then
    ({ l with
        chan := { c with assembly := [] }
        inQueue := l.inQueue ++ [⟨c.assembly ++ segment, frame⟩] }, [])
  else ({ l with chan := { c with assembly := c.assembly ++ segment } }, [])

/-- The inbound side of a block read (R121, R122). `segment` is the block's eleven segment bytes. -/
def readInbound (n : LinkId) (frame : Word) (header : Byte) (segment : List Byte) (l : Link) :
    LinkStep :=
  let len := headerLen header
  if len = 0 then (l, [])
  else if Config.segmentMax < len then (l, [.event (.messageError n .badLength)])
  else if segmentAccepted l (headerSeq header) (headerEnd header) then
    takeSegment n frame (headerSeq header) (headerEnd header) (segment.take len) l
  else (l, [])

/-- The message channel reads a block's header and segment (R120): ACK, RDY, then the segment. -/
def readHeader (n : LinkId) (frame : Word) (header : Byte) (segment : List Byte) (l : Link) :
    LinkStep :=
  let p := readAck (headerAck header) l
  let ready := { p.1 with chan := { p.1.chan with peerRdy := headerRdy header } }
  followedBy (ready, p.2) (readInbound n frame header segment)

/-! ## Across session changes -/

/-- The channel restarts (R114). The sent RDY and the queues are not touched. -/
def MessageChannel.restart (c : MessageChannel) : MessageChannel :=
  { MessageChannel.reset with sentRdy := c.sentRdy }

/-- The channel pauses on entry into DEGRADED (R125). -/
def MessageChannel.pause (c : MessageChannel) : MessageChannel :=
  { c with
    peerRdy := false
    assembly := []
    discarding := c.discarding || !c.assembly.isEmpty }

/-- The completions of the outbound queue at the end of a session (R126), in queue order. -/
def abandonQueue (segIndex : Nat) : List OutMessage → List Effect
  | [] => []
  | m :: rest =>
    settleMessage m .linkDown (Config.segmentMax * segIndex) ++
      rest.flatMap fun later => settleMessage later .linkDown 0

/-- The message channel takes a change of session state (R114, R125, R126). -/
def channelChange (old new : SessionState) (l : Link) : LinkStep :=
  match new with
  | .active => if old = .training then ({ l with chan := l.chan.restart }, []) else (l, [])
  | .loop => if old = .loop then (l, []) else ({ l with chan := l.chan.restart }, [])
  | .degraded => ({ l with chan := l.chan.pause }, [])
  | .closing | .fault | .off =>
    ({ l with
        outQueue := []
        chan := { l.chan with assembly := [], discarding := false } },
      abandonQueue l.chan.segIndex l.outQueue)
  | .listen | .calling | .training => (l, [])

end Sys2Proof.Machine
end

