-- ==== Sys2Proof/Machine/Sessions.lean ====
section
/-! DEFINITION. The session controller of one Link Unit (chapter 5): a change of state and what it hands
on, the persistence filters, service, the supervision timer, and the link commands. -/

namespace Sys2Proof.Machine

/-! ## A change of state -/

/-- States in which the framer is SENDING (R71). -/
def sendsIn (state : SessionState) : Bool :=
  match state with
  | .calling | .training | .active | .degraded | .closing | .loop => true
  | .off | .listen | .fault => false

/-- A change of session state: where to, with which loop lock and closing side, why, the pending
operation afterwards, and the completions handed at the fourth step (R102). -/
structure Change where
  target : SessionState
  lock : Bool
  side : Option ClosingSide
  reason : ChangeReason
  op : Option LinkOp
  completions : List Effect
  deriving DecidableEq, Repr

/-- The session state with its loop lock. -/
def Link.view (l : Link) : SessionView := ⟨l.state, l.loopLock⟩

/-- The upstream is in service (R82). -/
def Link.inService (l : Link) : Bool :=
  l.aligner.frameAlign == .locked && l.aligner.superAlign == .sfLocked

/-- Both filters are cleared (R90). -/
def clearFilters (l : Link) : Link :=
  { l with takenWord := none, candWord := none, takenKeys := 0, candKeys := none }

/-- The supervision timer of a state (R92). -/
def timerOf (state : SessionState) (lock : Bool) (callLength : Nat) : Option (TimerKind × Nat) :=
  match state with
  | .calling => some (.call, callLength)
  | .training => some (.train, Config.trainLength)
  | .degraded => some (.hold, Config.holdLength)
  | .closing => some (.close, Config.closeLength)
  | .loop => if lock then none else some (.loop, Config.loopLength)
  | .off | .listen | .active | .fault => none

/-- The fault reason after a change (R100): NONE in every state but FAULT. -/
def faultOf (reason : ChangeReason) : FaultReason :=
  match reason with
  | .fault why => why
  | _ => .none

/-- First step (R92, R102): the session record's fields and the timer. -/
def changeRecord (c : Change) (l : Link) : Link :=
  { l with
    state := c.target
    loopLock := c.lock
    side := c.side
    faultReason := faultOf c.reason
    timer := timerOf c.target c.lock l.callLength
    op := c.op }

/-- The change enters LOOP; setting loop lock does not (R101). -/
def entersLoop (old new : SessionState) : Bool := new == .loop && old != .loop

/-- The aligner is reset on this change (R75). -/
def resetsAligner (old new : SessionState) : Bool :=
  !sendsIn new || (new == .calling && !sendsIn old) || entersLoop old new

/-- The aligner's input in a state (R75). -/
def inputOf (state : SessionState) : AlignerInput := if state = .loop then .loopback else .line

/-- The filters are cleared on this change (R82, R90): a reset takes the upstream out of service, or the
link enters CALLING or LOOP. -/
def clearsOn (old new : SessionState) (inService : Bool) : Bool :=
  (resetsAligner old new && inService) || new == .calling || entersLoop old new

/-- Second step (R71, R75, R85, R90): framer, aligner and detector take the new state. `old` is the
state left. -/
def changeLine (old : SessionState) (l : Link) : Link :=
  let cleared := clearsOn old l.state l.inService
  { l with
    takenWord := if cleared then none else l.takenWord
    candWord := if cleared then none else l.candWord
    takenKeys := if cleared then 0 else l.takenKeys
    candKeys := if cleared then none else l.candKeys
    framer := if sendsIn l.state then .sending else .atRest
    block := if sendsIn l.state then l.block else none
    loopFrame := if l.state = .loop then l.loopFrame else none
    detector := if l.state = .listen then .armed else .off
    inbound :=
      if resetsAligner old l.state && l.aligner.frameAlign == .locked then Table.fill 12 0
      else l.inbound
    aligner :=
      { (if resetsAligner old l.state then Aligner.reset else l.aligner) with
        input := inputOf l.state } }

/-- Third step, keys (R110): the table follows the taken field in ACTIVE and LOOP, else it is released. -/
def changeKeys (n : LinkId) (l : Link) : LinkStep :=
  setKeyTable n (if followsKeys l.state then l.takenKeys else 0) l

/-- The end of the step (R87, R112): report keys ends with the session, lamps go off on entry into OFF. -/
def changeEnd (l : Link) : Link :=
  { l with
    reportKeys := if l.state = .off ∨ l.state = .fault then false else l.reportKeys
    lamps := if l.state = .off then 0 else l.lamps }

/-- A change of session state, one event, with its effects in the order of R102. -/
def changeState (n : LinkId) (c : Change) (l : Link) : LinkStep :=
  let l2 := changeLine l.state (changeRecord c l)
  let p := followedBy (changeKeys n l2) (channelChange l.state c.target)
  let l3 := changeEnd p.1
  (l3, p.2 ++ c.completions ++ [.event (.linkState n l.view l3.view c.reason)])

/-- The completion of the pending operation, where there is one. -/
def finishOp (l : Link) (status : Status) (result : Nat) : List Effect :=
  match l.op with
  | none => []
  | some o => [.complete (.plain o.id status (BitVec.ofNat 32 result))]

/-- A change into a plain state that keeps the pending operation. -/
def Change.keep (l : Link) (target : SessionState) (reason : ChangeReason) : Change :=
  ⟨target, false, none, reason, l.op, []⟩

/-- A change that ends the pending operation with a status. -/
def Change.ending (l : Link) (target : SessionState) (reason : ChangeReason) (status : Status)
    (result : Nat) : Change :=
  ⟨target, false, none, reason, none, finishOp l status result⟩

/-- Entry into FAULT (R100); `status` completes the pending operation, if any. -/
def enterFault (n : LinkId) (why : FaultReason) (status : Status) (l : Link) : LinkStep :=
  changeState n (.ending l .fault (.fault why) status 0) l

/-! ## Taken words and service -/

/-- The session controller acts on a taken word (R95 to R101). -/
def wordTaken (n : LinkId) (w : LinkWord) (l : Link) : LinkStep :=
  match l.state with
  | .calling =>
    match w with
    | .hello | .wake => changeState n (.keep l .training .answered) l
    | .engage | .run | .release | .done | .fault => (l, [])
  | .training =>
    match w with
    | .run => changeState n (.ending l .active .engaged .done 0) l
    | .release => enterFault n .refused .refused l
    | .wake | .hello | .engage | .done | .fault => (l, [])
  | .active =>
    match w with
    | .run => (l, [])
    | .release =>
      changeState n ⟨.closing, false, some .station, .stationRelease, l.op, []⟩ l
    | .fault => changeState n (.keep l .fault (.fault .station)) l
    | .wake | .hello | .engage | .done => changeState n (.keep l .fault (.fault .protocol)) l
  | .degraded =>
    match w with
    | .run => changeState n (.keep l .active .recovered) l
    | .wake | .hello | .engage | .release | .done | .fault =>
      changeState n (.keep l .fault (.fault .protocol)) l
  | .closing =>
    if l.side = some .hub ∧ w = .done then changeState n (.ending l .off .confirmed .done 1) l
    else (l, [])
  | .off | .listen | .fault | .loop => (l, [])

/-- The upstream enters service (R91): only LOOP without loop lock changes. -/
def enterService (n : LinkId) (l : Link) : LinkStep :=
  if l.state = .loop ∧ l.loopLock = false then
    changeState n ⟨.loop, true, none, .loopLock, none, finishOp l .done 0⟩ l
  else (l, [])

/-- The upstream leaves service (R90, R91). -/
def leaveService (n : LinkId) (l : Link) : LinkStep :=
  let l := clearFilters l
  if l.state = .active then changeState n (.keep l .degraded .serviceLost) l
  else if l.state = .loop ∧ l.loopLock then changeState n (.keep l .fault (.fault .loopFail)) l
  else (l, [])

/-! ## The persistence filters -/

/-- The word filter and the session controller act on an undamaged block's word (R88). -/
def filterWord (n : LinkId) (word : Option LinkWord) (l : Link) : LinkStep :=
  let l' := { l with candWord := some word }
  match word with
  | none => (l', [])
  | some w =>
    if l.candWord = some (some w) ∧ l.takenWord ≠ some w then
      wordTaken n w { l' with takenWord := some w }
    else (l', [])

/-- The key filter and the key table act on an undamaged block's key field (R89, R109). -/
def filterKeys (n : LinkId) (field : Half) (l : Link) : LinkStep :=
  let l' := { l with candKeys := some field }
  if l.candKeys = some field ∧ l.takenKeys ≠ field then
    let l'' := { l' with takenKeys := field }
    if followsKeys l.state then setKeyTable n field l'' else (l'', [])
  else (l', [])

/-- A complete upstream block (R83, R84, R89): word, keys, then header, each on the state the one
before has left. A damaged block is skipped. Where the word has taken the upstream out of service,
the filters stay cleared (R90, log entry 12). -/
def takeBlock (n : LinkId) (frame : Word) (block : UpBlock) (l : Link) : LinkStep :=
  if block.damaged then (l, [])
  else
    let word := linkWordOf (byteAt block.bytes 0) (byteAt block.bytes 1)
    let field : Half := byteAt block.bytes 2 ++ byteAt block.bytes 3
    let p := followedBy (filterWord n word l) fun l1 =>
      if l1.inService then filterKeys n field l1 else (l1, [])
    followedBy p fun l2 =>
      if followsKeys l2.state then
        readHeader n frame (byteAt block.bytes 4) ((block.bytes.drop 5).take 11) l2
      else (l2, [])

/-! ## The supervision timer -/

/-- One superframe start is counted (R92); a timer at 0 is due. -/
def countTimer (l : Link) : Link :=
  { l with timer := l.timer.map fun t => (t.1, t.2 - 1) }

/-- The timer of this kind is due. -/
def timerDue (kind : TimerKind) (l : Link) : Bool := l.timer == some (kind, 0)

/-- What an expired timer does (R92). -/
def expire (n : LinkId) (kind : TimerKind) (l : Link) : LinkStep :=
  match kind with
  | .call => enterFault n .noAnswer .noAnswer l
  | .train => enterFault n .noEngage .noEngage l
  | .hold => changeState n (.keep l .fault (.fault .lost)) l
  | .close => changeState n (.ending l .off .closeTimeout .done 0) l
  | .loop => enterFault n .loopFail .loopFail l

/-- The expiry of a timer of this kind, if it is due. -/
def expireIfDue (n : LinkId) (kind : TimerKind) (l : Link) : LinkStep :=
  if timerDue kind l then expire n kind l else (l, [])

/-- Any timer's expiry, if due. -/
def expireAnyDue (n : LinkId) (l : Link) : LinkStep :=
  match l.timer with
  | some (kind, 0) => expire n kind l
  | _ => (l, [])

/-- Line activity (R85, R94): an armed detector reports once, and LISTEN goes to CALLING. -/
def lineActivity (n : LinkId) (l : Link) : LinkStep :=
  if l.detector = .armed then changeState n (.keep l .calling .activity) l else (l, [])

/-! ## Link commands -/

/-- A completion of a link command. -/
def reply (id : CmdId) (status : Status) (result : Nat) : Effect :=
  .complete (.plain id status (BitVec.ofNat 32 result))

/-- A refusal with BUSY: the result is the current state (R103). -/
def busy (id : CmdId) (l : Link) : LinkStep := (l, [reply id .busy l.view.code])

/-- The session's call length of a call timer field (R87). -/
def callLengthOf (field : Nat) : Nat := if field = 0 then Config.defaultCall else field

/-- START LINK (R87, R103). -/
def takeStart (n : LinkId) (id : CmdId) (f : StartFields) (l : Link) : LinkStep :=
  let l' := { l with callLength := callLengthOf f.timer, reportKeys := f.report }
  match f.mode with
  | .call =>
    if l.state = .off ∨ l.state = .fault ∨ l.state = .listen then
      changeState n ⟨.calling, false, none, .hostStart, some ⟨.start, id⟩, []⟩ l'
    else busy id l
  | .answer =>
    if l.state = .off ∨ l.state = .fault then
      changeState n ⟨.listen, false, none, .hostStart, none, [reply id .done 0]⟩ l'
    else busy id l

/-- LOOP LINK (R87, R104). -/
def takeLoop (n : LinkId) (id : CmdId) (report : Bool) (l : Link) : LinkStep :=
  if l.state = .off ∨ l.state = .fault then
    changeState n ⟨.loop, false, none, .hostLoop, some ⟨.loop, id⟩, []⟩
      { l with reportKeys := report }
  else busy id l

/-- STOP LINK (R105). -/
def takeStop (n : LinkId) (id : CmdId) (l : Link) : LinkStep :=
  match l.state with
  | .off => (l, [reply id .done 0])
  | .listen | .fault =>
    changeState n ⟨.off, false, none, .hostStop, none, [reply id .done 0]⟩ l
  | .calling | .loop =>
    changeState n ⟨.off, false, none, .hostStop, none, finishOp l .aborted 0 ++ [reply id .done 0]⟩ l
  | .training | .active | .degraded =>
    changeState n
      ⟨.closing, false, some .hub, .hostStop, some ⟨.stop, id⟩, finishOp l .aborted 0⟩ l
  | .closing => busy id l

/-- The result of QUERY LINK (R106, 10.3). -/
def linkReport (l : Link) : Nat :=
  l.takenKeys.toNat + 2 ^ 16 * l.view.code + 2 ^ 20 * l.faultReason.code
    + boolBit (l.aligner.frameAlign == .locked) 24
    + boolBit (l.aligner.superAlign == .sfLocked) 25 + boolBit l.loopLock 26

/-- QUERY LINK (R106). -/
def takeQuery (id : CmdId) (l : Link) : LinkStep := (l, [reply id .done (linkReport l)])

/-- SET LAMPS (R112). -/
def takeLamps (id : CmdId) (mask value : Half) (l : Link) : LinkStep :=
  let lamps := lampsAfter l.lamps mask value
  ({ l with lamps := lamps }, [reply id .done lamps.toNat])

/-- SEND MESSAGE (R116). -/
def takeMessage (id : CmdId) (bytes : List Byte) (l : Link) : LinkStep :=
  if l.state = .active ∨ l.state = .degraded ∨ l.state = .loop then
    if l.outQueue.length < Config.outLimit then
      ({ l with outQueue := l.outQueue ++ [⟨some id, bytes⟩] }, [])
    else (l, [reply id .queueFull 0])
  else (l, [reply id .linkDown 0])

end Sys2Proof.Machine
end

