-- ==== Sys2Proof/Machine/Lines.lean ====
section
/-! DEFINITION. The line side of one Link Unit (chapter 4): the aligner's examination of upstream frames,
and what the framer forms and sends at a frame start. -/

namespace Sys2Proof.Machine

/-! ## Superframe alignment -/

/-- One frame examined in SEARCH (R80). On the third marker B: SF_LOCKED, miss count 0, phase 0. -/
def searchStep (isB : Bool) (a : Aligner) : Aligner :=
  let atPlace := 0 < a.markers && a.sinceMarker + 1 == Config.superframe
  if isB then
    if atPlace then
      if a.markers + 1 = Config.markerGoal then
        { a with
          superAlign := .sfLocked
          markers := Config.markerGoal
          sinceMarker := 0
          misses := 0
          phase := some 0 }
      else { a with markers := a.markers + 1, sinceMarker := 0 }
    else { a with markers := 1, sinceMarker := 0 }
  else if atPlace then { a with markers := 0, sinceMarker := 0 }
  else if 0 < a.markers then { a with sinceMarker := a.sinceMarker + 1 }
  else a

/-- The upstream phase of the frame now examined (R80): the phases run 0 to 15, repeating. -/
def nextPhase (a : Aligner) : Fin 16 :=
  match a.phase with
  | none => 0
  | some p => p + 1

/-- The frame of this phase is a miss (R81). -/
def isMiss (isB : Bool) (p : Fin 16) : Bool := if p = 0 then !isB else isB

/-- One frame examined in SF_LOCKED (R81): the phase moves on and the miss count follows. -/
def lockedStep (isB : Bool) (a : Aligner) : Aligner :=
  let p := nextPhase a
  { a with
    phase := some p
    misses := if isMiss isB p then a.misses + 1 else if p = 0 then 0 else a.misses }

/-- Superframe alignment reads the marker byte of a frame examined in LOCKED (R80, R81). -/
def superStep (isB : Bool) (a : Aligner) : Aligner :=
  match a.superAlign with
  | .search => searchStep isB a
  | .sfLocked => lockedStep isB a

/-- A second miss in a row: back to SEARCH (R81). -/
def dropSuper (a : Aligner) : Aligner :=
  { a with superAlign := .search, markers := 0, sinceMarker := 0, phase := none, upBlock := none }

/-- Frame alignment leaves LOCKED (R79, R81). -/
def dropLock (a : Aligner) : Aligner :=
  { dropSuper a with frameAlign := .hunt, score := 0, misses := 0 }

/-! ## Frame alignment -/

/-- The error score after a frame (R79). -/
def scoreAfter (good : Bool) (score : Nat) : Nat :=
  if good then score - 1 else score + Config.errorWeight

/-- The upstream block with the frame's housekeeping byte (R83): a frame of phase 0 begins one. -/
def collect (house : Byte) (bad : Bool) (a : Aligner) : Option UpBlock :=
  match a.phase with
  | none => none
  | some p =>
    if p = 0 then some ⟨[house], bad⟩
    else
      match a.upBlock with
      | none => none
      | some b => some ⟨b.bytes ++ [house], b.damaged || bad⟩

/-- The aligner after examining a frame in LOCKED, before any loss of lock is taken: markers, error
score, phase and block (R79 to R83). -/
def examined (f : LineFrame) (a : Aligner) : Aligner :=
  let good := frameGood f
  let a' := superStep (frameIsB f) a
  let missed := a.superAlign == .sfLocked && isMiss (frameIsB f) (nextPhase a)
  { a' with
    score := scoreAfter good a.score
    upBlock :=
      if a'.superAlign = .sfLocked then collect (frameHouse f) (!good || missed) a' else none }

/-- The link after a loss of frame lock (R79): the inbound registers are set to 0 (R12), and a
departure is handed where the upstream was in service (R82). -/
def loseLock (n : LinkId) (l : Link) : LinkStep :=
  let l' := { l with aligner := dropLock l.aligner, inbound := Table.fill 12 0 }
  if l.inService then leaveService n l' else (l', [])

/-- The link after a loss of superframe lock (R81, R82). -/
def loseSuper (n : LinkId) (l : Link) : LinkStep :=
  leaveService n { l with aligner := dropSuper l.aligner }

/-- A frame of phase 15 completes the block (R83): it is handed, and a new empty one starts. -/
def finishBlock (n : LinkId) (frame : Word) (l : Link) : LinkStep :=
  match l.aligner.phase, l.aligner.upBlock with
  | some p, some block =>
    if p = 15 then
      takeBlock n frame block { l with aligner := { l.aligner with upBlock := none } }
    else (l, [])
  | _, _ => (l, [])

/-- What follows the examination of a frame in LOCKED (R79, R81, R82, R83). -/
def afterExamined (n : LinkId) (frame : Word) (l : Link) : LinkStep :=
  if Config.errorLimit ≤ l.aligner.score then loseLock n l
  else if l.aligner.superAlign = .sfLocked ∧ Config.missLimit ≤ l.aligner.misses then loseSuper n l
  else if l.inService then finishBlock n frame l
  else (l, [])

/-- A frame examined in LOCKED (R12, R13, R79 to R83). The third marker is counted first: an entry into
service is handed before a departure of the same frame (R82). -/
def examineLocked (n : LinkId) (frame : Word) (f : LineFrame) (l : Link) : LinkStep :=
  let l1 :=
    { l with
      inbound := if frameGood f then frameBearer f else l.inbound
      aligner := examined f l.aligner }
  let p := if l.aligner.superAlign == .search && l1.inService then enterService n l1 else (l1, [])
  followedBy p (afterExamined n frame)

/-- A frame examined in CONFIRM (R78). -/
def examineConfirm (f : LineFrame) (a : Aligner) : Aligner :=
  if frameGood f then
    if a.confirm + 1 = Config.confirmFrames then
      { a with confirm := a.confirm + 1, frameAlign := .locked, score := 0 }
    else { a with confirm := a.confirm + 1 }
  else { a with frameAlign := .hunt }

/-- The aligner examines one frame at its expected place (R76, R78, R79); in HUNT there is none. -/
def examineFrame (n : LinkId) (frame : Word) (f : LineFrame) (l : Link) : LinkStep :=
  match l.aligner.frameAlign with
  | .hunt => (l, [])
  | .confirm => ({ l with aligner := examineConfirm f l.aligner }, [])
  | .locked => examineLocked n frame f l

/-- Eight bits considered in HUNT (R77). -/
def huntStep (bits : Byte) (a : Aligner) : Aligner :=
  if a.frameAlign = .hunt ∧ (bits = Config.markerA ∨ bits = Config.markerB) then
    { a with frameAlign := .confirm, confirm := 0 }
  else a

/-- The aligner runs (R75). -/
def alignerRuns (l : Link) : Bool := sendsIn l.state

/-- CANDIDATE_MARKER at a link (R77). On LOOPBACK the bits are those of the looped frame, which is then
used up as the candidate frame (R74, log entry 7). -/
def lineCandidate (bits : Byte) (l : Link) : LinkStep :=
  if !alignerRuns l then (l, [])
  else
    match l.aligner.input with
    | .line => ({ l with aligner := huntStep bits l.aligner }, [])
    | .loopback =>
      match l.loopFrame with
      | some f =>
        if l.aligner.frameAlign = .hunt then
          ({ l with aligner := huntStep (frameMarker f) l.aligner, loopFrame := none }, [])
        else (l, [])
      | none => (l, [])

/-- UPSTREAM_FRAME at a link (R76). On LOOPBACK the frame is the looped one (R74, log entry 7). -/
def lineFrame (n : LinkId) (frame : Word) (f : LineFrame) (l : Link) : LinkStep :=
  if !alignerRuns l then (l, [])
  else
    match l.aligner.input with
    | .line => examineFrame n frame f l
    | .loopback =>
      match l.loopFrame with
      | some g =>
        if l.aligner.frameAlign = .hunt then (l, [])
        else examineFrame n frame g { l with loopFrame := none }
      | none => (l, [])

/-- The looped frame is examined in the frame in which it is sent (R74): what CANDIDATE_MARKER or
UPSTREAM_FRAME would do with it, where neither has yet. -/
def examineLoop (n : LinkId) (frame : Word) (l : Link) : LinkStep :=
  match l.loopFrame with
  | none => (l, [])
  | some f =>
    if l.aligner.frameAlign = .hunt then lineCandidate 0 l else lineFrame n frame f l

/-! ## The framer at a frame start -/

/-- The link word of a block (R71). -/
def blockWord (l : Link) : LinkWord :=
  match l.state with
  | .calling => .wake
  | .training => .engage
  | .closing => if l.side = some .station then .done else .release
  | .active | .degraded | .loop | .off | .listen | .fault => .run

/-- States in which the message channel fills header and segment (R72, R115). -/
def channelSpeaks (state : SessionState) : Bool :=
  state == .active || state == .degraded || state == .loop

/-- The message channel at a superframe start (R115, R117, R125): it settles the oldest message in
ACTIVE and LOOP. -/
def settleForBlock (l : Link) : LinkStep :=
  if l.state = .active ∨ l.state = .loop then settleOldest l else (l, [])

/-- The downstream block formed of the settled link (R72, R115), with the sent RDY. -/
def formBlock (l : Link) : Link :=
  if channelSpeaks l.state then
    let segment := if l.state = .degraded then [] else carriedSegment l
    { l with
      block := some (makeBlock (blockWord l) l.lamps (channelHeader l segment) segment)
      chan := { l.chan with sentRdy := decide (l.inQueue.length < Config.inLimit) } }
  else
    { l with
      block := some (makeBlock (blockWord l) l.lamps 0 [])
      chan := { l.chan with sentRdy := false } }

/-- A superframe start at a link (R72, R92): the timer counts, and a SENDING framer forms its block. -/
def superframeStart (l : Link) : LinkStep :=
  let l := countTimer l
  if l.framer = .sending then
    let p := settleForBlock l
    (formBlock p.1, p.2)
  else (l, [])

/-- The bearer of the frame now begun (R73): the downstream registers as the frame pass before wrote
them, or silence. -/
def bearerOf (l : Link) (down : Table 12 Sample) : Table 12 Sample :=
  if channelSpeaks l.state then down else Table.fill 12 0

/-- The frame sent in the frame now begun (R68, R70, R71): none at rest and before the first block. -/
def frameToSend (l : Link) (phase : Fin 16) (down : Table 12 Sample) : Option LineFrame :=
  if l.framer = .sending then
    l.block.map fun b => makeFrame (phaseMarker phase.val) (bearerOf l down) (b.get phase)
  else none

/-- The frame goes out on the line, or into the internal loop in LOOP (R74). -/
def sendFrame (phase : Fin 16) (down : Table 12 Sample) (l : Link) : Link :=
  let f := frameToSend l phase down
  if l.state = .loop then { l with lineOut := none, loopFrame := f }
  else { l with lineOut := f, loopFrame := none }

/-- The superframe phase of a frame number (R70). -/
def phaseOf (frame : Word) : Fin 16 := Fin.ofNat 16 frame.toNat

/-- What the start of frame `frame` does at a link (R70 to R73, R92, R117). -/
def linkFrameStart (frame : Word) (down : Table 12 Sample) (l : Link) : LinkStep :=
  let p := if phaseOf frame = 0 then superframeStart l else (l, [])
  (sendFrame (phaseOf frame) down p.1, p.2)

end Sys2Proof.Machine
end

