-- ==== Sys2Proof/Machine/Mix.lean ====
section
/-! DEFINITION. The frame pass's arithmetic (chapter 1): what sources read as, gates, attenuation, the sum
and its one saturation. -/

namespace Sys2Proof.Machine

/-- An inbound channel as the frame pass reads it (R14). -/
def inboundValue (l : Link) (c : Channel) : Sample :=
  if l.state = .active ∨ (l.state = .loop ∧ l.loopLock) then l.inbound.get c else 0

/-- The gate of an entry is open, or there is none (R3, R9). -/
def gateOpen (links : Table 8 Link) (gate : Option Gate) : Bool :=
  match gate with
  | none => true
  | some g =>
    let pressed := (links.get g.link).keyTable.getLsbD g.key.val
    match g.sense with
    | .pressed => pressed
    | .released => !pressed

/-- The sample a source reads as; `supply` is what each playout tap supplies (R14, R15). -/
def sourceSample (links : Table 8 Link) (supply : Table 16 Sample) (source : Source) : Sample :=
  match source with
  | .inbound n c => inboundValue (links.get n) c
  | .playout t => supply.get t

/-- A sample divided by 2^step, rounding toward minus infinity (R10). -/
def attenuate (x : Sample) (step : Fin 8) : Int := x.toInt / (2 ^ step.val : Int)

/-- What an entry adds to the sum (R9, R10). -/
def contribution (links : Table 8 Link) (supply : Table 16 Sample) (e : SourceEntry) : Int :=
  if gateOpen links e.gate then attenuate (sourceSample links supply e.source) e.step else 0

/-- The total saturated once (R11). -/
def saturate (total : Int) : Sample :=
  if 32767 < total then 32767
  else if total < -32768 then BitVec.ofInt 16 (-32768)
  else BitVec.ofInt 16 total

/-- The sum of the contributions of a route's entries (R11). -/
def mixTotal (links : Table 8 Link) (supply : Table 16 Sample) (entries : List SourceEntry) : Int :=
  (entries.map (contribution links supply)).sum

/-- The sample of a destination (R8). -/
def mixPlace (links : Table 8 Link) (supply : Table 16 Sample) (place : Option Route) : Sample :=
  match place with
  | none => 0
  | some r => if r.muted then 0 else saturate (mixTotal links supply r.entries)

/-- All 96 destination samples (R7). -/
def mixAll (links : Table 8 Link) (supply : Table 16 Sample)
    (routes : Table 8 (Table 12 (Option Route))) : Table 8 (Table 12 Sample) :=
  routes.map fun row => row.map (mixPlace links supply)

/-- The sample a capture tap is given (R17). -/
def captureSample (links : Table 8 Link) (down : Table 8 (Table 12 Sample)) (use : TapUse) : Sample :=
  match use with
  | .captureInbound n c => inboundValue (links.get n) c
  | .captureOutput n c => (down.get n).get c
  | .playout => 0

end Sys2Proof.Machine
end

