-- ==== Sys2Proof/Machine/Taps.lean ====
section
/-! DEFINITION. The Tap Unit (chapter 3): a tap in a frame pass, CREDIT TAP, the host transfers of tap
samples, and the return of closed taps' buffers. -/

namespace Sys2Proof.Machine

/-! ## A tap in one frame -/

/-- A buffer that is not spent (R49). -/
def Buffer.unspent (b : Buffer) : Bool := decide (b.position < b.length)

/-- The current buffer: the oldest that is not spent (R49). -/
def Tap.current (t : Tap) : Option Buffer := t.buffers.find? Buffer.unspent

/-- The tap plays samples into the matrix. -/
def Tap.plays (t : Tap) : Bool := t.use == some .playout

/-- The current buffer is usable at a frame start (R56): a capture buffer accepted before it, a playout
buffer whose first run has been read. -/
def usable (t : Tap) (b : Buffer) : Bool := !t.plays || decide (0 < b.transferred)

/-- The next sample of a playout buffer has arrived (R62). -/
def sampleArrived (b : Buffer) : Bool := decide (b.position < b.transferred)

/-- The sample of a playout tap's current buffer at its position (R59). -/
def storedSample (t : Tap) (b : Buffer) : Sample :=
  match t.runs with
  | [] => 0
  | r :: _ => r.samples.getD (b.position % Config.runLength) 0

/-- What a playout tap supplies for the frame (R15, R58, R59, R62). -/
def supplyOf (t : Tap) : Sample :=
  if t.plays then
    match t.current with
    | none => 0
    | some b => if usable t b && sampleArrived b then storedSample t b else 0
  else 0

/-- A gap frame (R58). -/
def gapFrame (t : Tap) : Tap := { t with gap := min Config.gapMax (t.gap + 1) }

/-- The first sample of a buffer takes the gap count (R59). -/
def takeGap (t : Tap) (b : Buffer) : Tap :=
  if b.position = 0 then
    { t with
      gap := 0
      buffers := updateFirst Buffer.unspent (fun x => { x with gapResult := some t.gap }) t.buffers }
  else t

/-- A CREDIT TAP completed DONE with its gap result (R60). -/
def doneBuffer (b : Buffer) : Completion :=
  .plain b.id .done (BitVec.ofNat 32 (b.gapResult.getD 0))

/-- The current buffer's position rises by 1 (R59). -/
def advance (t : Tap) : Tap :=
  { t with
    buffers := updateFirst Buffer.unspent (fun x => { x with position := x.position + 1 }) t.buffers }

/-- After a buffer is spent (R60): with no buffer left unspent the tap starves and says so. -/
def starveIfEmpty (n : TapId) (t : Tap) : Tap × List Effect :=
  if t.buffers.any Buffer.unspent then (t, [])
  else ({ t with state := .starved }, [.event (.tapStarved n)])

/-- One sample of the current buffer `b` moved (R59, R60): the gap result, the position, and what
follows when the buffer is spent. A spent playout buffer completes and leaves the list; a spent capture
buffer waits for its last write. -/
def moveSample (n : TapId) (b : Buffer) (t : Tap) : Tap × List Effect :=
  let t1 := advance (takeGap t b)
  if b.position + 1 = b.length then
    if t.plays then
      let p := starveIfEmpty n { t1 with buffers := t1.buffers.filter Buffer.unspent }
      let spent := { b with gapResult := if b.position = 0 then some t.gap else b.gapResult }
      (p.1, .complete (doneBuffer spent) :: p.2)
    else starveIfEmpty n t1
  else (t1, [])

/-- A run leaves a playout store when its eighth sample has been taken (R62). -/
def dropTakenRun (position : Nat) (runs : List Run) : List Run :=
  if (position + 1) % Config.runLength = 0 then runs.drop 1 else runs

/-- A captured sample is placed (R61): the eighth completes a run, for the buffer's next 16 bytes. -/
def placeSample (b : Buffer) (x : Sample) (t : Tap) : Tap :=
  let collected := t.collecting ++ [x]
  if collected.length = Config.runLength then
    { t with
      collecting := []
      runs := t.runs ++
        [⟨b.address + BitVec.ofNat 32 (2 * (b.position + 1 - Config.runLength)), collected⟩] }
  else { t with collecting := collected }

/-- The transfer the frame needs is late (R61, R62): a playout run has not arrived, or a capture store
already holds two complete runs. -/
def transferLate (t : Tap) (b : Buffer) : Bool :=
  if t.plays then !sampleArrived b else decide (Config.runLimit ≤ t.runs.length)

/-- A tap with a usable current buffer runs (R59). -/
def runTap (t : Tap) : Tap := { t with state := .running }

/-- What one frame does to an open tap (R58 to R62). `given` is the sample the frame pass gives a capture
tap. The last component says that a transfer is late; no sample is moved then (log entry 9). -/
def tapFrame (n : TapId) (given : Sample) (t : Tap) : (Tap × List Effect) × Bool :=
  if t.state = .closed then ((t, []), false)
  else
    match t.current with
    | none => ((gapFrame t, []), false)
    | some b =>
      if !usable t b then ((gapFrame t, []), false)
      else
        let t1 := runTap t
        if transferLate t b then ((takeGap t1 b, []), true)
        else if t.plays then
          (moveSample n b { t1 with runs := dropTakenRun b.position t1.runs }, false)
        else (moveSample n b (placeSample b given t1), false)

/-! ## CREDIT TAP -/

/-- The buffer does not meet R54's conditions. -/
def badBuffer (address : Word) (length : Nat) : Bool :=
  address.toNat % 4 != 0 || decide (length < Config.bufferMin) || decide (Config.bufferMax < length)
    || length % 8 != 0 || decide (2 ^ 32 < address.toNat + 2 * length)

/-- CREDIT TAP at its tap (R54): refused, or accepted at the tail of the list. -/
def takeCredit (id : CmdId) (f : CreditFields) (t : Tap) : Tap × List Effect :=
  if t.state = .closed then (t, [.complete (.plain id .notOpen 0)])
  else if badBuffer f.address f.length then (t, [.complete (.plain id .badBuffer 0)])
  else if Config.bufferLimit ≤ t.buffers.length then (t, [.complete (.plain id .queueFull 0)])
  else ({ t with buffers := t.buffers ++ [⟨id, f.address, f.length, 0, 0, none⟩] }, [])

/-! ## Reads of a playout tap -/

/-- A buffer with samples not yet transferred. -/
def Buffer.untransferred (b : Buffer) : Bool := decide (b.transferred < b.length)

/-- A host read can start for the tap (R62). -/
def canRead (t : Tap) : Bool :=
  t.plays && !t.reading && decide (t.runs.length < Config.runLimit)
    && t.buffers.any Buffer.untransferred

/-- The host read of the next 16 bytes starts (R62). -/
def startRead (t : Tap) : Tap := if canRead t then { t with reading := true } else t

/-- The host address a read in flight reads at (R62, R175). -/
def readAddress (t : Tap) : Word :=
  match t.buffers.find? Buffer.untransferred with
  | none => 0
  | some b => b.address + BitVec.ofNat 32 (2 * b.transferred)

/-- Eight samples more of the oldest buffer not yet transferred (R61, R62). -/
def noteTransferred (buffers : List Buffer) : List Buffer :=
  updateFirst Buffer.untransferred (fun b => { b with transferred := b.transferred + 8 }) buffers

/-- A read has brought a run (R62). -/
def storeRun (samples : List Sample) (t : Tap) : Tap :=
  { t with
    reading := false
    runs := t.runs ++ [⟨readAddress t, samples⟩]
    buffers := noteTransferred t.buffers }

/-! ## Writes of capture taps, open and closed -/

/-- The buffers after one run of them has been written (R61), with the completion of a spent capture
buffer whose last run this was. -/
def noteWritten : List Buffer → List Buffer × List Completion
  | [] => ([], [])
  | b :: rest =>
    if b.untransferred then
      let b' := { b with transferred := b.transferred + 8 }
      if b'.transferred = b'.length then (rest, [doneBuffer b']) else (b' :: rest, [])
    else
      let p := noteWritten rest
      (b :: p.1, p.2)

/-- Runs of this tap number still to be written for a closed tap (R52, R53). -/
def closedRuns (n : TapId) (groups : List ClosingGroup) : List Run :=
  groups.flatMap fun g => g.taps.flatMap fun c => if c.tap = n then c.runs else []

/-- Runs of this tap number to be written, oldest first: those of closed taps go before those of the
open one (R53). -/
def runsToWrite (s : State) (n : TapId) : List Run :=
  closedRuns n s.closing ++ (if (s.taps.get n).plays then [] else (s.taps.get n).runs)

/-- A host write can start for this tap number (R61, R65). -/
def canWrite (s : State) (n : TapId) : Bool :=
  s.engine.mode != .halted && !(s.taps.get n).writing && !(runsToWrite s n).isEmpty

/-- A host read can start for this tap (R62, R65). -/
def canReadTap (s : State) (n : TapId) : Bool :=
  s.engine.mode != .halted && canRead (s.taps.get n)

/-- The oldest run of this tap number among a group's closed taps is written. -/
def writeClosedTap (n : TapId) : List ClosedTap → Option (List ClosedTap × List Completion)
  | [] => none
  | c :: rest =>
    match c.runs with
    | _ :: runs =>
      if c.tap = n then
        let p := noteWritten c.buffers
        some ({ c with runs := runs, buffers := p.1 } :: rest, p.2)
      else (writeClosedTap n rest).map fun p => (c :: p.1, p.2)
    | [] => (writeClosedTap n rest).map fun p => (c :: p.1, p.2)

/-- The oldest run of this tap number among the closed taps is written. -/
def writeClosed (n : TapId) : List ClosingGroup → Option (List ClosingGroup × List Completion)
  | [] => none
  | g :: rest =>
    match writeClosedTap n g.taps with
    | some p => some ({ g with taps := p.1 } :: rest, p.2)
    | none => (writeClosed n rest).map fun p => (g :: p.1, p.2)

/-- The completions of a closed tap's buffers (R52), in credit order: CLOSED with the samples written to
host memory, or for a playout tap those given to frame passes. -/
def closedCompletions (c : ClosedTap) : List Completion :=
  c.buffers.map fun b =>
    .plain b.id .closed (BitVec.ofNat 32 (if c.playout then b.position else b.transferred))

/-- A pass over closed taps in order (R52): a tap with no write left returns its buffers. `busy` are the
tap numbers whose older writes have not ended: that a close waits for the writes of an earlier close of its number too
is the model's choice (log entry 20). -/
def settleClosedTaps (busy : List TapId) : List ClosedTap → List ClosedTap × List Completion × List TapId
  | [] => ([], [], busy)
  | c :: rest =>
    if c.runs.isEmpty && !busy.contains c.tap then
      let p := settleClosedTaps busy rest
      (p.1, closedCompletions c ++ p.2.1, p.2.2)
    else
      let p := settleClosedTaps (c.tap :: busy) rest
      (c :: p.1, p.2.1, p.2.2)

/-- A pass over the groups that wait (R39, R52): a group all of whose closed taps have returned their
buffers hands its DONE completions. -/
def settleGroups (busy : List TapId) : List ClosingGroup → List ClosingGroup × List Completion
  | [] => ([], [])
  | g :: rest =>
    let p := settleClosedTaps busy g.taps
    let q := settleGroups p.2.2 rest
    if p.1.isEmpty then (q.1, p.2.1 ++ g.completions ++ q.2)
    else ({ g with taps := p.1 } :: q.1, p.2.1 ++ q.2)

/-- Closed taps whose writes have all ended hand what they owe. -/
def settleClosing (s : State) : State :=
  let p := settleGroups [] s.closing
  handAll p.2 (s.withClosing p.1)

/-- The write in flight of this tap number has ended without error (R61). -/
def finishWrite (n : TapId) (s : State) : State :=
  let t := { s.taps.get n with writing := false }
  match writeClosed n s.closing with
  | some p => settleClosing (handAll p.2 ((s.setTap n t).withClosing p.1))
  | none =>
    let p := noteWritten t.buffers
    handAll p.2 (s.setTap n { t with runs := t.runs.drop 1, buffers := p.1 })

/-! ## Meanings -/

/-- CAPTURE_WRITE_START (R61). -/
def startWrite (n : TapId) (s : State) : State :=
  if canWrite s n then s.setTap n { s.taps.get n with writing := true } else s

def execCaptureWriteStart (n : TapId) (s : State) : Answer := live s (startWrite n)

/-- TAP_WRITE_END (R61): a bus error halts the engine with TAP_ERROR. -/
def execTapWriteEnd (n : TapId) (how : BusEnd) (s : State) : Answer :=
  live s fun s =>
    if (s.taps.get n).writing then
      match how with
      | .ok => finishWrite n s
      | .busError => halt .tapError s
    else s

/-- PLAYOUT_READ_START (R62). -/
def startTapRead (n : TapId) (s : State) : State :=
  if canReadTap s n then s.setTap n (startRead (s.taps.get n)) else s

def execPlayoutReadStart (n : TapId) (s : State) : Answer := live s (startTapRead n)

/-- TAP_READ_END (R62): a bus error halts the engine with TAP_ERROR. -/
def execTapReadEnd (n : TapId) (how : ReadEnd) (s : State) : Answer :=
  live s fun s =>
    if (s.taps.get n).reading then
      match how with
      | .data bytes => s.setTap n (storeRun (runSamples bytes) (s.taps.get n))
      | .busError => halt .tapError s
    else s

end Sys2Proof.Machine
end

