-- ==== Sys2Proof/Machine/Schedule.lean ====
section
/-! DEFINITION. The Edit Scheduler (chapter 2): forming groups, acceptance and timing, CANCEL GROUP, and
the cut-over of due groups against a working copy. -/

namespace Sys2Proof.Machine

/-! ## Places -/

/-- Schedule places taken: the groups of the list and the assembly group (R34). -/
def Scheduler.places (d : Scheduler) : Nat :=
  d.list.length + (if d.assembly.isSome then 1 else 0)

/-- Staging places taken by the assembly group. -/
def assemblySize (a : Option Assembly) : Nat :=
  match a with
  | none => 0
  | some a => a.members.length

/-- The staging count: one place for each command of a group (R34). -/
def Scheduler.staged (d : Scheduler) : Nat :=
  (d.list.map fun g => g.members.length).sum + assemblySize d.assembly

/-- A staging place is free. -/
def Scheduler.stagingFree (d : Scheduler) : Bool := decide (d.staged < Config.stagingPlaces)

/-- A schedule place is free. -/
def Scheduler.placeFree (d : Scheduler) : Bool := decide (d.places < Config.schedulePlaces)

/-- The places that an edit fetched now needs are free (R28, R35): an edit that opens a group needs both. -/
def Scheduler.roomForEdit (d : Scheduler) : Bool :=
  d.stagingFree && (d.assembly.isSome || d.placeFree)

/-! ## Acceptance -/

/-- The same completion for every command of a group, in command order. -/
def memberCompletions {α : Type} (status : Status) (result : Word) (members : List (CmdId × α)) :
    List Completion :=
  members.map fun m => .plain m.1 status result

/-- One completion of a group that fails with bad fields (R31). -/
def badFieldCompletion (m : CmdId × Option EditOp) : Completion :=
  .plain m.1 (if m.2.isNone then .badField else .groupAborted) 0

/-- The completions of a group that is too far ahead (R32). -/
def tooFarCompletions (members : List (CmdId × Option EditOp)) : List Completion :=
  match members with
  | [] => []
  | m :: rest => .plain m.1 .tooFar 0 :: memberCompletions .groupAborted 0 rest

/-- The due frame of an accepted group and its late mark; none where it is too far ahead (R32). -/
def groupTiming (now : Word) (scheduled : Bool) (due : Word) : Option (Word × Bool) :=
  if scheduled then
    let d := (due - now).toNat
    if 1 ≤ d ∧ d ≤ Config.horizon then some (due, false)
    else if Config.horizon < d ∧ d < Config.behind then none
    else some (now + 1, true)
  else some (now + 1, false)

/-- The commands of a group none of which carries a failure code. -/
def goodMembers (members : List (CmdId × Option EditOp)) : List (CmdId × EditOp) :=
  members.filterMap fun m => m.2.map fun op => (m.1, op)

/-- Distance from a frame to a later one (00_scope 0.6). -/
def frameDistance (now due : Word) : Nat := (due - now).toNat

/-- A group enters the list after every group at a smaller or the same distance (R33). -/
def insertGroup (now : Word) (g : Group) (list : List Group) : List Group :=
  let before := fun h : Group => decide (frameDistance now h.due ≤ frameDistance now g.due)
  list.takeWhile before ++ g :: list.dropWhile before

/-- A group that has left the assembly is accepted (R31 to R33). -/
def acceptGroup (a : Assembly) (s : State) : State :=
  if a.members.any fun m => m.2.isNone then handAll (a.members.map badFieldCompletion) s
  else
    match groupTiming s.frame a.scheduled a.due with
    | none => handAll (tooFarCompletions a.members) s
    | some (due, late) =>
      s.withSched { s.sched with
        list := insertGroup s.frame ⟨a.label, due, late, goodMembers a.members⟩ s.sched.list }

/-! ## Forming groups -/

/-- The assembly group once an edit has opened or joined it (R28). -/
def joinAssembly (assembly : Option Assembly) (e : Edit) : Assembly :=
  match assembly with
  | none => ⟨e.label, e.scheduled, e.due, [(e.id, e.op)]⟩
  | some a => { a with members := a.members ++ [(e.id, e.op)] }

/-- An edit whose places are free opens or joins a group (R28): with CHAIN set the group stays open, with
CHAIN clear it is accepted at once. -/
def takeEdit (e : Edit) (s : State) : State :=
  let a := joinAssembly s.sched.assembly e
  if e.chain then s.withSched { s.sched with assembly := some a }
  else acceptGroup a (s.withSched { s.sched with assembly := none })

/-- An edit becomes the parked command (R35). -/
def parkEdit (e : Edit) (s : State) : State :=
  s.withEngine { s.engine with parked := some (.edit e) }

/-- The group has 16 commands already (R29). -/
def groupFull (a : Assembly) : Bool := decide (Config.groupLimit ≤ a.members.length)

/-- An edit fetched from ring A reaches the Edit Scheduler (R28, R29, R35). -/
def joinEdit (e : Edit) (s : State) : State :=
  if s.sched.overflow then
    hand (.plain e.id .groupTooLong 0) (s.withSched { s.sched with overflow := e.chain })
  else
    match s.sched.assembly with
    | some a =>
      if groupFull a then
        handAll (memberCompletions .groupTooLong 0 a.members ++ [.plain e.id .groupTooLong 0])
          (s.withSched { s.sched with assembly := none, overflow := e.chain })
      else if s.sched.roomForEdit then takeEdit e s
      else parkEdit e s
    | none => if s.sched.roomForEdit then takeEdit e s else parkEdit e s

/-- A ring-A command that is not an edit ends the overflow tail and breaks an open group (R29, R30). -/
def breakGroup (s : State) : State :=
  match s.sched.assembly with
  | none => s.withSched { s.sched with overflow := false }
  | some a =>
    handAll (memberCompletions .brokenChain 0 a.members)
      (s.withSched { s.sched with assembly := none, overflow := false })

/-! ## CANCEL GROUP -/

/-- The completions of cancelled groups, in list order (R42). -/
def cancelCompletions (groups : List Group) : List Completion :=
  groups.flatMap fun g => memberCompletions .cancelled g.due g.members

/-- CANCEL GROUP at the Edit Scheduler (R42). -/
def cancelGroups (id : CmdId) (label : Half) (s : State) : State :=
  let removed := s.sched.list.filter fun g => g.label == label
  let kept := s.sched.list.filter fun g => !(g.label == label)
  let answer : Completion :=
    if removed.isEmpty then .plain id .notFound 0
    else .plain id .done (BitVec.ofNat 32 removed.length)
  handAll (cancelCompletions removed ++ [answer]) (s.withSched { s.sched with list := kept })

/-! ## The working copy -/

/-- The working copy of a cut-over (R37): table, free count, tap contexts, and the taps closed so far. -/
structure Work where
  routes : Table 8 (Table 12 (Option Route))
  free : Nat
  taps : Table 16 Tap
  closed : List ClosedTap
  deriving DecidableEq, Repr

/-- The working copy of a group built from the active state. -/
def State.work (s : State) : Work := ⟨s.core.routes, s.core.free, s.taps, []⟩

/-- The place of a destination. -/
def Work.place (w : Work) (n : LinkId) (c : Channel) : Option Route := (w.routes.get n).get c

/-- The working copy with the place of a destination replaced. -/
def Work.setPlace (w : Work) (n : LinkId) (c : Channel) (r : Option Route) : Work :=
  { w with routes := w.routes.set n ((w.routes.get n).set c r) }

/-- Entries that a place holds (R4). -/
def entriesHeld (place : Option Route) : Nat :=
  match place with
  | none => 0
  | some r => r.entries.length

/-- The source can be routed: an inbound channel, or an open playout tap (R38). -/
def sourceUsable (taps : Table 16 Tap) (source : Source) : Bool :=
  match source with
  | .inbound _ _ => true
  | .playout t => (taps.get t).plays

/-- The entry names this tap as a PLAYOUT source. -/
def entryNames (t : TapId) (e : SourceEntry) : Bool := e.source == .playout t

/-- A route of the table names this tap as a PLAYOUT source (R38). -/
def tableNames (routes : Table 8 (Table 12 (Option Route))) (t : TapId) : Bool :=
  routes.items.any fun row =>
    row.items.any fun place =>
      match place with
      | none => false
      | some r => r.entries.any (entryNames t)

/-- SET ROUTE against the working copy (R24, R38): CONFLICT, then POOL_FULL, then BAD_SOURCE. -/
def applySetRoute (n : LinkId) (c : Channel) (createOnly : Bool) (r : Route) (w : Work) :
    Except Status Work :=
  let held := entriesHeld (w.place n c)
  if createOnly && (w.place n c).isSome then .error .conflict
  else if w.free + held < r.entries.length then .error .poolFull
  else if r.entries.all fun e => sourceUsable w.taps e.source then
    .ok { w.setPlace n c (some r) with free := w.free + held - r.entries.length }
  else .error .badSource

/-- CLEAR ROUTE against the working copy (R25). -/
def applyClearRoute (n : LinkId) (c : Channel) (w : Work) : Except Status Work :=
  match w.place n c with
  | none => .error .noRoute
  | some r => .ok { w.setPlace n c none with free := w.free + r.entries.length }

/-- MUTE ROUTE against the working copy (R25). -/
def applyMuteRoute (n : LinkId) (c : Channel) (muted : Bool) (w : Work) : Except Status Work :=
  match w.place n c with
  | none => .error .noRoute
  | some r => .ok (w.setPlace n c (some { r with muted := muted }))

/-- A tap context newly opened (R51). A host write of the tap number's earlier use may be in flight. -/
def openedTap (use : TapUse) (t : Tap) : Tap :=
  { Tap.reset with state := .waiting, use := some use, writing := t.writing }

/-- A tap context newly closed (R52). A read in flight is abandoned; a write in flight goes on. -/
def closedContext (t : Tap) : Tap := { Tap.reset with writing := t.writing }

/-- What a close returns (R52): the complete runs of a capture tap are still written, a playout tap's
samples read ahead are discarded. -/
def closedRecord (n : TapId) (t : Tap) : ClosedTap :=
  ⟨n, t.plays, if t.plays then [] else t.runs, t.buffers⟩

/-- OPEN TAP against the working copy (R26, R51). -/
def applyOpenTap (n : TapId) (use : TapUse) (w : Work) : Except Status Work :=
  if (w.taps.get n).state = .closed then
    .ok { w with taps := w.taps.set n (openedTap use (w.taps.get n)) }
  else .error .tapBusy

/-- CLOSE TAP against the working copy (R26, R52): NOT_OPEN, then IN_USE. -/
def applyCloseTap (n : TapId) (w : Work) : Except Status Work :=
  if (w.taps.get n).state = .closed then .error .notOpen
  else if tableNames w.routes n then .error .inUse
  else
    .ok { w with
      taps := w.taps.set n (closedContext (w.taps.get n))
      closed := w.closed ++ [closedRecord n (w.taps.get n)] }

/-- One command checked against the working copy and applied to it (R38). -/
def applyEdit (op : EditOp) (w : Work) : Except Status Work :=
  match op with
  | .setRoute n c createOnly r => applySetRoute n c createOnly r w
  | .clearRoute n c => applyClearRoute n c w
  | .muteRoute n c muted => applyMuteRoute n c muted w
  | .openTap t use => applyOpenTap t use w
  | .closeTap t => applyCloseTap t w

/-! ## Cut-over -/

/-- The commands of a group one at a time (R38): the working copy they leave, or the place of the first
that fails and its code. -/
def runMembers : List (CmdId × EditOp) → Work → Except (Nat × Status) Work
  | [], w => .ok w
  | m :: rest, w =>
    match applyEdit m.2 w with
    | .error status => .error (0, status)
    | .ok w' =>
      match runMembers rest w' with
      | .ok w'' => .ok w''
      | .error (place, status) => .error (place + 1, status)

/-- The completions of a group that passes (R39, R40). -/
def doneCompletions (g : Group) : List Completion :=
  g.members.map fun m => ⟨m.1, .done, g.late, g.due⟩

/-- The completions of a group whose command at this place fails (R39, R40). -/
def failedCompletions (due : Word) (status : Status) : Nat → List (CmdId × EditOp) → List Completion
  | _, [] => []
  | 0, m :: rest => .plain m.1 status due :: memberCompletions .groupAborted due rest
  | place + 1, m :: rest => .plain m.1 .groupAborted due :: failedCompletions due status place rest

/-- The working copy becomes the active state (R39). -/
def State.commit (s : State) (w : Work) : State :=
  (s.withCore { s.core with routes := w.routes, free := w.free }).withTaps w.taps

/-- One due group cuts over (R38, R39). The group has left the list. -/
def cutGroup (s : State) (g : Group) : State :=
  match runMembers g.members s.work with
  | .error (place, status) => handAll (failedCompletions g.due status place g.members) s
  | .ok w =>
    settleClosing ((s.commit w).withClosing (s.closing ++ [⟨w.closed, doneCompletions g⟩]))

/-- The cut-overs of the frame in progress, in list order (R37). -/
def cutOver (s : State) : State :=
  let due := s.sched.list.filter fun g => g.due == s.frame
  let later := s.sched.list.filter fun g => !(g.due == s.frame)
  due.foldl cutGroup (s.withSched { s.sched with list := later })

end Sys2Proof.Machine
end

