-- ==== Sys2Proof/Machine/Stop.lean ====
section
/-! DEFINITION. The parked command (chapter 7), which waits for a place, the slot or earlier commands, and the
end of a stop (R163), which every event that can end one takes with it. -/

namespace Sys2Proof.Machine

/-! ## The parked command -/

/-- No command is parked any more. -/
def unpark (s : State) : State := s.withEngine { s.engine with parked := none }

/-- The parked edit is retried (R35). -/
def retryEdit (s : State) : State :=
  match s.engine.parked with
  | some (.edit e) =>
    if s.engine.mode != .halted && s.sched.roomForEdit then takeEdit e (unpark s) else s
  | _ => s

/-- PARKED_EDIT_RETRY (R35). -/
def execParkedEditRetry (s : State) : Answer := live s retryEdit

/-- The Switch Core takes a READ ROUTE (R20): an empty place ends it, a route goes into the slot as it
stands now. -/
def readTaken (id : CmdId) (f : ReadFields) (s : State) : State :=
  match (s.core.routes.get f.link).get f.channel with
  | none => hand (.plain id .noRoute 0) s
  | some route => s.withCore { s.core with slot := some ⟨id, f.address, f.link, f.channel, route⟩ }

/-- The parked READ ROUTE is taken once the slot is empty (R19). -/
def takeParkedRead (s : State) : State :=
  match s.engine.parked with
  | some (.readRoute id n c address) =>
    if s.engine.mode != .halted && s.core.slot.isNone then readTaken id ⟨n, c, address⟩ (unpark s)
    else s
  | _ => s

/-- PARKED_READ_ROUTE_TAKEN (R19). -/
def execParkedReadRouteTaken (s : State) : Answer := live s takeParkedRead

/-- The parked FENCE completes once the count is 0 (R44). -/
def releaseFence (s : State) : State :=
  match s.engine.parked with
  | some (.fence id) =>
    if s.engine.mode != .halted && s.engine.outstanding == 0 then post (.plain id .done 0) (unpark s)
    else s
  | _ => s

/-- FENCE_RELEASE (R44). -/
def execFenceRelease (s : State) : Answer := live s releaseFence

/-- Whatever is parked proceeds if it can. -/
def releaseParked (s : State) : State := releaseFence (takeParkedRead (retryEdit s))

/-! ## The end of a stop -/

/-- The assembly group completes ABORTED, and the overflow tail ends (R46, R163). -/
def abortAssembly (s : State) : State :=
  match s.sched.assembly with
  | none => s.withSched { s.sched with overflow := false }
  | some a =>
    handAll (memberCompletions .aborted 0 a.members)
      (s.withSched { s.sched with assembly := none, overflow := false })

/-- The parked command completes ABORTED (R45, R46, R163). A FENCE is not counted (R44). -/
def abortParked (s : State) : State :=
  match s.engine.parked with
  | none => s
  | some (.edit e) => hand (.plain e.id .aborted 0) (unpark s)
  | some (.readRoute id _ _ _) => hand (.plain id .aborted 0) (unpark s)
  | some (.fence id) => post (.plain id .aborted 0) (unpark s)

/-- ENABLE found set in STOPPED (R162): RUNNING, or START_REFUSED where the completion or the event ring is
unconfigured. -/
def RingEngine.start (e : RingEngine) : RingEngine :=
  if (ringSize e.baseComp).isSome && (ringSize e.baseEvent).isSome then
    { e with mode := .running, enable := true, startRefused := false }
  else { e with enable := false, startRefused := true }

/-- The engine is STOPPED; with ENABLE found set it starts at once (R162). -/
def RingEngine.stopEnded (e : RingEngine) : RingEngine :=
  let e := { e with mode := .stopped }
  if e.enable then e.start else e

/-- The stop ends (R163): what was released before goes first (R45), then the aborts in order. -/
def endStop (s : State) : State :=
  let s := abortParked (abortAssembly (releaseParked s))
  s.withEngine s.engine.stopEnded

/-- The stop ends once no fetch is in flight (R163): in the same event as ENABLE_CLEAR, or as the end of the
last read. -/
def stopIfDue (s : State) : State :=
  if s.engine.mode == .stopping && s.engine.fetch.isNone then endStop s else s

/-- STOP_END (R163). The stop has ended within another row by then, so the row finds none (log entry 3). -/
def execStopEnd (s : State) : Answer := live s stopIfDue

end Sys2Proof.Machine
end

