-- ==== Sys2Proof/Machine/Fetch.lean ====
section
/-! DEFINITION. Fetch (chapter 7): the start and the failure of a command read, the checks and the
hand-over of every command, and the end of a route record's write. -/

namespace Sys2Proof.Machine

/-! ## The start of a fetch -/

/-- Ring A is eligible (R133, R141). -/
def RingEngine.eligibleA (e : RingEngine) : Bool :=
  (ringSize e.baseA).isSome && e.prodA != e.fetchA && e.parked.isNone

/-- Ring B is eligible (R133). -/
def RingEngine.eligibleB (e : RingEngine) : Bool :=
  (ringSize e.baseB).isSome && e.prodB != e.fetchB

/-- The ring the arbiter fetches (R134). -/
def RingEngine.arbiter (e : RingEngine) : Option CmdRing :=
  match e.eligibleA, e.eligibleB with
  | true, true => some e.prefer
  | true, false => some .a
  | false, true => some .b
  | false, false => none

/-- The fetch position of a ring. -/
def RingEngine.position (e : RingEngine) (ring : CmdRing) : Nat :=
  match ring with
  | .a => e.fetchA
  | .b => e.fetchB

/-- A fetch can start, whichever ring it is from (R133). -/
def RingEngine.canFetch (e : RingEngine) : Bool :=
  e.mode == .running && e.fetch.isNone && e.creditFree

/-- The fetch of a ring starts: a credit is reserved (R133, R136). -/
def RingEngine.fetchStarted (e : RingEngine) (ring : CmdRing) : RingEngine :=
  { e with fetch := some (ring, e.position ring), reserved := e.reserved + 1 }

/-- A fetch starts if the conditions of R133 hold. -/
def startFetch (s : State) : State :=
  if s.engine.canFetch then
    match s.engine.arbiter with
    | none => s
    | some ring => s.withEngine (s.engine.fetchStarted ring)
  else s

/-- FETCH_START (R133). -/
def execFetchStart (s : State) : Answer := live s startFetch

/-- FETCH_ERROR (R135). -/
def execFetchError (s : State) : Answer :=
  live s fun s => if s.engine.fetch.isSome then halt .fetchError s else s

/-! ## The end of a fetch -/

/-- The read has ended without error (R134, R135): the position moves on, the preference is passed, and a
ring-A command is counted (R44). -/
def RingEngine.fetchEnded (e : RingEngine) (ring : CmdRing) : RingEngine :=
  match ring with
  | .a =>
    { e with
      fetch := none
      fetchA := nextSlot e.baseA e.fetchA
      prefer := .b
      outstanding := e.outstanding + 1 }
  | .b => { e with fetch := none, fetchB := nextSlot e.baseB e.fetchB, prefer := .a }

/-- The read in flight ends with this record, and its command is checked and handed (R135); a stop that has
waited for it ends in the same event (R163). With no read in flight no record can come. -/
def takeFetch (r : CommandRecord) (take : CmdId → State → State) (s : State) : State :=
  match s.engine.fetch with
  | none => s
  | some (ring, slot) =>
    stopIfDue (take ⟨recTag r, ring, slot⟩ (s.withEngine (s.engine.fetchEnded ring)))

/-- A command that is not an edit breaks an open group of ring A and ends the overflow tail; from ring B it
does not (R29, R30, R138). -/
def breakFor (ring : CmdRing) (s : State) : State :=
  match ring with
  | .a => breakGroup s
  | .b => s

/-- A command that is refused at fetch (R138, R139), with result 0. -/
def refuse (status : Status) (id : CmdId) (s : State) : State :=
  hand (.plain id status 0) (breakFor id.ring s)

/-- An edit (R27, R138, R139): in ring B it is refused, in ring A it goes to the Edit Scheduler with its
failure code, if any. -/
def fetchedEdit (op : Option EditOp) (r : CommandRecord) (id : CmdId) (s : State) : State :=
  match id.ring with
  | .a => joinEdit ⟨id, recChain r, recScheduled r, recLabel r, recDue r, op⟩ s
  | .b => refuse .wrongRing id s

/-- A command of one ring that is not an edit (R138, R139): the ring, then the fields, then its owner. -/
def fetchedPlain {α : Type} (own : CmdRing) (fields : Option α) (take : CmdId → α → State → State)
    (id : CmdId) (s : State) : State :=
  if id.ring = own then
    match fields with
    | none => refuse .badField id s
    | some f => take id f (breakFor id.ring s)
  else refuse .wrongRing id s

/-- BAD_KIND (R138). -/
def execBadKind (kind : Byte) (r : CommandRecord) (s : State) : Answer :=
  if kindUnknown kind then live s (takeFetch r (refuse .badKind)) else .fault .illFormed

/-- SET_ROUTE, as its read ends (R24, R27). -/
def execSetRoute (r : CommandRecord) (s : State) : Answer :=
  live s (takeFetch r (fetchedEdit (parseSetRoute r) r))

/-- CLEAR_ROUTE, as its read ends (R25, R27). -/
def execClearRoute (r : CommandRecord) (s : State) : Answer :=
  live s (takeFetch r (fetchedEdit (parseClearRoute r) r))

/-- MUTE_ROUTE, as its read ends (R25, R27). -/
def execMuteRoute (r : CommandRecord) (s : State) : Answer :=
  live s (takeFetch r (fetchedEdit (parseMuteRoute r) r))

/-- OPEN_TAP, as its read ends (R26, R27). -/
def execOpenTap (r : CommandRecord) (s : State) : Answer :=
  live s (takeFetch r (fetchedEdit (parseOpenTap r) r))

/-- CLOSE_TAP, as its read ends (R26, R27). -/
def execCloseTap (r : CommandRecord) (s : State) : Answer :=
  live s (takeFetch r (fetchedEdit (parseCloseTap r) r))

/-! ## CANCEL GROUP, READ ROUTE, FENCE -/

/-- CANCEL GROUP (R42), which belongs to both rings (R138). -/
def fetchedCancel (fields : Option Half) (id : CmdId) (s : State) : State :=
  match fields with
  | none => refuse .badField id s
  | some label => cancelGroups id label (breakFor id.ring s)

/-- CANCEL_GROUP, as its read ends (R42). -/
def execCancelGroup (r : CommandRecord) (s : State) : Answer :=
  live s (takeFetch r (fetchedCancel (parseCancel r)))

/-- READ ROUTE at the Switch Core (R19): taken, or parked while the slot is occupied. -/
def takeRead (id : CmdId) (f : ReadFields) (s : State) : State :=
  if s.core.slot.isNone then readTaken id f s
  else s.withEngine { s.engine with parked := some (.readRoute id f.link f.channel f.address) }

/-- READ_ROUTE, as its read ends (R19, R20). -/
def execReadRoute (r : CommandRecord) (s : State) : Answer :=
  live s (takeFetch r (fetchedPlain .a (parseReadRoute r) takeRead))

/-- FENCE (R44): it does not count itself; it completes at once when nothing earlier is outstanding. -/
def takeFence (id : CmdId) (_ : Unit) (s : State) : State :=
  let s := uncount .a s
  if s.engine.outstanding = 0 then post (.plain id .done 0) s
  else s.withEngine { s.engine with parked := some (.fence id) }

/-- FENCE, as its read ends (R44). -/
def execFence (r : CommandRecord) (s : State) : Answer :=
  live s (takeFetch r (fetchedPlain .a (parseFence r) takeFence))

/-! ## Ring-B commands -/

/-- START LINK at its Link Unit (R103). -/
def takeStartLink (id : CmdId) (f : StartFields) (s : State) : State :=
  s.onLink f.link (takeStart f.link id f)

/-- START_LINK, as its read ends (R103). -/
def execStartLink (r : CommandRecord) (s : State) : Answer :=
  live s (takeFetch r (fetchedPlain .b (parseStart r) takeStartLink))

/-- LOOP LINK at its Link Unit (R104). -/
def takeLoopLink (id : CmdId) (f : LoopFields) (s : State) : State :=
  s.onLink f.link (takeLoop f.link id f.report)

/-- LOOP_LINK, as its read ends (R104). -/
def execLoopLink (r : CommandRecord) (s : State) : Answer :=
  live s (takeFetch r (fetchedPlain .b (parseLoop r) takeLoopLink))

/-- STOP LINK at its Link Unit (R105). -/
def takeStopLink (id : CmdId) (n : LinkId) (s : State) : State := s.onLink n (takeStop n id)

/-- STOP_LINK, as its read ends (R105). -/
def execStopLink (r : CommandRecord) (s : State) : Answer :=
  live s (takeFetch r (fetchedPlain .b (parseLinkOnly r) takeStopLink))

/-- QUERY LINK at its Link Unit (R106). -/
def takeQueryLink (id : CmdId) (n : LinkId) (s : State) : State := s.onLink n (takeQuery id)

/-- QUERY_LINK, as its read ends (R106). -/
def execQueryLink (r : CommandRecord) (s : State) : Answer :=
  live s (takeFetch r (fetchedPlain .b (parseLinkOnly r) takeQueryLink))

/-- SET LAMPS at its Link Unit (R112). -/
def takeSetLamps (id : CmdId) (f : LampFields) (s : State) : State :=
  s.onLink f.link (takeLamps id f.mask f.value)

/-- SET_LAMPS, as its read ends (R112). -/
def execSetLamps (r : CommandRecord) (s : State) : Answer :=
  live s (takeFetch r (fetchedPlain .b (parseLamps r) takeSetLamps))

/-- SEND MESSAGE at its Link Unit (R116). -/
def takeSendMessage (id : CmdId) (f : MessageFields) (s : State) : State :=
  s.onLink f.link (takeMessage id f.bytes)

/-- SEND_MESSAGE, as its read ends (R116). -/
def execSendMessage (r : CommandRecord) (s : State) : Answer :=
  live s (takeFetch r (fetchedPlain .b (parseMessage r) takeSendMessage))

/-- CREDIT TAP at the Tap Unit (R54). -/
def takeCreditTap (id : CmdId) (f : CreditFields) (s : State) : State :=
  let p := takeCredit id f (s.taps.get f.tap)
  emit p.2 (s.setTap f.tap p.1)

/-- CREDIT_TAP, as its read ends (R54). -/
def execCreditTap (r : CommandRecord) (s : State) : Answer :=
  live s (takeFetch r (fetchedPlain .b (parseCredit r) takeCreditTap))

/-! ## The route record -/

/-- The write of the record in the slot has ended without error (R20). -/
def finishRead (r : ReadSlot) (s : State) : State :=
  hand (.plain r.id .done (BitVec.ofNat 32 r.route.entries.length))
    (s.withCore { s.core with slot := none })

/-- ROUTE_RECORD_WRITE_END (R20, R22). -/
def execRouteRecordWriteEnd (how : BusEnd) (s : State) : Answer :=
  live s fun s =>
    match s.core.slot with
    | none => s
    | some r =>
      match how with
      | .ok => finishRead r s
      | .busError => halt .resultError s

end Sys2Proof.Machine
end

