-- ==== Sys2Proof/Machine/Posting.lean ====
section
/-! DEFINITION. Posting (chapters 7 and 8): the writes of completion and event records, MESSAGE events,
and what the host writes in flight carry. -/

namespace Sys2Proof.Machine

/-! ## Completions -/

/-- The oldest completion's record is formed with the frame in progress and its write starts (R144, R147). -/
def startCompletion (s : State) : State :=
  match s.engine.postQueue with
  | [] => s
  | c :: rest =>
    if s.engine.mode != .halted && s.engine.compWrite.isNone then
      s.withEngine { s.engine with postQueue := rest, compWrite := some (c, s.frame) }
    else s

/-- COMPLETION_WRITE_START (R144). -/
def execCompletionWriteStart (s : State) : Answer := live s startCompletion

/-- The completion is posted (R136, R144): its reservation becomes a posted record. -/
def RingEngine.completionPosted (e : RingEngine) : RingEngine :=
  { e with
    compWrite := none
    postComp := nextSlot e.baseComp e.postComp
    reserved := e.reserved - 1 }

/-- COMPLETION_WRITE_END (R144, R146). -/
def execCompletionWriteEnd (how : BusEnd) (s : State) : Answer :=
  live s fun s =>
    if s.engine.compWrite.isSome then
      match how with
      | .ok => s.withEngine s.engine.completionPosted
      | .busError => halt .postError s
    else s

/-! ## Events -/

/-- The first source of the pending set that has an entry (R153). -/
def EventUnit.first (u : EventUnit) : Option (Fin 40) :=
  (List.finRange 40).find? fun i => (u.set.get i).isSome

/-- The pending entry of the first source leaves the set and its write starts (R153). -/
def EventUnit.drain (u : EventUnit) : EventUnit :=
  match u.first with
  | none => u
  | some i => { u with write := (u.set.get i).map EventWrite.event, set := u.set.set i none }

/-- An event write starts from the pending set if it can (R150, R153). -/
def startEvent (s : State) : State :=
  if canStartEvent s then s.withEvents s.events.drain else s

/-- EVENT_WRITE_START (R153). -/
def execEventWriteStart (s : State) : Answer := live s startEvent

/-- The links in the order in which their inbound queues are examined (R154). -/
def messageOrder (pointer : LinkId) : List LinkId :=
  (List.finRange 8).map fun i => pointer + i

/-- The link whose message is served next (R154). -/
def messageLink (links : Table 8 Link) (pointer : LinkId) : Option LinkId :=
  (messageOrder pointer).find? fun n => !(links.get n).inQueue.isEmpty

/-- A MESSAGE event is formed and its write starts (R154): the message stays at the head of its queue. -/
def serveMessage (s : State) : State :=
  match messageLink s.links s.events.pointer with
  | none => s
  | some n =>
    s.withEvents { s.events with
      write := (s.links.get n).inQueue.head?.map (EventWrite.message n)
      pointer := n + 1 }

/-- A MESSAGE event is formed if the Event Unit can start a write and holds no pending entry (R154). -/
def startMessage (s : State) : State :=
  if canStartEvent s && s.events.quietSet then serveMessage s else s

/-- MESSAGE_EVENT (R154). -/
def execMessageEvent (s : State) : Answer := live s startMessage

/-- A message that has been written leaves its queue (R124, R154). -/
def deliver (w : EventWrite) (s : State) : State :=
  match w with
  | .event _ => s
  | .message n _ =>
    s.setLink n { s.links.get n with inQueue := (s.links.get n).inQueue.drop 1 }

/-- The record in flight is posted (R150). -/
def eventPosted (w : EventWrite) (s : State) : State :=
  (deliver w s).withEvents { s.events with
    write := none
    post := nextSlot s.engine.baseEvent s.events.post }

/-- EVENT_WRITE_END (R150, R155). -/
def execEventWriteEnd (how : BusEnd) (s : State) : Answer :=
  live s fun s =>
    match s.events.write with
    | none => s
    | some w =>
      match how with
      | .ok => eventPosted w s
      | .busError => halt .postError s

/-! ## What the host sees written -/

/-- A host write in flight: its address and its bytes. -/
structure HostWrite where
  address : Nat
  bytes : List Byte
  deriving DecidableEq, Repr

/-- The completion record in flight (R129, R143). -/
def completionWrite (s : State) : List HostWrite :=
  match s.engine.compWrite with
  | none => []
  | some (c, frame) =>
    [⟨ringAddress s.engine.baseComp + 16 * s.engine.postComp, completionBytes c frame⟩]

/-- The event record in flight (R129, R148). -/
def eventWrite (s : State) : List HostWrite :=
  match s.events.write with
  | none => []
  | some w => [⟨ringAddress s.engine.baseEvent + 64 * s.events.post, w.bytes⟩]

/-- The route record in flight (R20, R175). -/
def routeWrite (s : State) : List HostWrite :=
  match s.core.slot with
  | none => []
  | some r => [⟨r.address.toNat, routeRecordBytes r.link r.channel r.route⟩]

/-- The run in flight to a tap's buffer (R61, R175). -/
def tapWrite (s : State) (n : TapId) : List HostWrite :=
  if (s.taps.get n).writing then
    match runsToWrite s n with
    | [] => []
    | run :: _ => [⟨run.address.toNat, runBytes run.samples⟩]
  else []

/-- The host writes in flight (R160): the host memory itself is the host's (log entry 5). -/
def State.hostWrites (s : State) : List HostWrite :=
  completionWrite s ++ eventWrite s ++ routeWrite s ++ (List.finRange 16).flatMap (tapWrite s)

/-- The address a command read in flight reads (R129, R133). -/
def fetchAddress (s : State) : Option Nat :=
  s.engine.fetch.map fun f =>
    match f.1 with
    | .a => ringAddress s.engine.baseA + 64 * f.2
    | .b => ringAddress s.engine.baseB + 64 * f.2

end Sys2Proof.Machine
end

