-- ==== Sys2Proof/Machine/Engine.lean ====
section
/-! DEFINITION. Engine control (chapter 9): ENABLE and the stop, the writes of the register window, engine
reset, device reset and the RESET_N pin. -/

namespace Sys2Proof.Machine

/-! ## ENABLE -/

/-- CIE, EIE and HIE as a CONTROL write stores them (R159, R162). -/
def storeEnables (n : Enables) (s : State) : State :=
  s.withEngine { s.engine with cie := n.cie, eie := n.eie, hie := n.hie }

/-- ENABLE written as 1 (R162). -/
def RingEngine.setEnable (e : RingEngine) : RingEngine :=
  match e.mode with
  | .stopped => e.start
  | .running => e
  | .stopping | .halted => { e with enable := true }

/-- ENABLE_SET (R162). -/
def execEnableSet (n : Enables) (s : State) : Answer :=
  live s fun s =>
    let s := storeEnables n s
    s.withEngine s.engine.setEnable

/-- ENABLE written as 0 (R163). -/
def RingEngine.clearEnable (e : RingEngine) : RingEngine :=
  { e with enable := false, mode := if e.mode = .running then .stopping else e.mode }

/-- ENABLE_CLEAR (R163): with no fetch in flight the stop ends in the same event. -/
def execEnableClear (n : Enables) (s : State) : Answer :=
  live s fun s =>
    let s := storeEnables n s
    stopIfDue (s.withEngine s.engine.clearEnable)

/-- INTERRUPT_ENABLE_WRITE (R159, R170): ENABLE is left as it is. -/
def execInterruptEnableWrite (n : Enables) (s : State) : Answer := live s (storeEnables n)

/-! ## Ring configuration and indices -/

/-- Bytes of one slot (R129). -/
def slotBytes (ring : Ring) : Nat :=
  match ring with
  | .ringA | .ringB | .event => 64
  | .completion => 16

/-- The ring lies below the top of the address space, or is left unconfigured (R165). -/
def ringFits (ring : Ring) (value : Word) : Bool :=
  match ringSize value with
  | none => true
  | some n => decide (ringAddress value + n * slotBytes ring ≤ 2 ^ 32)

/-- A base register write is accepted (R165). -/
def baseAccepted (ring : Ring) (value : Word) (s : State) : Bool :=
  s.engine.mode == .stopped && quiet s && ringFits ring value

/-- The accepted write at the Ring Engine (R165): base stored, the ring's index and position 0. The event
post position is the Event Unit's. -/
def RingEngine.setBase (e : RingEngine) (ring : Ring) (value : Word) : RingEngine :=
  match ring with
  | .ringA => { e with baseA := value, prodA := 0, fetchA := 0, cfgIgnored := false }
  | .ringB => { e with baseB := value, prodB := 0, fetchB := 0, cfgIgnored := false }
  | .completion => { e with baseComp := value, consComp := 0, postComp := 0, cfgIgnored := false }
  | .event => { e with baseEvent := value, consEvent := 0, cfgIgnored := false }

/-- The accepted write at the Event Unit (R155, R165): only the event ring's reaches it. -/
def reconfigureEvents (ring : Ring) (s : State) : State :=
  match ring with
  | .event =>
    let s := returnEventWrite s
    s.withEvents { s.events with post := 0 }
  | .ringA | .ringB | .completion => s

/-- A base register write (R165). -/
def writeBase (ring : Ring) (value : Word) (s : State) : State :=
  if baseAccepted ring value s then
    reconfigureEvents ring (s.withEngine (s.engine.setBase ring value))
  else s.withEngine { s.engine with cfgIgnored := true }

/-- RING_BASE_WRITE (R165). -/
def execRingBaseWrite (ring : Ring) (value : Word) (s : State) : Answer :=
  live s (writeBase ring value)

/-- The base register of a command ring. -/
def RingEngine.baseOf (e : RingEngine) (ring : CmdRing) : Word :=
  match ring with
  | .a => e.baseA
  | .b => e.baseB

/-- The producer index of a command ring stored. -/
def RingEngine.setProd (e : RingEngine) (ring : CmdRing) (i : Nat) : RingEngine :=
  match ring with
  | .a => { e with prodA := i }
  | .b => { e with prodB := i }

/-- A producer index write (R131). -/
def writeProd (ring : CmdRing) (value : Word) (s : State) : State :=
  match ringSize (s.engine.baseOf ring) with
  | none => s
  | some n =>
    if value.toNat < n then s.withEngine (s.engine.setProd ring value.toNat)
    else halt .badTail s

/-- RING_PROD_WRITE (R131). -/
def execRingProdWrite (ring : CmdRing) (value : Word) (s : State) : Answer :=
  live s (writeProd ring value)

/-- A consumer index value that can be stored (R131): below N, and not passing the post position. -/
def consumerAccepted (n old posted value : Nat) : Bool :=
  decide (value < n) && decide (ringDistance n old value ≤ ringDistance n old posted)

/-- COMP_CONS written (R131). -/
def writeCompCons (value : Word) (s : State) : State :=
  match ringSize s.engine.baseComp with
  | none => s
  | some n =>
    if consumerAccepted n s.engine.consComp s.engine.postComp value.toNat then
      s.withEngine { s.engine with consComp := value.toNat }
    else halt .badHead s

/-- COMP_CONS_WRITE (R131). -/
def execCompConsWrite (value : Word) (s : State) : Answer := live s (writeCompCons value)

/-- EVENT_CONS written (R131). -/
def writeEventCons (value : Word) (s : State) : State :=
  match ringSize s.engine.baseEvent with
  | none => s
  | some n =>
    if consumerAccepted n s.engine.consEvent s.events.post value.toNat then
      s.withEngine { s.engine with consEvent := value.toNat }
    else halt .badHead s

/-- EVENT_CONS_WRITE (R131). -/
def execEventConsWrite (value : Word) (s : State) : Answer := live s (writeEventCons value)

/-- UNSTORED_REGISTER_WRITE (R159): not stored, changes nothing. -/
def execUnstoredRegisterWrite (offset _value : Word) (s : State) : Answer :=
  if offsetUnstored offset then live s id else .fault .illFormed

/-! ## Engine reset -/

/-- The Ring Engine after engine reset (R168): enables and ring configuration are kept. -/
def RingEngine.engineReset (e : RingEngine) : RingEngine :=
  { RingEngine.reset with
    cie := e.cie
    eie := e.eie
    hie := e.hie
    baseA := e.baseA
    baseB := e.baseB
    baseComp := e.baseComp
    baseEvent := e.baseEvent }

/-- A tap after engine reset (R66): open and empty, or closed. -/
def Tap.engineReset (t : Tap) : Tap :=
  if t.state = .closed then Tap.reset
  else { Tap.reset with state := .waiting, use := t.use }

/-- A message whose completion engine reset has discarded (R128). -/
def OutMessage.disowned (m : OutMessage) : OutMessage := { m with owed := none }

/-- A Link Unit after engine reset (R107, R128): the owed completions are discarded. -/
def Link.engineReset (l : Link) : Link :=
  { l with op := none, outQueue := l.outQueue.map OutMessage.disowned }

/-- The Event Unit after engine reset (R158): the message pointer is kept. -/
def EventUnit.engineReset (u : EventUnit) : EventUnit := { EventUnit.reset with pointer := u.pointer }

/-- Engine reset (R168): frame number, routes, pool and sample registers are kept. -/
def resetEngine (s : State) : State :=
  { s with
    engine := s.engine.engineReset
    sched := Scheduler.reset
    core := { s.core with slot := none }
    taps := s.taps.map Tap.engineReset
    closing := []
    links := s.links.map Link.engineReset
    events := s.events.engineReset }

/-- ENGINE_RESET (R168). -/
def execEngineReset (s : State) : Answer := live s resetEngine

/-! ## Device reset -/

/-- The soft device reset (R169): the base registers stay as they are. -/
def resetDevice (s : State) : State :=
  { State.reset with
    engine := { RingEngine.reset with
      baseA := s.engine.baseA
      baseB := s.engine.baseB
      baseComp := s.engine.baseComp
      baseEvent := s.engine.baseEvent }
    pending := s.pending }

/-- DEVICE_RESET (R169). -/
def execDeviceReset (s : State) : Answer := live s resetDevice

/-- RESET_N (R169): the pin goes low and holds the hub, with the pin form's values. -/
def execResetN (s : State) : Answer :=
  .next { State.reset with held := true, pending := s.pending }

/-- RESET_N_RELEASE (R169): a held hub starts from the pin form's values. -/
def execResetNRelease (s : State) : Answer :=
  if s.held then .next { State.reset with pending := s.pending } else .next s

end Sys2Proof.Machine
end

