-- ==== Sys2Proof/Machine/Frames.lean ====
section
/-! DEFINITION. The events of the line and of the Time Base: upstream frames and activity, supervision
timers, message limits, and the start of a frame with all that takes it. -/

namespace Sys2Proof.Machine

/-! ## The line -/

/-- CANDIDATE_MARKER (R77). -/
def execCandidateMarker (n : LinkId) (bits : Byte) (s : State) : Answer :=
  live s fun s => s.onLink n (lineCandidate bits)

/-- UPSTREAM_FRAME (R76). -/
def execUpstreamFrame (n : LinkId) (f : LineFrame) (s : State) : Answer :=
  live s fun s => s.onLink n (lineFrame n s.frame f)

/-- LINE_ACTIVITY (R85, R94). -/
def execLineActivity (n : LinkId) (s : State) : Answer :=
  live s fun s => s.onLink n (lineActivity n)

/-! ## Supervision timers -/

/-- CALL_TIMER_EXPIRES (R95). -/
def execCallTimerExpires (n : LinkId) (s : State) : Answer :=
  live s fun s => s.onLink n (expireIfDue n .call)

/-- TRAIN_TIMER_EXPIRES (R96). -/
def execTrainTimerExpires (n : LinkId) (s : State) : Answer :=
  live s fun s => s.onLink n (expireIfDue n .train)

/-- HOLD_TIMER_EXPIRES (R98). -/
def execHoldTimerExpires (n : LinkId) (s : State) : Answer :=
  live s fun s => s.onLink n (expireIfDue n .hold)

/-- CLOSE_TIMER_EXPIRES (R99). -/
def execCloseTimerExpires (n : LinkId) (s : State) : Answer :=
  live s fun s => s.onLink n (expireIfDue n .close)

/-- LOOP_TIMER_EXPIRES (R101). -/
def execLoopTimerExpires (n : LinkId) (s : State) : Answer :=
  live s fun s => s.onLink n (expireIfDue n .loop)

/-! ## Message limits -/

/-- The channel settles a message at the next frame start (R117): it is a superframe start, and the state
is one in which it settles. -/
def settlesNext (frame : Word) (l : Link) : Bool :=
  phaseOf (frame + 1) == 0 && (l.state == .active || l.state == .loop)

/-- The retry limit at the superframe start now at hand (R117, log entry 4). -/
def retryLimitIfDue (frame : Word) (l : Link) : LinkStep :=
  if settlesNext frame l then settleRetry l else (l, [])

/-- RETRY_LIMIT (R117). -/
def execRetryLimit (n : LinkId) (s : State) : Answer :=
  live s fun s => s.onLink n (retryLimitIfDue s.frame)

/-- The not-ready limit at the superframe start now at hand (R117, log entry 4). The retry limit is
settled before it. -/
def notReadyLimitIfDue (frame : Word) (l : Link) : LinkStep :=
  if settlesNext frame l && !retryDue l then settleNotReady l else (l, [])

/-- NOT_READY_LIMIT (R117). -/
def execNotReadyLimit (n : LinkId) (s : State) : Answer :=
  live s fun s => s.onLink n (notReadyLimitIfDue s.frame)

/-! ## What is still due when a frame starts -/

/-- The same step at every link, link 0 first. -/
def eachLink (f : LinkId → Link → LinkStep) (s : State) : State :=
  (List.finRange 8).foldl (fun t n => t.onLink n (f n)) s

/-- The same step at every tap, tap 0 first. -/
def eachTap (f : TapId → State → State) (s : State) : State :=
  (List.finRange 16).foldl (fun t n => f n t) s

/-- Host transfers of taps that can start (R61, R62). -/
def startTapTransfers (n : TapId) (s : State) : State := startTapRead n (startWrite n s)

/-- The steps that the spec takes at once and that have not been taken in the frame now ending are taken
before the next frame starts (log entry 3): timers, looped frames, the parked command, the end of a stop, and the starts
of host transfers. -/
def catchUp (s : State) : State :=
  let s := eachLink expireAnyDue s
  let s := eachLink (fun n => examineLoop n s.frame) s
  let s := stopIfDue (releaseParked s)
  let s := eachTap startTapTransfers (startFetch s)
  startMessage (startEvent (startCompletion s))

/-! ## The frame -/

/-- The Time Base (R171): the frame number rises by 1 and wraps. -/
def advanceFrame (s : State) : State := { s with frame := s.frame + 1 }

/-- The eight Link Units take the frame start (R70 to R73, R92, R117): the bearer is the downstream
registers as the frame pass before has left them. -/
def startLinks (s : State) : State :=
  eachLink (fun n => linkFrameStart s.frame (s.core.down.get n)) s

/-- The Edit Scheduler takes the frame start unless the engine is HALTED (R36, R37). -/
def startSchedule (s : State) : State := if s.engine.mode = .halted then s else cutOver s

/-- What each tap supplies to the frame pass (R15): 0 while the engine is HALTED. -/
def tapSupplies (s : State) : Table 16 Sample :=
  s.taps.map fun t => if s.engine.mode = .halted then 0 else supplyOf t

/-- The frame pass (R7): the 96 downstream sample registers. -/
def framePass (s : State) : State :=
  s.withCore { s.core with down := mixAll s.links (tapSupplies s) s.core.routes }

/-- The sample this tap is given by the frame pass just run (R17). -/
def givenSample (s : State) (t : Tap) : Sample :=
  match t.use with
  | none => 0
  | some use => captureSample s.links s.core.down use

/-- The step of every tap in this frame, all from the same state (R58 to R62). -/
def tapSteps (s : State) : List ((Tap × List Effect) × Bool) :=
  (List.finRange 16).map fun n => tapFrame n (givenSample s (s.taps.get n)) (s.taps.get n)

/-- The taps take the frame; a late transfer then halts the engine (R61, R62, log entry 9). That tap 0 hands
its completions and events first is the model's choice (log entry 21). -/
def runTaps (s : State) : State :=
  let steps := tapSteps s
  let taps := Table.ofFn fun n => (tapFrame n (givenSample s (s.taps.get n)) (s.taps.get n)).1.1
  let s := emit (steps.flatMap fun p => p.1.2) (s.withTaps taps)
  if steps.any fun p => p.2 then halt .tapError s else s

/-- The Tap Unit takes the frame unless the engine is HALTED (R65). -/
def startTaps (s : State) : State := if s.engine.mode = .halted then s else runTaps s

/-- The start of a frame at every block that takes it (R6, R7, R171, log entry 8). -/
def startFrame (s : State) : State :=
  startTaps (framePass (startSchedule (startLinks (advanceFrame s))))

/-- FRAME_START (R171). -/
def execFrameStart (s : State) : Answer := live s fun s => startFrame (catchUp s)

end Sys2Proof.Machine
end

