-- ==== Sys2Proof/Machine/Dispatch.lean ====
section
/-! DEFINITION. The meaning of each command, one arm for each constructor of Instr. -/

namespace Sys2Proof.Machine

def exec (i : Instr) (s : State) : Host.Outcome State Fault Refusal :=
  match i with
  | .frameStart => Sys2Proof.Machine.execFrameStart s
  | .callTimerExpires link => Sys2Proof.Machine.execCallTimerExpires link s
  | .trainTimerExpires link => Sys2Proof.Machine.execTrainTimerExpires link s
  | .holdTimerExpires link => Sys2Proof.Machine.execHoldTimerExpires link s
  | .closeTimerExpires link => Sys2Proof.Machine.execCloseTimerExpires link s
  | .loopTimerExpires link => Sys2Proof.Machine.execLoopTimerExpires link s
  | .retryLimit link => Sys2Proof.Machine.execRetryLimit link s
  | .notReadyLimit link => Sys2Proof.Machine.execNotReadyLimit link s
  | .candidateMarker link bits => Sys2Proof.Machine.execCandidateMarker link bits s
  | .upstreamFrame link frame => Sys2Proof.Machine.execUpstreamFrame link frame s
  | .lineActivity link => Sys2Proof.Machine.execLineActivity link s
  | .fetchStart => Sys2Proof.Machine.execFetchStart s
  | .fetchError => Sys2Proof.Machine.execFetchError s
  | .badKind kind record => Sys2Proof.Machine.execBadKind kind record s
  | .setRoute record => Sys2Proof.Machine.execSetRoute record s
  | .clearRoute record => Sys2Proof.Machine.execClearRoute record s
  | .muteRoute record => Sys2Proof.Machine.execMuteRoute record s
  | .openTap record => Sys2Proof.Machine.execOpenTap record s
  | .closeTap record => Sys2Proof.Machine.execCloseTap record s
  | .cancelGroup record => Sys2Proof.Machine.execCancelGroup record s
  | .readRoute record => Sys2Proof.Machine.execReadRoute record s
  | .fence record => Sys2Proof.Machine.execFence record s
  | .startLink record => Sys2Proof.Machine.execStartLink record s
  | .loopLink record => Sys2Proof.Machine.execLoopLink record s
  | .stopLink record => Sys2Proof.Machine.execStopLink record s
  | .queryLink record => Sys2Proof.Machine.execQueryLink record s
  | .setLamps record => Sys2Proof.Machine.execSetLamps record s
  | .sendMessage record => Sys2Proof.Machine.execSendMessage record s
  | .creditTap record => Sys2Proof.Machine.execCreditTap record s
  | .parkedEditRetry => Sys2Proof.Machine.execParkedEditRetry s
  | .parkedReadRouteTaken => Sys2Proof.Machine.execParkedReadRouteTaken s
  | .fenceRelease => Sys2Proof.Machine.execFenceRelease s
  | .routeRecordWriteEnd how => Sys2Proof.Machine.execRouteRecordWriteEnd how s
  | .captureWriteStart tap => Sys2Proof.Machine.execCaptureWriteStart tap s
  | .tapWriteEnd tap how => Sys2Proof.Machine.execTapWriteEnd tap how s
  | .playoutReadStart tap => Sys2Proof.Machine.execPlayoutReadStart tap s
  | .tapReadEnd tap how => Sys2Proof.Machine.execTapReadEnd tap how s
  | .completionWriteStart => Sys2Proof.Machine.execCompletionWriteStart s
  | .completionWriteEnd how => Sys2Proof.Machine.execCompletionWriteEnd how s
  | .eventWriteStart => Sys2Proof.Machine.execEventWriteStart s
  | .messageEvent => Sys2Proof.Machine.execMessageEvent s
  | .eventWriteEnd how => Sys2Proof.Machine.execEventWriteEnd how s
  | .enableSet enables => Sys2Proof.Machine.execEnableSet enables s
  | .enableClear enables => Sys2Proof.Machine.execEnableClear enables s
  | .stopEnd => Sys2Proof.Machine.execStopEnd s
  | .interruptEnableWrite enables => Sys2Proof.Machine.execInterruptEnableWrite enables s
  | .engineReset => Sys2Proof.Machine.execEngineReset s
  | .deviceReset => Sys2Proof.Machine.execDeviceReset s
  | .resetN => Sys2Proof.Machine.execResetN s
  | .ringBaseWrite ring value => Sys2Proof.Machine.execRingBaseWrite ring value s
  | .ringProdWrite ring value => Sys2Proof.Machine.execRingProdWrite ring value s
  | .compConsWrite value => Sys2Proof.Machine.execCompConsWrite value s
  | .eventConsWrite value => Sys2Proof.Machine.execEventConsWrite value s
  | .unstoredRegisterWrite offset value => Sys2Proof.Machine.execUnstoredRegisterWrite offset value s
  | .resetNRelease => Sys2Proof.Machine.execResetNRelease s

end Sys2Proof.Machine
end

