-- ==== Sys2Proof/Safety.lean ====
section
/-! DEFINITION. What counts as a good state: the invariants of the hub that every step keeps, each from
the rules it says, and the terms in which the statements speak. -/

namespace Sys2Proof.Machine

/-! ## Rings -/

/-- An index of a ring is a slot number of it; on an unconfigured ring it is 0 (R130, R131, R165). -/
def fitsRing (base : Word) (i : Nat) : Prop :=
  match ringSize base with
  | none => i = 0
  | some n => i < n

/-- All eight indices and positions are slot numbers of their rings (R130). -/
structure RingsGood (s : State) : Prop where
  prodA : fitsRing s.engine.baseA s.engine.prodA
  fetchA : fitsRing s.engine.baseA s.engine.fetchA
  prodB : fitsRing s.engine.baseB s.engine.prodB
  fetchB : fitsRing s.engine.baseB s.engine.fetchB
  consComp : fitsRing s.engine.baseComp s.engine.consComp
  postComp : fitsRing s.engine.baseComp s.engine.postComp
  consEvent : fitsRing s.engine.baseEvent s.engine.consEvent
  postEvent : fitsRing s.engine.baseEvent s.events.post

/-! ## Engine state -/

/-- No host transfer is in flight and nothing waits to be posted (R167). -/
structure TransfersOff (s : State) : Prop where
  fetch : s.engine.fetch = none
  queue : s.engine.postQueue = []
  completion : s.engine.compWrite = none
  event : s.events.write = none
  slot : s.core.slot = none
  taps : ∀ n, (s.taps.get n).writing = false ∧ (s.taps.get n).reading = false

/-- What each engine state goes with (R133, R161 to R163, R166, R167): STOPPING lasts only as long as the fetch
that it waits for. -/
structure EngineGood (s : State) : Prop where
  cause : s.engine.mode = .halted ↔ s.engine.cause ≠ .none
  halted : s.engine.mode = .halted → TransfersOff s
  stopped : s.engine.mode = .stopped → s.engine.enable = false ∧ s.engine.fetch = none
  running : s.engine.mode = .running → s.engine.enable = true ∧ s.engine.startRefused = false
  stopping : s.engine.mode = .stopping → s.engine.fetch.isSome = true
  configured : s.engine.mode = .running ∨ s.engine.mode = .stopping →
    (ringSize s.engine.baseComp).isSome ∧ (ringSize s.engine.baseEvent).isSome

/-! ## The schedule -/

/-- The schedule's places (R29, R34). -/
structure PlacesGood (d : Scheduler) : Prop where
  places : d.places ≤ Config.schedulePlaces
  staged : d.staged ≤ Config.stagingPlaces
  groups : ∀ g ∈ d.list, 1 ≤ g.members.length ∧ g.members.length ≤ Config.groupLimit
  assembly : ∀ a, d.assembly = some a →
    1 ≤ a.members.length ∧ a.members.length ≤ Config.groupLimit
  tail : d.overflow = true → d.assembly = none

/-- The parked command (R35, R141): while one is parked nothing is fetched from ring A, and the group that
a parked edit is to join or to open has room for it. -/
structure ParkedGood (s : State) : Prop where
  alone : ∀ slot, s.engine.fetch = some (.a, slot) → s.engine.parked = none
  edit : ∀ e, s.engine.parked = some (.edit e) → s.sched.overflow = false ∧
    ∀ a, s.sched.assembly = some a → a.members.length < Config.groupLimit
  others : ∀ p, s.engine.parked = some p → (∀ e, p ≠ .edit e) →
    s.sched.overflow = false ∧ s.sched.assembly = none

/-- Every scheduled group lies 1 to 2^24 frames ahead, and the list stands in the order of those
distances (R33, R34, R36). -/
structure OrderGood (now : Word) (list : List Group) : Prop where
  ahead : ∀ g ∈ list, 1 ≤ frameDistance now g.due ∧ frameDistance now g.due ≤ Config.horizon
  sorted : list.Pairwise fun g h => frameDistance now g.due ≤ frameDistance now h.due

/-! ## The matrix -/

/-- Source entries held by all routes (R4). -/
def entriesInUse (routes : Table 8 (Table 12 (Option Route))) : Nat :=
  (routes.items.map fun row => (row.items.map entriesHeld).sum).sum

/-- The pool's free count is 256 minus the entries in use (R4). -/
def PoolGood (c : SwitchCore) : Prop := c.free + entriesInUse c.routes = Config.poolSize

/-- A route has 1 to 4 source entries (R1). -/
def Route.sized (r : Route) : Prop := 1 ≤ r.entries.length ∧ r.entries.length ≤ 4

/-- An edit that sets a route carries one of 1 to 4 entries (R24). -/
def EditOp.sized (op : EditOp) : Prop :=
  match op with
  | .setRoute _ _ _ r => r.sized
  | _ => True

/-- Every route of the table and every route still to be set has 1 to 4 entries (R1, R24). -/
structure RoutesSized (s : State) : Prop where
  table : ∀ n c r, (s.core.routes.get n).get c = some r → r.sized
  list : ∀ g ∈ s.sched.list, ∀ m ∈ g.members, m.2.sized
  assembly : ∀ a, s.sched.assembly = some a → ∀ m ∈ a.members, ∀ op, m.2 = some op → op.sized
  parked : ∀ e, s.engine.parked = some (.edit e) → ∀ op, e.op = some op → op.sized

/-- Every playout tap that a route of the active table names is open as PLAYOUT (R15, R38, R53). -/
def RoutedTapsOpen (s : State) : Prop :=
  ∀ n c r, (s.core.routes.get n).get c = some r →
    ∀ e ∈ r.entries, ∀ t, e.source = .playout t → (s.taps.get t).plays = true

/-! ## Taps -/

/-- A buffer's counts (R49, R54, R61). -/
structure BufferGood (b : Buffer) : Prop where
  length : Config.bufferMin ≤ b.length ∧ b.length ≤ Config.bufferMax ∧ 8 ∣ b.length
  position : b.position ≤ b.length
  transferred : b.transferred ≤ b.length ∧ 8 ∣ b.transferred

/-- A tap context (R49, R55, R60, R61, R62): a playout tap holds no spent buffer. -/
structure TapGood (t : Tap) : Prop where
  closed : t.state = .closed ↔ t.use = none
  empty : t.state = .closed → t.buffers = [] ∧ t.gap = 0 ∧ t.collecting = [] ∧ t.runs = []
  buffers : t.buffers.length ≤ Config.bufferLimit
  each : ∀ b ∈ t.buffers, BufferGood b
  unspent : t.plays = true → ∀ b ∈ t.buffers, b.position < b.length
  gap : t.gap ≤ Config.gapMax
  collecting : t.collecting.length < Config.runLength
  runs : t.runs.length ≤ Config.runLimit
  reading : t.reading = true → t.plays = true ∧ t.runs.length < Config.runLimit

/-! ## Links -/

/-- The kind of the supervision timer that runs in a state (R92). -/
def timerKindOf (state : SessionState) (lock : Bool) : Option TimerKind :=
  match state with
  | .calling => some .call
  | .training => some .train
  | .degraded => some .hold
  | .closing => some .close
  | .loop => if lock then none else some .loop
  | .off | .listen | .active | .fault => none

/-- Whether a link operation can be pending in a state (R86, R103 to R105). -/
def opFits (l : Link) : Prop :=
  match l.op with
  | none => True
  | some o =>
    match o.kind with
    | .start => l.state = .calling ∨ l.state = .training
    | .loop => l.state = .loop ∧ l.loopLock = false
    | .stop => l.state = .closing ∧ l.side = some .hub

/-- The session record and the blocks that follow it (R71, R75, R85, R86, R90, R92, R109). -/
structure SessionGood (l : Link) : Prop where
  lock : l.loopLock = true → l.state = .loop
  side : l.side.isSome = true ↔ l.state = .closing
  reason : l.faultReason ≠ .none ↔ l.state = .fault
  report : l.reportKeys = true → l.state ≠ .off ∧ l.state ≠ .fault
  timer : l.timer.map Prod.fst = timerKindOf l.state l.loopLock
  op : opFits l
  framer : l.framer = if sendsIn l.state then .sending else .atRest
  detector : l.detector = if l.state = .listen then .armed else .off
  input : l.aligner.input = inputOf l.state
  heldFrame : sendsIn l.state = false → l.aligner = Aligner.reset
  filters : l.inService = false →
    l.takenWord = none ∧ l.candWord = none ∧ l.takenKeys = 0 ∧ l.candKeys = none
  keys : l.keyTable = if followsKeys l.state then l.takenKeys else 0
  service : l.state = .active → l.inService = true
  loopService : l.state = .loop → (l.loopLock = l.inService)

/-- The counts of the aligner and the block it collects (R78 to R83). -/
structure AlignerGood (a : Aligner) : Prop where
  confirm : a.confirm ≤ Config.confirmFrames
  confirming : a.frameAlign = .confirm → a.confirm < Config.confirmFrames
  score : a.score < Config.errorLimit
  markers : a.markers ≤ Config.markerGoal
  unlocked : a.superAlign = .search → a.markers < Config.markerGoal
  misses : a.superAlign = .sfLocked → a.misses < Config.missLimit
  phase : a.phase.isSome = (a.superAlign == .sfLocked)
  searching : a.frameAlign ≠ .locked → a.superAlign = .search
  block : ∀ b, a.upBlock = some b → ∃ p, a.phase = some p ∧ b.bytes.length = p.val + 1

/-- The message channel and its queues (R114, R116, R123, R124, R126). -/
structure MessagesGood (l : Link) : Prop where
  out : l.outQueue.length ≤ Config.outLimit
  inbound : l.inQueue.length ≤ Config.inLimit
  outState : l.outQueue ≠ [] → l.state = .active ∨ l.state = .degraded ∨ l.state = .loop
  outSize : ∀ m ∈ l.outQueue, 1 ≤ m.bytes.length ∧ m.bytes.length ≤ Config.messageMax
  inSize : ∀ m ∈ l.inQueue, 1 ≤ m.bytes.length ∧ m.bytes.length ≤ Config.messageMax
  assembly : l.chan.assembly.length ≤ Config.messageMax
  retry : l.chan.retry ≤ Config.retryLimit
  notReady : l.chan.notReady < Config.notReadyLimit

/-- A Link Unit in a good state. -/
structure LinkGood (l : Link) : Prop where
  session : SessionGood l
  aligner : AlignerGood l.aligner
  messages : MessagesGood l

/-! ## Credits -/

/-- 1 where something is there. -/
def oneIf {α : Type} (o : Option α) : Nat := if o.isSome then 1 else 0

/-- Completions a link owes: its pending operation and its queued messages (R86, R116, R128). -/
def Link.owes (l : Link) : Nat := oneIf l.op + l.outQueue.countP fun m => m.owed.isSome

/-- Completions that a closing group owes: its commands and the buffers not yet returned (R39, R52). -/
def ClosingGroup.owes (g : ClosingGroup) : Nat :=
  g.completions.length + (g.taps.map fun c => c.buffers.length).sum

/-- Commands fetched or being fetched whose completion is not yet posted (R136, R142, R164). -/
def State.owed (s : State) : Nat :=
  oneIf s.engine.fetch + s.engine.postQueue.length + oneIf s.engine.compWrite
    + s.sched.staged + oneIf s.engine.parked + oneIf s.core.slot
    + (s.taps.items.map fun t => t.buffers.length).sum
    + (s.closing.map ClosingGroup.owes).sum
    + (s.links.items.map Link.owes).sum

/-- The completion credits (R136, R142): every reserved credit belongs to one command that is owed its
completion, and posted and reserved completions leave one slot free. In a halt the reservations stay counted (R137). -/
structure CreditsGood (s : State) : Prop where
  bound : ∀ n, ringSize s.engine.baseComp = some n → s.engine.posted + s.engine.reserved ≤ n - 1
  unconfigured : ringSize s.engine.baseComp = none → s.engine.reserved = 0
  owed : s.engine.mode ≠ .halted → s.engine.reserved = s.owed

/-! ## All of it -/

/-- The invariant of the hub. -/
structure Good (s : State) : Prop where
  rings : RingsGood s
  engine : EngineGood s
  places : PlacesGood s.sched
  parked : ParkedGood s
  order : s.engine.mode ≠ .halted → OrderGood s.frame s.sched.list
  pool : PoolGood s.core
  sized : RoutesSized s
  routed : RoutedTapsOpen s
  taps : ∀ n, TapGood (s.taps.get n)
  links : ∀ n, LinkGood (s.links.get n)
  credits : CreditsGood s


/-! ## Terms of the statements -/

/-- The read of a command from a slot of this ring can end now: the hub runs, the engine is not HALTED,
and the read is in flight. In STOPPING the row that ends the read then ends the stop (R163): stopIfDue in the
statements, which changes nothing in any other state. -/
structure ReadInFlight (s : State) (ring : CmdRing) (slot : Nat) : Prop where
  running : s.held = false
  engine : s.engine.mode ≠ .halted
  fetch : s.engine.fetch = some (ring, slot)

/-- The state once a read of this ring has ended without error (R44, R130, R134). -/
def State.readEnded (s : State) (ring : CmdRing) : State :=
  { s with
    engine :=
      match ring with
      | .a =>
        { s.engine with
          fetch := none
          fetchA := nextSlot s.engine.baseA s.engine.fetchA
          prefer := .b
          outstanding := s.engine.outstanding + 1 }
      | .b =>
        { s.engine with
          fetch := none
          fetchB := nextSlot s.engine.baseB s.engine.fetchB
          prefer := .a } }

/-- Completions of ring-A commands in a list (R44). -/
def ringACount (cs : List Completion) : Nat := cs.countP fun c => c.id.ring == .a

/-- The state once these completions have been handed, while the engine is not HALTED (R44, R144): they
wait to be posted in the order handed, and ring-A commands are no longer counted. -/
def State.answered (s : State) (cs : List Completion) : State :=
  { s with
    engine :=
      { s.engine with
        outstanding := s.engine.outstanding - ringACount cs
        postQueue := s.engine.postQueue ++ cs } }

/-- The completions of an open group that is broken (R30). -/
def brokenCompletions (assembly : Option Assembly) : List Completion :=
  match assembly with
  | none => []
  | some a => a.members.map fun m => .plain m.1 .brokenChain 0

/-- The state once a command that is not an edit has been fetched from this ring (R29, R30): from ring A it
breaks an open group and ends the overflow tail. -/
def State.broken (s : State) (ring : CmdRing) : State :=
  match ring with
  | .b => s
  | .a =>
    ({ s with sched := { s.sched with assembly := none, overflow := false } }).answered
      (brokenCompletions s.sched.assembly)

/-- The record that a row of an edit carries, and the edit of its fields where they are good (R24 to R26). -/
def editOf (i : Instr) : Option (CommandRecord × Option EditOp) :=
  match i with
  | .setRoute r => some (r, parseSetRoute r)
  | .clearRoute r => some (r, parseClearRoute r)
  | .muteRoute r => some (r, parseMuteRoute r)
  | .openTap r => some (r, parseOpenTap r)
  | .closeTap r => some (r, parseCloseTap r)
  | _ => none

/-- The record that a row of any other command carries, the ring the command belongs to (none where it
belongs to both), and whether its fields are good (R138, R139). -/
def plainOf (i : Instr) : Option (CommandRecord × Option CmdRing × Bool) :=
  match i with
  | .cancelGroup r => some (r, none, (parseCancel r).isSome)
  | .readRoute r => some (r, some .a, (parseReadRoute r).isSome)
  | .fence r => some (r, some .a, (parseFence r).isSome)
  | .startLink r => some (r, some .b, (parseStart r).isSome)
  | .loopLink r => some (r, some .b, (parseLoop r).isSome)
  | .stopLink r => some (r, some .b, (parseLinkOnly r).isSome)
  | .queryLink r => some (r, some .b, (parseLinkOnly r).isSome)
  | .setLamps r => some (r, some .b, (parseLamps r).isSome)
  | .sendMessage r => some (r, some .b, (parseMessage r).isSome)
  | .creditTap r => some (r, some .b, (parseCredit r).isSome)
  | _ => none

/-- The assembly group once an edit of this record has opened or joined it (R28). -/
def joinedGroup (assembly : Option Assembly) (id : CmdId) (r : CommandRecord) (op : Option EditOp) :
    Assembly :=
  match assembly with
  | none => ⟨recLabel r, recScheduled r, recDue r, [(id, op)]⟩
  | some a => { a with members := a.members ++ [(id, op)] }

/-- The state with the engine halted for a cause (R166, R167). -/
def State.haltedBy (s : State) (cause : HaltCause) : State :=
  { s with
    engine :=
      { s.engine with
        mode := .halted
        cause := cause
        reserved := if s.engine.fetch.isSome then s.engine.reserved - 1 else s.engine.reserved
        fetch := none
        postQueue := []
        compWrite := none }
    core := { s.core with slot := none }
    taps := s.taps.map fun t => { t with writing := false, reading := false }
    events := (returnEventWrite s).events }

/-- A session that is over: the link in OFF or FAULT (R71, R75, R82, R87, R90, R100, R109, R112, R126). -/
def Link.atRest (l : Link) (state : SessionState) (why : FaultReason) : Link :=
  { l with
    state := state
    loopLock := false
    side := none
    faultReason := why
    reportKeys := false
    timer := none
    op := none
    takenWord := none
    candWord := none
    takenKeys := 0
    candKeys := none
    framer := .atRest
    block := none
    loopFrame := none
    detector := .off
    aligner := Aligner.reset
    inbound := if l.aligner.frameAlign = .locked then Table.fill 12 0 else l.inbound
    keyTable := 0
    lamps := if state = .off then 0 else l.lamps
    chan := { l.chan with assembly := [], discarding := false }
    outQueue := [] }

/-- The KEYS event of a key table that is released as a whole, where one is raised (R110, R111). -/
def keysReleased (n : LinkId) (l : Link) : List Effect :=
  if l.reportKeys = true ∧ l.keyTable ≠ 0 then [.event (.keys n 0 l.keyTable)] else []

/-- What a change of session state hands on, in the order of R102. -/
def handedOn (n : LinkId) (l : Link) (completions : List Effect) (new : SessionView)
    (reason : ChangeReason) : List Effect :=
  keysReleased n l ++ abandonQueue l.chan.segIndex l.outQueue ++ completions ++
    [.event (.linkState n ⟨l.state, l.loopLock⟩ new reason)]

/-- The completion of a link's pending operation, where there is one (R102). -/
def opCompletion (l : Link) (status : Status) (result : Word) : List Effect :=
  match l.op with
  | none => []
  | some o => [.complete (.plain o.id status result)]

/-- The bits of a byte, most significant first (R69). -/
def bitsOf (b : Byte) : List Bool := (List.range 8).map fun k => b.getLsbD (7 - k)

/-- UPSTREAM_FRAME with the frame `f` makes the aligner of the link `l` examine `g` (R74 to R76): on the line
`f` itself, on the internal loop the looped frame, which is then used up (log entry 7). `l'` is the link that examines. -/
def Examines (l : Link) (f g : LineFrame) (l' : Link) : Prop :=
  sendsIn l.state = true ∧
    ((l.aligner.input = .line ∧ g = f ∧ l' = l) ∨
      (l.aligner.input = .loopback ∧ l.loopFrame = some g ∧ l' = { l with loopFrame := none }))

/-- An aligner that has lost frame lock (R79, R81, R83). -/
def Aligner.lost (a : Aligner) : Aligner :=
  { a with
    frameAlign := .hunt
    score := 0
    superAlign := .search
    markers := 0
    sinceMarker := 0
    misses := 0
    phase := none
    upBlock := none }

/-- Every closed tap of the list waits for a write (R52): a run of its own is still to be written, or one of an
earlier close of its tap number (log entry 20). -/
def ClosingWaits (groups : List ClosingGroup) : Prop :=
  (∀ g ∈ groups, g.taps ≠ []) ∧
    ∀ before c after, (groups.flatMap fun g => g.taps) = before ++ c :: after →
      c.runs ≠ [] ∨ ∃ d ∈ before, d.tap = c.tap ∧ d.runs ≠ []

/-- The stop in the state `s` ends as from `u`, in which what was open has been answered (R162, R163). -/
def StopEndsAs (s u : State) : Prop :=
  let configured := ringSize s.engine.baseComp ≠ none ∧ ringSize s.engine.baseEvent ≠ none
  (s.engine.enable = false → exec .stopEnd s = .next { u with
    engine := { u.engine with mode := .stopped } }) ∧
  (s.engine.enable = true → configured → exec .stopEnd s = .next { u with
    engine := { u.engine with mode := .running, startRefused := false } }) ∧
  (s.engine.enable = true → ¬ configured → exec .stopEnd s = .next { u with
    engine := { u.engine with mode := .stopped, enable := false, startRefused := true } })

/-- A 16-bit field in host memory, low byte first (R172). -/
def lowFirst (h : Half) : List Byte := [h.extractLsb' 0 8, h.extractLsb' 8 8]

/-- Bytes 0 to 7 of an event record (10.4). -/
def recordHead (kind who count : Nat) (frame : Word) : List Byte :=
  [BitVec.ofNat 8 kind, BitVec.ofNat 8 who] ++ lowFirst (BitVec.ofNat 16 count) ++
    [frame.extractLsb' 0 8, frame.extractLsb' 8 8, frame.extractLsb' 16 8, frame.extractLsb' 24 8]

end Sys2Proof.Machine
end

