-- ==== Sys2Proof/Certificates/Slice0/Obligations.lean ====
section
/-! DEFINITION. The statements for the provers, each from the rules of spec/. -/

section Statements

open Sys2Proof Sys2Proof.Machine

/-! ## Steps and resets -/

/-- One step takes the command at the front of the queue; with an empty queue the hub idles, which is the
model's choice (log entry 1). -/
def Obligations.StepTakesTheFrontCommand : Prop :=
  (∀ (c : Instr) (rest : List Instr) (s : State), s.pending = c :: rest →
    step s = exec c (s.withPending rest)) ∧
  ∀ s : State, s.pending = [] → step s = .next s

/-- Every command that spells an event of its row answers a next state, in every state; a term that spells
none answers the fault (log entry 14). No command touches the queue of commands that wait (log entry 1). -/
def Obligations.WellFormedCommandsAnswerNext : Prop :=
  (∀ (c : Instr) (s : State),
    (c.wellFormed = true → ∃ t, exec c s = .next t) ∧
    (c.wellFormed = false → exec c s = .fault .illFormed)) ∧
  (∀ (c : Instr) (s t : State), exec c s = .next t → t.pending = s.pending)

/-- While RESET_N is held low the hub takes nothing but the pin (R169, log entry 16). -/
def Obligations.HeldHubTakesNothing : Prop :=
  ∀ (c : Instr) (s : State), s.held = true → c.wellFormed = true → c ≠ .resetN → c ≠ .resetNRelease →
    exec c s = .next s

/-- The hub right after the pin form of device reset (R169, R171). -/
def Obligations.ResetLeavesTheseValues : Prop :=
  (∀ o ∈ [0x04, 0x0C, 0x10, 0x14, 0x18, 0x1C, 0x20, 0x24, 0x28, 0x2C, 0x30, 0x34, 0x38, 0x3C],
    readRegister State.reset o = 0) ∧
  readRegister State.reset 0x00 = 0x0CA78120 ∧ readRegister State.reset 0x08 = 0x100 ∧
  State.reset.interrupt = false ∧ State.reset.held = false ∧ State.reset.frame = 0 ∧
  State.reset.engine.mode = .stopped ∧ State.reset.engine.cause = .none ∧
  State.reset.engine.reserved = 0 ∧ State.reset.engine.parked = none ∧
  State.reset.engine.prefer = .a ∧ State.reset.engine.outstanding = 0 ∧
  (∀ n c, (State.reset.core.routes.get n).get c = none ∧ (State.reset.core.down.get n).get c = 0) ∧
  State.reset.core.free = 256 ∧ State.reset.core.slot = none ∧
  State.reset.sched.list = [] ∧ State.reset.sched.assembly = none ∧
  State.reset.sched.overflow = false ∧ State.reset.sched.staged = 0 ∧
  (∀ n, (State.reset.taps.get n).state = .closed) ∧
  (∀ n, (State.reset.links.get n).state = .off ∧ (State.reset.links.get n).framer = .atRest ∧
    (State.reset.links.get n).detector = .off ∧ (State.reset.links.get n).aligner.frameAlign = .hunt ∧
    (State.reset.links.get n).callLength = 500 ∧ (State.reset.links.get n).keyTable = 0 ∧
    (State.reset.links.get n).lamps = 0 ∧ (State.reset.links.get n).outQueue = [] ∧
    (State.reset.links.get n).inQueue = []) ∧
  (∀ i, State.reset.events.set.get i = none) ∧ State.reset.events.pointer = 0 ∧
  State.reset.hostWrites = []

/-- Engine reset keeps the frame number, the routes, the sessions, the enables and the ring configuration,
and discards what the Ring Engine, the scheduler, the taps and the Event Unit held (R168). Device reset in its two
forms (R169). That the values of the pin form stand from RESET_N on, and that RESET_N_RELEASE on a hub not held changes
nothing, are the model's choice (log entry 16), and so is the queue of commands that wait, which no reset drops (log
entry 1). -/
def Obligations.ResetsLeaveWhatTheySay : Prop :=
  (∀ s : State, s.held = false → exec .engineReset s = .next { s with
    engine := { RingEngine.reset with
      cie := s.engine.cie
      eie := s.engine.eie
      hie := s.engine.hie
      baseA := s.engine.baseA
      baseB := s.engine.baseB
      baseComp := s.engine.baseComp
      baseEvent := s.engine.baseEvent }
    sched := ⟨none, false, []⟩
    core := { s.core with slot := none }
    taps := s.taps.map fun t =>
      if t.state = .closed then Tap.reset else ⟨.waiting, t.use, [], 0, [], [], false, false⟩
    closing := []
    links := s.links.map fun l =>
      { l with op := none, outQueue := l.outQueue.map fun m => { m with owed := none } }
    events := ⟨0, none, Table.fill 40 none, s.events.pointer⟩ }) ∧
  ((∀ s : State, s.held = false → exec .deviceReset s = .next { State.reset with
    engine := { RingEngine.reset with
      baseA := s.engine.baseA
      baseB := s.engine.baseB
      baseComp := s.engine.baseComp
      baseEvent := s.engine.baseEvent }
    pending := s.pending }) ∧
  (∀ s : State, exec .resetN s = .next { State.reset with held := true, pending := s.pending }) ∧
  (∀ s : State, s.held = true →
    exec .resetNRelease s = .next { State.reset with pending := s.pending }) ∧
  (∀ s : State, s.held = false → exec .resetNRelease s = .next s))

/-! ## What every step keeps -/

/-- The invariant of the hub holds after reset, and no closed tap waits. -/
def Obligations.GoodAtReset : Prop := Good State.reset ∧ ClosingWaits State.reset.closing

/-- The host indices and the hub positions stay slot numbers of their rings (R130, R131, R165). -/
def Obligations.StepsKeepRingIndices : Prop :=
  ∀ s t : State, RingsGood s → step s = .next t → RingsGood t

/-- Each engine state keeps what it goes with: a halted engine has no transfer in flight, a running one has
both its posting rings, and one in STOPPING has the fetch in flight that its stop waits for (R133, R161 to R163, R166,
R167). -/
def Obligations.StepsKeepEngineState : Prop :=
  ∀ s t : State, EngineGood s → step s = .next t → EngineGood t

/-- Every Link Unit keeps the fields of its session, aligner and message channel in agreement. -/
def Obligations.StepsKeepLinks : Prop :=
  ∀ s t : State, (∀ n, LinkGood (s.links.get n)) → step s = .next t → ∀ n, LinkGood (t.links.get n)

/-- Tap contexts keep their bounds, every playout tap that a route names stays open as PLAYOUT, and a closed tap
stays in the list only while it waits for a write (R52, log entry 20). -/
def Obligations.StepsKeepTaps : Prop :=
  (∀ s t : State, (∀ n, TapGood (s.taps.get n)) → RoutedTapsOpen s → step s = .next t →
    (∀ n, TapGood (t.taps.get n)) ∧ RoutedTapsOpen t) ∧
  ∀ s t : State, ClosingWaits s.closing → step s = .next t → ClosingWaits t.closing

/-- The schedule and the staging store keep their bounds, with the parked command and the sizes of the
routes that wait (R29, R34, R35, R141). -/
def Obligations.StepsKeepSchedulePlaces : Prop :=
  ∀ s t : State, PlacesGood s.sched → ParkedGood s → RoutesSized s → step s = .next t →
    PlacesGood t.sched ∧ ParkedGood t ∧ RoutesSized t

/-- Scheduled groups stay ahead of the frame in progress and in the order of their due frames while the
engine is not HALTED (R33, R36, R37). -/
def Obligations.StepsKeepScheduleOrder : Prop :=
  ∀ s t : State, (s.engine.mode ≠ .halted → OrderGood s.frame s.sched.list) → step s = .next t →
    t.engine.mode ≠ .halted → OrderGood t.frame t.sched.list

/-- The pool's free count stays 256 minus the entries held by the active table (R4). -/
def Obligations.StepsKeepPoolCount : Prop :=
  ∀ s t : State, PoolGood s.core → step s = .next t → PoolGood t.core

/-- Every reserved completion credit belongs to one command whose completion is still owed, and posted and
reserved completions leave a slot free (R136, R142). -/
def Obligations.StepsKeepCompletionCredits : Prop :=
  ∀ s t : State, Good s → step s = .next t → CreditsGood t

/-- The whole invariant of the hub. -/
def Obligations.StepsKeepTheHubGood : Prop :=
  ∀ s t : State, Good s → step s = .next t → Good t

/-! ## The frame pass -/

/-- R10: a contribution is the source sample shifted right arithmetically by the step. -/
def Obligations.AttenuationRoundsDown : Prop :=
  (∀ (x : Sample) (k : Fin 8), attenuate x k = (x.sshiftRight k.val).toInt ∧
    attenuate x k * 2 ^ k.val ≤ x.toInt ∧ x.toInt < (attenuate x k + 1) * 2 ^ k.val ∧
    -32768 ≤ attenuate x k ∧ attenuate x k ≤ 32767) ∧
  (∀ x : Sample, attenuate x 0 = x.toInt) ∧ (∀ k : Fin 8, attenuate 0 k = 0) ∧
  attenuate 12000 0 = 12000 ∧ attenuate 32767 7 = 255 ∧
  attenuate (BitVec.ofInt 16 (-32768)) 7 = -256 ∧ attenuate 1 1 = 0 ∧
  (∀ k : Fin 8, k ≠ 0 → attenuate (BitVec.ofInt 16 (-1)) k = -1) ∧
  attenuate (BitVec.ofInt 16 (-3)) 1 = -2 ∧ attenuate (BitVec.ofInt 16 (-9001)) 1 = -4501 ∧
  attenuate 30001 3 = 3750

/-- R9: an entry adds its attenuated source where it has no gate or its gate agrees with the key table, and
nothing otherwise; on a link that is neither ACTIVE nor LOOP a PRESSED gate is shut and a RELEASED one open; in LOOP the
key table is the taken key field, and a block returns the lamp table in the place of its key field. -/
def Obligations.GatesDecideContribution : Prop :=
  (∀ (links : Table 8 Link) (supply : Table 16 Sample) (e : SourceEntry), e.gate = none →
    contribution links supply e = attenuate (sourceSample links supply e.source) e.step) ∧
  (∀ (links : Table 8 Link) (supply : Table 16 Sample) (e : SourceEntry) (g : Gate),
    e.gate = some g →
    contribution links supply e =
      if (links.get g.link).keyTable.getLsbD g.key.val = (g.sense == .pressed) then
        attenuate (sourceSample links supply e.source) e.step
      else 0) ∧
  (∀ (links : Table 8 Link) (supply : Table 16 Sample) (e : SourceEntry) (g : Gate),
    e.gate = some g → LinkGood (links.get g.link) → (links.get g.link).state ≠ .active →
    (links.get g.link).state ≠ .loop →
    (g.sense = .pressed → contribution links supply e = 0) ∧
    (g.sense = .released →
      contribution links supply e = attenuate (sourceSample links supply e.source) e.step)) ∧
  (∀ l : Link, LinkGood l → l.state = .loop → l.keyTable = l.takenKeys) ∧
  ∀ (word : LinkWord) (lamps : Half) (header : Byte) (segment : List Byte),
    (makeBlock word lamps header segment).get 2 ++ (makeBlock word lamps header segment).get 3 = lamps

/-- R11: the contributions are added without any intermediate limit and the total is saturated once. -/
def Obligations.SumIsSaturatedOnce : Prop :=
  (∀ (links : Table 8 Link) (supply : Table 16 Sample) (entries : List SourceEntry),
    entries.length ≤ 4 →
    -131072 ≤ mixTotal links supply entries ∧ mixTotal links supply entries ≤ 131068 ∧
    mixTotal links supply entries =
      entries.foldl (fun total e => total + contribution links supply e) 0 ∧
    (32767 < mixTotal links supply entries →
      mixPlace links supply (some ⟨false, entries⟩) = 32767) ∧
    (mixTotal links supply entries < -32768 →
      (mixPlace links supply (some ⟨false, entries⟩)).toInt = -32768) ∧
    (-32768 ≤ mixTotal links supply entries → mixTotal links supply entries ≤ 32767 →
      (mixPlace links supply (some ⟨false, entries⟩)).toInt = mixTotal links supply entries)) ∧
  (∀ (links : Table 8 Link) (supply : Table 16 Sample) (entries others : List SourceEntry),
    entries.Perm others →
    mixPlace links supply (some ⟨false, entries⟩) = mixPlace links supply (some ⟨false, others⟩)) ∧
  saturate (30000 + 30000 + -30000) = 30000 ∧
  saturate (32767 + 32767 + 32767 + 32767) = 32767 ∧
  (saturate (-32768 + -32768 + -32768 + -32768)).toInt = -32768

/-- R8: an empty place and a muted route give 0, any other route the saturated sum, which is 0 where all
gates are shut. R14: what an inbound channel reads as, and that its CAPTURE_INBOUND tap is given the same value. What a
playout tap supplies is read as it stands, and a CAPTURE_OUTPUT tap is given its destination's sample (R17). -/
def Obligations.DestinationsReadTheirSources : Prop :=
  (∀ (links : Table 8 Link) (supply : Table 16 Sample), mixPlace links supply none = 0) ∧
  (∀ (links : Table 8 Link) (supply : Table 16 Sample) (entries : List SourceEntry),
    mixPlace links supply (some ⟨true, entries⟩) = 0) ∧
  (∀ (links : Table 8 Link) (supply : Table 16 Sample) (entries : List SourceEntry),
    mixPlace links supply (some ⟨false, entries⟩) =
      saturate (entries.map (contribution links supply)).sum) ∧
  (∀ (links : Table 8 Link) (supply : Table 16 Sample) (entries : List SourceEntry),
    (∀ e ∈ entries, gateOpen links e.gate = false) →
    mixPlace links supply (some ⟨false, entries⟩) = 0) ∧
  (∀ (links : Table 8 Link) (supply : Table 16 Sample) (n : LinkId) (c : Channel),
    sourceSample links supply (.inbound n c) =
      if (links.get n).state = .active ∨ ((links.get n).state = .loop ∧ (links.get n).loopLock = true)
      then (links.get n).inbound.get c else 0) ∧
  (∀ (links : Table 8 Link) (supply : Table 16 Sample) (t : TapId),
    sourceSample links supply (.playout t) = supply.get t) ∧
  (∀ (links : Table 8 Link) (supply : Table 16 Sample) (down : Table 8 (Table 12 Sample)) (n : LinkId)
      (c : Channel),
    captureSample links down (.captureInbound n c) = sourceSample links supply (.inbound n c) ∧
    captureSample links down (.captureInbound n c) =
      if (links.get n).state = .active ∨ ((links.get n).state = .loop ∧ (links.get n).loopLock = true)
      then (links.get n).inbound.get c else 0) ∧
  ∀ (links : Table 8 Link) (supply : Table 16 Sample)
      (routes : Table 8 (Table 12 (Option Route))) (n : LinkId) (c : Channel),
    captureSample links (mixAll links supply routes) (.captureOutput n c) =
      mixPlace links supply ((routes.get n).get c)

/-- A frame start raises the frame number by 1 and the frame pass replaces all 96 downstream samples, in
every engine state; it leaves alone the registers that the host writes (R7, R171). The links, routes and taps it
reads are those after the steps still due and the cut-over (log entries 3 and 8). -/
def Obligations.FrameStartRunsTheFramePass : Prop :=
  ∀ s u : State, s.held = false →
    u = startSchedule (startLinks (advanceFrame (catchUp s))) →
    ∃ t, exec .frameStart s = .next t ∧ t.frame = s.frame + 1 ∧ t.held = false ∧
      t.pending = s.pending ∧ t.links = u.links ∧ t.core.routes = u.core.routes ∧
      t.core.free = u.core.free ∧
      (∀ n c, (t.core.down.get n).get c =
        mixPlace u.links
          (Table.ofFn fun k => if u.engine.mode = .halted then 0 else supplyOf (u.taps.get k))
          ((u.core.routes.get n).get c)) ∧
      t.engine.cie = s.engine.cie ∧ t.engine.eie = s.engine.eie ∧ t.engine.hie = s.engine.hie ∧
      t.engine.baseA = s.engine.baseA ∧ t.engine.baseB = s.engine.baseB ∧
      t.engine.baseComp = s.engine.baseComp ∧ t.engine.baseEvent = s.engine.baseEvent ∧
      t.engine.prodA = s.engine.prodA ∧ t.engine.prodB = s.engine.prodB ∧
      t.engine.consComp = s.engine.consComp ∧ t.engine.consEvent = s.engine.consEvent ∧
      t.engine.cfgIgnored = s.engine.cfgIgnored

/-- While the engine is HALTED a frame start counts and runs the frame pass, with silence for every playout
tap, and leaves the schedule, the routes and the taps alone (R36, R47, R65). -/
def Obligations.HaltedFrameStartFreezesEditsAndTaps : Prop :=
  ∀ s : State, s.held = false → EngineGood s → s.engine.mode = .halted →
    ∃ t, exec .frameStart s = .next t ∧ t.frame = s.frame + 1 ∧ t.engine.mode = .halted ∧
      t.engine.cause = s.engine.cause ∧ t.sched = s.sched ∧ t.taps = s.taps ∧
      t.closing = s.closing ∧ t.core.routes = s.core.routes ∧ t.core.free = s.core.free ∧
      t.core.slot = s.core.slot ∧ t.engine.parked = s.engine.parked ∧
      t.engine.reserved = s.engine.reserved ∧ t.hostWrites = [] ∧
      ∀ n c, (t.core.down.get n).get c =
        mixPlace t.links (Table.fill 16 0) ((t.core.routes.get n).get c)

/-! ## The schedule -/

/-- An edit fetched with CHAIN set opens a group or joins the open one (R27, R28). -/
def Obligations.ChainedEditStaysInTheGroup : Prop :=
  ∀ (s : State) (slot : Nat) (i : Instr) (r : CommandRecord) (op : Option EditOp),
    ReadInFlight s .a slot → editOf i = some (r, op) → recChain r = true →
    s.sched.overflow = false → s.sched.staged < 64 →
    (s.sched.assembly = none → s.sched.places < 8) →
    (∀ a, s.sched.assembly = some a → a.members.length < 16) →
    exec i s = .next (stopIfDue { s.readEnded .a with
      sched := { s.sched with
        assembly := some (joinedGroup s.sched.assembly ⟨recTag r, .a, slot⟩ r op) } })

/-- An edit fetched with CHAIN clear closes its group, which is accepted or fails as a whole (R31 to R33). -/
def Obligations.UnchainedEditClosesTheGroup : Prop :=
  ∀ (s : State) (slot : Nat) (i : Instr) (r : CommandRecord) (op : Option EditOp) (a : Assembly),
    ReadInFlight s .a slot → editOf i = some (r, op) → recChain r = false →
    s.sched.overflow = false → s.sched.staged < 64 →
    (s.sched.assembly = none → s.sched.places < 8) →
    (∀ b, s.sched.assembly = some b → b.members.length < 16) →
    a = joinedGroup s.sched.assembly ⟨recTag r, .a, slot⟩ r op →
    ((∃ m ∈ a.members, m.2 = none) →
      exec i s = .next (stopIfDue (({ s.readEnded .a with
          sched := { s.sched with assembly := none } }).answered
        (a.members.map fun (m : CmdId × Option EditOp) =>
          .plain m.1 (if m.2 = none then .badField else .groupAborted) 0)))) ∧
    ((∀ m ∈ a.members, m.2 ≠ none) → a.scheduled = true →
      2 ^ 24 < (a.due - s.frame).toNat → (a.due - s.frame).toNat < 2 ^ 31 →
      exec i s = .next (stopIfDue (({ s.readEnded .a with
          sched := { s.sched with assembly := none } }).answered
        (a.members.zipIdx.map fun (m : (CmdId × Option EditOp) × Nat) =>
          .plain m.1.1 (if m.2 = 0 then .tooFar else .groupAborted) 0)))) ∧
    ((∀ m ∈ a.members, m.2 ≠ none) → a.scheduled = true →
      1 ≤ (a.due - s.frame).toNat → (a.due - s.frame).toNat ≤ 2 ^ 24 →
      exec i s = .next (stopIfDue { s.readEnded .a with
        sched := { s.sched with
          assembly := none
          list := insertGroup s.frame ⟨a.label, a.due, false, goodMembers a.members⟩
            s.sched.list } })) ∧
    ((∀ m ∈ a.members, m.2 ≠ none) →
      (a.scheduled = false ∨ a.due = s.frame ∨ 2 ^ 31 ≤ (a.due - s.frame).toNat) →
      exec i s = .next (stopIfDue { s.readEnded .a with
        sched := { s.sched with
          assembly := none
          list := insertGroup s.frame
            ⟨a.label, s.frame + 1, a.scheduled, goodMembers a.members⟩ s.sched.list } }))

/-- A group of 16 commands that is to grow fails whole, and its tail fails command by command (R29). -/
def Obligations.OverlongGroupFails : Prop :=
  ∀ (s : State) (slot : Nat) (i : Instr) (r : CommandRecord) (op : Option EditOp),
    ReadInFlight s .a slot → editOf i = some (r, op) →
    (s.sched.overflow = true → exec i s = .next (stopIfDue (({ s.readEnded .a with
        sched := { s.sched with overflow := recChain r } }).answered
      [.plain ⟨recTag r, .a, slot⟩ .groupTooLong 0]))) ∧
    (∀ a, s.sched.overflow = false → s.sched.assembly = some a → 16 ≤ a.members.length →
      exec i s = .next (stopIfDue (({ s.readEnded .a with
          sched := { s.sched with assembly := none, overflow := recChain r } }).answered
        (a.members.map (fun (m : CmdId × Option EditOp) => Completion.plain m.1 .groupTooLong 0) ++
          [Completion.plain ⟨recTag r, .a, slot⟩ .groupTooLong 0]))))

/-- An edit that finds no place is parked and nothing else changes (R35); PARKED_EDIT_RETRY takes it once a
place is free, and waits until then. With CHAIN clear it closes its group, which is then accepted or fails as a whole,
timed against the frame in progress (R31, R32, R35). -/
def Obligations.EditWithoutPlaceIsParked : Prop :=
  (∀ (s : State) (slot : Nat) (i : Instr) (r : CommandRecord) (op : Option EditOp),
    ReadInFlight s .a slot → editOf i = some (r, op) → s.sched.overflow = false →
    (∀ a, s.sched.assembly = some a → a.members.length < 16) →
    (64 ≤ s.sched.staged ∨ (s.sched.assembly = none ∧ 8 ≤ s.sched.places)) →
    exec i s = .next (stopIfDue { s.readEnded .a with
      engine := { (s.readEnded .a).engine with
        parked := some (.edit
          ⟨⟨recTag r, .a, slot⟩, recChain r, recScheduled r, recLabel r, recDue r, op⟩) } })) ∧
  (∀ (s : State) (e : Edit), s.held = false → s.engine.mode ≠ .halted →
    s.engine.parked = some (.edit e) → e.chain = true → s.sched.staged < 64 →
    (s.sched.assembly = none → s.sched.places < 8) →
    exec .parkedEditRetry s = .next { s with
      engine := { s.engine with parked := none }
      sched := { s.sched with
        assembly := some (match s.sched.assembly with
          | none => ⟨e.label, e.scheduled, e.due, [(e.id, e.op)]⟩
          | some a => { a with members := a.members ++ [(e.id, e.op)] }) } }) ∧
  (∀ (s u : State) (e : Edit) (a : Assembly), s.held = false → s.engine.mode ≠ .halted →
    s.engine.parked = some (.edit e) → e.chain = false → s.sched.staged < 64 →
    (s.sched.assembly = none → s.sched.places < 8) →
    a = (match s.sched.assembly with
      | none => ⟨e.label, e.scheduled, e.due, [(e.id, e.op)]⟩
      | some b => { b with members := b.members ++ [(e.id, e.op)] }) →
    u = { s with
      engine := { s.engine with parked := none }
      sched := { s.sched with assembly := none } } →
    ((∃ m ∈ a.members, m.2 = none) →
      exec .parkedEditRetry s = .next (u.answered
        (a.members.map fun (m : CmdId × Option EditOp) =>
          .plain m.1 (if m.2 = none then .badField else .groupAborted) 0))) ∧
    ((∀ m ∈ a.members, m.2 ≠ none) → a.scheduled = true →
      2 ^ 24 < (a.due - s.frame).toNat → (a.due - s.frame).toNat < 2 ^ 31 →
      exec .parkedEditRetry s = .next (u.answered
        (a.members.zipIdx.map fun (m : (CmdId × Option EditOp) × Nat) =>
          .plain m.1.1 (if m.2 = 0 then .tooFar else .groupAborted) 0))) ∧
    ((∀ m ∈ a.members, m.2 ≠ none) → a.scheduled = true →
      1 ≤ (a.due - s.frame).toNat → (a.due - s.frame).toNat ≤ 2 ^ 24 →
      exec .parkedEditRetry s = .next { u with
        sched := { u.sched with
          list := insertGroup s.frame ⟨a.label, a.due, false, goodMembers a.members⟩
            s.sched.list } }) ∧
    ((∀ m ∈ a.members, m.2 ≠ none) →
      (a.scheduled = false ∨ a.due = s.frame ∨ 2 ^ 31 ≤ (a.due - s.frame).toNat) →
      exec .parkedEditRetry s = .next { u with
        sched := { u.sched with
          list := insertGroup s.frame
            ⟨a.label, s.frame + 1, a.scheduled, goodMembers a.members⟩ s.sched.list } })) ∧
  (∀ (s : State) (e : Edit), s.held = false → s.engine.parked = some (.edit e) →
    (64 ≤ s.sched.staged ∨ (s.sched.assembly = none ∧ 8 ≤ s.sched.places)) →
    exec .parkedEditRetry s = .next s)

/-- A group enters the schedule list behind every group of a smaller or the same distance, and leaves the
others in their order (R33). -/
def Obligations.InsertionKeepsOrder : Prop :=
  ∀ (now : Word) (g : Group) (list : List Group), OrderGood now list →
    1 ≤ frameDistance now g.due → frameDistance now g.due ≤ 2 ^ 24 →
    OrderGood now (insertGroup now g list) ∧
    ∃ before after, list = before ++ after ∧ insertGroup now g list = before ++ g :: after ∧
      (∀ h ∈ before, frameDistance now h.due ≤ frameDistance now g.due) ∧
      ∀ h ∈ after, frameDistance now g.due < frameDistance now h.due

/-- Each edit's checks at cut-over, in their order, and what it changes (R24 to R26, R38, R51, R52). -/
def Obligations.EditsAreCheckedAtCutOver : Prop :=
  (∀ (w : Work) (n : LinkId) (c : Channel) (createOnly : Bool) (r : Route),
    (createOnly = true → w.place n c ≠ none →
      applyEdit (.setRoute n c createOnly r) w = .error .conflict) ∧
    ((createOnly = true → w.place n c = none) →
      w.free + entriesHeld (w.place n c) < r.entries.length →
      applyEdit (.setRoute n c createOnly r) w = .error .poolFull) ∧
    ((createOnly = true → w.place n c = none) →
      r.entries.length ≤ w.free + entriesHeld (w.place n c) →
      (∃ e ∈ r.entries, ∃ t, e.source = .playout t ∧ (w.taps.get t).plays = false) →
      applyEdit (.setRoute n c createOnly r) w = .error .badSource) ∧
    ((createOnly = true → w.place n c = none) →
      r.entries.length ≤ w.free + entriesHeld (w.place n c) →
      (∀ e ∈ r.entries, ∀ t, e.source = .playout t → (w.taps.get t).plays = true) →
      applyEdit (.setRoute n c createOnly r) w = .ok { w with
        routes := w.routes.set n ((w.routes.get n).set c (some r))
        free := w.free + entriesHeld (w.place n c) - r.entries.length })) ∧
  (∀ (w : Work) (n : LinkId) (c : Channel),
    (w.place n c = none → applyEdit (.clearRoute n c) w = .error .noRoute) ∧
    (∀ r, w.place n c = some r → applyEdit (.clearRoute n c) w = .ok { w with
      routes := w.routes.set n ((w.routes.get n).set c none)
      free := w.free + r.entries.length })) ∧
  (∀ (w : Work) (n : LinkId) (c : Channel) (muted : Bool),
    (w.place n c = none → applyEdit (.muteRoute n c muted) w = .error .noRoute) ∧
    (∀ r, w.place n c = some r → applyEdit (.muteRoute n c muted) w = .ok { w with
      routes := w.routes.set n ((w.routes.get n).set c (some ⟨muted, r.entries⟩)) })) ∧
  (∀ (w : Work) (k : TapId) (use : TapUse),
    ((w.taps.get k).state ≠ .closed → applyEdit (.openTap k use) w = .error .tapBusy) ∧
    ((w.taps.get k).state = .closed → applyEdit (.openTap k use) w = .ok { w with
      taps := w.taps.set k
        ⟨.waiting, some use, [], 0, [], [], (w.taps.get k).writing, false⟩ })) ∧
  ∀ (w : Work) (k : TapId),
    ((w.taps.get k).state = .closed → applyEdit (.closeTap k) w = .error .notOpen) ∧
    ((w.taps.get k).state ≠ .closed → tableNames w.routes k = true →
      applyEdit (.closeTap k) w = .error .inUse) ∧
    ((w.taps.get k).state ≠ .closed → tableNames w.routes k = false →
      applyEdit (.closeTap k) w = .ok { w with
        taps := w.taps.set k ⟨.closed, none, [], 0, [], [], (w.taps.get k).writing, false⟩
        closed := w.closed ++ [⟨k, (w.taps.get k).plays,
          if (w.taps.get k).plays then [] else (w.taps.get k).runs, (w.taps.get k).buffers⟩] })

/-- The start of a frame takes the groups due at it, exactly those and in list order, out of the list, and each
cuts over on what those before it have left (R36, R37). A due group changes all it asks or nothing (R38 to R40): where a
command fails, the routes, the pool and the taps stay, that command completes with its code and the others GROUP_ABORTED;
where all pass, the working copy becomes the active state, the buffers of the taps it closed return CLOSED in the order of
the CLOSE TAP commands, and then every command completes DONE with the due frame, but a closed tap with writes to end
keeps its buffers, and its group's DONE completions, back (R39, R52; that a close waits for older writes of its tap number
is log entry 20, that taps wait one by one is log entry 11). -/
def Obligations.CutOverIsAllOrNothing : Prop :=
  (∀ s u v : State, s.held = false →
    u = startLinks (advanceFrame (catchUp s)) → u.engine.mode ≠ .halted →
    v = (u.sched.list.filter fun (g : Group) => decide (g.due = s.frame + 1)).foldl cutGroup
      { u with sched := { u.sched with
        list := u.sched.list.filter fun (g : Group) => decide (g.due ≠ s.frame + 1) } } →
    startSchedule u = v ∧
    ∃ t, exec .frameStart s = .next t ∧ t.core.routes = v.core.routes ∧ t.core.free = v.core.free ∧
      t.closing = v.closing ∧ t.sched = { u.sched with
        list := u.sched.list.filter fun (g : Group) => decide (g.due ≠ s.frame + 1) }) ∧
  (∀ (s : State) (g : Group), s.engine.mode ≠ .halted →
    ∀ before m after w status, g.members = before ++ m :: after →
      runMembers before s.work = .ok w → applyEdit m.2 w = .error status →
      cutGroup s g = s.answered
        (before.map (fun k => Completion.plain k.1 .groupAborted g.due) ++
          Completion.plain m.1 status g.due ::
            after.map fun k => Completion.plain k.1 .groupAborted g.due)) ∧
  ∀ (s : State) (g : Group) (w : Work), s.engine.mode ≠ .halted → ClosingWaits s.closing →
    runMembers g.members s.work = .ok w →
    let dones := g.members.map fun (m : CmdId × EditOp) => (⟨m.1, .done, g.late, g.due⟩ : Completion)
    let waits := fun (c : ClosedTap) => decide (
      (∃ h ∈ s.closing, ∃ d ∈ h.taps, d.tap = c.tap) ∨ ∃ d ∈ w.closed, d.tap = c.tap ∧ d.runs ≠ [])
    let kept := w.closed.filter waits
    cutGroup s g = ({ s with
        core := { s.core with routes := w.routes, free := w.free }
        taps := w.taps
        closing := s.closing ++ if kept = [] then [] else [ClosingGroup.mk kept dones] }).answered
      (((w.closed.filter fun c => !waits c).flatMap fun (c : ClosedTap) =>
          c.buffers.map fun (b : Buffer) =>
            Completion.plain b.id .closed
              (BitVec.ofNat 32 (if c.playout then b.position else b.transferred))) ++
        if kept = [] then dones else [])

/-- CANCEL GROUP removes every scheduled group of its label, from either ring (R42). -/
def Obligations.CancelGroupRemovesItsLabel : Prop :=
  ∀ (s : State) (ring : CmdRing) (slot : Nat) (r : CommandRecord) (label : Half),
    ReadInFlight s ring slot → parseCancel r = some label →
    exec (.cancelGroup r) s = .next (stopIfDue (({ (s.readEnded ring).broken ring with
        sched := { ((s.readEnded ring).broken ring).sched with
          list := s.sched.list.filter fun (g : Group) => g.label != label } }).answered
      ((s.sched.list.filter fun (g : Group) => g.label == label).flatMap
          (fun (g : Group) => g.members.map fun (m : CmdId × EditOp) => Completion.plain m.1 .cancelled g.due) ++
        [Completion.plain ⟨recTag r, ring, slot⟩
          (if (s.sched.list.filter fun (g : Group) => g.label == label) = [] then .notFound else .done)
          (BitVec.ofNat 32 (s.sched.list.filter fun (g : Group) => g.label == label).length)])))

/-! ## Fetch -/

/-- A fetch starts where R133 allows it, of the ring that R134 chooses, and reserves a credit; otherwise
nothing changes. -/
def Obligations.FetchStartReservesACredit : Prop :=
  ∀ (s : State) (n : Nat), s.held = false → ringSize s.engine.baseComp = some n →
    let e := s.engine
    let eligibleA := ringSize e.baseA ≠ none ∧ e.prodA ≠ e.fetchA ∧ e.parked = none
    let eligibleB := ringSize e.baseB ≠ none ∧ e.prodB ≠ e.fetchB
    let credit := ringDistance n e.consComp e.postComp + e.reserved < n - 1
    let start := fun (ring : CmdRing) (i : Nat) =>
      exec .fetchStart s =
        .next { s with engine := { e with fetch := some (ring, i), reserved := e.reserved + 1 } }
    (e.mode = .running → e.fetch = none → credit →
      (eligibleA → ¬ eligibleB → start .a e.fetchA) ∧
      (eligibleB → ¬ eligibleA → start .b e.fetchB) ∧
      (eligibleA → eligibleB → e.prefer = .a → start .a e.fetchA) ∧
      (eligibleA → eligibleB → e.prefer = .b → start .b e.fetchB)) ∧
    ((e.mode ≠ .running ∨ e.fetch ≠ none ∨ ¬ credit ∨ (¬ eligibleA ∧ ¬ eligibleB)) →
      exec .fetchStart s = .next s)

/-- Byte 0 of a record names its command, with the codes of 10.6 and no others (R138, R174), and the other
bytes are the command's. A record whose kind names no command, a command found in the wrong ring and bad fields complete
at fetch, with result 0; from ring A they break an open group (R138, R139). A stop that waits for the read then ends
(R163). -/
def Obligations.RecordsAreCheckedAtFetch : Prop :=
  (∀ (s : State) (ring : CmdRing) (slot : Nat) (kind : Byte) (r : CommandRecord),
    ReadInFlight s ring slot → commandOfKind kind = none →
    exec (.badKind kind r) s = .next (stopIfDue (((s.readEnded ring).broken ring).answered
      [.plain ⟨recTag r, ring, slot⟩ .badKind 0]))) ∧
  (∀ (s : State) (slot : Nat) (i : Instr) (r : CommandRecord) (op : Option EditOp),
    ReadInFlight s .b slot → editOf i = some (r, op) →
    exec i s = .next (stopIfDue ((s.readEnded .b).answered
      [.plain ⟨recTag r, .b, slot⟩ .wrongRing 0]))) ∧
  (∀ (s : State) (ring own : CmdRing) (slot : Nat) (i : Instr) (r : CommandRecord) (good : Bool),
    ReadInFlight s ring slot → plainOf i = some (r, some own, good) → own ≠ ring →
    exec i s = .next (stopIfDue (((s.readEnded ring).broken ring).answered
      [.plain ⟨recTag r, ring, slot⟩ .wrongRing 0]))) ∧
  (∀ (s : State) (ring : CmdRing) (own : Option CmdRing) (slot : Nat) (i : Instr)
      (r : CommandRecord),
    ReadInFlight s ring slot → plainOf i = some (r, own, false) → (own = none ∨ own = some ring) →
    exec i s = .next (stopIfDue (((s.readEnded ring).broken ring).answered
      [.plain ⟨recTag r, ring, slot⟩ .badField 0]))) ∧
  (∀ kind : Byte, commandOfKind kind = none ↔ kind ∉ ([0x01, 0x02, 0x03, 0x04, 0x05, 0x08, 0x09, 0x0A, 0x10,
    0x11, 0x12, 0x13, 0x14, 0x15, 0x18] : List Byte)) ∧
  ∀ bytes : Table 64 Byte, (commandOfRecord bytes).wellFormed = true ∧
    ∃ r : CommandRecord, (∀ k : Fin 64, k ≠ 0 → recByte r k.val = bytes.get k) ∧
      (bytes.get 0 = 0x01 → commandOfRecord bytes = .setRoute r) ∧
      (bytes.get 0 = 0x02 → commandOfRecord bytes = .clearRoute r) ∧
      (bytes.get 0 = 0x03 → commandOfRecord bytes = .muteRoute r) ∧
      (bytes.get 0 = 0x04 → commandOfRecord bytes = .openTap r) ∧
      (bytes.get 0 = 0x05 → commandOfRecord bytes = .closeTap r) ∧
      (bytes.get 0 = 0x08 → commandOfRecord bytes = .cancelGroup r) ∧
      (bytes.get 0 = 0x09 → commandOfRecord bytes = .readRoute r) ∧
      (bytes.get 0 = 0x0A → commandOfRecord bytes = .fence r) ∧
      (bytes.get 0 = 0x10 → commandOfRecord bytes = .startLink r) ∧
      (bytes.get 0 = 0x11 → commandOfRecord bytes = .loopLink r) ∧
      (bytes.get 0 = 0x12 → commandOfRecord bytes = .stopLink r) ∧
      (bytes.get 0 = 0x13 → commandOfRecord bytes = .queryLink r) ∧
      (bytes.get 0 = 0x14 → commandOfRecord bytes = .setLamps r) ∧
      (bytes.get 0 = 0x15 → commandOfRecord bytes = .sendMessage r) ∧
      (bytes.get 0 = 0x18 → commandOfRecord bytes = .creditTap r) ∧
      (commandOfKind (bytes.get 0) = none → commandOfRecord bytes = .badKind (bytes.get 0) r)

/-- READ ROUTE finds no route, is taken into the slot, or is parked; it goes on when the slot is empty, and
completes when its record is written (R19, R20). The record is 40 bytes at the command's address: the destination, the
muted field, the entry count, and the source entries (R175, 10.2, 10.4). -/
def Obligations.ReadRouteUsesTheSlot : Prop :=
  (∀ (s : State) (slot : Nat) (r : CommandRecord) (f : ReadFields),
    ReadInFlight s .a slot → parseReadRoute r = some f →
    (s.core.slot = none → (s.core.routes.get f.link).get f.channel = none →
      exec (.readRoute r) s = .next (stopIfDue (((s.readEnded .a).broken .a).answered
        [.plain ⟨recTag r, .a, slot⟩ .noRoute 0]))) ∧
    (∀ route, s.core.slot = none → (s.core.routes.get f.link).get f.channel = some route →
      exec (.readRoute r) s = .next (stopIfDue { (s.readEnded .a).broken .a with
        core := { s.core with
          slot := some ⟨⟨recTag r, .a, slot⟩, f.address, f.link, f.channel, route⟩ } })) ∧
    (s.core.slot ≠ none →
      exec (.readRoute r) s = .next (stopIfDue { (s.readEnded .a).broken .a with
        engine := { ((s.readEnded .a).broken .a).engine with
          parked := some (.readRoute ⟨recTag r, .a, slot⟩ f.link f.channel f.address) } }))) ∧
  (∀ (s : State) (id : CmdId) (n : LinkId) (c : Channel) (address : Word),
    s.held = false → s.engine.mode ≠ .halted → s.engine.parked = some (.readRoute id n c address) →
    (s.core.slot ≠ none → exec .parkedReadRouteTaken s = .next s) ∧
    (s.core.slot = none → (s.core.routes.get n).get c = none →
      exec .parkedReadRouteTaken s = .next (({ s with
        engine := { s.engine with parked := none } }).answered [.plain id .noRoute 0])) ∧
    (∀ route, s.core.slot = none → (s.core.routes.get n).get c = some route →
      exec .parkedReadRouteTaken s = .next { s with
        engine := { s.engine with parked := none }
        core := { s.core with slot := some ⟨id, address, n, c, route⟩ } })) ∧
  (∀ (s : State) (r : ReadSlot), s.held = false → s.engine.mode ≠ .halted →
    s.core.slot = some r →
    exec (.routeRecordWriteEnd .ok) s = .next (({ s with
        core := { s.core with slot := none } }).answered
      [.plain r.id .done (BitVec.ofNat 32 r.route.entries.length)])) ∧
  (∀ (s : State) (r : ReadSlot), s.core.slot = some r → r.route.sized → ∃ bytes : List Byte,
    routeWrite s = [⟨r.address.toNat, bytes⟩] ∧ bytes.length = 40 ∧
    bytes.take 8 = [BitVec.ofNat 8 r.link.val, BitVec.ofNat 8 r.channel.val,
      if r.route.muted then 1 else 0, BitVec.ofNat 8 r.route.entries.length, 0, 0, 0, 0] ∧
    (∀ i e, r.route.entries[i]? = some e → (bytes.drop (8 + 8 * i)).take 8 =
      (match e.source with
        | .inbound n c => [0, BitVec.ofNat 8 n.val, BitVec.ofNat 8 c.val]
        | .playout t => [1, BitVec.ofNat 8 t.val, 0]) ++ [BitVec.ofNat 8 e.step.val] ++
      (match e.gate with
        | none => [0, 0]
        | some g => [if g.sense = .pressed then 0x81 else 0x82,
            BitVec.ofNat 8 (g.link.val + 16 * g.key.val)]) ++ [0, 0]) ∧
    ∀ k, 8 + 8 * r.route.entries.length ≤ k → byteAt bytes k = 0)

/-- FENCE completes when no earlier ring-A command is outstanding, at once or later (R44). -/
def Obligations.FenceWaitsForEarlierCommands : Prop :=
  (∀ (s u : State) (slot : Nat) (r : CommandRecord), ReadInFlight s .a slot → parseFence r = some () →
    u = (s.readEnded .a).broken .a →
    (u.engine.outstanding ≤ 1 → exec (.fence r) s = .next (stopIfDue { u with
      engine := { u.engine with
        outstanding := 0
        postQueue := u.engine.postQueue ++ [.plain ⟨recTag r, .a, slot⟩ .done 0] } })) ∧
    (1 < u.engine.outstanding → exec (.fence r) s = .next (stopIfDue { u with
      engine := { u.engine with
        outstanding := u.engine.outstanding - 1
        parked := some (.fence ⟨recTag r, .a, slot⟩) } }))) ∧
  (∀ (s : State) (id : CmdId), s.held = false → s.engine.mode ≠ .halted →
    s.engine.parked = some (.fence id) →
    (s.engine.outstanding = 0 → exec .fenceRelease s = .next { s with
      engine := { s.engine with
        parked := none
        postQueue := s.engine.postQueue ++ [.plain id .done 0] } }) ∧
    (s.engine.outstanding ≠ 0 → exec .fenceRelease s = .next s))

/-! ## Completions, events and transfers -/

/-- The oldest completion is written with the frame in progress, and is posted when its write ends: its
reservation becomes a posted record (R136, R143, R144). The record is 16 bytes at the post position, low bytes first
(R143, R172, 10.3), with the status codes of 10.6. -/
def Obligations.CompletionsArePostedInOrder : Prop :=
  (∀ (s : State) (c : Completion) (rest : List Completion), s.held = false →
    s.engine.mode ≠ .halted → s.engine.compWrite = none → s.engine.postQueue = c :: rest →
    exec .completionWriteStart s = .next { s with
      engine := { s.engine with postQueue := rest, compWrite := some (c, s.frame) } }) ∧
  (∀ (s : State) (w : Completion × Word), s.held = false → s.engine.compWrite = some w →
    exec (.completionWriteEnd .ok) s = .next { s with
      engine := { s.engine with
        compWrite := none
        postComp := nextSlot s.engine.baseComp s.engine.postComp
        reserved := s.engine.reserved - 1 } }) ∧
  (∀ (s : State) (c : Completion) (f : Word), s.engine.compWrite = some (c, f) →
    ∃ bytes : List Byte,
      completionWrite s = [⟨ringAddress s.engine.baseComp + 16 * s.engine.postComp, bytes⟩] ∧
      bytes.length = 16 ∧
      le32 (byteAt bytes 0) (byteAt bytes 1) (byteAt bytes 2) (byteAt bytes 3) = c.id.tag ∧
      le16 (byteAt bytes 4) (byteAt bytes 5) = BitVec.ofNat 16 c.id.slot ∧
      byteAt bytes 6 = BitVec.ofNat 8 c.status.code ∧
      byteAt bytes 7 = BitVec.ofNat 8 ((if c.id.ring = .b then 1 else 0) + if c.late then 2 else 0) ∧
      le32 (byteAt bytes 8) (byteAt bytes 9) (byteAt bytes 10) (byteAt bytes 11) = f ∧
      le32 (byteAt bytes 12) (byteAt bytes 13) (byteAt bytes 14) (byteAt bytes 15) = c.result) ∧
  (∀ b0 b1 b2 b3 : Byte, le16 b0 b1 = b1 ++ b0 ∧ le32 b0 b1 b2 b3 = b3 ++ b2 ++ b1 ++ b0) ∧
  [Status.done, .badKind, .wrongRing, .badField, .groupTooLong, .groupAborted, .brokenChain, .tooFar,
    .conflict, .noRoute, .poolFull, .badSource, .tapBusy, .notOpen, .inUse, .cancelled, .notFound,
    .aborted, .busy, .queueFull, .badBuffer, .closed, .noAnswer, .noEngage, .refused, .loopFail, .noAck,
    .notReady, .linkDown].map Status.code = List.range 29

/-- R152: what an event raised for a source whose place of the pending set is taken makes of the entry. -/
def Obligations.MergedEventsFollowTheirKind : Prop :=
  ∀ (s : State) (f : Word) (k : Nat),
  (∀ (n : LinkId) (o1 w1 o2 w2 : SessionView) (r1 r2 : ChangeReason),
    let b := EventBody.linkState n o2 w2 r2
    s.events.set.get b.source = some ⟨.linkState n o1 w1 r1, f, k⟩ →
    raise b s = { s with events := { s.events with
      set := s.events.set.set b.source (some ⟨.linkState n o1 w2 r2, s.frame, min 65535 (k + 1)⟩) } }) ∧
  (∀ (n : LinkId) (a1 m1 a2 m2 : Half),
    let b := EventBody.keys n a2 m2
    s.events.set.get b.source = some ⟨.keys n a1 m1, f, k⟩ →
    raise b s = { s with events := { s.events with
      set := s.events.set.set b.source (some ⟨.keys n a2 (m1 ||| m2), s.frame, min 65535 (k + 1)⟩) } }) ∧
  (∀ (n : LinkId) (e1 e2 : MessageErrorKind),
    let b := EventBody.messageError n e2
    s.events.set.get b.source = some ⟨.messageError n e1, f, k⟩ →
    raise b s = { s with events := { s.events with
      set := s.events.set.set b.source (some ⟨.messageError n e2, s.frame, min 65535 (k + 1)⟩) } }) ∧
  ∀ t : TapId,
    let b := EventBody.tapStarved t
    s.events.set.get b.source = some ⟨.tapStarved t, f, k⟩ →
    raise b s = { s with events := { s.events with
      set := s.events.set.set b.source (some ⟨.tapStarved t, s.frame, min 65535 (k + 1)⟩) } }

/-- An event handed is posted directly where a write can start and nothing is pending, and joins the pending
set otherwise (R150, R151). An abandoned event write returns to the set as the earlier of the two (R155). -/
def Obligations.EventsArePostedOrHeld : Prop :=
  (∀ (s : State) (b : EventBody) (n : Nat), ringSize s.engine.baseEvent = some n →
    ringDistance n s.engine.consEvent s.events.post < n - 1 → s.engine.mode ≠ .halted →
    s.events.write = none → (∀ i, s.events.set.get i = none) →
    raise b s = { s with events := { s.events with write := some (.event ⟨b, s.frame, 1⟩) } }) ∧
  (∀ (s : State) (b : EventBody),
    (ringSize s.engine.baseEvent = none ∨
      (∃ n, ringSize s.engine.baseEvent = some n ∧
        n - 1 ≤ ringDistance n s.engine.consEvent s.events.post) ∨
      s.engine.mode = .halted ∨ s.events.write ≠ none ∨ ∃ i, s.events.set.get i ≠ none) →
    raise b s = { s with events := { s.events with
      set := s.events.set.set b.source (some (match s.events.set.get b.source with
        | none => ⟨b, s.frame, 1⟩
        | some r => r.merge ⟨b, s.frame, 1⟩)) } }) ∧
  (∀ (s : State) (r : EventRecord), s.events.write = some (.event r) →
    returnEventWrite s = { s with events := { s.events with
      write := none
      set := s.events.set.set r.body.source (some (match s.events.set.get r.body.source with
        | none => r
        | some later => r.merge later)) } }) ∧
  ∀ (s : State) (n : LinkId) (m : InMessage), s.events.write = some (.message n m) →
    returnEventWrite s = { s with events := { s.events with write := none } }

/-- Pending events are written source by source; a message is written only when none is pending, link by
link from the message pointer, and leaves its queue when its write ends (R150, R153, R154). A record is 64 bytes at the
post position, low bytes first, with the fields of its kind and zeros elsewhere (R148, R172, 10.4, 10.6). -/
def Obligations.EventWritesDrainInOrder : Prop :=
  (∀ (s : State) (n : Nat) (i : Fin 40) (r : EventRecord), s.held = false →
    ringSize s.engine.baseEvent = some n →
    ringDistance n s.engine.consEvent s.events.post < n - 1 → s.engine.mode ≠ .halted →
    s.events.write = none → s.events.set.get i = some r → (∀ j, j < i → s.events.set.get j = none) →
    exec .eventWriteStart s = .next { s with events := { s.events with
      write := some (.event r), set := s.events.set.set i none } }) ∧
  (∀ (s : State) (n : Nat) (k : Fin 8) (m : InMessage) (rest : List InMessage), s.held = false →
    ringSize s.engine.baseEvent = some n →
    ringDistance n s.engine.consEvent s.events.post < n - 1 → s.engine.mode ≠ .halted →
    s.events.write = none → (∀ i, s.events.set.get i = none) →
    (s.links.get (s.events.pointer + k)).inQueue = m :: rest →
    (∀ j, j < k → (s.links.get (s.events.pointer + j)).inQueue = []) →
    exec .messageEvent s = .next { s with events := { s.events with
      write := some (.message (s.events.pointer + k) m)
      pointer := s.events.pointer + k + 1 } }) ∧
  (∀ (s : State) (r : EventRecord), s.held = false → s.events.write = some (.event r) →
    exec (.eventWriteEnd .ok) s = .next { s with events := { s.events with
      write := none, post := nextSlot s.engine.baseEvent s.events.post } }) ∧
  (∀ (s : State) (n : LinkId) (m : InMessage), s.held = false →
    s.events.write = some (.message n m) →
    exec (.eventWriteEnd .ok) s = .next { s with
      links := s.links.set n { s.links.get n with inQueue := (s.links.get n).inQueue.drop 1 }
      events := { s.events with
        write := none, post := nextSlot s.engine.baseEvent s.events.post } }) ∧
  (∀ (s : State) (w : EventWrite), s.events.write = some w →
    eventWrite s = [⟨ringAddress s.engine.baseEvent + 64 * s.events.post, w.bytes⟩] ∧
    (∀ n m, w = .message n m → m.bytes.length ≤ 44 →
      w.bytes = recordHead 3 n.val 1 m.frame ++ [BitVec.ofNat 8 m.bytes.length] ++
        List.replicate 11 0 ++ m.bytes ++ List.replicate (44 - m.bytes.length) 0) ∧
    (∀ n old new why f k, w = .event ⟨.linkState n old new why, f, k⟩ →
      w.bytes = recordHead 1 n.val k f ++ [BitVec.ofNat 8 old.code, BitVec.ofNat 8 new.code,
        BitVec.ofNat 8 why.code] ++ List.replicate 53 0) ∧
    (∀ n field mask f k, w = .event ⟨.keys n field mask, f, k⟩ →
      w.bytes = recordHead 2 n.val k f ++ lowFirst field ++ lowFirst mask ++ List.replicate 52 0) ∧
    (∀ n kind f k, w = .event ⟨.messageError n kind, f, k⟩ →
      w.bytes = recordHead 4 n.val k f ++ [if kind = .badLength then 1 else 2] ++
        List.replicate 55 0) ∧
    ∀ t f k, w = .event ⟨.tapStarved t, f, k⟩ →
      w.bytes = recordHead 5 t.val k f ++ List.replicate 56 0) ∧
  [SessionState.off, .listen, .calling, .training, .active, .degraded, .closing, .fault, .loop].map
    (fun state => SessionView.code ⟨state, false⟩) = List.range 9 ∧
  SessionView.code ⟨.loop, true⟩ = 9 ∧
  [ChangeReason.hostStart, .hostLoop, .hostStop, .activity, .answered, .engaged, .serviceLost,
    .recovered, .stationRelease, .confirmed, .closeTimeout, .loopLock].map ChangeReason.code =
      List.range' 1 12 ∧
  [FaultReason.noAnswer, .noEngage, .refused, .lost, .protocol, .station, .loopFail].map
    (fun why => ChangeReason.code (.fault why)) = List.range' 17 7

/-- R54: CREDIT TAP completes WRONG_RING in ring A, and BAD_FIELD for a tap past 15 or a must-be-zero byte
that is not zero; its tap refuses it with NOT_OPEN, BAD_BUFFER or QUEUE_FULL, in that order, or its buffer joins the
tail of the tap's list. -/
def Obligations.CreditTapAddsABuffer : Prop :=
  (∀ (s : State) (slot : Nat) (r : CommandRecord), ReadInFlight s .a slot →
    exec (.creditTap r) s = .next (stopIfDue (((s.readEnded .a).broken .a).answered
      [.plain ⟨recTag r, .a, slot⟩ .wrongRing 0]))) ∧
  (∀ r : CommandRecord, parseCredit r = none ↔ 16 ≤ (recByte r 16).toNat ∨
    ∃ k, (1 ≤ k ∧ k < 4 ∨ 8 ≤ k ∧ k < 16 ∨ 17 ≤ k ∧ k < 20 ∨ 26 ≤ k ∧ k < 64) ∧ recByte r k ≠ 0) ∧
  (∀ (s : State) (slot : Nat) (r : CommandRecord), ReadInFlight s .b slot → parseCredit r = none →
    exec (.creditTap r) s = .next (stopIfDue ((s.readEnded .b).answered
      [.plain ⟨recTag r, .b, slot⟩ .badField 0]))) ∧
  ∀ (s : State) (slot : Nat) (r : CommandRecord) (f : CreditFields), ReadInFlight s .b slot →
    parseCredit r = some f →
    let t := s.taps.get f.tap
    let id : CmdId := ⟨recTag r, .b, slot⟩
    let fits := f.address.toNat % 4 = 0 ∧ 8 ≤ f.length ∧ f.length ≤ 4096 ∧ f.length % 8 = 0 ∧
      f.address.toNat + 2 * f.length ≤ 2 ^ 32
    f.tap.val = (recByte r 16).toNat ∧ f.address = recWord r 20 ∧ f.length = (recHalf r 24).toNat ∧
    (t.state = .closed → exec (.creditTap r) s =
      .next (stopIfDue ((s.readEnded .b).answered [.plain id .notOpen 0]))) ∧
    (t.state ≠ .closed → ¬ fits → exec (.creditTap r) s =
      .next (stopIfDue ((s.readEnded .b).answered [.plain id .badBuffer 0]))) ∧
    (t.state ≠ .closed → fits → 8 ≤ t.buffers.length → exec (.creditTap r) s =
      .next (stopIfDue ((s.readEnded .b).answered [.plain id .queueFull 0]))) ∧
    (t.state ≠ .closed → fits → t.buffers.length < 8 → exec (.creditTap r) s =
      .next (stopIfDue { s.readEnded .b with
        taps := s.taps.set f.tap
          { t with buffers := t.buffers ++ [⟨id, f.address, f.length, 0, 0, none⟩] } }))

/-- What one frame does to a tap (R58 to R62): a closed tap stays, a tap without a usable buffer counts a
gap frame. Otherwise one sample moves: a buffer's first sample takes the gap count as its gap result, a capture tap collects
the sample it is given, the eighth completing a run for the buffer's next 16 bytes, a playout tap passes one, and the sample
that spends the last unspent buffer leaves the tap STARVED with its event; a spent playout buffer completes DONE. Where the
transfer the frame needs is late no sample moves, which is the model's choice (log entry 9), and FRAME_START halts the
engine with TAP_ERROR. The taps hand what they owe tap 0 first, which is the model's choice (log entry 21). -/
def Obligations.TapsMoveOneSampleAFrame : Prop :=
  (∀ (n : TapId) (x : Sample) (t : Tap), t.state = .closed →
    tapFrame n x t = ((t, []), false)) ∧
  (∀ (n : TapId) (x : Sample) (t : Tap), t.state ≠ .closed →
    (t.current = none ∨ ∃ b, t.current = some b ∧ t.plays = true ∧ b.transferred = 0) →
    tapFrame n x t = (({ t with gap := min 65535 (t.gap + 1) }, []), false)) ∧
  (∀ (n : TapId) (x : Sample) (t u : Tap) (b moved : Buffer), t.state ≠ .closed →
    t.current = some b → t.plays = false → t.runs.length < 2 →
    moved = { b with
      position := b.position + 1
      gapResult := if b.position = 0 then some t.gap else b.gapResult } →
    u = { t with
      state := .running
      gap := if b.position = 0 then 0 else t.gap
      collecting := if t.collecting.length = 7 then [] else t.collecting ++ [x]
      runs := if t.collecting.length = 7 then
          t.runs ++ [⟨b.address + BitVec.ofNat 32 (2 * (b.position - 7)), t.collecting ++ [x]⟩]
        else t.runs
      buffers := updateFirst (fun c => decide (c.position < c.length)) (fun _ => moved) t.buffers } →
    (b.position + 1 < b.length → tapFrame n x t = ((u, []), false)) ∧
    (b.position + 1 = b.length → (∃ c ∈ u.buffers, c.position < c.length) →
      tapFrame n x t = ((u, []), false)) ∧
    (b.position + 1 = b.length → (∀ c ∈ u.buffers, c.length ≤ c.position) →
      tapFrame n x t = (({ u with state := .starved }, [.event (.tapStarved n)]), false))) ∧
  (∀ (n : TapId) (x : Sample) (t u : Tap) (b moved : Buffer), t.state ≠ .closed →
    t.current = some b → t.plays = true → b.position < b.transferred →
    moved = { b with
      position := b.position + 1
      gapResult := if b.position = 0 then some t.gap else b.gapResult } →
    u = { t with
      state := .running
      gap := if b.position = 0 then 0 else t.gap
      runs := if (b.position + 1) % 8 = 0 then t.runs.drop 1 else t.runs
      buffers := (updateFirst (fun c => decide (c.position < c.length)) (fun _ => moved)
        t.buffers).filter fun c => b.position + 1 < b.length || decide (c.position < c.length) } →
    let done := Effect.complete (.plain b.id .done (BitVec.ofNat 32 (moved.gapResult.getD 0)))
    supplyOf t = ((t.runs.head?.map Run.samples).getD []).getD (b.position % 8) 0 ∧
    (b.position + 1 < b.length → tapFrame n x t = ((u, []), false)) ∧
    (b.position + 1 = b.length → u.buffers ≠ [] → tapFrame n x t = ((u, [done]), false)) ∧
    (b.position + 1 = b.length → u.buffers = [] →
      tapFrame n x t = (({ u with state := .starved }, [done, .event (.tapStarved n)]), false))) ∧
  (∀ (n : TapId) (x : Sample) (t : Tap) (b : Buffer), t.state ≠ .closed → t.current = some b →
    ((t.plays = false ∧ 2 ≤ t.runs.length) ∨
      (t.plays = true ∧ 0 < b.transferred ∧ b.transferred ≤ b.position)) →
    tapFrame n x t = (({ t with
      state := .running
      gap := if b.position = 0 then 0 else t.gap
      buffers := if b.position = 0 then
          updateFirst (fun c => decide (c.position < c.length))
            (fun c => { c with gapResult := some t.gap }) t.buffers
        else t.buffers }, []), true)) ∧
  (∀ t : Tap, t.plays = true → (t.current = none ∨
    ∃ b, t.current = some b ∧ (b.transferred = 0 ∨ b.transferred ≤ b.position)) → supplyOf t = 0) ∧
  ∀ (s u v : State) (given : TapId → Sample) (took : TapId → (Tap × List Effect) × Bool),
    s.held = false → u = startSchedule (startLinks (advanceFrame (catchUp s))) →
    u.engine.mode ≠ .halted →
    v = { u with core := { u.core with
      down := mixAll u.links (u.taps.map supplyOf) u.core.routes } } →
    (∀ k, given k = match (u.taps.get k).use with
      | none => 0
      | some use => captureSample u.links v.core.down use) →
    (∀ k, took k = tapFrame k (given k) (u.taps.get k)) →
    let after := emit ((List.finRange 16).flatMap fun k => (took k).1.2)
      { v with taps := Table.ofFn fun k => (took k).1.1 }
    ((∀ k, (took k).2 = false) → exec .frameStart s = .next after) ∧
    ((∃ k, (took k).2 = true) → exec .frameStart s = .next (after.haltedBy .tapError))

/-- Host transfers of a tap's runs (R61, R62): a capture write starts for the oldest run and ends it, with
the DONE of a buffer written to its end; a playout read starts for the next 16 bytes, behind the buffers already read, and
brings 8 samples. Runs of a closed tap are written first, and its last one returns its buffers CLOSED with the samples
written, in credit order, and then its group's commands once no other tap of the group waits (R52, R53, log entry 11). -/
def Obligations.TapTransfersMoveRuns : Prop :=
  (∀ (s : State) (k : TapId), s.held = false → s.engine.mode ≠ .halted →
    (s.taps.get k).writing = false → runsToWrite s k ≠ [] →
    exec (.captureWriteStart k) s = .next { s with
      taps := s.taps.set k { s.taps.get k with writing := true } }) ∧
  (∀ (s : State) (k : TapId), s.held = false →
    (s.engine.mode = .halted ∨ (s.taps.get k).writing = true ∨ runsToWrite s k = []) →
    exec (.captureWriteStart k) s = .next s) ∧
  (∀ (s : State) (k : TapId) (run : Run) (runs : List Run) (b : Buffer) (rest : List Buffer),
    s.held = false → s.engine.mode ≠ .halted →
    (∀ g ∈ s.closing, ∀ c ∈ g.taps, c.tap = k → c.runs = []) → (s.taps.get k).writing = true →
    (s.taps.get k).plays = false → (s.taps.get k).runs = run :: runs →
    (s.taps.get k).buffers = b :: rest → b.transferred < b.length →
    (b.transferred + 8 ≠ b.length → exec (.tapWriteEnd k .ok) s = .next { s with
      taps := s.taps.set k { s.taps.get k with
        writing := false
        runs := runs
        buffers := { b with transferred := b.transferred + 8 } :: rest } }) ∧
    (b.transferred + 8 = b.length → exec (.tapWriteEnd k .ok) s = .next (({ s with
        taps := s.taps.set k { s.taps.get k with
          writing := false, runs := runs, buffers := rest } }).answered
      [.plain b.id .done (BitVec.ofNat 32 (b.gapResult.getD 0))]))) ∧
  (∀ (s : State) (k : TapId) (before after : List ClosingGroup) (first last : List ClosedTap)
      (run : Run) (runs : List Run) (b : Buffer) (rest : List Buffer) (dones : List Completion),
    s.held = false → s.engine.mode ≠ .halted → (s.taps.get k).writing = true →
    ClosingWaits s.closing →
    s.closing = before ++ ⟨first ++ ⟨k, false, run :: runs, b :: rest⟩ :: last, dones⟩ :: after →
    (∀ g ∈ before, ∀ c ∈ g.taps, c.tap ≠ k) → (∀ c ∈ first, c.tap ≠ k) →
    b.transferred < b.length →
    let ended := { s with taps := s.taps.set k { s.taps.get k with writing := false } }
    let full := b.transferred + 8 = b.length
    let left := if full then rest else { b with transferred := b.transferred + 8 } :: rest
    let spent := if full then [Completion.plain b.id .done (BitVec.ofNat 32 (b.gapResult.getD 0))]
      else []
    let closed := left.map fun (c : Buffer) =>
      Completion.plain c.id .closed (BitVec.ofNat 32 c.transferred)
    (runs ≠ [] → exec (.tapWriteEnd k .ok) s = .next ({ ended with
        closing := before ++
          ClosingGroup.mk (first ++ ClosedTap.mk k false runs left :: last) dones :: after
      }.answered spent)) ∧
    (runs = [] → (∀ g ∈ after, ∀ c ∈ g.taps, c.tap ≠ k) → (∀ c ∈ last, c.tap ≠ k) →
      (first ++ last ≠ [] → exec (.tapWriteEnd k .ok) s = .next ({ ended with
          closing := before ++ ClosingGroup.mk (first ++ last) dones :: after
        }.answered (spent ++ closed))) ∧
      (first ++ last = [] → exec (.tapWriteEnd k .ok) s = .next ({ ended with
          closing := before ++ after }.answered (spent ++ closed ++ dones))))) ∧
  (∀ (s : State) (k : TapId), s.held = false → s.engine.mode ≠ .halted →
    (s.taps.get k).use = some .playout → (s.taps.get k).reading = false →
    (s.taps.get k).runs.length < 2 → (∃ b ∈ (s.taps.get k).buffers, b.transferred < b.length) →
    exec (.playoutReadStart k) s = .next { s with
      taps := s.taps.set k { s.taps.get k with reading := true } }) ∧
  ∀ (s : State) (k : TapId) (bytes : Table 16 Byte) (before : List Buffer) (b : Buffer)
      (rest : List Buffer),
    s.held = false → (s.taps.get k).reading = true → (s.taps.get k).buffers = before ++ b :: rest →
    (∀ c ∈ before, c.length ≤ c.transferred) → b.transferred < b.length →
    readAddress (s.taps.get k) = b.address + BitVec.ofNat 32 (2 * b.transferred) ∧
    exec (.tapReadEnd k (.data bytes)) s = .next { s with
      taps := s.taps.set k { s.taps.get k with
        reading := false
        runs := (s.taps.get k).runs ++ [⟨b.address + BitVec.ofNat 32 (2 * b.transferred),
          (List.range 8).map fun i =>
            byteAt bytes.items (2 * i + 1) ++ byteAt bytes.items (2 * i)⟩]
        buffers := before ++ { b with transferred := b.transferred + 8 } :: rest } }

/-- Every host bus error halts the engine with its cause (R135, R146, R155, R166, R167); the hub goes on
otherwise as it was. -/
def Obligations.BusErrorsHaltTheEngine : Prop :=
  ∀ s : State, s.held = false → s.engine.mode ≠ .halted →
    (s.engine.fetch ≠ none → exec .fetchError s = .next (s.haltedBy .fetchError)) ∧
    (s.engine.compWrite ≠ none →
      exec (.completionWriteEnd .busError) s = .next (s.haltedBy .postError)) ∧
    (s.events.write ≠ none →
      exec (.eventWriteEnd .busError) s = .next (s.haltedBy .postError)) ∧
    (s.core.slot ≠ none →
      exec (.routeRecordWriteEnd .busError) s = .next (s.haltedBy .resultError)) ∧
    (∀ k, (s.taps.get k).writing = true →
      exec (.tapWriteEnd k .busError) s = .next (s.haltedBy .tapError)) ∧
    ∀ k, (s.taps.get k).reading = true →
      exec (.tapReadEnd k .busError) s = .next (s.haltedBy .tapError)

/-! ## Engine control -/

/-- ENABLE written as 1 in each engine state, with the other enables stored (R162). -/
def Obligations.EnableSetStartsTheEngine : Prop :=
  ∀ (s : State) (n : Enables), s.held = false →
    let configured := ringSize s.engine.baseComp ≠ none ∧ ringSize s.engine.baseEvent ≠ none
    let stored := { s.engine with cie := n.cie, eie := n.eie, hie := n.hie }
    (s.engine.mode = .stopped → configured → exec (.enableSet n) s = .next { s with
      engine := { stored with mode := .running, enable := true, startRefused := false } }) ∧
    (s.engine.mode = .stopped → ¬ configured → exec (.enableSet n) s = .next { s with
      engine := { stored with enable := false, startRefused := true } }) ∧
    (s.engine.mode = .running → exec (.enableSet n) s = .next { s with engine := stored }) ∧
    (s.engine.mode = .stopping ∨ s.engine.mode = .halted → exec (.enableSet n) s = .next { s with
      engine := { stored with enable := true } })

/-- ENABLE written as 0 (R163): the engine is STOPPED in the same event where no fetch is in flight, and is
STOPPING until the read ends where one is. A write that leaves ENABLE as it is stores the other enables alone, and a
write that nothing stores changes nothing (R159); at a stored offset the term is ill formed (log entry 14). -/
def Obligations.OtherControlWritesAreStored : Prop :=
  (∀ (s : State) (n : Enables), s.held = false →
    let t := { s with
      engine := { s.engine with
        cie := n.cie
        eie := n.eie
        hie := n.hie
        enable := false
        mode := if s.engine.mode = .running then .stopping else s.engine.mode } }
    exec (.enableClear n) s = .next (stopIfDue t) ∧
    (s.engine.mode = .running → s.engine.fetch = none →
      (stopIfDue t).engine.mode = .stopped ∧ (stopIfDue t).engine.enable = false) ∧
    (s.engine.fetch ≠ none ∨ (s.engine.mode ≠ .running ∧ s.engine.mode ≠ .stopping) →
      stopIfDue t = t)) ∧
  (∀ (s : State) (n : Enables), s.held = false →
    exec (.interruptEnableWrite n) s = .next { s with
      engine := { s.engine with cie := n.cie, eie := n.eie, hie := n.hie } }) ∧
  (∀ (s : State) (offset value : Word), offset ∉ storedOffsets →
    exec (.unstoredRegisterWrite offset value) s = .next s) ∧
  ∀ (s : State) (offset value : Word), offset ∈ storedOffsets →
    exec (.unstoredRegisterWrite offset value) s = .fault .illFormed

/-- The end of a stop (R163): the assembly group, then the parked command complete ABORTED, the overflow
tail ends, and the engine is STOPPED, or takes an ENABLE found set as a set in STOPPED (R162). A parked FENCE completes DONE
where the count is 0, and ABORTED otherwise (R45). A parked edit or READ ROUTE that can proceed, or a FENCE, does so first,
and the stop then ends as it does after that (R163; log entry 3). The stop ends within ENABLE_CLEAR or within the row of
the last read, by the same function as in STOP_END. -/
def Obligations.StopEndAbortsWhatIsOpen : Prop :=
  (∀ s : State, s.held = false → exec .stopEnd s = .next (stopIfDue s)) ∧
  (∀ s : State, s.engine.mode ≠ .stopping ∨ s.engine.fetch ≠ none → stopIfDue s = s) ∧
  (∀ s : State, (stopIfDue s).engine.mode = .stopping → s.engine.fetch ≠ none) ∧
  (∀ (s : State) (parked : List Completion), s.held = false → s.engine.mode = .stopping →
    s.engine.fetch = none →
    ((s.engine.parked = none ∧ parked = []) ∨
      (∃ e, s.engine.parked = some (.edit e) ∧ s.sched.roomForEdit = false ∧
        parked = [.plain e.id .aborted 0]) ∨
      ∃ id n c a, s.engine.parked = some (.readRoute id n c a) ∧ s.core.slot ≠ none ∧
        parked = [.plain id .aborted 0]) →
    let aborted := (match s.sched.assembly with
      | none => []
      | some a => a.members.map fun m => Completion.plain m.1 .aborted 0) ++ parked
    StopEndsAs s (({ s with
      sched := { s.sched with assembly := none, overflow := false }
      engine := { s.engine with parked := none } }).answered aborted)) ∧
  (∀ (s : State) (id : CmdId), s.held = false → s.engine.mode = .stopping →
    s.engine.fetch = none → s.engine.parked = some (.fence id) → s.sched.assembly = none →
    StopEndsAs s { s with
      sched := { s.sched with overflow := false }
      engine := { s.engine with
        parked := none
        postQueue := s.engine.postQueue ++
          [.plain id (if s.engine.outstanding = 0 then .done else .aborted) 0] } }) ∧
  (∀ (s : State), s.held = false → s.engine.mode = .stopping → s.engine.fetch = none →
    ∀ row,
      ((∃ e, s.engine.parked = some (.edit e)) ∧ s.sched.roomForEdit = true ∧
          row = Instr.parkedEditRetry) ∨
        ((∃ id n c a, s.engine.parked = some (.readRoute id n c a)) ∧ s.core.slot = none ∧
          row = .parkedReadRouteTaken) ∨
        ((∃ id, s.engine.parked = some (.fence id)) ∧ s.engine.outstanding = 0 ∧
          row = .fenceRelease) →
      ∃ t, exec row s = .next t ∧ t.held = false ∧ t.engine.mode = .stopping ∧
        t.engine.fetch = none ∧ t.engine.parked = none ∧ exec .stopEnd s = exec .stopEnd t) ∧
  ∀ d : Scheduler, d.roomForEdit = true ↔
    d.staged < 64 ∧ (d.assembly = none → d.places < 8)

/-- A base register write is accepted when the engine is STOPPED and QUIET and the ring fits, and then sets
the ring's index and position to 0; otherwise it is ignored and says so (R165). What QUIET means (R164). -/
def Obligations.RingBaseWritesConfigure : Prop :=
  (∀ s : State, quiet s = true ↔
    s.sched.list = [] ∧ s.sched.assembly = none ∧ s.engine.parked = none ∧ s.engine.reserved = 0 ∧
    (∀ k, (s.taps.get k).buffers = []) ∧
    ∀ n, (s.links.get n).op = none ∧ ∀ m ∈ (s.links.get n).outQueue, m.owed = none) ∧
  ∀ (s : State) (v : Word), s.held = false →
    let fits := fun bytes => ∀ n, ringSize v = some n → ringAddress v + n * bytes ≤ 2 ^ 32
    let ok := s.engine.mode = .stopped ∧ quiet s = true
    (ok → fits 64 → exec (.ringBaseWrite .ringA v) s = .next { s with
      engine := { s.engine with baseA := v, prodA := 0, fetchA := 0, cfgIgnored := false } }) ∧
    (ok → fits 64 → exec (.ringBaseWrite .ringB v) s = .next { s with
      engine := { s.engine with baseB := v, prodB := 0, fetchB := 0, cfgIgnored := false } }) ∧
    (ok → fits 16 → exec (.ringBaseWrite .completion v) s = .next { s with
      engine := { s.engine with
        baseComp := v, consComp := 0, postComp := 0, cfgIgnored := false } }) ∧
    (ok → fits 64 → exec (.ringBaseWrite .event v) s = .next { s with
      engine := { s.engine with baseEvent := v, consEvent := 0, cfgIgnored := false }
      events := { (returnEventWrite s).events with post := 0 } }) ∧
    (∀ ring, (¬ ok ∨ ¬ fits (if ring = .completion then 16 else 64)) →
      exec (.ringBaseWrite ring v) s = .next { s with
        engine := { s.engine with cfgIgnored := true } })

/-- Writes of the host indices (R131): stored, or not stored with a halt, or ignored on an unconfigured
ring and while HALTED where they would halt. -/
def Obligations.HostIndexWritesAreChecked : Prop :=
  ∀ (s : State) (v : Word), s.held = false →
    (∀ n, ringSize s.engine.baseA = some n →
      (v.toNat < n → exec (.ringProdWrite .a v) s = .next { s with
        engine := { s.engine with prodA := v.toNat } }) ∧
      (n ≤ v.toNat → s.engine.mode ≠ .halted →
        exec (.ringProdWrite .a v) s = .next (s.haltedBy .badTail)) ∧
      (n ≤ v.toNat → s.engine.mode = .halted → exec (.ringProdWrite .a v) s = .next s)) ∧
    (∀ n, ringSize s.engine.baseB = some n →
      (v.toNat < n → exec (.ringProdWrite .b v) s = .next { s with
        engine := { s.engine with prodB := v.toNat } }) ∧
      (n ≤ v.toNat → s.engine.mode ≠ .halted →
        exec (.ringProdWrite .b v) s = .next (s.haltedBy .badTail)) ∧
      (n ≤ v.toNat → s.engine.mode = .halted → exec (.ringProdWrite .b v) s = .next s)) ∧
    (∀ n, ringSize s.engine.baseComp = some n →
      let passes := ringDistance n s.engine.consComp s.engine.postComp <
        ringDistance n s.engine.consComp v.toNat
      (v.toNat < n → ¬ passes → exec (.compConsWrite v) s = .next { s with
        engine := { s.engine with consComp := v.toNat } }) ∧
      (n ≤ v.toNat ∨ passes → s.engine.mode ≠ .halted →
        exec (.compConsWrite v) s = .next (s.haltedBy .badHead)) ∧
      (n ≤ v.toNat ∨ passes → s.engine.mode = .halted → exec (.compConsWrite v) s = .next s)) ∧
    (∀ n, ringSize s.engine.baseEvent = some n →
      let passes := ringDistance n s.engine.consEvent s.events.post <
        ringDistance n s.engine.consEvent v.toNat
      (v.toNat < n → ¬ passes → exec (.eventConsWrite v) s = .next { s with
        engine := { s.engine with consEvent := v.toNat } }) ∧
      (n ≤ v.toNat ∨ passes → s.engine.mode ≠ .halted →
        exec (.eventConsWrite v) s = .next (s.haltedBy .badHead)) ∧
      (n ≤ v.toNat ∨ passes → s.engine.mode = .halted → exec (.eventConsWrite v) s = .next s)) ∧
    (ringSize s.engine.baseA = none → exec (.ringProdWrite .a v) s = .next s) ∧
    (ringSize s.engine.baseB = none → exec (.ringProdWrite .b v) s = .next s) ∧
    (ringSize s.engine.baseComp = none → exec (.compConsWrite v) s = .next s) ∧
    (ringSize s.engine.baseEvent = none → exec (.eventConsWrite v) s = .next s)

/-- R170: the interrupt line follows the three conditions and their enables; STATUS reports the conditions
whatever the enables. -/
def Obligations.InterruptFollowsItsConditions : Prop :=
  (∀ s : State, s.interrupt = true ↔
    (s.engine.cie = true ∧ s.engine.postComp ≠ s.engine.consComp) ∨
    (s.engine.eie = true ∧ s.events.post ≠ s.engine.consEvent) ∨
    (s.engine.hie = true ∧ s.engine.mode = .halted)) ∧
  (∀ s : State,
    ((readRegister s 0x08).getLsbD 12 = true ↔ s.engine.postComp ≠ s.engine.consComp) ∧
    ((readRegister s 0x08).getLsbD 13 = true ↔ s.events.post ≠ s.engine.consEvent) ∧
    ((readRegister s 0x08).getLsbD 14 = true ↔ s.engine.mode = .halted)) ∧
  (∀ s t : State, s.held = false → exec .deviceReset s = .next t →
    t.interrupt = false ∧ t.engine.cie = false ∧ t.engine.eie = false ∧ t.engine.hie = false) ∧
  ∀ s t : State, s.held = false → exec .engineReset s = .next t →
    t.interrupt = false ∧ t.engine.cie = s.engine.cie ∧ t.engine.eie = s.engine.eie ∧
      t.engine.hie = s.engine.hie

/-! ## The line -/

/-- R69: the check byte over the 25 bytes from the first bearer byte to the housekeeping byte. -/
def Obligations.CheckByteIsTheCrc : Prop :=
  (∀ bytes : List Byte, crc8 bytes = (bytes.flatMap bitsOf).foldl
    (fun (reg : Byte) (bit : Bool) =>
      if reg.getLsbD 7 ≠ bit then (reg <<< 1) ^^^ (0x31 : Byte) else reg <<< 1) (0xFF : Byte)) ∧
  (∀ f : LineFrame, frameCovered f = (f.bytes.items.drop 1).take 25 ∧
    (frameGood f = true ↔ (frameMarker f = 0x2D ∨ frameMarker f = 0xD2) ∧
      crc8 (frameCovered f) = f.bytes.get 26)) ∧
  (∀ (f g : LineFrame), frameCovered f = frameCovered g → f.bytes.get 26 = g.bytes.get 26 →
    (crc8 (frameCovered f) = frameCheck f ↔ crc8 (frameCovered g) = frameCheck g)) ∧
  ∀ (marker : Byte) (bearer : Table 12 Sample) (house : Byte),
    (makeFrame marker bearer house).bytes.get 26 =
      crc8 (frameCovered (makeFrame marker bearer house)) ∧
    (makeFrame marker bearer house).bytes.get 0 = marker ∧
    (makeFrame marker bearer house).bytes.get 25 = house ∧
    frameBearer (makeFrame marker bearer house) = bearer

/-- A candidate marker takes a hunting aligner to CONFIRM; without a marker, out of HUNT and at rest nothing
changes (R75, R77). On the internal loop the bits, and the frame examined, are the looped frame's (R74, log entry 7). An
upstream frame in HUNT and CONFIRM (R76, R78). In LOCKED and SEARCH a good frame writes the inbound registers (R12), the
error score follows (R79), and the marker count follows the markers B (R80); the third one in its place enters SF_LOCKED
at phase 0 and begins a block (R82, R83), which in LOOP sets loop lock and completes a pending LOOP (R91, R101). An error
score of 16 goes back to HUNT, after that entry where both fall in one frame (R79, R81, R82). -/
def Obligations.AlignerHuntsAndConfirms : Prop :=
  (∀ (s : State) (n : LinkId) (bits : Byte), s.held = false →
    let l := s.links.get n
    (sendsIn l.state = true → l.aligner.input = .line → l.aligner.frameAlign = .hunt →
      (bits = 0x2D ∨ bits = 0xD2) → exec (.candidateMarker n bits) s = .next { s with
        links := s.links.set n { l with
          aligner := { l.aligner with frameAlign := .confirm, confirm := 0 } } }) ∧
    (sendsIn l.state = true → l.aligner.input = .line → bits ≠ 0x2D → bits ≠ 0xD2 →
      exec (.candidateMarker n bits) s = .next s) ∧
    (∀ f, sendsIn l.state = true → l.aligner.input = .loopback → l.aligner.frameAlign = .hunt →
      l.loopFrame = some f → (frameMarker f = 0x2D ∨ frameMarker f = 0xD2) →
      exec (.candidateMarker n bits) s = .next { s with
        links := s.links.set n { l with
          aligner := { l.aligner with frameAlign := .confirm, confirm := 0 }, loopFrame := none } }) ∧
    ((sendsIn l.state = false ∨ l.aligner.frameAlign ≠ .hunt) →
      exec (.candidateMarker n bits) s = .next s)) ∧
  (∀ (s : State) (n : LinkId) (f : LineFrame), s.held = false →
    let l := s.links.get n
    (sendsIn l.state = false ∨ l.aligner.frameAlign = .hunt) →
    exec (.upstreamFrame n f) s = .next s) ∧
  (∀ (s : State) (n : LinkId) (f g : LineFrame) (l' : Link), s.held = false →
    let l := s.links.get n
    Examines l f g l' → l.aligner.frameAlign = .confirm →
    (frameGood g = true → l.aligner.confirm + 1 = 2 →
      exec (.upstreamFrame n f) s = .next { s with
        links := s.links.set n { l' with
          aligner := { l.aligner with frameAlign := .locked, confirm := 2, score := 0 } } }) ∧
    (frameGood g = true → l.aligner.confirm + 1 ≠ 2 →
      exec (.upstreamFrame n f) s = .next { s with
        links := s.links.set n { l' with
          aligner := { l.aligner with confirm := l.aligner.confirm + 1 } } }) ∧
    (frameGood g = false → exec (.upstreamFrame n f) s = .next { s with
      links := s.links.set n { l' with aligner := { l.aligner with frameAlign := .hunt } } })) ∧
  ∀ (s : State) (n : LinkId) (f g : LineFrame) (l' : Link), s.held = false →
    let l := s.links.get n
    let a := l.aligner
    LinkGood l → Examines l f g l' → a.frameAlign = .locked → a.superAlign = .search →
    let isB := frameMarker g = 0xD2
    let place := 0 < a.markers ∧ a.sinceMarker + 1 = 16
    let score := if frameGood g then a.score - 1 else a.score + 4
    let inbound := if frameGood g then frameBearer g else l.inbound
    let counted := fun (markers since : Nat) =>
      exec (.upstreamFrame n f) s = .next { s with
        links := s.links.set n { l' with
          inbound := inbound
          aligner := { a with
            score := score, markers := markers, sinceMarker := since, upBlock := none } } }
    let served := { l' with
      inbound := inbound
      aligner := { a with
        score := score
        superAlign := .sfLocked
        markers := 3
        sinceMarker := 0
        misses := 0
        phase := some 0
        upBlock := some ⟨[g.bytes.get 25], !frameGood g⟩ } }
    let entered := opCompletion l .done 0 ++
      [.event (.linkState n ⟨.loop, false⟩ ⟨.loop, true⟩ .loopLock)]
    (score < 16 →
      (isB → place → a.markers + 1 < 3 → counted (a.markers + 1) 0) ∧
      (isB → ¬ place → counted 1 0) ∧
      (¬ isB → place → counted 0 0) ∧
      (¬ isB → ¬ place → counted a.markers
        (if 0 < a.markers then a.sinceMarker + 1 else a.sinceMarker)) ∧
      (isB → place → a.markers + 1 = 3 → l.state ≠ .loop →
        exec (.upstreamFrame n f) s = .next { s with links := s.links.set n served }) ∧
      (isB → place → a.markers + 1 = 3 → l.state = .loop →
        exec (.upstreamFrame n f) s = .next (emit entered { s with
          links := s.links.set n { served with loopLock := true, timer := none, op := none } }))) ∧
    (16 ≤ score →
      ((l.state = .loop → isB → place → a.markers + 1 ≠ 3) →
        exec (.upstreamFrame n f) s = .next { s with
          links := s.links.set n { l' with
            inbound := Table.fill 12 0, aligner := a.lost } }) ∧
      (l.state = .loop → isB → place → a.markers + 1 = 3 →
        exec (.upstreamFrame n f) s = .next
          (emit (entered ++ abandonQueue l.chan.segIndex l.outQueue ++
              [.event (.linkState n ⟨.loop, true⟩ ⟨.fault, false⟩ (.fault .loopFail))])
            { s with links := s.links.set n (l.atRest .fault .loopFail) })))

/-- An upstream frame in LOCKED and SF_LOCKED that does not lose lock: the inbound registers, the error score,
the phase, the miss count and the block (R12, R79, R81, R83). The frame of phase 15 completes the block, which is handed
with its damaged mark: a damaged one is skipped, an undamaged one goes to the word filter, then the key filter, then the
message channel in ACTIVE and LOOP, each on the link as the one before has left it (R83, R84, R88, R89, R120); the key
filter is left out where the word has ended the service (log entry 12). The key filter takes a field seen twice, which the
key table follows in ACTIVE and LOOP with a KEYS event where keys are reported (R89, R109, R111). The header: the ACK
acknowledges a segment that has been carried (R118), the RDY becomes the peer RDY (R120), and a segment is refused,
accepted, assembled and queued (R121 to R123). -/
def Obligations.UpstreamFrameCarriesBearerAndHousekeeping : Prop :=
  (∀ (s : State) (n : LinkId) (f g : LineFrame) (l' : Link) (p q : Fin 16) (score misses : Nat)
      (miss : Bool),
    s.held = false →
    let l := s.links.get n
    let a := l.aligner
    Examines l f g l' → a.frameAlign = .locked → a.superAlign = .sfLocked →
    a.phase = some p → q = p + 1 →
    score = (if frameGood g then a.score - 1 else a.score + 4) → score < 16 →
    miss = (if q = 0 then frameMarker g != 0xD2 else frameMarker g == 0xD2) →
    misses = (if miss then a.misses + 1 else if q = 0 then 0 else a.misses) → misses < 2 →
    let damage := !frameGood g || miss
    let carried := fun (block : Option UpBlock) => { l' with
      inbound := if frameGood g then frameBearer g else l.inbound
      aligner := { a with score := score, misses := misses, phase := some q, upBlock := block } }
    (q ≠ 15 ∨ a.upBlock = none → exec (.upstreamFrame n f) s = .next { s with
      links := s.links.set n (carried
        (if q = 0 then some ⟨[g.bytes.get 25], damage⟩
        else a.upBlock.map fun b => ⟨b.bytes ++ [g.bytes.get 25], b.damaged || damage⟩)) }) ∧
    (q = 15 → ∀ b, a.upBlock = some b →
      let r := takeBlock n s.frame ⟨b.bytes ++ [g.bytes.get 25], b.damaged || damage⟩ (carried none)
      exec (.upstreamFrame n f) s = .next (emit r.2 { s with links := s.links.set n r.1 }))) ∧
  (∀ (n : LinkId) (frame : Word) (bytes : List Byte) (l : Link),
    takeBlock n frame ⟨bytes, true⟩ l = (l, [])) ∧
  (∀ (n : LinkId) (frame : Word) (word : Option LinkWord) (b0 b1 k0 k1 header : Byte)
      (segment : List Byte) (l : Link), segment.length = 11 → word = linkWordOf b0 b1 →
    let p := filterWord n word l
    let q := if p.1.aligner.frameAlign = .locked ∧ p.1.aligner.superAlign = .sfLocked then
        filterKeys n (k0 ++ k1) p.1
      else (p.1, [])
    let r := if q.1.state = .active ∨ q.1.state = .loop then readHeader n frame header segment q.1
      else (q.1, [])
    takeBlock n frame ⟨[b0, b1, k0, k1, header] ++ segment, false⟩ l = (r.1, p.2 ++ q.2 ++ r.2)) ∧
  (∀ (b0 b1 : Byte) (w : LinkWord), linkWordOf b0 b1 = some w ↔ b0 = w.code ∧ b1 = ~~~b0) ∧
  [LinkWord.wake, .hello, .engage, .run, .release, .done, .fault].map LinkWord.code =
    [0x11, 0x22, 0x33, 0x44, 0x55, 0x66, 0x77] ∧
  (∀ (n : LinkId) (field : Half) (l : Link),
    let seen := { l with candKeys := some field }
    let taken := { seen with takenKeys := field }
    let follows := l.state = .active ∨ l.state = .loop
    (l.candKeys ≠ some field ∨ l.takenKeys = field → filterKeys n field l = (seen, [])) ∧
    (l.candKeys = some field → l.takenKeys ≠ field →
      (¬ follows ∨ l.keyTable = field → filterKeys n field l = (taken, [])) ∧
      (follows → l.keyTable ≠ field → filterKeys n field l =
        ({ taken with keyTable := field },
          if l.reportKeys then [.event (.keys n field (l.keyTable ^^^ field))] else [])))) ∧
  (∀ (n : LinkId) (frame : Word) (header : Byte) (segment : List Byte) (l : Link),
    let p := readAck (header.getLsbD 6) l
    let r := readInbound n frame header segment
      { p.1 with chan := { p.1.chan with peerRdy := header.getLsbD 4 } }
    readHeader n frame header segment l = (r.1, p.2 ++ r.2)) ∧
  (∀ (ack : Bool) (l : Link),
    (l.outQueue = [] ∨ l.chan.retry = 0 ∨ ack ≠ l.chan.sendSeq → readAck ack l = (l, [])) ∧
    ∀ m rest, l.outQueue = m :: rest → 0 < l.chan.retry → ack = l.chan.sendSeq →
      let last := l.chan.segIndex + 1 = (m.bytes.length + 10) / 11
      (¬ last → readAck ack l = ({ l with chan := { l.chan with
        segIndex := l.chan.segIndex + 1
        sendSeq := !l.chan.sendSeq
        retry := 0
        notReady := 0 } }, [])) ∧
      (last → readAck ack l = ({ l with
        outQueue := rest
        chan := { l.chan with
          segIndex := 0
          sendSeq := !l.chan.sendSeq
          retry := 0
          notReady := 0 } },
        match m.owed with
        | none => []
        | some id => [.complete (.plain id .done (BitVec.ofNat 32 m.bytes.length))]))) ∧
  ∀ (n : LinkId) (frame : Word) (header : Byte) (segment : List Byte) (l : Link),
    let len := header.toNat % 16
    let seq := header.getLsbD 7
    let last := header.getLsbD 5 = true
    let part := segment.take len
    let c := l.chan
    let accepted := c.lastSeq ≠ some seq ∧ c.sentRdy = true ∧
      (last → c.discarding = false → l.inQueue.length < 4)
    (len = 0 → readInbound n frame header segment l = (l, [])) ∧
    (12 ≤ len →
      readInbound n frame header segment l = (l, [.event (.messageError n .badLength)])) ∧
    (1 ≤ len → len ≤ 11 → segment.length = 11 →
      (¬ accepted → readInbound n frame header segment l = (l, [])) ∧
      (accepted → c.discarding = true → readInbound n frame header segment l =
        ({ l with chan := { c with
          lastSeq := some seq, discarding := !header.getLsbD 5 } }, [])) ∧
      (accepted → c.discarding = false → 44 < c.assembly.length + len →
        readInbound n frame header segment l =
          ({ l with chan := { c with
            lastSeq := some seq, assembly := [], discarding := !header.getLsbD 5 } },
            [.event (.messageError n .tooLong)])) ∧
      (accepted → c.discarding = false → c.assembly.length + len ≤ 44 → last →
        readInbound n frame header segment l =
          ({ l with
            chan := { c with lastSeq := some seq, assembly := [] }
            inQueue := l.inQueue ++ [⟨c.assembly ++ part, frame⟩] }, [])) ∧
      (accepted → c.discarding = false → c.assembly.length + len ≤ 44 → ¬ last →
        readInbound n frame header segment l =
          ({ l with chan := { c with
            lastSeq := some seq, assembly := c.assembly ++ part } }, [])))

/-- An errored frame that brings the error score to 16 takes an ACTIVE link out of service and to DEGRADED,
with silent inbound registers and the key table released (R12, R79, R82, R90, R97, R110, R125). Every departure from
service, by that or by a second miss in a row (R81), clears the filters and discards the block; it degrades an ACTIVE link,
takes a LOOP with loop lock to FAULT, and changes no other session (R91, R96, R98 to R101). -/
def Obligations.LossOfLockDegradesASession : Prop :=
  (∀ (s : State) (n : LinkId) (f : LineFrame), s.held = false →
    let l := s.links.get n
    LinkGood l → l.state = .active → frameGood f = false → 12 ≤ l.aligner.score →
    exec (.upstreamFrame n f) s = .next
      (emit (keysReleased n l ++
          [.event (.linkState n ⟨.active, false⟩ ⟨.degraded, false⟩ .serviceLost)])
        { s with
          links := s.links.set n { l with
            state := .degraded
            timer := some (.hold, 32)
            takenWord := none
            candWord := none
            takenKeys := 0
            candKeys := none
            loopFrame := none
            inbound := Table.fill 12 0
            keyTable := 0
            aligner := l.aligner.lost
            chan := { l.chan with
              peerRdy := false
              assembly := []
              discarding := l.chan.discarding || !l.chan.assembly.isEmpty } } })) ∧
  (∀ a : Aligner, a.lost = { a with
    frameAlign := .hunt
    score := 0
    superAlign := .search
    markers := 0
    sinceMarker := 0
    misses := 0
    phase := none
    upBlock := none }) ∧
  ∀ (s : State) (n : LinkId) (f g : LineFrame) (l' : Link) (p q : Fin 16) (score misses : Nat)
      (miss : Bool) (inbound : Table 12 Sample) (a' : Aligner),
    s.held = false →
    let l := s.links.get n
    let a := l.aligner
    LinkGood l → Examines l f g l' → a.frameAlign = .locked → a.superAlign = .sfLocked →
    a.phase = some p → q = p + 1 →
    score = (if frameGood g then a.score - 1 else a.score + 4) →
    miss = (if q = 0 then frameMarker g != 0xD2 else frameMarker g == 0xD2) →
    misses = (if miss then a.misses + 1 else if q = 0 then 0 else a.misses) →
    ((16 ≤ score ∧ inbound = Table.fill 12 0 ∧ a' = a.lost) ∨
      (score < 16 ∧ 2 ≤ misses ∧ inbound = (if frameGood g then frameBearer g else l.inbound) ∧
        a' = { a with
          score := score
          superAlign := .search
          markers := 0
          sinceMarker := 0
          misses := misses
          phase := none
          upBlock := none })) →
    let left := { l' with
      takenWord := none
      candWord := none
      takenKeys := 0
      candKeys := none
      inbound := inbound
      aligner := a' }
    (l.state ≠ .active → l.state ≠ .loop → exec (.upstreamFrame n f) s = .next { s with
      links := s.links.set n left }) ∧
    (l.state = .active → exec (.upstreamFrame n f) s = .next
      (emit (keysReleased n l ++
          [.event (.linkState n ⟨.active, false⟩ ⟨.degraded, false⟩ .serviceLost)])
        { s with
          links := s.links.set n { left with
            state := .degraded
            timer := some (.hold, 32)
            loopFrame := none
            keyTable := 0
            chan := { l.chan with
              peerRdy := false
              assembly := []
              discarding := l.chan.discarding || !l.chan.assembly.isEmpty } } })) ∧
    (l.state = .loop → exec (.upstreamFrame n f) s = .next
      (emit (handedOn n l [] ⟨.fault, false⟩ (.fault .loopFail))
        { s with links := s.links.set n (l.atRest .fault .loopFail) }))

/-- When the word filter takes a word (R88), and what a taken word does to a session: the link it leaves, and
the completions and the LINK_STATE event it hands, with their order (R95 to R102); the queued messages of a session
that ends complete LINK_DOWN (R126). -/
def Obligations.TakenWordsMoveTheSession : Prop :=
  (∀ (n : LinkId) (word : Option LinkWord) (l : Link),
    (∀ w, word = some w → l.candWord = some (some w) → l.takenWord ≠ some w →
      filterWord n word l = wordTaken n w { l with candWord := some word, takenWord := some w }) ∧
    (word = none ∨ l.candWord ≠ some word ∨ l.takenWord = word →
      filterWord n word l = ({ l with candWord := some word }, []))) ∧
  (∀ k, abandonQueue k [] = []) ∧
  (∀ k m rest, abandonQueue k (m :: rest) =
    settleMessage m .linkDown (11 * k) ++ rest.flatMap fun later => settleMessage later .linkDown 0) ∧
  ∀ (n : LinkId) (w : LinkWord) (l : Link), LinkGood l →
    let r := wordTaken n w l
    let moved := fun (new : SessionState) (why : ChangeReason) =>
      Effect.event (.linkState n ⟨l.state, false⟩ ⟨new, false⟩ why)
    let pressed : List Effect := if l.reportKeys = true ∧ l.takenKeys ≠ 0 then
      [.event (.keys n l.takenKeys l.takenKeys)] else []
    let failed := fun (why : FaultReason) (status : Status) =>
      (l.atRest .fault why,
        handedOn n l (opCompletion l status 0) ⟨.fault, false⟩ (.fault why))
    (l.state = .calling → (w = .hello ∨ w = .wake) →
      r = ({ l with state := .training, timer := some (.train, 50), loopFrame := none },
        [moved .training .answered])) ∧
    (l.state = .calling → w ≠ .hello → w ≠ .wake → r = (l, [])) ∧
    (l.state = .training → w = .run →
      r = ({ l with
          state := .active
          timer := none
          op := none
          loopFrame := none
          keyTable := l.takenKeys
          chan := { MessageChannel.reset with sentRdy := l.chan.sentRdy } },
        pressed ++ opCompletion l .done 0 ++ [moved .active .engaged])) ∧
    (l.state = .training → w = .release → r = failed .refused .refused) ∧
    (l.state = .training → w ≠ .run → w ≠ .release → r = (l, [])) ∧
    (l.state = .active → w = .run → r = (l, [])) ∧
    (l.state = .active → w = .release →
      r = ({ l with
          state := .closing
          side := some .station
          timer := some (.close, 16)
          loopFrame := none
          keyTable := 0
          chan := { l.chan with assembly := [], discarding := false }
          outQueue := [] },
        handedOn n l [] ⟨.closing, false⟩ .stationRelease)) ∧
    (l.state = .active → w = .fault → l.op = none ∧ r = failed .station .done) ∧
    (l.state = .active → (w = .wake ∨ w = .hello ∨ w = .engage ∨ w = .done) →
      l.op = none ∧ r = failed .protocol .done) ∧
    (l.state = .degraded → w = .run →
      r = ({ l with
          state := .active
          timer := none
          loopFrame := none
          keyTable := l.takenKeys },
        pressed ++ [moved .active .recovered])) ∧
    (l.state = .degraded → w ≠ .run → l.op = none ∧ r = failed .protocol .done) ∧
    (l.state = .closing → l.side = some .hub → w = .done →
      r = (l.atRest .off .none,
        handedOn n l (opCompletion l .done 1) ⟨.off, false⟩ .confirmed)) ∧
    (l.state = .closing → (l.side ≠ some .hub ∨ w ≠ .done) → r = (l, [])) ∧
    ((l.state = .off ∨ l.state = .listen ∨ l.state = .fault ∨ l.state = .loop) → r = (l, []))

/-- What a frame start does at every link (R70 to R74, R92, R115, R117): the downstream frame and, at a superframe
start, the counted timer and the new block. In ACTIVE and LOOP the oldest message is settled first, and the block carries
its segment; in DEGRADED the block carries none (R125). In LOOP the frame goes into the internal loop and not on the line
(R74). A timer that is due and a looped frame that no row has examined are taken first (log entries 2, 3 and 7). What the
eight links hand is handed link 0 first (log entry 8). -/
def Obligations.FramerSendsFramesAndBlocks : Prop :=
  (∀ (s : State) (n : LinkId) (block : Table 16 Byte) (p : Fin 16), s.held = false →
    let l := s.links.get n
    l.framer = .sending → l.state ≠ .loop → l.loopFrame = none → (∀ kind, l.timer ≠ some (kind, 0)) →
    l.block = some block → p = phaseOf (s.frame + 1) → p ≠ 0 →
    ∃ t, exec .frameStart s = .next t ∧ t.links.get n = { l with
      lineOut := some (makeFrame 0x2D
        (if l.state = .active ∨ l.state = .degraded then s.core.down.get n else Table.fill 12 0)
        (block.get p)) }) ∧
  (∀ (s : State) (n : LinkId) (word : LinkWord) (block : Table 16 Byte), s.held = false →
    let l := s.links.get n
    l.framer = .sending → l.loopFrame = none → (∀ kind, l.timer ≠ some (kind, 0)) →
    phaseOf (s.frame + 1) = 0 →
    ((l.state = .calling ∧ word = .wake) ∨ (l.state = .training ∧ word = .engage) ∨
      (l.state = .closing ∧ word = if l.side = some .station then .done else .release)) →
    block = makeBlock word l.lamps 0 [] →
    ∃ t, exec .frameStart s = .next t ∧ t.links.get n = { l with
      timer := l.timer.map fun k => (k.1, k.2 - 1)
      block := some block
      chan := { l.chan with sentRdy := false }
      lineOut := some (makeFrame 0xD2 (Table.fill 12 0) (block.get 0)) }) ∧
  (∀ s : State, s.held = false → ∃ m : LinkId → Link,
    let begun := fun n => linkFrameStart (s.frame + 1) (s.core.down.get n) (m n)
    exec .frameStart s = .next (startTaps (framePass (startSchedule
      (emit ((List.finRange 8).flatMap fun n => (begun n).2)
        { advanceFrame (catchUp s) with links := Table.ofFn fun n => (begun n).1 })))) ∧
    (∃ t, exec .frameStart s = .next t ∧ ∀ n, t.links.get n = (begun n).1) ∧
    ∀ n,
      let l := s.links.get n
      ((∀ kind, l.timer ≠ some (kind, 0)) → l.loopFrame = none → m n = l) ∧
      (∀ g, (∀ kind, l.timer ≠ some (kind, 0)) → l.loopFrame = some g →
        ∃ t, exec (if l.aligner.frameAlign = .hunt then .candidateMarker n 0 else .upstreamFrame n g) s =
          .next t ∧ m n = t.links.get n) ∧
      ∀ kind, l.timer = some (kind, 0) →
        ∃ t, exec (match kind with
          | .call => .callTimerExpires n
          | .train => .trainTimerExpires n
          | .hold => .holdTimerExpires n
          | .close => .closeTimerExpires n
          | .loop => .loopTimerExpires n) s = .next t ∧ m n = t.links.get n) ∧
  (∀ (frame : Word) (down : Table 12 Sample) (l : Link) (p : Fin 16), p = phaseOf frame →
    let speaks := l.state = .active ∨ l.state = .degraded ∨ l.state = .loop
    let counted := { l with timer := l.timer.map fun k => (k.1, k.2 - 1) }
    let sent := fun (marker : Byte) (b : Table 16 Byte) =>
      makeFrame marker (if speaks then down else Table.fill 12 0) (b.get p)
    let out := fun (f : Option LineFrame) (m : Link) =>
      if l.state = .loop then { m with lineOut := none, loopFrame := f }
      else { m with lineOut := f, loopFrame := none }
    let formed := fun (m : Link) (word : LinkWord) (header : Byte) (segment : List Byte)
        (rdy : Bool) =>
      let b := makeBlock word m.lamps header segment
      out (some (sent 0xD2 b)) { m with
        block := some b
        chan := { m.chan with sentRdy := rdy } }
    (p.val = frame.toNat % 16) ∧
    (p ≠ 0 → (l.framer = .atRest ∨ l.block = none) →
      linkFrameStart frame down l = (out none l, [])) ∧
    (p ≠ 0 → l.framer = .sending → ∀ b, l.block = some b →
      linkFrameStart frame down l = (out (some (sent 0x2D b)) l, [])) ∧
    (p = 0 → l.framer = .atRest → linkFrameStart frame down l = (out none counted, [])) ∧
    (p = 0 → l.framer = .sending → ∀ word,
      ((l.state = .calling ∧ word = .wake) ∨ (l.state = .training ∧ word = .engage) ∨
        (l.state = .closing ∧ word = if l.side = some .station then .done else .release)) →
      linkFrameStart frame down l = (formed counted word 0 [] false, [])) ∧
    (p = 0 → l.framer = .sending → l.state = .degraded →
      let rdy := decide (l.inQueue.length < 4)
      linkFrameStart frame down l = (formed counted .run
        (makeHeader l.chan.sendSeq (l.chan.lastSeq.getD true) false rdy 0) [] rdy, [])) ∧
    (p = 0 → l.framer = .sending → (l.state = .active ∨ l.state = .loop) →
      let q := settleOldest counted
      let m := q.1
      let rdy := decide (l.inQueue.length < 4)
      (m.outQueue = [] ∨ m.chan.peerRdy = false →
        linkFrameStart frame down l = (formed m .run
          (makeHeader m.chan.sendSeq (m.chan.lastSeq.getD true) false rdy 0) [] rdy, q.2)) ∧
      ∀ o rest, m.outQueue = o :: rest → m.chan.peerRdy = true →
        let segment := (o.bytes.drop (11 * m.chan.segIndex)).take 11
        let last := decide (segment ≠ [] ∧ m.chan.segIndex + 1 = (o.bytes.length + 10) / 11)
        linkFrameStart frame down l = (formed m .run
          (makeHeader m.chan.sendSeq (m.chan.lastSeq.getD true) last rdy segment.length) segment
          rdy, q.2))) ∧
  (∀ (word : LinkWord) (lamps : Half) (header : Byte) (segment : List Byte), segment.length ≤ 11 →
    (makeBlock word lamps header segment).items = [word.code, ~~~word.code,
      lamps.extractLsb' 8 8, lamps.extractLsb' 0 8, header] ++ segment ++
      List.replicate (11 - segment.length) 0) ∧
  (∀ (seq ack last rdy : Bool) (len : Nat), len < 16 →
    let h := makeHeader seq ack last rdy len
    h.getLsbD 7 = seq ∧ h.getLsbD 6 = ack ∧ h.getLsbD 5 = last ∧ h.getLsbD 4 = rdy ∧
      h.toNat % 16 = len) ∧
  (∀ (m : OutMessage) (status : Status) (result : Nat), settleMessage m status result =
    match m.owed with
    | none => []
    | some id => [.complete (.plain id status (BitVec.ofNat 32 result))]) ∧
  ∀ l : Link,
    let c := l.chan
    let next := { c with sendSeq := !c.sendSeq, segIndex := 0, retry := 0, notReady := 0 }
    (l.outQueue = [] → settleOldest l = (l, [])) ∧
    ∀ o rest, l.outQueue = o :: rest →
      (c.retry < 16 → c.peerRdy = true → settleOldest l =
        ({ l with chan := { c with notReady := 0, retry := c.retry + 1 } }, [])) ∧
      (c.retry < 16 → c.peerRdy = false → c.notReady + 1 < 256 → settleOldest l =
        ({ l with chan := { c with notReady := c.notReady + 1 } }, [])) ∧
      (c.retry < 16 → c.peerRdy = false → 256 ≤ c.notReady + 1 → settleOldest l =
        ({ l with
          outQueue := rest
          chan := { next with notReady := if rest = [] then 0 else 1 } },
          settleMessage o .notReady (11 * c.segIndex))) ∧
      (16 ≤ c.retry → c.peerRdy = true → settleOldest l =
        ({ l with
          outQueue := rest
          chan := { next with retry := if rest = [] then 0 else 1 } },
          settleMessage o .noAck (11 * c.segIndex))) ∧
      (16 ≤ c.retry → c.peerRdy = false → settleOldest l =
        ({ l with
          outQueue := rest
          chan := { next with notReady := if rest = [] then 0 else 1 } },
          settleMessage o .noAck (11 * c.segIndex)))

/-! ## Link sessions -/

/-- START LINK in CALL mode starts a call from OFF, LISTEN and FAULT; in ANSWER mode it listens, from OFF
and FAULT; otherwise it is refused BUSY with the state (R87, R93 to R103). -/
def Obligations.StartLinkCallsOrListens : Prop :=
  ∀ (s : State) (slot : Nat) (r : CommandRecord) (f : StartFields), ReadInFlight s .b slot →
    parseStart r = some f →
    let n := f.link
    let l := s.links.get n
    let id : CmdId := ⟨recTag r, .b, slot⟩
    let length := if f.timer = 0 then 500 else f.timer
    LinkGood l →
    (f.mode = .call → (l.state = .off ∨ l.state = .listen ∨ l.state = .fault) →
      exec (.startLink r) s = .next
        (stopIfDue (emit [.event (.linkState n ⟨l.state, false⟩ ⟨.calling, false⟩ .hostStart)]
          { s.readEnded .b with
            links := s.links.set n { l with
              state := .calling
              faultReason := .none
              callLength := length
              reportKeys := f.report
              timer := some (.call, length)
              op := some ⟨.start, id⟩
              framer := .sending
              loopFrame := none
              detector := .off } }))) ∧
    (f.mode = .answer → (l.state = .off ∨ l.state = .fault) →
      exec (.startLink r) s = .next
        (stopIfDue (emit [.complete (.plain id .done 0),
            .event (.linkState n ⟨l.state, false⟩ ⟨.listen, false⟩ .hostStart)]
          { s.readEnded .b with
            links := s.links.set n { l with
              state := .listen
              faultReason := .none
              callLength := length
              reportKeys := f.report
              block := none
              loopFrame := none
              detector := .armed } }))) ∧
    ((f.mode = .call ∧ l.state ≠ .off ∧ l.state ≠ .listen ∧ l.state ≠ .fault) ∨
      (f.mode = .answer ∧ l.state ≠ .off ∧ l.state ≠ .fault) →
      exec (.startLink r) s = .next (stopIfDue ((s.readEnded .b).answered
        [.plain id .busy (BitVec.ofNat 32 (SessionView.code ⟨l.state, l.loopLock⟩))])))

/-- LOOP LINK enters LOOP from OFF and FAULT, and is refused BUSY otherwise (R74, R75, R101, R104, R114). -/
def Obligations.LoopLinkEntersTheLoop : Prop :=
  ∀ (s : State) (slot : Nat) (r : CommandRecord) (f : LoopFields), ReadInFlight s .b slot →
    parseLoop r = some f →
    let n := f.link
    let l := s.links.get n
    let id : CmdId := ⟨recTag r, .b, slot⟩
    LinkGood l →
    ((l.state = .off ∨ l.state = .fault) →
      exec (.loopLink r) s = .next
        (stopIfDue (emit [.event (.linkState n ⟨l.state, false⟩ ⟨.loop, false⟩ .hostLoop)]
          { s.readEnded .b with
            links := s.links.set n { l with
              state := .loop
              faultReason := .none
              reportKeys := f.report
              timer := some (.loop, 16)
              op := some ⟨.loop, id⟩
              framer := .sending
              aligner := { Aligner.reset with input := .loopback }
              chan := { MessageChannel.reset with sentRdy := l.chan.sentRdy } } }))) ∧
    (l.state ≠ .off → l.state ≠ .fault →
      exec (.loopLink r) s = .next (stopIfDue ((s.readEnded .b).answered
        [.plain id .busy (BitVec.ofNat 32 (SessionView.code ⟨l.state, l.loopLock⟩))])))

/-- STOP LINK in each state (R93 to R102, R105). -/
def Obligations.StopLinkEndsTheSession : Prop :=
  ∀ (s : State) (slot : Nat) (r : CommandRecord) (n : LinkId), ReadInFlight s .b slot →
    parseLinkOnly r = some n →
    let l := s.links.get n
    let id : CmdId := ⟨recTag r, .b, slot⟩
    LinkGood l →
    (l.state = .off → exec (.stopLink r) s =
      .next (stopIfDue ((s.readEnded .b).answered [.plain id .done 0]))) ∧
    ((l.state = .listen ∨ l.state = .fault ∨ l.state = .calling ∨ l.state = .loop) →
      exec (.stopLink r) s = .next
        (stopIfDue (emit (handedOn n l (opCompletion l .aborted 0 ++ [.complete (.plain id .done 0)])
            ⟨.off, false⟩ .hostStop)
          { s.readEnded .b with links := s.links.set n (l.atRest .off .none) }))) ∧
    ((l.state = .training ∨ l.state = .active ∨ l.state = .degraded) →
      exec (.stopLink r) s = .next
        (stopIfDue (emit (handedOn n l (opCompletion l .aborted 0) ⟨.closing, false⟩ .hostStop)
          { s.readEnded .b with
            links := s.links.set n { l with
              state := .closing
              side := some .hub
              timer := some (.close, 16)
              op := some ⟨.stop, id⟩
              loopFrame := none
              keyTable := 0
              chan := { l.chan with assembly := [], discarding := false }
              outQueue := [] } }))) ∧
    (l.state = .closing → exec (.stopLink r) s =
      .next (stopIfDue ((s.readEnded .b).answered [.plain id .busy 6])))

/-- QUERY LINK reports the taken keys, the state, the fault reason and the locks (R106, 10.3), and SET LAMPS
sets, in every session state (R112). SEND MESSAGE joins the
outbound queue in ACTIVE, DEGRADED and LOOP while it holds fewer than two, and is refused otherwise (R116). -/
def Obligations.QueryLampsAndMessagesAreTaken : Prop :=
  ((∀ (s : State) (slot : Nat) (r : CommandRecord) (n : LinkId), ReadInFlight s .b slot →
    parseLinkOnly r = some n → ∃ report : Word,
    exec (.queryLink r) s = .next (stopIfDue ((s.readEnded .b).answered
      [.plain ⟨recTag r, .b, slot⟩ .done report])) ∧
    let l := s.links.get n
    report.extractLsb' 0 16 = l.takenKeys ∧
    (report.extractLsb' 16 4).toNat = SessionView.code ⟨l.state, l.loopLock⟩ ∧
    (report.extractLsb' 20 3).toNat = l.faultReason.code ∧ report.getLsbD 23 = false ∧
    report.getLsbD 24 = decide (l.aligner.frameAlign = .locked) ∧
    report.getLsbD 25 = decide (l.aligner.superAlign = .sfLocked) ∧
    report.getLsbD 26 = l.loopLock ∧ report.extractLsb' 27 5 = 0) ∧
  [FaultReason.none, .noAnswer, .noEngage, .refused, .lost, .protocol, .station, .loopFail].map
    FaultReason.code = List.range 8 ∧
  ∀ (s : State) (slot : Nat) (r : CommandRecord) (f : LampFields), ReadInFlight s .b slot →
    parseLamps r = some f →
    ∃ lamps : Half, exec (.setLamps r) s = .next (stopIfDue (({ s.readEnded .b with
        links := s.links.set f.link { s.links.get f.link with lamps := lamps } }).answered
      [.plain ⟨recTag r, .b, slot⟩ .done (BitVec.ofNat 32 lamps.toNat)])) ∧
      ∀ k, k < 16 → lamps.getLsbD k =
        if f.mask.getLsbD k then f.value.getLsbD k else (s.links.get f.link).lamps.getLsbD k) ∧
  (∀ (s : State) (slot : Nat) (r : CommandRecord) (f : MessageFields), ReadInFlight s .b slot →
    parseMessage r = some f →
    let l := s.links.get f.link
    let id : CmdId := ⟨recTag r, .b, slot⟩
    let speaks := l.state = .active ∨ l.state = .degraded ∨ l.state = .loop
    (speaks → l.outQueue.length < 2 → exec (.sendMessage r) s = .next (stopIfDue { s.readEnded .b with
      links := s.links.set f.link { l with outQueue := l.outQueue ++ [⟨some id, f.bytes⟩] } })) ∧
    (speaks → 2 ≤ l.outQueue.length → exec (.sendMessage r) s =
      .next (stopIfDue ((s.readEnded .b).answered [.plain id .queueFull 0]))) ∧
    (¬ speaks → exec (.sendMessage r) s =
      .next (stopIfDue ((s.readEnded .b).answered [.plain id .linkDown 0]))))

/-- Line activity takes a listening link to CALLING, and finds no armed detector in any other state
(R85, R94). -/
def Obligations.LineActivityStartsACall : Prop :=
  ∀ (s : State) (n : LinkId), s.held = false →
    let l := s.links.get n
    LinkGood l →
    (l.state = .listen → exec (.lineActivity n) s = .next
      (emit [.event (.linkState n ⟨.listen, false⟩ ⟨.calling, false⟩ .activity)]
        { s with
          links := s.links.set n { l with
            state := .calling
            timer := some (.call, l.callLength)
            framer := .sending
            loopFrame := none
            detector := .off } })) ∧
    (l.state ≠ .listen → exec (.lineActivity n) s = .next s)

/-- The five supervision timers (R92, R95, R96, R98, R99, R101); one that is not due does nothing (log
entry 2). -/
def Obligations.SupervisionTimersExpire : Prop :=
  (∀ (s : State) (n : LinkId), s.held = false →
    let l := s.links.get n
    let failed := fun (why : FaultReason) (status : Status) =>
      (Host.Outcome.next : State → Answer)
        (emit (handedOn n l (opCompletion l status 0) ⟨.fault, false⟩ (.fault why))
          { s with links := s.links.set n (l.atRest .fault why) })
    LinkGood l →
    (l.timer = some (.call, 0) → exec (.callTimerExpires n) s = failed .noAnswer .noAnswer) ∧
    (l.timer = some (.train, 0) → exec (.trainTimerExpires n) s = failed .noEngage .noEngage) ∧
    (l.timer = some (.hold, 0) → l.op = none ∧
      exec (.holdTimerExpires n) s = failed .lost .done) ∧
    (l.timer = some (.close, 0) → exec (.closeTimerExpires n) s = .next
      (emit (handedOn n l (opCompletion l .done 0) ⟨.off, false⟩ .closeTimeout)
        { s with links := s.links.set n (l.atRest .off .none) })) ∧
    (l.timer = some (.loop, 0) → exec (.loopTimerExpires n) s = failed .loopFail .loopFail)) ∧
  (∀ (s : State) (n : LinkId), s.held = false →
    let l := s.links.get n
    (l.timer ≠ some (.call, 0) → exec (.callTimerExpires n) s = .next s) ∧
    (l.timer ≠ some (.train, 0) → exec (.trainTimerExpires n) s = .next s) ∧
    (l.timer ≠ some (.hold, 0) → exec (.holdTimerExpires n) s = .next s) ∧
    (l.timer ≠ some (.close, 0) → exec (.closeTimerExpires n) s = .next s) ∧
    (l.timer ≠ some (.loop, 0) → exec (.loopTimerExpires n) s = .next s))

/-- The two message limits fail the oldest message with the bytes acknowledged so far, and the channel moves
on to the next (R117, R119). They stand at the frame before a superframe start (log entry 4). -/
def Obligations.MessageLimitsFailTheOldest : Prop :=
  ∀ (s : State) (n : LinkId) (m : OutMessage) (rest : List OutMessage), s.held = false →
    let l := s.links.get n
    let failed := fun (status : Status) =>
      (Host.Outcome.next : State → Answer)
        (emit (settleMessage m status (11 * l.chan.segIndex))
          { s with
            links := s.links.set n { l with
              outQueue := rest
              chan := { l.chan with
                sendSeq := !l.chan.sendSeq, segIndex := 0, retry := 0, notReady := 0 } } })
    (l.state = .active ∨ l.state = .loop) → phaseOf (s.frame + 1) = 0 → l.outQueue = m :: rest →
    (16 ≤ l.chan.retry → exec (.retryLimit n) s = failed .noAck) ∧
    (l.chan.retry < 16 → exec (.retryLimit n) s = .next s) ∧
    (l.chan.retry < 16 → l.chan.peerRdy = false → 256 ≤ l.chan.notReady + 1 →
      exec (.notReadyLimit n) s = failed .notReady) ∧
    (l.chan.peerRdy = true ∨ l.chan.notReady + 1 < 256 → exec (.notReadyLimit n) s = .next s)

end Statements
end

