-- ==== Sys2Proof/Laws/State.lean ====
section
/-! SUPPORT. One lemma for each field of State after each update of one block, so that no proof unfolds a
record update; and that updates of one block replace one another. -/

namespace Sys2Proof.Machine

variable (s : State)

/-! ### withEngine -/

@[simp] theorem withEngine_held (e : RingEngine) : (s.withEngine e).held = s.held := rfl
@[simp] theorem withEngine_frame (e : RingEngine) : (s.withEngine e).frame = s.frame := rfl
@[simp] theorem withEngine_engine (e : RingEngine) : (s.withEngine e).engine = e := rfl
@[simp] theorem withEngine_sched (e : RingEngine) : (s.withEngine e).sched = s.sched := rfl
@[simp] theorem withEngine_core (e : RingEngine) : (s.withEngine e).core = s.core := rfl
@[simp] theorem withEngine_taps (e : RingEngine) : (s.withEngine e).taps = s.taps := rfl
@[simp] theorem withEngine_closing (e : RingEngine) : (s.withEngine e).closing = s.closing := rfl
@[simp] theorem withEngine_links (e : RingEngine) : (s.withEngine e).links = s.links := rfl
@[simp] theorem withEngine_events (e : RingEngine) : (s.withEngine e).events = s.events := rfl
@[simp] theorem withEngine_pending (e : RingEngine) : (s.withEngine e).pending = s.pending := rfl
@[simp] theorem withEngine_self : s.withEngine s.engine = s := rfl
@[simp] theorem withEngine_twice (e e' : RingEngine) : (s.withEngine e).withEngine e' = s.withEngine e' := rfl

/-! ### withSched -/

@[simp] theorem withSched_held (d : Scheduler) : (s.withSched d).held = s.held := rfl
@[simp] theorem withSched_frame (d : Scheduler) : (s.withSched d).frame = s.frame := rfl
@[simp] theorem withSched_engine (d : Scheduler) : (s.withSched d).engine = s.engine := rfl
@[simp] theorem withSched_sched (d : Scheduler) : (s.withSched d).sched = d := rfl
@[simp] theorem withSched_core (d : Scheduler) : (s.withSched d).core = s.core := rfl
@[simp] theorem withSched_taps (d : Scheduler) : (s.withSched d).taps = s.taps := rfl
@[simp] theorem withSched_closing (d : Scheduler) : (s.withSched d).closing = s.closing := rfl
@[simp] theorem withSched_links (d : Scheduler) : (s.withSched d).links = s.links := rfl
@[simp] theorem withSched_events (d : Scheduler) : (s.withSched d).events = s.events := rfl
@[simp] theorem withSched_pending (d : Scheduler) : (s.withSched d).pending = s.pending := rfl
@[simp] theorem withSched_self : s.withSched s.sched = s := rfl
@[simp] theorem withSched_twice (d d' : Scheduler) : (s.withSched d).withSched d' = s.withSched d' := rfl

/-! ### withCore -/

@[simp] theorem withCore_held (c : SwitchCore) : (s.withCore c).held = s.held := rfl
@[simp] theorem withCore_frame (c : SwitchCore) : (s.withCore c).frame = s.frame := rfl
@[simp] theorem withCore_engine (c : SwitchCore) : (s.withCore c).engine = s.engine := rfl
@[simp] theorem withCore_sched (c : SwitchCore) : (s.withCore c).sched = s.sched := rfl
@[simp] theorem withCore_core (c : SwitchCore) : (s.withCore c).core = c := rfl
@[simp] theorem withCore_taps (c : SwitchCore) : (s.withCore c).taps = s.taps := rfl
@[simp] theorem withCore_closing (c : SwitchCore) : (s.withCore c).closing = s.closing := rfl
@[simp] theorem withCore_links (c : SwitchCore) : (s.withCore c).links = s.links := rfl
@[simp] theorem withCore_events (c : SwitchCore) : (s.withCore c).events = s.events := rfl
@[simp] theorem withCore_pending (c : SwitchCore) : (s.withCore c).pending = s.pending := rfl
@[simp] theorem withCore_self : s.withCore s.core = s := rfl
@[simp] theorem withCore_twice (c c' : SwitchCore) : (s.withCore c).withCore c' = s.withCore c' := rfl

/-! ### withTaps -/

@[simp] theorem withTaps_held (t : Table 16 Tap) : (s.withTaps t).held = s.held := rfl
@[simp] theorem withTaps_frame (t : Table 16 Tap) : (s.withTaps t).frame = s.frame := rfl
@[simp] theorem withTaps_engine (t : Table 16 Tap) : (s.withTaps t).engine = s.engine := rfl
@[simp] theorem withTaps_sched (t : Table 16 Tap) : (s.withTaps t).sched = s.sched := rfl
@[simp] theorem withTaps_core (t : Table 16 Tap) : (s.withTaps t).core = s.core := rfl
@[simp] theorem withTaps_taps (t : Table 16 Tap) : (s.withTaps t).taps = t := rfl
@[simp] theorem withTaps_closing (t : Table 16 Tap) : (s.withTaps t).closing = s.closing := rfl
@[simp] theorem withTaps_links (t : Table 16 Tap) : (s.withTaps t).links = s.links := rfl
@[simp] theorem withTaps_events (t : Table 16 Tap) : (s.withTaps t).events = s.events := rfl
@[simp] theorem withTaps_pending (t : Table 16 Tap) : (s.withTaps t).pending = s.pending := rfl
@[simp] theorem withTaps_self : s.withTaps s.taps = s := rfl
@[simp] theorem withTaps_twice (t t' : Table 16 Tap) : (s.withTaps t).withTaps t' = s.withTaps t' := rfl

/-! ### withClosing -/

@[simp] theorem withClosing_held (c : List ClosingGroup) : (s.withClosing c).held = s.held := rfl
@[simp] theorem withClosing_frame (c : List ClosingGroup) : (s.withClosing c).frame = s.frame := rfl
@[simp] theorem withClosing_engine (c : List ClosingGroup) : (s.withClosing c).engine = s.engine := rfl
@[simp] theorem withClosing_sched (c : List ClosingGroup) : (s.withClosing c).sched = s.sched := rfl
@[simp] theorem withClosing_core (c : List ClosingGroup) : (s.withClosing c).core = s.core := rfl
@[simp] theorem withClosing_taps (c : List ClosingGroup) : (s.withClosing c).taps = s.taps := rfl
@[simp] theorem withClosing_closing (c : List ClosingGroup) : (s.withClosing c).closing = c := rfl
@[simp] theorem withClosing_links (c : List ClosingGroup) : (s.withClosing c).links = s.links := rfl
@[simp] theorem withClosing_events (c : List ClosingGroup) : (s.withClosing c).events = s.events := rfl
@[simp] theorem withClosing_pending (c : List ClosingGroup) : (s.withClosing c).pending = s.pending := rfl
@[simp] theorem withClosing_self : s.withClosing s.closing = s := rfl
@[simp] theorem withClosing_twice (c c' : List ClosingGroup) : (s.withClosing c).withClosing c' = s.withClosing c' := rfl

/-! ### withLinks -/

@[simp] theorem withLinks_held (l : Table 8 Link) : (s.withLinks l).held = s.held := rfl
@[simp] theorem withLinks_frame (l : Table 8 Link) : (s.withLinks l).frame = s.frame := rfl
@[simp] theorem withLinks_engine (l : Table 8 Link) : (s.withLinks l).engine = s.engine := rfl
@[simp] theorem withLinks_sched (l : Table 8 Link) : (s.withLinks l).sched = s.sched := rfl
@[simp] theorem withLinks_core (l : Table 8 Link) : (s.withLinks l).core = s.core := rfl
@[simp] theorem withLinks_taps (l : Table 8 Link) : (s.withLinks l).taps = s.taps := rfl
@[simp] theorem withLinks_closing (l : Table 8 Link) : (s.withLinks l).closing = s.closing := rfl
@[simp] theorem withLinks_links (l : Table 8 Link) : (s.withLinks l).links = l := rfl
@[simp] theorem withLinks_events (l : Table 8 Link) : (s.withLinks l).events = s.events := rfl
@[simp] theorem withLinks_pending (l : Table 8 Link) : (s.withLinks l).pending = s.pending := rfl
@[simp] theorem withLinks_self : s.withLinks s.links = s := rfl
@[simp] theorem withLinks_twice (l l' : Table 8 Link) : (s.withLinks l).withLinks l' = s.withLinks l' := rfl

/-! ### withEvents -/

@[simp] theorem withEvents_held (u : EventUnit) : (s.withEvents u).held = s.held := rfl
@[simp] theorem withEvents_frame (u : EventUnit) : (s.withEvents u).frame = s.frame := rfl
@[simp] theorem withEvents_engine (u : EventUnit) : (s.withEvents u).engine = s.engine := rfl
@[simp] theorem withEvents_sched (u : EventUnit) : (s.withEvents u).sched = s.sched := rfl
@[simp] theorem withEvents_core (u : EventUnit) : (s.withEvents u).core = s.core := rfl
@[simp] theorem withEvents_taps (u : EventUnit) : (s.withEvents u).taps = s.taps := rfl
@[simp] theorem withEvents_closing (u : EventUnit) : (s.withEvents u).closing = s.closing := rfl
@[simp] theorem withEvents_links (u : EventUnit) : (s.withEvents u).links = s.links := rfl
@[simp] theorem withEvents_events (u : EventUnit) : (s.withEvents u).events = u := rfl
@[simp] theorem withEvents_pending (u : EventUnit) : (s.withEvents u).pending = s.pending := rfl
@[simp] theorem withEvents_self : s.withEvents s.events = s := rfl
@[simp] theorem withEvents_twice (u u' : EventUnit) : (s.withEvents u).withEvents u' = s.withEvents u' := rfl

/-! ### withPending -/

@[simp] theorem withPending_held (q : List Instr) : (s.withPending q).held = s.held := rfl
@[simp] theorem withPending_frame (q : List Instr) : (s.withPending q).frame = s.frame := rfl
@[simp] theorem withPending_engine (q : List Instr) : (s.withPending q).engine = s.engine := rfl
@[simp] theorem withPending_sched (q : List Instr) : (s.withPending q).sched = s.sched := rfl
@[simp] theorem withPending_core (q : List Instr) : (s.withPending q).core = s.core := rfl
@[simp] theorem withPending_taps (q : List Instr) : (s.withPending q).taps = s.taps := rfl
@[simp] theorem withPending_closing (q : List Instr) : (s.withPending q).closing = s.closing := rfl
@[simp] theorem withPending_links (q : List Instr) : (s.withPending q).links = s.links := rfl
@[simp] theorem withPending_events (q : List Instr) : (s.withPending q).events = s.events := rfl
@[simp] theorem withPending_pending (q : List Instr) : (s.withPending q).pending = q := rfl
@[simp] theorem withPending_self : s.withPending s.pending = s := rfl
@[simp] theorem withPending_twice (q q' : List Instr) : (s.withPending q).withPending q' = s.withPending q' := rfl

/-! ### setLink -/

@[simp] theorem setLink_held (n : LinkId) (l : Link) : (s.setLink n l).held = s.held := rfl
@[simp] theorem setLink_frame (n : LinkId) (l : Link) : (s.setLink n l).frame = s.frame := rfl
@[simp] theorem setLink_engine (n : LinkId) (l : Link) : (s.setLink n l).engine = s.engine := rfl
@[simp] theorem setLink_sched (n : LinkId) (l : Link) : (s.setLink n l).sched = s.sched := rfl
@[simp] theorem setLink_core (n : LinkId) (l : Link) : (s.setLink n l).core = s.core := rfl
@[simp] theorem setLink_taps (n : LinkId) (l : Link) : (s.setLink n l).taps = s.taps := rfl
@[simp] theorem setLink_closing (n : LinkId) (l : Link) : (s.setLink n l).closing = s.closing := rfl
@[simp] theorem setLink_links (n : LinkId) (l : Link) : (s.setLink n l).links = s.links.set n l := rfl
@[simp] theorem setLink_events (n : LinkId) (l : Link) : (s.setLink n l).events = s.events := rfl
@[simp] theorem setLink_pending (n : LinkId) (l : Link) : (s.setLink n l).pending = s.pending := rfl

/-! ### setTap -/

@[simp] theorem setTap_held (n : TapId) (t : Tap) : (s.setTap n t).held = s.held := rfl
@[simp] theorem setTap_frame (n : TapId) (t : Tap) : (s.setTap n t).frame = s.frame := rfl
@[simp] theorem setTap_engine (n : TapId) (t : Tap) : (s.setTap n t).engine = s.engine := rfl
@[simp] theorem setTap_sched (n : TapId) (t : Tap) : (s.setTap n t).sched = s.sched := rfl
@[simp] theorem setTap_core (n : TapId) (t : Tap) : (s.setTap n t).core = s.core := rfl
@[simp] theorem setTap_taps (n : TapId) (t : Tap) : (s.setTap n t).taps = s.taps.set n t := rfl
@[simp] theorem setTap_closing (n : TapId) (t : Tap) : (s.setTap n t).closing = s.closing := rfl
@[simp] theorem setTap_links (n : TapId) (t : Tap) : (s.setTap n t).links = s.links := rfl
@[simp] theorem setTap_events (n : TapId) (t : Tap) : (s.setTap n t).events = s.events := rfl
@[simp] theorem setTap_pending (n : TapId) (t : Tap) : (s.setTap n t).pending = s.pending := rfl

end Sys2Proof.Machine
end

