-- ==== Sys2Proof/Laws/Ops.lean ====
section
/-! SUPPORT. What the shared operations do: ring sizes and slots, posting and handing completions, raising
events, the halt. Each operation has one equation or one lemma per field, for a prover to cite instead of unfolding it. -/

namespace Sys2Proof.Machine

/-! ## Answers -/

theorem live_held {s : State} {f : State → State} (h : s.held = true) : live s f = .next s := by
  simp [live, h]

theorem live_next {s : State} {f : State → State} (h : s.held = false) :
    live s f = .next (f s) := by
  simp [live, h]

/-- A property that an operation keeps is kept by the command made of it. -/
theorem live_keeps {P : State → Prop} {s t : State} {f : State → State} (hs : P s)
    (hf : s.held = false → P s → P (f s)) (h : live s f = .next t) : P t := by
  by_cases hh : s.held = true
  · rw [live_held hh] at h; cases h; exact hs
  · have hh' : s.held = false := by simpa using hh
    rw [live_next hh'] at h; cases h; exact hf hh' hs

/-! ## Rings -/

theorem ringSize_bounds {base : Word} {n : Nat} (h : ringSize base = some n) :
    16 ≤ n ∧ n ≤ 4096 := by
  unfold ringSize at h
  simp only at h
  split at h
  · rename_i hc
    obtain ⟨h1, h9⟩ := hc
    cases h
    generalize base.toNat % 16 = k at h1 h9
    have : k = 1 ∨ k = 2 ∨ k = 3 ∨ k = 4 ∨ k = 5 ∨ k = 6 ∨ k = 7 ∨ k = 8 ∨ k = 9 := by omega
    rcases this with h | h | h | h | h | h | h | h | h <;> subst h <;> decide
  · cases h

theorem fitsRing_zero (base : Word) : fitsRing base 0 := by
  unfold fitsRing
  split
  · rfl
  · rename_i n h; have := ringSize_bounds h; omega

theorem fitsRing_nextSlot {base : Word} {i : Nat} (h : fitsRing base i) :
    fitsRing base (nextSlot base i) := by
  unfold fitsRing at h ⊢
  unfold nextSlot
  cases hr : ringSize base with
  | none => simpa [hr] using h
  | some n =>
    have := ringSize_bounds hr
    simp only [hr] at h ⊢
    split <;> omega

theorem ringDistance_lt {n c p : Nat} (hn : 0 < n) : ringDistance n c p < n := Nat.mod_lt _ hn

/-- The distance of two slots of one ring, without the modulus. -/
theorem ringDistance_eq {n c p : Nat} (hc : c < n) (hp : p < n) :
    ringDistance n c p = if c ≤ p then p - c else p + n - c := by
  unfold ringDistance
  split
  · have : p + n - c = (p - c) + n := by omega
    rw [this, Nat.add_mod_right, Nat.mod_eq_of_lt]; omega
  · rw [Nat.mod_eq_of_lt]; omega

theorem ringDistance_zero {n c p : Nat} (hc : c < n) (hp : p < n) :
    ringDistance n c p = 0 ↔ p = c := by
  rw [ringDistance_eq hc hp]; split <;> omega

/-- A record more lies in a ring that is not full once its post position has moved on. -/
theorem ringDistance_next {base : Word} {n c p : Nat} (hr : ringSize base = some n) (hc : c < n)
    (hp : p < n) (hroom : ringDistance n c p < n - 1) :
    ringDistance n c (nextSlot base p) = ringDistance n c p + 1 := by
  have hp' : nextSlot base p < n := by
    have := fitsRing_nextSlot (base := base) (i := p) (by simp [fitsRing, hr, hp])
    simpa [fitsRing, hr] using this
  have := ringSize_bounds hr
  rw [ringDistance_eq hc hp] at hroom ⊢
  rw [ringDistance_eq hc hp']
  simp only [nextSlot, hr] at hp' ⊢
  split at hroom <;> split <;> split <;> omega

/-- Consuming up to a slot that does not pass the post position leaves the rest posted. -/
theorem ringDistance_consumed {n c p v : Nat} (hc : c < n) (hp : p < n) (hv : v < n)
    (h : ringDistance n c v ≤ ringDistance n c p) :
    ringDistance n v p = ringDistance n c p - ringDistance n c v := by
  rw [ringDistance_eq hc hv, ringDistance_eq hc hp] at h
  rw [ringDistance_eq hv hp, ringDistance_eq hc hv, ringDistance_eq hc hp]
  split at h <;> split at h <;> split <;> simp_all <;> omega

/-! ## Completions -/

/-- The Ring Engine once a list of completions has been handed to it (R44, R144, R147). -/
def RingEngine.handed (e : RingEngine) (cs : List Completion) : RingEngine :=
  { e with
    outstanding := e.outstanding - ringACount cs
    postQueue := if e.mode = .halted then e.postQueue else e.postQueue ++ cs }

theorem post_eq (c : Completion) (s : State) :
    post c s = s.withEngine { s.engine with
      postQueue := if s.engine.mode = .halted then s.engine.postQueue else s.engine.postQueue ++ [c] } := by
  unfold post
  split
  · rfl
  · rfl

theorem hand_eq (c : Completion) (s : State) : hand c s = s.withEngine (s.engine.handed [c]) := by
  unfold hand
  rw [post_eq]
  cases h : c.id.ring <;>
    simp only [uncount, RingEngine.handed, ringACount, List.countP_cons, List.countP_nil, h] <;> rfl

theorem handed_nil (e : RingEngine) : e.handed [] = e := by
  simp [RingEngine.handed, ringACount]

theorem handed_handed (e : RingEngine) (cs ds : List Completion) :
    (e.handed cs).handed ds = e.handed (cs ++ ds) := by
  unfold RingEngine.handed ringACount
  by_cases h : e.mode = .halted <;> simp [h, List.countP_append, Nat.sub_sub]

theorem handAll_eq (cs : List Completion) (s : State) :
    handAll cs s = s.withEngine (s.engine.handed cs) := by
  induction cs generalizing s with
  | nil => simp [handAll, handed_nil]
  | cons c cs ih =>
    have : handAll (c :: cs) s = handAll cs (hand c s) := rfl
    rw [this, ih, hand_eq]
    simp [handed_handed]

theorem handAll_append (cs ds : List Completion) (s : State) :
    handAll (cs ++ ds) s = handAll ds (handAll cs s) := by
  simp [handAll]

/-! The fields of the Ring Engine that handing leaves alone. -/

section
variable (e : RingEngine) (cs : List Completion)
@[simp] theorem handed_mode : (e.handed cs).mode = e.mode := rfl
@[simp] theorem handed_enable : (e.handed cs).enable = e.enable := rfl
@[simp] theorem handed_cie : (e.handed cs).cie = e.cie := rfl
@[simp] theorem handed_eie : (e.handed cs).eie = e.eie := rfl
@[simp] theorem handed_hie : (e.handed cs).hie = e.hie := rfl
@[simp] theorem handed_cause : (e.handed cs).cause = e.cause := rfl
@[simp] theorem handed_startRefused : (e.handed cs).startRefused = e.startRefused := rfl
@[simp] theorem handed_cfgIgnored : (e.handed cs).cfgIgnored = e.cfgIgnored := rfl
@[simp] theorem handed_baseA : (e.handed cs).baseA = e.baseA := rfl
@[simp] theorem handed_baseB : (e.handed cs).baseB = e.baseB := rfl
@[simp] theorem handed_baseComp : (e.handed cs).baseComp = e.baseComp := rfl
@[simp] theorem handed_baseEvent : (e.handed cs).baseEvent = e.baseEvent := rfl
@[simp] theorem handed_prodA : (e.handed cs).prodA = e.prodA := rfl
@[simp] theorem handed_prodB : (e.handed cs).prodB = e.prodB := rfl
@[simp] theorem handed_consComp : (e.handed cs).consComp = e.consComp := rfl
@[simp] theorem handed_consEvent : (e.handed cs).consEvent = e.consEvent := rfl
@[simp] theorem handed_fetchA : (e.handed cs).fetchA = e.fetchA := rfl
@[simp] theorem handed_fetchB : (e.handed cs).fetchB = e.fetchB := rfl
@[simp] theorem handed_postComp : (e.handed cs).postComp = e.postComp := rfl
@[simp] theorem handed_reserved : (e.handed cs).reserved = e.reserved := rfl
@[simp] theorem handed_prefer : (e.handed cs).prefer = e.prefer := rfl
@[simp] theorem handed_fetch : (e.handed cs).fetch = e.fetch := rfl
@[simp] theorem handed_parked : (e.handed cs).parked = e.parked := rfl
@[simp] theorem handed_compWrite : (e.handed cs).compWrite = e.compWrite := rfl
theorem handed_postQueue (h : e.mode ≠ .halted) : (e.handed cs).postQueue = e.postQueue ++ cs := by
  simp [RingEngine.handed, h]
theorem handed_postQueue_halted (h : e.mode = .halted) : (e.handed cs).postQueue = e.postQueue := by
  simp [RingEngine.handed, h]
end

/-! ## Events -/

/-- An event is taken by the Event Unit alone. -/
theorem raise_eq (b : EventBody) (s : State) : raise b s = s.withEvents (raise b s).events := by
  unfold raise
  split <;> rfl

section
variable (b : EventBody) (s : State)
@[simp] theorem raise_held : (raise b s).held = s.held := by rw [raise_eq]; rfl
@[simp] theorem raise_frame : (raise b s).frame = s.frame := by rw [raise_eq]; rfl
@[simp] theorem raise_engine : (raise b s).engine = s.engine := by rw [raise_eq]; rfl
@[simp] theorem raise_sched : (raise b s).sched = s.sched := by rw [raise_eq]; rfl
@[simp] theorem raise_core : (raise b s).core = s.core := by rw [raise_eq]; rfl
@[simp] theorem raise_taps : (raise b s).taps = s.taps := by rw [raise_eq]; rfl
@[simp] theorem raise_closing : (raise b s).closing = s.closing := by rw [raise_eq]; rfl
@[simp] theorem raise_links : (raise b s).links = s.links := by rw [raise_eq]; rfl
@[simp] theorem raise_pending : (raise b s).pending = s.pending := by rw [raise_eq]; rfl
@[simp] theorem raise_post : (raise b s).events.post = s.events.post := by
  unfold raise; split <;> rfl
@[simp] theorem raise_pointer : (raise b s).events.pointer = s.events.pointer := by
  unfold raise; split <;> rfl
end

/-- A halted engine's Event Unit starts no write (R156). -/
theorem canStartEvent_halted {s : State} (h : s.engine.mode = .halted) : canStartEvent s = false := by
  simp [canStartEvent, h]

/-- While HALTED an event joins the pending set (R156). -/
theorem raise_write_halted {b : EventBody} {s : State} (h : s.engine.mode = .halted) :
    (raise b s).events.write = s.events.write := by
  unfold raise
  simp [canStartEvent_halted h]

/-! ## What a block hands on -/

/-- The completions among what is handed on, in order. -/
def completionsOf (es : List Effect) : List Completion :=
  es.filterMap fun
    | .complete c => some c
    | .event _ => none

@[simp] theorem completionsOf_nil : completionsOf [] = [] := rfl
@[simp] theorem completionsOf_complete (c : Completion) (es : List Effect) :
    completionsOf (.complete c :: es) = c :: completionsOf es := rfl
@[simp] theorem completionsOf_event (b : EventBody) (es : List Effect) :
    completionsOf (.event b :: es) = completionsOf es := rfl
@[simp] theorem completionsOf_append (es fs : List Effect) :
    completionsOf (es ++ fs) = completionsOf es ++ completionsOf fs := by
  simp [completionsOf, List.filterMap_append]

@[simp] theorem emit_nil (s : State) : emit [] s = s := rfl
theorem emit_cons (e : Effect) (es : List Effect) (s : State) :
    emit (e :: es) s = emit es (give s e) := rfl
theorem emit_append (es fs : List Effect) (s : State) : emit (es ++ fs) s = emit fs (emit es s) := by
  simp [emit]

/-- What is handed on reaches the Ring Engine and the Event Unit, nothing else (R140, R149). -/
theorem emit_eq (es : List Effect) (s : State) :
    emit es s = (s.withEngine (s.engine.handed (completionsOf es))).withEvents (emit es s).events := by
  induction es generalizing s with
  | nil => simp [handed_nil]
  | cons e es ih =>
    rw [emit_cons, ih]
    cases e with
    | complete c => simp [give, hand_eq, handed_handed, State.withEngine, State.withEvents]
    | event b =>
      simp only [give, raise_engine, completionsOf_event]
      rw [raise_eq b s]
      rfl

section
variable (es : List Effect) (s : State)
@[simp] theorem emit_held : (emit es s).held = s.held := by rw [emit_eq]; rfl
@[simp] theorem emit_frame : (emit es s).frame = s.frame := by rw [emit_eq]; rfl
@[simp] theorem emit_engine : (emit es s).engine = s.engine.handed (completionsOf es) := by
  rw [emit_eq]; rfl
@[simp] theorem emit_sched : (emit es s).sched = s.sched := by rw [emit_eq]; rfl
@[simp] theorem emit_core : (emit es s).core = s.core := by rw [emit_eq]; rfl
@[simp] theorem emit_taps : (emit es s).taps = s.taps := by rw [emit_eq]; rfl
@[simp] theorem emit_closing : (emit es s).closing = s.closing := by rw [emit_eq]; rfl
@[simp] theorem emit_links : (emit es s).links = s.links := by rw [emit_eq]; rfl
@[simp] theorem emit_pending : (emit es s).pending = s.pending := by rw [emit_eq]; rfl
@[simp] theorem emit_post : (emit es s).events.post = s.events.post := by
  induction es generalizing s with
  | nil => rfl
  | cons e es ih =>
    rw [emit_cons, ih]
    cases e with
    | complete c => simp [give, hand_eq]
    | event b => simp [give]
@[simp] theorem emit_pointer : (emit es s).events.pointer = s.events.pointer := by
  induction es generalizing s with
  | nil => rfl
  | cons e es ih =>
    rw [emit_cons, ih]
    cases e with
    | complete c => simp [give, hand_eq]
    | event b => simp [give]
theorem emit_write_halted (h : s.engine.mode = .halted) :
    (emit es s).events.write = s.events.write := by
  induction es generalizing s with
  | nil => rfl
  | cons e es ih =>
    rw [emit_cons]
    cases e with
    | complete c => rw [ih _ (by simp [give, hand_eq, h])]; simp [give, hand_eq]
    | event b => rw [ih _ (by simpa [give] using h)]; simp [give, raise_write_halted h]
end

/-- Completions alone leave the Event Unit as it was. -/
theorem emit_complete (c : Completion) (s : State) :
    emit [.complete c] s = s.withEngine (s.engine.handed [c]) := by
  simp [emit_cons, give, hand_eq]

section
variable (s : State) (n : LinkId) (f : Link → LinkStep)
@[simp] theorem onLink_held : (s.onLink n f).held = s.held := by simp [State.onLink]
@[simp] theorem onLink_frame : (s.onLink n f).frame = s.frame := by simp [State.onLink]
@[simp] theorem onLink_engine : (s.onLink n f).engine =
    s.engine.handed (completionsOf (f (s.links.get n)).2) := by simp [State.onLink]
@[simp] theorem onLink_sched : (s.onLink n f).sched = s.sched := by simp [State.onLink]
@[simp] theorem onLink_core : (s.onLink n f).core = s.core := by simp [State.onLink]
@[simp] theorem onLink_taps : (s.onLink n f).taps = s.taps := by simp [State.onLink]
@[simp] theorem onLink_closing : (s.onLink n f).closing = s.closing := by simp [State.onLink]
@[simp] theorem onLink_links :
    (s.onLink n f).links = s.links.set n (f (s.links.get n)).1 := by simp [State.onLink]
@[simp] theorem onLink_pending : (s.onLink n f).pending = s.pending := by simp [State.onLink]
@[simp] theorem onLink_post : (s.onLink n f).events.post = s.events.post := by simp [State.onLink]
theorem onLink_write_halted (h : s.engine.mode = .halted) :
    (s.onLink n f).events.write = s.events.write := by
  simp [State.onLink, emit_write_halted, h]
end

/-- An event that leaves a Link Unit as it was and hands nothing on. -/
theorem onLink_same {s : State} {n : LinkId} {f : Link → LinkStep}
    (h : f (s.links.get n) = (s.links.get n, [])) : s.onLink n f = s := by
  unfold State.onLink
  simp only [h, emit_nil, State.setLink, Table.set_get_self]
  rfl

/-- An event that changes a Link Unit and hands nothing on. -/
theorem onLink_quiet {s : State} {n : LinkId} {f : Link → LinkStep} {l : Link}
    (h : f (s.links.get n) = (l, [])) : s.onLink n f = { s with links := s.links.set n l } := by
  unfold State.onLink
  simp only [h, emit_nil]
  rfl

/-- An event at a Link Unit, by what it leaves and hands on. -/
theorem onLink_of {s : State} {n : LinkId} {f : Link → LinkStep} {l : Link} {es : List Effect}
    (h : f (s.links.get n) = (l, es)) :
    s.onLink n f = emit es { s with links := s.links.set n l } := by
  unfold State.onLink
  simp only [h]
  rfl

/-! ## An abandoned event write and the halt -/

/-- An abandoned event write concerns the Event Unit alone. -/
theorem returnEventWrite_eq (s : State) :
    returnEventWrite s = s.withEvents (returnEventWrite s).events := by
  unfold returnEventWrite
  split <;> rfl

section
variable (s : State)
@[simp] theorem returnEventWrite_held : (returnEventWrite s).held = s.held := by
  rw [returnEventWrite_eq]; rfl
@[simp] theorem returnEventWrite_frame : (returnEventWrite s).frame = s.frame := by
  rw [returnEventWrite_eq]; rfl
@[simp] theorem returnEventWrite_engine : (returnEventWrite s).engine = s.engine := by
  rw [returnEventWrite_eq]; rfl
@[simp] theorem returnEventWrite_sched : (returnEventWrite s).sched = s.sched := by
  rw [returnEventWrite_eq]; rfl
@[simp] theorem returnEventWrite_core : (returnEventWrite s).core = s.core := by
  rw [returnEventWrite_eq]; rfl
@[simp] theorem returnEventWrite_taps : (returnEventWrite s).taps = s.taps := by
  rw [returnEventWrite_eq]; rfl
@[simp] theorem returnEventWrite_closing : (returnEventWrite s).closing = s.closing := by
  rw [returnEventWrite_eq]; rfl
@[simp] theorem returnEventWrite_links : (returnEventWrite s).links = s.links := by
  rw [returnEventWrite_eq]; rfl
@[simp] theorem returnEventWrite_pending : (returnEventWrite s).pending = s.pending := by
  rw [returnEventWrite_eq]; rfl
@[simp] theorem returnEventWrite_post : (returnEventWrite s).events.post = s.events.post := by
  unfold returnEventWrite; split <;> rfl
@[simp] theorem returnEventWrite_pointer :
    (returnEventWrite s).events.pointer = s.events.pointer := by
  unfold returnEventWrite; split <;> rfl
@[simp] theorem returnEventWrite_write : (returnEventWrite s).events.write = none := by
  unfold returnEventWrite; split <;> simp_all
end

/-- A halt taken while HALTED is ignored (R166). -/
theorem halt_halted {cause : HaltCause} {s : State} (h : s.engine.mode = .halted) :
    halt cause s = s := by
  simp [halt, h]

/-- What the halt does (R167). -/
theorem halt_eq {cause : HaltCause} {s : State} (h : s.engine.mode ≠ .halted) :
    halt cause s = { s with
      engine := s.engine.halted cause
      core := { s.core with slot := none }
      taps := s.taps.map Tap.abandon
      events := (returnEventWrite s).events } := by
  unfold halt
  rw [if_neg h]
  simp

section
variable (cause : HaltCause) (s : State)
@[simp] theorem halt_held : (halt cause s).held = s.held := by
  unfold halt; split <;> simp
@[simp] theorem halt_frame : (halt cause s).frame = s.frame := by
  unfold halt; split <;> simp
@[simp] theorem halt_sched : (halt cause s).sched = s.sched := by
  unfold halt; split <;> simp
@[simp] theorem halt_closing : (halt cause s).closing = s.closing := by
  unfold halt; split <;> simp
@[simp] theorem halt_links : (halt cause s).links = s.links := by
  unfold halt; split <;> simp
@[simp] theorem halt_pending : (halt cause s).pending = s.pending := by
  unfold halt; split <;> simp
@[simp] theorem halt_mode : (halt cause s).engine.mode = .halted := by
  unfold halt; split <;> simp_all [RingEngine.halted]
@[simp] theorem halt_routes : (halt cause s).core.routes = s.core.routes := by
  unfold halt; split <;> simp
@[simp] theorem halt_free : (halt cause s).core.free = s.core.free := by
  unfold halt; split <;> simp
@[simp] theorem halt_down : (halt cause s).core.down = s.core.down := by
  unfold halt; split <;> simp
@[simp] theorem halt_post : (halt cause s).events.post = s.events.post := by
  unfold halt; split <;> simp
@[simp] theorem halt_parked : (halt cause s).engine.parked = s.engine.parked := by
  unfold halt; split <;> simp [RingEngine.halted]
end

end Sys2Proof.Machine
end

