-- ==== Sys2Proof/Laws/Sessions.lean ====
section
/-! SUPPORT. What a change of session state leaves (R102): the session record, the aligner and the message
channel are good after it, and the completions it hands are those the link owed. -/

namespace Sys2Proof.Machine

/-! ## Two events in a row -/

@[simp] theorem followedBy_link (p : LinkStep) (f : Link → LinkStep) :
    (followedBy p f).1 = (f p.1).1 := rfl

@[simp] theorem followedBy_effects (p : LinkStep) (f : Link → LinkStep) :
    (followedBy p f).2 = p.2 ++ (f p.1).2 := rfl

/-- The completions handed, with those still owed, are those owed before and `k` more. -/
def Settles (l : Link) (k : Nat) (p : LinkStep) : Prop :=
  (completionsOf p.2).length + p.1.owes = l.owes + k

theorem Settles.followedBy {l : Link} {k : Nat} {p : LinkStep} {f : Link → LinkStep}
    (hp : Settles l k p) (hf : Settles p.1 0 (f p.1)) : Settles l k (followedBy p f) := by
  unfold Settles at *
  simp only [followedBy_link, followedBy_effects, completionsOf_append, List.length_append]
  omega

theorem Settles.rfl {l : Link} : Settles l 0 (l, []) := by simp [Settles]

/-- A link changed where it owes nothing, and nothing handed. -/
theorem Settles.of_eq {l l' : Link} (h1 : l'.op = l.op) (h2 : l'.outQueue = l.outQueue) :
    Settles l 0 (l', []) := by
  simp [Settles, Link.owes, h1, h2]

/-! ## Key table -/

theorem setKeyTable_link (n : LinkId) (field : Half) (l : Link) :
    (setKeyTable n field l).1 = { l with keyTable := field } := by
  unfold setKeyTable
  split
  · rename_i h; subst h; rfl
  · rfl

theorem setKeyTable_completions (n : LinkId) (field : Half) (l : Link) :
    completionsOf (setKeyTable n field l).2 = [] := by
  unfold setKeyTable
  split
  · rfl
  · simp only; split <;> rfl

/-! ## Message channel -/

/-- A change of session state reaches the channel and the outbound queue of the link, nothing else. -/
theorem channelChange_link (old new : SessionState) (l : Link) :
    (channelChange old new l).1 =
      { l with
        chan := (channelChange old new l).1.chan
        outQueue := (channelChange old new l).1.outQueue } := by
  unfold channelChange
  split <;> (try split) <;> rfl

/-- Owed completions of a queue. -/
def owedIn (q : List OutMessage) : Nat := q.countP fun m => m.owed.isSome

theorem settleMessage_count (m : OutMessage) (status : Status) (result : Nat) :
    (completionsOf (settleMessage m status result)).length = if m.owed.isSome then 1 else 0 := by
  unfold settleMessage
  cases m.owed <;> rfl

theorem flatMap_settle_count (rest : List OutMessage) :
    (completionsOf (rest.flatMap fun m => settleMessage m .linkDown 0)).length = owedIn rest := by
  induction rest with
  | nil => rfl
  | cons m rest ih =>
    simp only [List.flatMap_cons, completionsOf_append, List.length_append, settleMessage_count, ih,
      owedIn, List.countP_cons]
    omega

theorem abandonQueue_count (i : Nat) (q : List OutMessage) :
    (completionsOf (abandonQueue i q)).length = owedIn q := by
  cases q with
  | nil => rfl
  | cons m rest =>
    simp only [abandonQueue, completionsOf_append, List.length_append, settleMessage_count,
      flatMap_settle_count, owedIn, List.countP_cons]
    omega

theorem channelChange_count (old new : SessionState) (l : Link) :
    (completionsOf (channelChange old new l).2).length + owedIn (channelChange old new l).1.outQueue
      = owedIn l.outQueue := by
  unfold channelChange
  split <;> (try split) <;> simp [abandonQueue_count, owedIn]

/-- The outbound queue after a change of session state (R126). -/
theorem channelChange_queue (old new : SessionState) (l : Link) :
    (channelChange old new l).1.outQueue =
      if new = .closing ∨ new = .fault ∨ new = .off then [] else l.outQueue := by
  cases new <;> simp [channelChange] <;> split <;> rfl

/-! ## A change of state -/

/-- The link's session state, framer, aligner and detector after the first two steps (R102). -/
def Link.changed (c : Change) (l : Link) : Link := changeLine l.state (changeRecord c l)

/-- The link after a change of session state, all five steps (R102). -/
theorem changeState_link (n : LinkId) (c : Change) (l : Link) :
    (changeState n c l).1 =
      changeEnd { l.changed c with
        keyTable := if followsKeys c.target then (l.changed c).takenKeys else 0
        chan := (channelChange l.state c.target
          { l.changed c with
            keyTable := if followsKeys c.target then (l.changed c).takenKeys else 0 }).1.chan
        outQueue := if c.target = .closing ∨ c.target = .fault ∨ c.target = .off then []
          else l.outQueue } := by
  have ht : (l.changed c).state = c.target := by rfl
  unfold changeState changeKeys
  simp only [followedBy_link]
  change changeEnd (channelChange l.state c.target
    (setKeyTable n (if followsKeys (l.changed c).state = true then (l.changed c).takenKeys else 0)
      (l.changed c)).1).1 = _
  rw [setKeyTable_link, ht, channelChange_link, channelChange_queue]
  rfl

section
variable (n : LinkId) (c : Change) (l : Link)
@[simp] theorem changeState_state : (changeState n c l).1.state = c.target := by
  rw [changeState_link]; rfl
@[simp] theorem changeState_loopLock : (changeState n c l).1.loopLock = c.lock := by
  rw [changeState_link]; rfl
@[simp] theorem changeState_side : (changeState n c l).1.side = c.side := by
  rw [changeState_link]; rfl
@[simp] theorem changeState_reason : (changeState n c l).1.faultReason = faultOf c.reason := by
  rw [changeState_link]; rfl
@[simp] theorem changeState_timer :
    (changeState n c l).1.timer = timerOf c.target c.lock l.callLength := by
  rw [changeState_link]; rfl
@[simp] theorem changeState_op : (changeState n c l).1.op = c.op := by
  rw [changeState_link]; rfl
@[simp] theorem changeState_callLength : (changeState n c l).1.callLength = l.callLength := by
  rw [changeState_link]; rfl
@[simp] theorem changeState_inQueue : (changeState n c l).1.inQueue = l.inQueue := by
  rw [changeState_link]; rfl
@[simp] theorem changeState_outQueue : (changeState n c l).1.outQueue =
    if c.target = .closing ∨ c.target = .fault ∨ c.target = .off then [] else l.outQueue := by
  rw [changeState_link]; rfl
@[simp] theorem changeState_framer : (changeState n c l).1.framer =
    if sendsIn c.target then .sending else .atRest := by
  rw [changeState_link]; rfl
@[simp] theorem changeState_detector : (changeState n c l).1.detector =
    if c.target = .listen then .armed else .off := by
  rw [changeState_link]; rfl
@[simp] theorem changeState_aligner : (changeState n c l).1.aligner =
    { (if resetsAligner l.state c.target then Aligner.reset else l.aligner) with
      input := inputOf c.target } := by
  rw [changeState_link]; rfl
@[simp] theorem changeState_keyTable : (changeState n c l).1.keyTable =
    if followsKeys c.target then (changeState n c l).1.takenKeys else 0 := by
  rw [changeState_link]; rfl
@[simp] theorem changeState_lamps : (changeState n c l).1.lamps =
    if c.target = .off then 0 else l.lamps := by
  rw [changeState_link]; simp [changeEnd, Link.changed, changeLine, changeRecord]
@[simp] theorem changeState_reportKeys : (changeState n c l).1.reportKeys =
    if c.target = .off ∨ c.target = .fault then false else l.reportKeys := by
  rw [changeState_link]; simp [changeEnd, Link.changed, changeLine, changeRecord]
@[simp] theorem changeState_takenWord : (changeState n c l).1.takenWord =
    if clearsOn l.state c.target l.inService then none else l.takenWord := by
  rw [changeState_link]; rfl
@[simp] theorem changeState_candWord : (changeState n c l).1.candWord =
    if clearsOn l.state c.target l.inService then none else l.candWord := by
  rw [changeState_link]; rfl
@[simp] theorem changeState_takenKeys : (changeState n c l).1.takenKeys =
    if clearsOn l.state c.target l.inService then 0 else l.takenKeys := by
  rw [changeState_link]; rfl
@[simp] theorem changeState_candKeys : (changeState n c l).1.candKeys =
    if clearsOn l.state c.target l.inService then none else l.candKeys := by
  rw [changeState_link]; rfl
end

/-- The upstream is in service after a change if it was and the aligner has not been reset (R75, R82). -/
theorem changeState_inService (n : LinkId) (c : Change) (l : Link) :
    (changeState n c l).1.inService = (!resetsAligner l.state c.target && l.inService) := by
  unfold Link.inService
  rw [changeState_aligner]
  cases resetsAligner l.state c.target <;> rfl

/-! ## A good change -/

/-- Both filters are clear (R90). -/
def Link.filtersClear (l : Link) : Prop :=
  l.takenWord = none ∧ l.candWord = none ∧ l.takenKeys = 0 ∧ l.candKeys = none

/-- What makes a change leave a good session: its fields fit its target, and the filters are clear wherever
the upstream is out of service. -/
structure ChangeFits (l : Link) (c : Change) : Prop where
  filters : l.inService = false → l.filtersClear
  lock : c.lock = true → c.target = .loop
  side : c.side.isSome = true ↔ c.target = .closing
  reason : faultOf c.reason ≠ .none ↔ c.target = .fault
  op : ∀ o, c.op = some o → match o.kind with
    | .start => c.target = .calling ∨ c.target = .training
    | .loop => c.target = .loop ∧ c.lock = false
    | .stop => c.target = .closing ∧ c.side = some .hub
  active : c.target = .active → l.inService = true ∧ sendsIn l.state = true
  loop : c.target = .loop →
    (l.state = .loop ∧ c.lock = true ∧ l.inService = true) ∨ (l.state ≠ .loop ∧ c.lock = false)

theorem timerOf_kind (state : SessionState) (lock : Bool) (n : Nat) :
    (timerOf state lock n).map Prod.fst = timerKindOf state lock := by
  cases state <;> cases lock <;> rfl

/-- A change that fits leaves a good session (R71, R75, R85, R86, R90, R92, R109). -/
theorem changeState_session {n : LinkId} {c : Change} {l : Link} (h : ChangeFits l c) :
    SessionGood (changeState n c l).1 where
  lock := by simpa using h.lock
  side := by simpa using h.side
  reason := by simpa using h.reason
  report := by
    simp only [changeState_reportKeys, changeState_state]
    split <;> simp_all
  timer := by simp [timerOf_kind]
  op := by
    unfold opFits
    simp only [changeState_op, changeState_state, changeState_loopLock, changeState_side]
    split
    · trivial
    · rename_i o ho; exact h.op o ho
  framer := by simp
  detector := by simp
  input := by simp
  heldFrame := by
    intro hs
    have hr : resetsAligner l.state c.target = true := by
      simp only [changeState_state] at hs; simp [resetsAligner, hs]
    have hl : inputOf c.target = .line := by
      simp only [changeState_state] at hs
      cases hc : c.target <;> simp_all [sendsIn, inputOf]
    rw [changeState_aligner, hr, hl]; rfl
  filters := by
    rw [changeState_inService]
    intro hs
    simp only [changeState_takenWord, changeState_candWord, changeState_takenKeys,
      changeState_candKeys]
    by_cases hin : l.inService = true
    · have hr : resetsAligner l.state c.target = true := by simpa [hin] using hs
      simp [clearsOn, hr, hin]
    · have hf := h.filters (by simpa using hin)
      obtain ⟨h1, h2, h3, h4⟩ := hf
      simp [h1, h2, h3, h4]
  keys := by rw [changeState_keyTable]; simp
  service := by
    intro hs
    rw [changeState_state] at hs
    obtain ⟨h1, h2⟩ := h.active hs
    rw [changeState_inService, h1, hs]
    simp [resetsAligner, sendsIn, entersLoop]
  loopService := by
    intro hs
    rw [changeState_state] at hs
    rw [changeState_loopLock, changeState_inService, hs]
    rcases h.loop hs with ⟨h1, h2, h3⟩ | ⟨h1, h2⟩
    · simp [h1, h2, h3, resetsAligner, sendsIn, entersLoop]
    · have : resetsAligner l.state .loop = true := by
        cases hl : l.state <;> simp_all [resetsAligner, sendsIn, entersLoop]
      simp [h2, this]

theorem alignerReset_good : AlignerGood Aligner.reset := by
  constructor <;> decide

/-- A change keeps the aligner's counts good (R75). -/
theorem changeState_alignerGood {n : LinkId} {c : Change} {l : Link} (h : AlignerGood l.aligner) :
    AlignerGood (changeState n c l).1.aligner := by
  rw [changeState_aligner]
  have key : AlignerGood (if resetsAligner l.state c.target then Aligner.reset else l.aligner) := by
    split
    · exact alignerReset_good
    · exact h
  exact ⟨key.confirm, key.confirming, key.score, key.markers, key.unlocked, key.misses, key.phase, key.searching, key.block⟩

/-- What the message channel holds after a change of state (R114, R125, R126). -/
theorem channelChange_bounds (old new : SessionState) (l : Link)
    (h1 : l.chan.assembly.length ≤ Config.messageMax) (h2 : l.chan.retry ≤ Config.retryLimit)
    (h3 : l.chan.notReady < Config.notReadyLimit) :
    (channelChange old new l).1.chan.assembly.length ≤ Config.messageMax ∧
    (channelChange old new l).1.chan.retry ≤ Config.retryLimit ∧
    (channelChange old new l).1.chan.notReady < Config.notReadyLimit := by
  unfold channelChange
  split <;> (try split) <;>
    simp_all [MessageChannel.restart, MessageChannel.reset, MessageChannel.pause, Config.messageMax,
      Config.retryLimit, Config.notReadyLimit]

theorem changeState_chan (n : LinkId) (c : Change) (l : Link) :
    ∃ m : Link, m.chan = l.chan ∧ (changeState n c l).1.chan =
      (channelChange l.state c.target m).1.chan := by
  rw [changeState_link]
  exact ⟨{ l.changed c with
    keyTable := if followsKeys c.target then (l.changed c).takenKeys else 0 }, by rfl, by rfl⟩

/-- A change keeps the message channel and its queues good (R126), where a target outside the sessions that
carry messages finds the outbound queue empty. -/
theorem changeState_messages {n : LinkId} {c : Change} {l : Link} (h : MessagesGood l)
    (hq : c.target = .listen ∨ c.target = .calling ∨ c.target = .training → l.outQueue = []) :
    MessagesGood (changeState n c l).1 := by
  obtain ⟨m, hm, hc⟩ := changeState_chan n c l
  have hb := channelChange_bounds l.state c.target m (by rw [hm]; exact h.assembly)
    (by rw [hm]; exact h.retry) (by rw [hm]; exact h.notReady)
  rw [← hc] at hb
  refine ⟨?_, ?_, ?_, ?_, ?_, hb.1, hb.2.1, hb.2.2⟩
  · rw [changeState_outQueue]; split
    · simp
    · exact h.out
  · simpa using h.inbound
  · rw [changeState_outQueue, changeState_state]
    split
    · simp
    · intro hne
      cases ht : c.target <;> simp_all
  · rw [changeState_outQueue]; split
    · simp
    · exact h.outSize
  · simpa using h.inSize

/-- The completions that a change hands, with those still owed, are those owed before and `k` more, where
that holds of the pending operation. -/
theorem changeState_settles {n : LinkId} {c : Change} {l : Link} {k : Nat}
    (h : (completionsOf c.completions).length + oneIf c.op = oneIf l.op + k) :
    Settles l k (changeState n c l) := by
  have hkeys : ∀ m, completionsOf (changeKeys n m).2 = [] := fun m => setKeyTable_completions _ _ _
  have hq : ∀ m : Link, (changeKeys n m).1.outQueue = m.outQueue := by
    intro m; unfold changeKeys; rw [setKeyTable_link]
  have hcc := channelChange_count l.state c.target (changeKeys n (l.changed c)).1
  rw [channelChange_queue, hq] at hcc
  have he : completionsOf (changeState n c l).2 =
      completionsOf (channelChange l.state c.target (changeKeys n (l.changed c)).1).2 ++
        completionsOf c.completions := by
    unfold changeState
    simp only [followedBy_effects, completionsOf_append, completionsOf_event, completionsOf_nil,
      List.append_nil]
    rw [show completionsOf (changeKeys n (changeLine l.state (changeRecord c l))).2 = [] from hkeys _]
    rfl
  have hl : (l.changed c).outQueue = l.outQueue := by rfl
  unfold Settles Link.owes
  rw [he, changeState_op, changeState_outQueue, List.length_append]
  simp only [owedIn, hl] at hcc
  omega

end Sys2Proof.Machine
end

