-- ==== Sys2Proof/Laws/Links.lean ====
section
/-! SUPPORT. Every event at a Link Unit keeps it good and settles its completions: words, service, timers,
link commands, blocks, frames examined and frame starts. -/

namespace Sys2Proof.Machine

/-- An event leaves the link good, and the completions handed with those still owed are those owed before
and `k` more. -/
structure Keeps (l : Link) (k : Nat) (p : LinkStep) : Prop where
  good : LinkGood p.1
  settles : Settles l k p

theorem Keeps.rfl {l : Link} (h : LinkGood l) : Keeps l 0 (l, []) := ⟨h, .rfl⟩

theorem Keeps.followedBy {l : Link} {k : Nat} {p : LinkStep} {f : Link → LinkStep}
    (hp : Keeps l k p) (hf : LinkGood p.1 → Keeps p.1 0 (f p.1)) : Keeps l k (followedBy p f) :=
  ⟨(hf hp.good).good, hp.settles.followedBy (hf hp.good).settles⟩

/-- A change that fits. -/
theorem change_keeps {n : LinkId} {c : Change} {l : Link} {k : Nat} (hm : MessagesGood l)
    (ha : AlignerGood l.aligner) (hf : ChangeFits l c)
    (hq : c.target = .listen ∨ c.target = .calling ∨ c.target = .training → l.outQueue = [])
    (hk : (completionsOf c.completions).length + oneIf c.op = oneIf l.op + k) :
    Keeps l k (changeState n c l) :=
  ⟨⟨changeState_session hf, changeState_alignerGood ha, changeState_messages hm hq⟩,
    changeState_settles hk⟩

/-! ## The pending operation in each state -/

/-- No operation is pending in a state that none fits. -/
theorem op_none {l : Link} (h : opFits l)
    (hs : l.state ≠ .calling ∧ l.state ≠ .training ∧ (l.state = .loop → l.loopLock = true) ∧
      (l.state = .closing → l.side ≠ some .hub)) : l.op = none := by
  unfold opFits at h
  cases ho : l.op with
  | none => rfl
  | some o =>
    rw [ho] at h
    simp only at h
    cases hk : o.kind <;> simp only [hk] at h
    · rcases h with h | h
      · exact absurd h hs.1
      · exact absurd h hs.2.1
    · have := hs.2.2.1 h.1; simp_all
    · exact absurd h.2 (hs.2.2.2 h.1)

/-- Outside a session that carries messages the outbound queue is empty (R126). -/
theorem outQueue_empty {l : Link} (h : MessagesGood l)
    (hs : l.state ≠ .active ∧ l.state ≠ .degraded ∧ l.state ≠ .loop) : l.outQueue = [] := by
  by_contra hne
  rcases h.outState hne with h | h | h <;> simp_all

theorem finishOp_count (l : Link) (status : Status) (result : Nat) :
    (completionsOf (finishOp l status result)).length = oneIf l.op := by
  unfold finishOp oneIf
  cases l.op <;> rfl

/-- Where the upstream is in service the link sends. -/
theorem sends_of_service {l : Link} (h : SessionGood l) (hin : l.inService = true) :
    sendsIn l.state = true := by
  by_contra hs
  have := h.heldFrame (by simpa using hs)
  rw [Link.inService, this] at hin
  exact absurd hin (by decide)

theorem filters_of {l : Link} (h : SessionGood l) (hin : l.inService = false) : l.filtersClear :=
  h.filters hin

/-! ## Words -/

/-- A taken word keeps the link good (R95 to R101). -/
theorem wordTaken_keeps {n : LinkId} {w : LinkWord} {l : Link} (h : LinkGood l)
    (hin : l.inService = true) : Keeps l 0 (wordTaken n w l) := by
  have hs := h.session
  have hf : l.inService = false → l.filtersClear := filters_of hs
  unfold wordTaken
  cases hst : l.state with
  | off => exact .rfl h
  | listen => exact .rfl h
  | fault => exact .rfl h
  | loop => exact .rfl h
  | calling =>
    have hop : ∀ o, l.op = some o → o.kind = .start := by
      intro o ho
      have := hs.op; unfold opFits at this; rw [ho] at this; simp only at this
      cases hk : o.kind <;> simp_all
    have hq := outQueue_empty h.messages (by simp [hst])
    cases w <;> first
      | exact .rfl h
      | refine change_keeps h.messages h.aligner ⟨hf, ?_, ?_, ?_, ?_, ?_, ?_⟩ ?_ ?_ <;>
          simp_all [Change.keep, faultOf]
  | training =>
    have hop : ∀ o, l.op = some o → o.kind = .start := by
      intro o ho
      have := hs.op; unfold opFits at this; rw [ho] at this; simp only at this
      cases hk : o.kind <;> simp_all
    cases w <;> first
      | exact .rfl h
      | refine change_keeps h.messages h.aligner ⟨hf, ?_, ?_, ?_, ?_, ?_, ?_⟩ ?_ ?_ <;>
          simp_all [Change.ending, faultOf, oneIf, sendsIn, finishOp_count]
  | active =>
    have hop : l.op = none := op_none hs.op (by simp [hst])
    cases w <;> first
      | exact .rfl h
      | refine change_keeps h.messages h.aligner ⟨hf, ?_, ?_, ?_, ?_, ?_, ?_⟩ ?_ ?_ <;>
          simp_all [Change.keep, faultOf, oneIf, sendsIn]
  | degraded =>
    have hop : l.op = none := op_none hs.op (by simp [hst])
    cases w <;> first
      | exact .rfl h
      | refine change_keeps h.messages h.aligner ⟨hf, ?_, ?_, ?_, ?_, ?_, ?_⟩ ?_ ?_ <;>
          simp_all [Change.keep, faultOf, oneIf, sendsIn]
  | closing =>
    simp only
    split
    · refine change_keeps h.messages h.aligner ⟨hf, ?_, ?_, ?_, ?_, ?_, ?_⟩ ?_ ?_ <;>
          simp_all [Change.ending, faultOf, oneIf, sendsIn, finishOp_count]
    · exact .rfl h

/-! ## Service -/

theorem enterService_keeps {n : LinkId} {l : Link} (hm : MessagesGood l) (ha : AlignerGood l.aligner)
    (hin : l.inService = true) (hst : l.state = .loop) (hlock : l.loopLock = false) :
    Keeps l 0 (enterService n l) := by
  unfold enterService
  rw [if_pos ⟨hst, hlock⟩]
  refine change_keeps hm ha ⟨?_, ?_, ?_, ?_, ?_, ?_, ?_⟩ ?_ ?_ <;>
    simp_all [faultOf, oneIf, finishOp_count]

/-- A departure from service, of a link that was good and in service (R82, R90, R91). -/
theorem leaveService_keeps {n : LinkId} {l : Link} {a : Aligner} {i : Table 12 Sample}
    (hs : SessionGood l) (hms : MessagesGood l) (hin : l.inService = true) (ha : AlignerGood a)
    (hinput : a.input = l.aligner.input)
    (_hout : (a.frameAlign == .locked && a.superAlign == .sfLocked) = false) :
    Keeps l 0 (leaveService n { l with aligner := a, inbound := i }) := by
  have hsend := sends_of_service hs hin
  have hm : MessagesGood (clearFilters { l with aligner := a, inbound := i }) :=
    ⟨hms.out, hms.inbound, hms.outState, hms.outSize, hms.inSize,
      hms.assembly, hms.retry, hms.notReady⟩
  have hsettle : ∀ p : LinkStep, Settles (clearFilters { l with aligner := a, inbound := i }) 0 p →
      Settles l 0 p := fun p hp => hp
  unfold leaveService
  simp only
  split
  · rename_i hst
    have hst : l.state = .active := hst
    have hop : l.op = none := op_none hs.op (by simp [hst])
    have := change_keeps (n := n) (k := 0)
      (c := .keep (clearFilters { l with aligner := a, inbound := i }) .degraded .serviceLost) hm ha
      ⟨?_, ?_, ?_, ?_, ?_, ?_, ?_⟩ ?_ ?_
    · exact ⟨this.good, hsettle _ this.settles⟩
    all_goals simp_all [Change.keep, faultOf, oneIf, Link.filtersClear, clearFilters]
  · rename_i hna
    split
    · rename_i hst
      have hst : l.state = .loop ∧ l.loopLock = true := hst
      have hop : l.op = none := op_none hs.op (by simp [hst])
      have := change_keeps (n := n) (k := 0)
        (c := .keep (clearFilters { l with aligner := a, inbound := i }) .fault (.fault .loopFail))
        hm ha ⟨?_, ?_, ?_, ?_, ?_, ?_, ?_⟩ ?_ ?_
      · exact ⟨this.good, hsettle _ this.settles⟩
      all_goals simp_all [Change.keep, faultOf, oneIf, Link.filtersClear, clearFilters]
    · rename_i hnl
      have hna : l.state ≠ .active := hna
      have hnl : ¬ (l.state = .loop ∧ l.loopLock = true) := hnl
      have hnloop : l.state ≠ .loop := by
        intro hl
        have := hs.loopService hl
        exact hnl ⟨hl, by rw [this, hin]⟩
      refine ⟨⟨⟨hs.lock, hs.side, hs.reason, hs.report, hs.timer, ?_, hs.framer, hs.detector, ?_, ?_,
        ?_, ?_, ?_, ?_⟩, ha, hm⟩, Settles.of_eq rfl rfl⟩
      · exact hs.op
      · exact hinput.trans hs.input
      · intro hx; exact absurd hsend (by simp [show sendsIn l.state = false from hx])
      · intro _; simp [clearFilters]
      · have := hs.keys
        have hfk : followsKeys l.state = false := by
          cases hl : l.state <;> simp_all [followsKeys]
        simp [clearFilters, hfk, this]
      · intro hx; exact absurd hx hna
      · intro hx; exact absurd hx hnloop

/-! ## Timers and activity -/

/-- The kind of a running timer fits the state (R92). -/
theorem timer_state {l : Link} (h : SessionGood l) {kind : TimerKind} {k : Nat}
    (ht : l.timer = some (kind, k)) : timerKindOf l.state l.loopLock = some kind := by
  have := h.timer
  rw [ht] at this
  exact this.symm

/-- An expiry keeps the link good (R92, R95 to R101). -/
theorem expire_keeps {n : LinkId} {kind : TimerKind} {l : Link} (h : LinkGood l)
    (hk : timerKindOf l.state l.loopLock = some kind) : Keeps l 0 (expire n kind l) := by
  have hs := h.session
  have hf : l.inService = false → l.filtersClear := filters_of hs
  unfold timerKindOf at hk
  cases hst : l.state <;> simp only [hst] at hk <;> (try (split at hk)) <;> cases hk
  case degraded =>
    have hop : l.op = none := op_none hs.op (by simp [hst])
    refine change_keeps h.messages h.aligner ⟨hf, ?_, ?_, ?_, ?_, ?_, ?_⟩ ?_ ?_ <;>
      simp_all [Change.keep, faultOf, oneIf]
  all_goals
    refine change_keeps h.messages h.aligner ⟨hf, ?_, ?_, ?_, ?_, ?_, ?_⟩ ?_ ?_ <;>
      simp_all [Change.ending, faultOf, oneIf, finishOp_count]

theorem expireIfDue_keeps {n : LinkId} {kind : TimerKind} {l : Link} (h : LinkGood l) :
    Keeps l 0 (expireIfDue n kind l) := by
  unfold expireIfDue
  split
  · rename_i hd
    exact expire_keeps h (timer_state h.session (by simpa [timerDue] using hd))
  · exact .rfl h

theorem expireAnyDue_keeps {n : LinkId} {l : Link} (h : LinkGood l) :
    Keeps l 0 (expireAnyDue n l) := by
  unfold expireAnyDue
  split
  · rename_i kind hd
    exact expire_keeps h (timer_state h.session hd)
  · exact .rfl h

theorem lineActivity_keeps {n : LinkId} {l : Link} (h : LinkGood l) :
    Keeps l 0 (lineActivity n l) := by
  have hs := h.session
  have hf : l.inService = false → l.filtersClear := filters_of hs
  unfold lineActivity
  split
  · rename_i hd
    have hst : l.state = .listen := by
      have := hs.detector
      rw [hd] at this
      by_contra hne
      simp [hne] at this
    have hop : l.op = none := op_none hs.op (by simp [hst])
    have hq := outQueue_empty h.messages (by simp [hst])
    refine change_keeps h.messages h.aligner ⟨hf, ?_, ?_, ?_, ?_, ?_, ?_⟩ ?_ ?_ <;>
      simp_all [Change.keep, faultOf, oneIf]
  · exact .rfl h

/-! ## Link commands -/

/-- A command that is answered at once and leaves the link as it was. -/
theorem Keeps.reply {l : Link} (h : LinkGood l) (id : CmdId) (status : Status) (result : Nat) :
    Keeps l 1 (l, [.complete (.plain id status (BitVec.ofNat 32 result))]) :=
  ⟨h, by simp [Settles]; omega⟩

/-- In a state at rest no operation is pending and the outbound queue is empty. -/
theorem rest_clear {l : Link} (h : LinkGood l)
    (hs : l.state = .off ∨ l.state = .fault ∨ l.state = .listen) :
    l.op = none ∧ l.outQueue = [] := by
  refine ⟨op_none h.session.op ?_, outQueue_empty h.messages ?_⟩ <;>
    rcases hs with hs | hs | hs <;> simp [hs]

theorem takeStart_keeps {n : LinkId} {id : CmdId} {f : StartFields} {l : Link} (h : LinkGood l) :
    Keeps l 1 (takeStart n id f l) := by
  have hs := h.session
  have hf : l.inService = false → l.filtersClear := filters_of hs
  have hm : MessagesGood { l with callLength := callLengthOf f.timer, reportKeys := f.report } :=
    ⟨h.messages.out, h.messages.inbound, h.messages.outState, h.messages.outSize, h.messages.inSize,
      h.messages.assembly, h.messages.retry, h.messages.notReady⟩
  unfold takeStart
  simp only
  cases f.mode <;> simp only
  · split
    · rename_i hst
      obtain ⟨hop, hq⟩ := rest_clear h hst
      have := change_keeps (n := n) (k := 1)
        (c := ⟨.calling, false, none, .hostStart, some ⟨.start, id⟩, []⟩) hm h.aligner
        ⟨hf, ?_, ?_, ?_, ?_, ?_, ?_⟩ ?_ ?_
      · exact ⟨this.good, this.settles⟩
      all_goals simp_all [faultOf, oneIf]
    · exact .reply h _ _ _
  · split
    · rename_i hst
      obtain ⟨hop, hq⟩ := rest_clear h (by rcases hst with h | h <;> simp [h])
      have := change_keeps (n := n) (k := 1)
        (c := ⟨.listen, false, none, .hostStart, none, [Machine.reply id .done 0]⟩) hm h.aligner
        ⟨hf, ?_, ?_, ?_, ?_, ?_, ?_⟩ ?_ ?_
      · exact ⟨this.good, this.settles⟩
      all_goals simp_all [faultOf, oneIf, Machine.reply]
    · exact .reply h _ _ _

theorem takeLoop_keeps {n : LinkId} {id : CmdId} {report : Bool} {l : Link} (h : LinkGood l) :
    Keeps l 1 (takeLoop n id report l) := by
  have hs := h.session
  have hf : l.inService = false → l.filtersClear := filters_of hs
  have hm : MessagesGood { l with reportKeys := report } :=
    ⟨h.messages.out, h.messages.inbound, h.messages.outState, h.messages.outSize, h.messages.inSize,
      h.messages.assembly, h.messages.retry, h.messages.notReady⟩
  unfold takeLoop
  split
  · rename_i hst
    obtain ⟨hop, hq⟩ := rest_clear h (by rcases hst with h | h <;> simp [h])
    have := change_keeps (n := n) (k := 1)
      (c := ⟨.loop, false, none, .hostLoop, some ⟨.loop, id⟩, []⟩) hm h.aligner
      ⟨hf, ?_, ?_, ?_, ?_, ?_, ?_⟩ ?_ ?_
    · exact ⟨this.good, this.settles⟩
    all_goals (rcases hst with hst | hst <;> simp_all [faultOf, oneIf])
  · exact .reply h _ _ _

theorem takeStop_keeps {n : LinkId} {id : CmdId} {l : Link} (h : LinkGood l) :
    Keeps l 1 (takeStop n id l) := by
  have hs := h.session
  have hf : l.inService = false → l.filtersClear := filters_of hs
  unfold takeStop
  cases hst : l.state <;> simp only
  case off => exact .reply h _ _ _
  case closing => exact .reply h _ _ _
  case active =>
    have hop : l.op = none := op_none hs.op (by simp [hst])
    refine change_keeps h.messages h.aligner ⟨hf, ?_, ?_, ?_, ?_, ?_, ?_⟩ ?_ ?_ <;>
      simp_all [faultOf, oneIf, finishOp_count]
  case degraded =>
    have hop : l.op = none := op_none hs.op (by simp [hst])
    refine change_keeps h.messages h.aligner ⟨hf, ?_, ?_, ?_, ?_, ?_, ?_⟩ ?_ ?_ <;>
      simp_all [faultOf, oneIf, finishOp_count]
  case listen =>
    obtain ⟨hop, hq⟩ := rest_clear h (by simp [hst])
    refine change_keeps h.messages h.aligner ⟨hf, ?_, ?_, ?_, ?_, ?_, ?_⟩ ?_ ?_ <;>
      simp_all [faultOf, oneIf, Machine.reply]
  case fault =>
    obtain ⟨hop, hq⟩ := rest_clear h (by simp [hst])
    refine change_keeps h.messages h.aligner ⟨hf, ?_, ?_, ?_, ?_, ?_, ?_⟩ ?_ ?_ <;>
      simp_all [faultOf, oneIf, Machine.reply]
  case training =>
    refine change_keeps h.messages h.aligner ⟨hf, ?_, ?_, ?_, ?_, ?_, ?_⟩ ?_ ?_ <;>
      simp_all [faultOf, finishOp_count] 
    simp [oneIf]
  case calling =>
    refine change_keeps h.messages h.aligner ⟨hf, ?_, ?_, ?_, ?_, ?_, ?_⟩ ?_ ?_ <;>
      simp_all [faultOf, finishOp_count, Machine.reply] 
    simp [oneIf]
  case loop =>
    refine change_keeps h.messages h.aligner ⟨hf, ?_, ?_, ?_, ?_, ?_, ?_⟩ ?_ ?_ <;>
      simp_all [faultOf, finishOp_count, Machine.reply] 
    simp [oneIf]

theorem takeQuery_keeps {id : CmdId} {l : Link} (h : LinkGood l) : Keeps l 1 (takeQuery id l) :=
  .reply h _ _ _

theorem takeLamps_keeps {id : CmdId} {mask value : Half} {l : Link} (h : LinkGood l) :
    Keeps l 1 (takeLamps id mask value l) := by
  refine ⟨⟨⟨h.session.lock, h.session.side, h.session.reason, h.session.report, h.session.timer,
    h.session.op, h.session.framer, h.session.detector, h.session.input, h.session.heldFrame,
    h.session.filters, h.session.keys, h.session.service, h.session.loopService⟩, h.aligner,
    ⟨h.messages.out, h.messages.inbound, h.messages.outState, h.messages.outSize, h.messages.inSize,
      h.messages.assembly, h.messages.retry, h.messages.notReady⟩⟩, ?_⟩
  simp [Settles, takeLamps, Machine.reply, Link.owes]; omega

end Sys2Proof.Machine
end

