-- ==== Sys2Proof/Laws/Lines.lean ====
section
/-! SUPPORT. Messages, blocks, frames examined and frame starts keep a Link Unit good and settle its
completions. -/

namespace Sys2Proof.Machine

/-! ## Messages -/

/-- A change of the message channel and its queues alone. -/
theorem LinkGood.withMessages {l : Link} (h : LinkGood l) {c : MessageChannel} {o : List OutMessage}
    {q : List InMessage} (hm : MessagesGood { l with chan := c, outQueue := o, inQueue := q }) :
    LinkGood { l with chan := c, outQueue := o, inQueue := q } :=
  ⟨⟨h.session.lock, h.session.side, h.session.reason, h.session.report, h.session.timer, h.session.op,
    h.session.framer, h.session.detector, h.session.input, h.session.heldFrame, h.session.filters,
    h.session.keys, h.session.service, h.session.loopService⟩, h.aligner, hm⟩

theorem dropOldest_keeps {status : Status} {result : Nat} {l : Link} (h : LinkGood l) :
    Keeps l 0 (dropOldest status result l) := by
  unfold dropOldest
  split
  · exact .rfl h
  · rename_i m rest hq
    refine ⟨?_, ?_⟩
    · refine h.withMessages (q := l.inQueue) ⟨?_, h.messages.inbound, ?_, ?_, h.messages.inSize,
        h.messages.assembly, ?_, ?_⟩
      · have := h.messages.out; rw [hq] at this; simp [Config.outLimit] at this ⊢; omega
      · intro _; exact h.messages.outState (by rw [hq]; simp)
      · intro m' hm'; exact h.messages.outSize m' (by rw [hq]; exact List.mem_cons_of_mem _ hm')
      · simp [MessageChannel.nextMessage]
      · simp [MessageChannel.nextMessage, Config.notReadyLimit]
    · simp only [Settles, settleMessage_count, Link.owes, hq, List.countP_cons]
      omega

theorem failOldest_keeps {status : Status} {l : Link} (h : LinkGood l) :
    Keeps l 0 (failOldest status l) := dropOldest_keeps h

theorem settleRetry_keeps {l : Link} (h : LinkGood l) : Keeps l 0 (settleRetry l) := by
  unfold settleRetry; split
  · exact failOldest_keeps h
  · exact .rfl h

theorem settleNotReady_keeps {l : Link} (h : LinkGood l) : Keeps l 0 (settleNotReady l) := by
  unfold settleNotReady; split
  · exact failOldest_keeps h
  · exact .rfl h

/-- The oldest message after a failure starts with its counts at 0 (R119). -/
theorem settleRetry_retry (l : Link) (h : l.chan.retry ≤ Config.retryLimit) :
    (settleRetry l).1.outQueue = [] ∨ (settleRetry l).1.chan.retry < Config.retryLimit := by
  unfold settleRetry retryDue
  split
  · unfold failOldest dropOldest
    split
    · rename_i hq; left; exact hq
    · right; simp [MessageChannel.nextMessage, Config.retryLimit]
  · rename_i hd
    by_cases hq : l.outQueue = []
    · exact .inl hq
    · right
      by_contra hr
      have hr : ¬ l.chan.retry < Config.retryLimit := hr
      exact hd (by simp [hq]; omega)

theorem settleNotReady_counts (l : Link) (h1 : l.outQueue = [] ∨ l.chan.retry < Config.retryLimit) :
    (settleNotReady l).1.outQueue = [] ∨
      ((settleNotReady l).1.chan.retry < Config.retryLimit ∧
        ((settleNotReady l).1.chan.peerRdy = true ∨
          (settleNotReady l).1.chan.notReady + 1 < Config.notReadyLimit)) := by
  unfold settleNotReady notReadyDue
  split
  · unfold failOldest dropOldest
    split
    · rename_i hq; left; exact hq
    · right; simp [MessageChannel.nextMessage, Config.retryLimit, Config.notReadyLimit]
  · rename_i hd
    rcases h1 with h1 | h1
    · exact .inl h1
    · by_cases hq : l.outQueue = []
      · exact .inl hq
      · right
        refine ⟨h1, ?_⟩
        by_contra hc
        have hc : ¬ (l.chan.peerRdy = true ∨ l.chan.notReady + 1 < Config.notReadyLimit) := hc
        rw [not_or] at hc
        obtain ⟨hp, hn⟩ := hc
        exact hd (by simp [hq, hp]; omega)

theorem settleCount_good {l : Link} (h : LinkGood l)
    (hc : l.outQueue = [] ∨ (l.chan.retry < Config.retryLimit ∧
      (l.chan.peerRdy = true ∨ l.chan.notReady + 1 < Config.notReadyLimit))) :
    LinkGood (settleCount l) := by
  unfold settleCount
  split
  · exact h
  · rename_i hq
    have hq : l.outQueue ≠ [] := by simpa using hq
    rcases hc with hc | ⟨h1, h2⟩
    · exact absurd hc hq
    split
    · exact h.withMessages (o := l.outQueue) (q := l.inQueue) ⟨h.messages.out, h.messages.inbound,
        h.messages.outState, h.messages.outSize, h.messages.inSize, h.messages.assembly, h1,
        by simp [Config.notReadyLimit]⟩
    · rename_i hp
      exact h.withMessages (o := l.outQueue) (q := l.inQueue) ⟨h.messages.out, h.messages.inbound,
        h.messages.outState, h.messages.outSize, h.messages.inSize, h.messages.assembly,
        h.messages.retry, by rcases h2 with h2 | h2 <;> simp_all⟩

theorem settleCount_owes (l : Link) : (settleCount l).owes = l.owes := by
  unfold settleCount
  split
  · rfl
  · split <;> rfl

theorem settleOldest_keeps {l : Link} (h : LinkGood l) : Keeps l 0 (settleOldest l) := by
  have h1 := (settleRetry_keeps h).followedBy (f := settleNotReady) fun hg => settleNotReady_keeps hg
  refine ⟨?_, ?_⟩
  · exact settleCount_good h1.good
      (settleNotReady_counts _ (settleRetry_retry l h.messages.retry))
  · have := h1.settles
    unfold Settles at this ⊢
    simp only [settleOldest, settleCount_owes]
    exact this

theorem takeMessage_keeps {id : CmdId} {bytes : List Byte} {l : Link} (h : LinkGood l)
    (hb : 1 ≤ bytes.length ∧ bytes.length ≤ Config.messageMax) :
    Keeps l 1 (takeMessage id bytes l) := by
  unfold takeMessage
  split
  · rename_i hst
    split
    · rename_i hlen
      refine ⟨h.withMessages (c := l.chan) (q := l.inQueue) ⟨?_, h.messages.inbound, ?_, ?_,
        h.messages.inSize, h.messages.assembly, h.messages.retry, h.messages.notReady⟩, ?_⟩
      · simp [Config.outLimit] at hlen ⊢; omega
      · intro _
        rcases hst with h | h | h <;> simp [h]
      · intro m hm
        rcases List.mem_append.mp hm with hm | hm
        · exact h.messages.outSize m hm
        · rw [List.mem_singleton.mp hm]; exact hb
      · simp [Settles, Link.owes, List.countP_append]; omega
    · exact .reply h _ _ _
  · exact .reply h _ _ _

theorem readAck_keeps {ack : Bool} {l : Link} (h : LinkGood l) : Keeps l 0 (readAck ack l) := by
  unfold readAck
  split
  · exact .rfl h
  · split
    · split
      · exact dropOldest_keeps h
      · refine ⟨h.withMessages (o := l.outQueue) (q := l.inQueue) ⟨h.messages.out,
          h.messages.inbound, h.messages.outState, h.messages.outSize, h.messages.inSize,
          h.messages.assembly, by simp, by simp [Config.notReadyLimit]⟩, Settles.of_eq rfl rfl⟩
    · exact .rfl h

/-- An END segment that COLLECTING accepts finds room in the inbound queue (R122). -/
theorem room_of_accepted {l : Link} {seq last : Bool} (h : segmentAccepted l seq last = true)
    (hl : last = true) (hd : l.chan.discarding = false) : l.inQueue.length < Config.inLimit := by
  simp [segmentAccepted, hl, hd] at h
  exact h.2

theorem takeSegment_keeps {n : LinkId} {frame : Word} {seq last : Bool} {segment : List Byte}
    {l : Link} (h : LinkGood l) (hseg : 1 ≤ segment.length)
    (hacc : segmentAccepted l seq last = true) :
    Keeps l 0 (takeSegment n frame seq last segment l) := by
  unfold takeSegment
  simp only
  split
  · exact ⟨h.withMessages (o := l.outQueue) (q := l.inQueue) ⟨h.messages.out, h.messages.inbound,
      h.messages.outState, h.messages.outSize, h.messages.inSize, h.messages.assembly,
      h.messages.retry, h.messages.notReady⟩, Settles.of_eq rfl rfl⟩
  · rename_i hd
    split
    · exact ⟨h.withMessages (o := l.outQueue) (q := l.inQueue) ⟨h.messages.out, h.messages.inbound,
        h.messages.outState, h.messages.outSize, h.messages.inSize, by simp,
        h.messages.retry, h.messages.notReady⟩, by simp [Settles, Link.owes]⟩
    · rename_i hlen
      split
      · rename_i hlast
        have hroom := room_of_accepted hacc hlast (by simpa using hd)
        refine ⟨h.withMessages (o := l.outQueue) ⟨h.messages.out, ?_,
          h.messages.outState, h.messages.outSize, ?_, by simp,
          h.messages.retry, h.messages.notReady⟩, Settles.of_eq rfl rfl⟩
        · simp; omega
        · intro m hm
          rcases List.mem_append.mp hm with hm | hm
          · exact h.messages.inSize m hm
          · rw [List.mem_singleton.mp hm]; simp; omega
      · refine ⟨h.withMessages (o := l.outQueue) (q := l.inQueue) ⟨h.messages.out,
          h.messages.inbound, h.messages.outState, h.messages.outSize, h.messages.inSize, ?_,
          h.messages.retry, h.messages.notReady⟩, Settles.of_eq rfl rfl⟩
        simp; omega

theorem readInbound_keeps {n : LinkId} {frame : Word} {header : Byte} {segment : List Byte}
    {l : Link} (h : LinkGood l) (hs : segment.length = 11) :
    Keeps l 0 (readInbound n frame header segment l) := by
  unfold readInbound
  simp only
  split
  · exact .rfl h
  · rename_i h0
    split
    · exact ⟨h, by simp [Settles]⟩
    · split
      · rename_i hacc
        refine takeSegment_keeps h ?_ hacc
        simp [hs]; omega
      · exact .rfl h

theorem readHeader_keeps {n : LinkId} {frame : Word} {header : Byte} {segment : List Byte}
    {l : Link} (h : LinkGood l) (hs : segment.length = 11) :
    Keeps l 0 (readHeader n frame header segment l) := by
  have h1 := readAck_keeps (ack := headerAck header) h
  have h2 : Keeps l 0
      ({ (readAck (headerAck header) l).1 with
          chan := { (readAck (headerAck header) l).1.chan with peerRdy := headerRdy header } },
        (readAck (headerAck header) l).2) := by
    refine ⟨h1.good.withMessages (o := (readAck (headerAck header) l).1.outQueue)
      (q := (readAck (headerAck header) l).1.inQueue) ⟨?_, ?_, ?_, ?_, ?_, ?_, ?_, ?_⟩, h1.settles⟩
    · exact h1.good.messages.out
    · exact h1.good.messages.inbound
    · exact h1.good.messages.outState
    · exact h1.good.messages.outSize
    · exact h1.good.messages.inSize
    · exact h1.good.messages.assembly
    · exact h1.good.messages.retry
    · exact h1.good.messages.notReady
  exact h2.followedBy fun hg => readInbound_keeps hg hs

/-! ## Blocks -/

theorem filterWord_keeps {n : LinkId} {word : Option LinkWord} {l : Link} (h : LinkGood l)
    (hin : l.inService = true) : Keeps l 0 (filterWord n word l) := by
  have good : ∀ t c, LinkGood { l with takenWord := t, candWord := c } := fun t c =>
    ⟨⟨h.session.lock, h.session.side, h.session.reason, h.session.report, h.session.timer,
      h.session.op, h.session.framer, h.session.detector, h.session.input, h.session.heldFrame,
      (fun hx => absurd (hin.symm.trans hx) (by decide)),
      h.session.keys, h.session.service, h.session.loopService⟩, h.aligner,
      ⟨h.messages.out, h.messages.inbound, h.messages.outState, h.messages.outSize,
        h.messages.inSize, h.messages.assembly, h.messages.retry, h.messages.notReady⟩⟩
  unfold filterWord
  simp only
  split
  · exact ⟨good _ _, Settles.of_eq rfl rfl⟩
  · split
    · rename_i w _
      have := wordTaken_keeps (n := n) (w := w) (good (some w) (some (some w))) hin
      exact ⟨this.good, this.settles⟩
    · exact ⟨good _ _, Settles.of_eq rfl rfl⟩

theorem filterKeys_keeps {n : LinkId} {field : Half} {l : Link} (h : LinkGood l)
    (hin : l.inService = true) : Keeps l 0 (filterKeys n field l) := by
  have good : ∀ t c k, (k = if followsKeys l.state then t else 0) →
      LinkGood { l with takenKeys := t, candKeys := c, keyTable := k } := fun t c k hk =>
    ⟨⟨h.session.lock, h.session.side, h.session.reason, h.session.report, h.session.timer,
      h.session.op, h.session.framer, h.session.detector, h.session.input, h.session.heldFrame,
      (fun hx => absurd (hin.symm.trans hx) (by decide)),
      hk, h.session.service, h.session.loopService⟩, h.aligner,
      ⟨h.messages.out, h.messages.inbound, h.messages.outState, h.messages.outSize,
        h.messages.inSize, h.messages.assembly, h.messages.retry, h.messages.notReady⟩⟩
  unfold filterKeys
  simp only
  split
  · split
    · rename_i hf
      refine ⟨?_, ?_⟩
      · rw [setKeyTable_link]; exact good _ _ _ (by simp [hf])
      · unfold Settles
        rw [setKeyTable_completions, setKeyTable_link]
        simp [Link.owes]
    · rename_i hf
      refine ⟨good _ _ l.keyTable ?_, Settles.of_eq rfl rfl⟩
      have := h.session.keys
      simpa [hf] using this
  · exact ⟨good _ _ l.keyTable h.session.keys, Settles.of_eq rfl rfl⟩

theorem takeBlock_keeps {n : LinkId} {frame : Word} {block : UpBlock} {l : Link} (h : LinkGood l)
    (hin : l.inService = true) (hb : block.bytes.length = 16) :
    Keeps l 0 (takeBlock n frame block l) := by
  unfold takeBlock
  split
  · exact .rfl h
  · simp only
    refine ((filterWord_keeps h hin).followedBy ?_).followedBy ?_
    · intro hg
      split
      · rename_i hin'
        exact filterKeys_keeps hg hin'
      · exact .rfl hg
    · intro hg
      split
      · exact readHeader_keeps hg (by simp [hb])
      · exact .rfl hg

/-! ## Frames examined -/

/-- A link with another aligner and other inbound registers, with the upstream in or out of service as
before. -/
theorem LinkGood.withAligner {l : Link} (h : LinkGood l) {a : Aligner} {i : Table 12 Sample}
    (ha : AlignerGood a) (hinput : a.input = l.aligner.input) (hsend : sendsIn l.state = true)
    (hservice : (a.frameAlign == .locked && a.superAlign == .sfLocked) = l.inService) :
    LinkGood { l with aligner := a, inbound := i } :=
  ⟨⟨h.session.lock, h.session.side, h.session.reason, h.session.report, h.session.timer, h.session.op,
    h.session.framer, h.session.detector, hinput.trans h.session.input,
    fun hx => absurd hsend (by simp [show sendsIn l.state = false from hx]),
    fun hx => h.session.filters (hservice ▸ hx), h.session.keys,
    fun hx => hservice.trans (h.session.service hx),
    fun hx => (h.session.loopService hx).trans hservice.symm⟩, ha,
    ⟨h.messages.out, h.messages.inbound, h.messages.outState, h.messages.outSize, h.messages.inSize,
      h.messages.assembly, h.messages.retry, h.messages.notReady⟩⟩

/-- The aligner's fields that the examination of a frame in LOCKED leaves alone. -/
theorem superStep_frame (isB : Bool) (a : Aligner) :
    (superStep isB a).input = a.input ∧ (superStep isB a).frameAlign = a.frameAlign ∧
      (superStep isB a).confirm = a.confirm ∧ (superStep isB a).score = a.score := by
  unfold superStep
  split
  · unfold searchStep
    simp only
    split <;> (try split) <;> (try split) <;> exact ⟨rfl, rfl, rfl, rfl⟩
  · exact ⟨rfl, rfl, rfl, rfl⟩

/-- Superframe alignment after a frame: in SEARCH it enters SF_LOCKED with phase 0 or not at all; in
SF_LOCKED the phase moves on (R80, R81). -/
theorem superStep_phase (isB : Bool) (a : Aligner) (h : AlignerGood a) :
    ((superStep isB a).superAlign = .search → (superStep isB a).phase = none ∧
        a.superAlign = .search ∧ (superStep isB a).markers < Config.markerGoal) ∧
      ((superStep isB a).superAlign = .sfLocked →
        (a.superAlign = .search ∧ (superStep isB a).phase = some 0 ∧ (superStep isB a).misses = 0) ∨
        (a.superAlign = .sfLocked ∧ (superStep isB a).phase = some (nextPhase a))) ∧
      (superStep isB a).markers ≤ Config.markerGoal := by
  have hp := h.phase
  have hm := h.markers
  have hu := h.unlocked
  unfold superStep
  cases hs : a.superAlign with
  | search =>
    have hnone : a.phase = none := by
      rw [hs] at hp
      cases hph : a.phase <;> simp_all
    have hu := hu hs
    simp only
    unfold searchStep
    simp only [Config.markerGoal] at hu ⊢
    split
    · split
      · by_cases hg : a.markers + 1 = 3
        · simp [hg]
        · simp [hg, hs, hnone]; omega
      · simp [hs, hnone]
    · split
      · simp [hs, hnone]
      · split <;> simp [hs, hnone] <;> omega
  | sfLocked =>
    simp only
    unfold lockedStep
    simp [hs, hm]

theorem examined_frame (f : LineFrame) (a : Aligner) :
    (examined f a).input = a.input ∧ (examined f a).frameAlign = a.frameAlign ∧
      (examined f a).confirm = a.confirm ∧ (examined f a).score = scoreAfter (frameGood f) a.score ∧
      (examined f a).superAlign = (superStep (frameIsB f) a).superAlign ∧
      (examined f a).phase = (superStep (frameIsB f) a).phase ∧
      (examined f a).misses = (superStep (frameIsB f) a).misses ∧
      (examined f a).markers = (superStep (frameIsB f) a).markers := by
  have := superStep_frame (frameIsB f) a
  exact ⟨this.1, this.2.1, this.2.2.1, by rfl, by rfl, by rfl, by rfl, by rfl⟩

/-- The block collected holds as many bytes as the phase says (R83). -/
theorem examined_block {f : LineFrame} {a : Aligner} (h : AlignerGood a) :
    ∀ b, (examined f a).upBlock = some b → ∃ p, (examined f a).phase = some p ∧
      b.bytes.length = p.val + 1 := by
  intro b hb
  have hph := (superStep_phase (frameIsB f) a h).2.1
  have he := (examined_frame f a).2.2.2.2.2.1
  rw [he]
  unfold examined at hb
  simp only at hb
  split at hb
  · rename_i hs
    unfold collect at hb
    have hub : (superStep (frameIsB f) a).upBlock = a.upBlock := by
      unfold superStep
      split
      · unfold searchStep
        simp only
        split <;> (try split) <;> (try split) <;> rfl
      · rfl
    rcases hph hs with ⟨h1, h2, _⟩ | ⟨h1, h2⟩
    · rw [h2] at hb ⊢
      simp at hb
      exact ⟨0, rfl, by rw [← hb]; simp⟩
    · rw [h2] at hb ⊢
      simp only at hb
      refine ⟨nextPhase a, rfl, ?_⟩
      split at hb
      · rename_i h0
        cases hb
        simp [h0]
      · rename_i h0
        rw [hub] at hb
        cases hu : a.upBlock with
        | none => rw [hu] at hb; cases hb
        | some b' =>
          rw [hu] at hb
          obtain ⟨p, hp1, hp2⟩ := h.block b' hu
          cases hb
          simp only [nextPhase, hp1] at h0 ⊢
          simp only [List.length_append, List.length_singleton, hp2]
          have : (p + 1 : Fin 16).val = p.val + 1 := by
            have hp15 : p.val ≠ 15 := by
              intro hx; apply h0; ext; simp [Fin.val_add, hx]
            rw [Fin.val_add]; simp; omega
          omega
  · cases hb

/-- The aligner after a frame examined in LOCKED that loses neither lock (R79 to R83). -/
theorem examined_good {f : LineFrame} {a : Aligner} (h : AlignerGood a)
    (hl : a.frameAlign = .locked) (hscore : (examined f a).score < Config.errorLimit)
    (hmiss : (examined f a).superAlign = .sfLocked → (examined f a).misses < Config.missLimit) :
    AlignerGood (examined f a) := by
  obtain ⟨_, h2, h3, _, h5, h6, h7, h8⟩ := examined_frame f a
  have hp := superStep_phase (frameIsB f) a h
  refine ⟨by rw [h3]; exact h.confirm, fun hx => ?_, hscore, by rw [h8]; exact hp.2.2,
    fun hs => by rw [h5] at hs; rw [h8]; exact (hp.1 hs).2.2, hmiss, ?_, fun hx => ?_, examined_block h⟩
  · rw [h2, hl] at hx; cases hx
  · rw [h5, h6]
    cases hs : (superStep (frameIsB f) a).superAlign with
    | search => rw [(hp.1 hs).1]; rfl
    | sfLocked =>
      rcases hp.2.1 hs with ⟨_, hx, _⟩ | ⟨_, hx⟩ <;> rw [hx] <;> rfl
  · rw [h2, hl] at hx; exact absurd rfl hx

/-- The aligner after a loss of frame lock (R79). -/
theorem dropLock_good {a : Aligner} (h : a.confirm ≤ Config.confirmFrames) :
    AlignerGood (dropLock a) :=
  ⟨h, (fun hx => by cases hx), by simp [dropLock, Config.errorLimit],
    by simp [dropLock, dropSuper], (fun _ => by simp [dropLock, dropSuper, Config.markerGoal]),
    (fun hx => by cases hx), rfl, fun _ => rfl, by intro b hb; cases hb⟩

/-- The aligner after a loss of superframe lock alone (R81). -/
theorem dropSuper_good {a : Aligner} (hc : a.confirm ≤ Config.confirmFrames)
    (hl : a.frameAlign = .locked) (hs : a.score < Config.errorLimit) : AlignerGood (dropSuper a) :=
  ⟨hc, (fun hx => by rw [show a.frameAlign = .confirm from hx] at hl; cases hl), hs,
    by simp [dropSuper], (fun _ => by simp [dropSuper, Config.markerGoal]),
    (fun hx => by cases hx), rfl, fun _ => rfl, by intro b hb; cases hb⟩

/-! ## Losses and the end of a block -/

/-- A link that has just examined a frame in LOCKED: all is good but that a limit may have been reached. -/
structure JustExamined (f : LineFrame) (l : Link) : Prop where
  session : SessionGood l
  messages : MessagesGood l
  sends : sendsIn l.state = true
  aligner : ∃ a, AlignerGood a ∧ a.frameAlign = .locked ∧ l.aligner = examined f a

theorem JustExamined.locked {f : LineFrame} {l : Link} (h : JustExamined f l) :
    l.aligner.frameAlign = .locked ∧ l.aligner.confirm ≤ Config.confirmFrames := by
  obtain ⟨a, ha, hl, he⟩ := h.aligner
  obtain ⟨_, h2, h3, _⟩ := examined_frame f a
  rw [he, h2, h3]
  exact ⟨hl, ha.confirm⟩

/-- An upstream out of service that stays so, with another aligner and other inbound registers. -/
theorem out_keeps {l : Link} {a : Aligner} {i : Table 12 Sample} (hs : SessionGood l)
    (hm : MessagesGood l) (hsend : sendsIn l.state = true) (hin : l.inService = false)
    (ha : AlignerGood a) (hinput : a.input = l.aligner.input)
    (hout : (a.frameAlign == .locked && a.superAlign == .sfLocked) = false) :
    Keeps l 0 ({ l with aligner := a, inbound := i }, []) := by
  refine ⟨⟨⟨hs.lock, hs.side, hs.reason, hs.report, hs.timer, hs.op, hs.framer, hs.detector,
    hinput.trans hs.input, ?_, fun _ => hs.filters hin, hs.keys, ?_, ?_⟩, ha,
    ⟨hm.out, hm.inbound, hm.outState, hm.outSize, hm.inSize, hm.assembly, hm.retry, hm.notReady⟩⟩,
    Settles.of_eq rfl rfl⟩
  · intro hx; exact absurd hsend (by simp [show sendsIn l.state = false from hx])
  · intro hx; rw [hs.service hx] at hin; cases hin
  · intro hx; exact (hs.loopService hx).trans (hin.trans hout.symm)

theorem loseLock_keeps {n : LinkId} {f : LineFrame} {l : Link} (h : JustExamined f l) :
    Keeps l 0 (loseLock n l) := by
  have ha : AlignerGood (dropLock l.aligner) := dropLock_good h.locked.2
  unfold loseLock
  simp only
  split
  · rename_i hin
    exact leaveService_keeps h.session h.messages hin ha rfl rfl
  · rename_i hin
    exact out_keeps h.session h.messages h.sends (by simpa using hin) ha rfl rfl

theorem loseSuper_keeps {n : LinkId} {f : LineFrame} {l : Link} (h : JustExamined f l)
    (hin : l.inService = true) (hs : l.aligner.score < Config.errorLimit) :
    Keeps l 0 (loseSuper n l) := by
  have ha : AlignerGood (dropSuper l.aligner) := dropSuper_good h.locked.2 h.locked.1 hs
  exact leaveService_keeps (i := l.inbound) h.session h.messages hin ha rfl
    (by simp [dropSuper])

theorem finishBlock_keeps {n : LinkId} {frame : Word} {l : Link} (h : LinkGood l)
    (hin : l.inService = true) : Keeps l 0 (finishBlock n frame l) := by
  unfold finishBlock
  split
  · rename_i p block hp hb
    split
    · rename_i h15
      have hlen : block.bytes.length = 16 := by
        obtain ⟨q, hq, hl⟩ := h.aligner.block block hb
        rw [hp] at hq
        cases hq
        rw [hl, h15]; rfl
      have hg := h.withAligner (a := { l.aligner with upBlock := none }) (i := l.inbound)
        ⟨h.aligner.confirm, h.aligner.confirming, h.aligner.score, h.aligner.markers,
          h.aligner.unlocked, h.aligner.misses, h.aligner.phase, h.aligner.searching,
          by intro b hb; cases hb⟩ rfl (sends_of_service h.session hin) rfl
      have := takeBlock_keeps (n := n) (frame := frame) hg hin hlen
      exact ⟨this.good, this.settles⟩
    · exact .rfl h
  · exact .rfl h

/-- What follows the examination of a frame in LOCKED (R79, R81 to R83). -/
theorem afterExamined_keeps {n : LinkId} {frame : Word} {f : LineFrame} {l : Link}
    (h : JustExamined f l) : Keeps l 0 (afterExamined n frame l) := by
  unfold afterExamined
  split
  · exact loseLock_keeps h
  · rename_i hscore
    split
    · rename_i hm
      refine loseSuper_keeps h ?_ (by omega)
      unfold Link.inService
      rw [h.locked.1, hm.1]; rfl
    · rename_i hm
      have hg : LinkGood l := by
        refine ⟨h.session, ?_, h.messages⟩
        obtain ⟨a, ha, hl, he⟩ := h.aligner
        rw [he] at hscore hm ⊢
        refine examined_good ha hl (by omega) fun hx => ?_
        by_contra hc
        exact hm ⟨hx, by omega⟩
      split
      · rename_i hin
        exact finishBlock_keeps hg hin
      · exact .rfl hg

/-- Superframe alignment is entered in SEARCH only, and never left by an examination alone (R80). -/
theorem examined_service {f : LineFrame} {a : Aligner} (h : AlignerGood a) :
    (examined f a).superAlign = .search → a.superAlign = .search := by
  intro hs
  rw [(examined_frame f a).2.2.2.2.1] at hs
  exact ((superStep_phase (frameIsB f) a h).1 hs).2.1

theorem sameService_justExamined {f : LineFrame} {l : Link} {i : Table 12 Sample} (h : LinkGood l)
    (hl : l.aligner.frameAlign = .locked) (hsend : sendsIn l.state = true)
    (hloop : l.aligner.superAlign = .search → (examined f l.aligner).superAlign = .sfLocked →
      ¬ (l.state = .loop ∧ l.loopLock = false)) :
    JustExamined f { l with inbound := i, aligner := examined f l.aligner } := by
  have hs := h.session
  obtain ⟨h1, h2, _⟩ := examined_frame f l.aligner
  have hback := examined_service (f := f) h.aligner
  have hin : l.inService = true → ((examined f l.aligner).frameAlign == .locked &&
      (examined f l.aligner).superAlign == .sfLocked) = true := by
    intro hin
    unfold Link.inService at hin
    rw [h2, hl]
    cases hx : (examined f l.aligner).superAlign with
    | sfLocked => rfl
    | search => rw [hback hx] at hin; rw [hl] at hin; exact absurd hin (by decide)
  refine ⟨⟨hs.lock, hs.side, hs.reason, hs.report, hs.timer, hs.op, hs.framer, hs.detector,
    h1.trans hs.input, ?_, ?_, hs.keys, ?_, ?_⟩,
    ⟨h.messages.out, h.messages.inbound, h.messages.outState, h.messages.outSize, h.messages.inSize,
      h.messages.assembly, h.messages.retry, h.messages.notReady⟩, hsend, l.aligner, h.aligner, hl, rfl⟩
  · intro hx; exact absurd hsend (by simp [show sendsIn l.state = false from hx])
  · intro hx
    refine hs.filters ?_
    cases hi : l.inService with
    | false => rfl
    | true => exact absurd ((hin hi).symm.trans hx) (by decide)
  · intro hx; exact hin (hs.service hx)
  · intro hx
    have hlock := hs.loopService hx
    cases hi : l.inService with
    | true => exact hlock.trans (hi.trans (hin hi).symm)
    | false =>
      refine (hlock.trans hi).trans ?_
      cases hx' : (examined f l.aligner).superAlign with
      | search =>
        show false = ((examined f l.aligner).frameAlign == .locked &&
          (examined f l.aligner).superAlign == .sfLocked)
        rw [hx']; simp
      | sfLocked =>
        have hsearch : l.aligner.superAlign = .search := by
          unfold Link.inService at hi
          rw [hl] at hi
          cases hq : l.aligner.superAlign with
          | search => rfl
          | sfLocked => rw [hq] at hi; exact absurd hi (by decide)
        exact absurd ⟨hx, hlock.trans hi⟩ (hloop hsearch hx')

/-- A frame examined in LOCKED (R79 to R83). -/
theorem examineLocked_keeps {n : LinkId} {frame : Word} {f : LineFrame} {l : Link} (h : LinkGood l)
    (hl : l.aligner.frameAlign = .locked) (hsend : sendsIn l.state = true) :
    Keeps l 0 (examineLocked n frame f l) := by
  unfold examineLocked
  simp only
  generalize (if frameGood f then frameBearer f else l.inbound) = i
  have step : ∀ p : LinkStep, Settles l 0 p → JustExamined f p.1 →
      Keeps l 0 (followedBy p (afterExamined n frame)) := by
    intro p hp hj
    have := afterExamined_keeps (n := n) (frame := frame) hj
    exact ⟨this.good, hp.followedBy this.settles⟩
  apply step
  · split
    · unfold enterService
      split
      · rename_i hst
        refine changeState_settles (n := n)
          (l := { l with inbound := i, aligner := examined f l.aligner }) (k := 0) ?_
        simp [finishOp_count, oneIf]
      · exact Settles.of_eq rfl rfl
    · exact Settles.of_eq rfl rfl
  · split
    · rename_i hsrv
      simp only [Bool.and_eq_true, beq_iff_eq] at hsrv
      unfold enterService
      split
      · rename_i hst
        have hm : MessagesGood { l with inbound := i, aligner := examined f l.aligner } :=
          ⟨h.messages.out, h.messages.inbound, h.messages.outState, h.messages.outSize,
            h.messages.inSize, h.messages.assembly, h.messages.retry, h.messages.notReady⟩
        have hst1 : l.state = .loop := hst.1
        have hst2 : l.loopLock = false := hst.2
        refine ⟨changeState_session ⟨?_, ?_, ?_, ?_, ?_, ?_, ?_⟩, changeState_messages hm ?_, ?_,
          l.aligner, h.aligner, hl, ?_⟩
        case refine_10 =>
          rw [changeState_aligner]
          have hinput : (examined f l.aligner).input = .loopback := by
            rw [(examined_frame f l.aligner).1, h.session.input, hst1]; rfl
          simp [hst1, resetsAligner, sendsIn, entersLoop, inputOf, ← hinput]
        all_goals simp_all [faultOf, sendsIn]
      · rename_i hst
        exact sameService_justExamined h hl hsend fun _ _ => hst
    · rename_i hsrv
      refine sameService_justExamined h hl hsend fun hs hx => ?_
      exfalso
      apply hsrv
      simp only [Bool.and_eq_true, beq_iff_eq]
      refine ⟨hs, ?_⟩
      unfold Link.inService
      simp only
      rw [(examined_frame f l.aligner).2.1, hl, hx]; rfl

/-- A frame examined in CONFIRM (R78). -/
theorem examineConfirm_keeps {f : LineFrame} {l : Link} (h : LinkGood l)
    (hc : l.aligner.frameAlign = .confirm) (hsend : sendsIn l.state = true) :
    Keeps l 0 ({ l with aligner := examineConfirm f l.aligner }, []) := by
  have hin : l.inService = false := by unfold Link.inService; rw [hc]; rfl
  have hsearch : l.aligner.superAlign = .search := h.aligner.searching (by rw [hc]; decide)
  have hlt := h.aligner.confirming hc
  have hi : (examineConfirm f l.aligner).input = l.aligner.input := by
    unfold examineConfirm; split <;> (try split) <;> rfl
  have hsup : (examineConfirm f l.aligner).superAlign = .search := by
    unfold examineConfirm; split <;> (try split) <;> exact hsearch
  refine out_keeps (i := l.inbound) h.session h.messages hsend hin ?_ hi (by rw [hsup]; simp)
  unfold examineConfirm
  split
  · split
    · rename_i hg
      exact ⟨by simp only; omega, (fun hx => by cases hx), by simp [Config.errorLimit],
        h.aligner.markers, h.aligner.unlocked, h.aligner.misses, h.aligner.phase,
        (fun _ => hsearch), h.aligner.block⟩
    · rename_i hg
      exact ⟨by simp only; omega, (fun _ => by simp only; omega), h.aligner.score,
        h.aligner.markers, h.aligner.unlocked, h.aligner.misses, h.aligner.phase,
        h.aligner.searching, h.aligner.block⟩
  · exact ⟨h.aligner.confirm, (fun hx => by cases hx), h.aligner.score,
      h.aligner.markers, h.aligner.unlocked, h.aligner.misses, h.aligner.phase,
      fun _ => hsearch, h.aligner.block⟩

theorem examineFrame_keeps {n : LinkId} {frame : Word} {f : LineFrame} {l : Link} (h : LinkGood l)
    (hsend : sendsIn l.state = true) : Keeps l 0 (examineFrame n frame f l) := by
  unfold examineFrame
  cases hl : l.aligner.frameAlign with
  | hunt => exact .rfl h
  | confirm => exact examineConfirm_keeps h hl hsend
  | locked => exact examineLocked_keeps h hl hsend

/-- Eight bits considered in HUNT (R77). -/
theorem hunt_keeps {bits : Byte} {l : Link} (h : LinkGood l) (hsend : sendsIn l.state = true) :
    Keeps l 0 ({ l with aligner := huntStep bits l.aligner }, []) := by
  unfold huntStep
  split
  · rename_i hh
    have hsearch : l.aligner.superAlign = .search := h.aligner.searching (by rw [hh.1]; decide)
    have hin : l.inService = false := by unfold Link.inService; rw [hh.1]; rfl
    exact out_keeps (i := l.inbound) h.session h.messages hsend hin
      ⟨by simp, (fun _ => by simp [Config.confirmFrames]), h.aligner.score, h.aligner.markers,
        h.aligner.unlocked, h.aligner.misses, h.aligner.phase, fun _ => hsearch, h.aligner.block⟩
      rfl rfl
  · exact .rfl h

/-- A link good with another looped frame, downstream block or frame sent. -/
theorem LinkGood.withLine {l : Link} (h : LinkGood l) (b : Option (Table 16 Byte))
    (o g : Option LineFrame) : LinkGood { l with block := b, lineOut := o, loopFrame := g } :=
  ⟨⟨h.session.lock, h.session.side, h.session.reason, h.session.report, h.session.timer, h.session.op,
    h.session.framer, h.session.detector, h.session.input, h.session.heldFrame, h.session.filters,
    h.session.keys, h.session.service, h.session.loopService⟩, h.aligner,
    ⟨h.messages.out, h.messages.inbound, h.messages.outState, h.messages.outSize, h.messages.inSize,
      h.messages.assembly, h.messages.retry, h.messages.notReady⟩⟩

/-- CANDIDATE_MARKER (R77). -/
theorem lineCandidate_keeps {bits : Byte} {l : Link} (h : LinkGood l) :
    Keeps l 0 (lineCandidate bits l) := by
  unfold lineCandidate alignerRuns
  split
  · exact .rfl h
  · rename_i hr
    have hsend : sendsIn l.state = true := by simpa using hr
    split
    · exact hunt_keeps h hsend
    · split
      · rename_i f _
        split
        · have := hunt_keeps (bits := frameMarker f) (h.withLine l.block l.lineOut none) hsend
          exact ⟨this.good, this.settles⟩
        · exact .rfl h
      · exact .rfl h

/-- Out of HUNT an upstream frame makes the aligner examine one frame (R74, R76). -/
theorem lineFrame_examines {l l' : Link} {f g : LineFrame} (h : Examines l f g l') (n : LinkId) (frame : Word)
    (ha : l.aligner.frameAlign ≠ .hunt) : lineFrame n frame f l = examineFrame n frame g l' := by
  obtain ⟨hs, h⟩ := h
  unfold lineFrame alignerRuns
  rw [hs]
  rcases h with ⟨hi, rfl, rfl⟩ | ⟨hi, hl, rfl⟩
  · simp [hi]
  · simp [hi, hl, ha]

/-- UPSTREAM_FRAME (R76). -/
theorem lineFrame_keeps {n : LinkId} {frame : Word} {f : LineFrame} {l : Link} (h : LinkGood l) :
    Keeps l 0 (lineFrame n frame f l) := by
  unfold lineFrame alignerRuns
  split
  · exact .rfl h
  · rename_i hr
    have hsend : sendsIn l.state = true := by simpa using hr
    split
    · exact examineFrame_keeps h hsend
    · split
      · rename_i g _
        split
        · exact .rfl h
        · have := examineFrame_keeps (n := n) (frame := frame) (f := g)
            (h.withLine l.block l.lineOut none) hsend
          exact ⟨this.good, this.settles⟩
      · exact .rfl h

theorem examineLoop_keeps {n : LinkId} {frame : Word} {l : Link} (h : LinkGood l) :
    Keeps l 0 (examineLoop n frame l) := by
  unfold examineLoop
  split
  · exact .rfl h
  · split
    · exact lineCandidate_keeps h
    · exact lineFrame_keeps h

/-! ## Frame starts -/

theorem countTimer_good {l : Link} (h : LinkGood l) : LinkGood (countTimer l) := by
  refine ⟨⟨h.session.lock, h.session.side, h.session.reason, h.session.report, ?_, h.session.op,
    h.session.framer, h.session.detector, h.session.input, h.session.heldFrame, h.session.filters,
    h.session.keys, h.session.service, h.session.loopService⟩, h.aligner,
    ⟨h.messages.out, h.messages.inbound, h.messages.outState, h.messages.outSize, h.messages.inSize,
      h.messages.assembly, h.messages.retry, h.messages.notReady⟩⟩
  have := h.session.timer
  simp only [countTimer]
  rw [← this]
  cases l.timer <;> rfl

theorem formBlock_keeps {l : Link} (h : LinkGood l) :
    LinkGood (formBlock l) ∧ (formBlock l).owes = l.owes := by
  have good : ∀ b r, LinkGood { l with block := b, chan := { l.chan with sentRdy := r } } := by
    intro b r
    have := (h.withMessages (c := { l.chan with sentRdy := r }) (o := l.outQueue) (q := l.inQueue)
      ⟨h.messages.out, h.messages.inbound, h.messages.outState, h.messages.outSize,
        h.messages.inSize, h.messages.assembly, h.messages.retry, h.messages.notReady⟩)
    exact this.withLine b l.lineOut l.loopFrame
  unfold formBlock
  split
  · exact ⟨good _ _, rfl⟩
  · exact ⟨good _ _, rfl⟩

theorem superframeStart_keeps {l : Link} (h : LinkGood l) : Keeps l 0 (superframeStart l) := by
  have hc := countTimer_good h
  unfold superframeStart
  simp only
  split
  · have hs : Keeps (countTimer l) 0 (settleForBlock (countTimer l)) := by
      unfold settleForBlock
      split
      · exact settleOldest_keeps hc
      · exact .rfl hc
    obtain ⟨h1, h2⟩ := formBlock_keeps hs.good
    refine ⟨h1, ?_⟩
    have := hs.settles
    unfold Settles at this ⊢
    simp only [h2]
    exact this
  · exact ⟨hc, Settles.of_eq rfl rfl⟩

theorem linkFrameStart_keeps {frame : Word} {down : Table 12 Sample} {l : Link} (h : LinkGood l) :
    Keeps l 0 (linkFrameStart frame down l) := by
  unfold linkFrameStart
  have hp : Keeps l 0 (if phaseOf frame = 0 then superframeStart l else (l, [])) := by
    split
    · exact superframeStart_keeps h
    · exact .rfl h
  simp only
  generalize (if phaseOf frame = 0 then superframeStart l else (l, [])) = p at hp
  refine ⟨?_, ?_⟩
  · unfold sendFrame
    simp only
    split <;> exact hp.good.withLine _ _ _
  · have := hp.settles
    unfold Settles at this ⊢
    have he : ∀ m : Link, (sendFrame (phaseOf frame) down m).owes = m.owes := by
      intro m; unfold sendFrame; simp only; split <;> rfl
    simp only [he]
    exact this

/-! ## Message limits -/

theorem retryLimitIfDue_keeps {frame : Word} {l : Link} (h : LinkGood l) :
    Keeps l 0 (retryLimitIfDue frame l) := by
  unfold retryLimitIfDue; split
  · exact settleRetry_keeps h
  · exact .rfl h

theorem notReadyLimitIfDue_keeps {frame : Word} {l : Link} (h : LinkGood l) :
    Keeps l 0 (notReadyLimitIfDue frame l) := by
  unfold notReadyLimitIfDue; split
  · exact settleNotReady_keeps h
  · exact .rfl h

/-! ## Resets and delivery -/

/-- A Link Unit after engine reset is good and owes nothing (R107, R128). -/
theorem engineReset_link {l : Link} (h : LinkGood l) :
    LinkGood l.engineReset ∧ l.engineReset.owes = 0 := by
  refine ⟨⟨⟨h.session.lock, h.session.side, h.session.reason, h.session.report, h.session.timer, trivial,
    h.session.framer, h.session.detector, h.session.input, h.session.heldFrame, h.session.filters,
    h.session.keys, h.session.service, h.session.loopService⟩, h.aligner, ⟨?_, h.messages.inbound, ?_,
      ?_, h.messages.inSize, h.messages.assembly, h.messages.retry, h.messages.notReady⟩⟩, ?_⟩
  · simpa [Link.engineReset] using h.messages.out
  · intro hne
    refine h.messages.outState fun hq => hne ?_
    simp [Link.engineReset, hq]
  · intro m hm
    simp only [Link.engineReset, List.mem_map] at hm
    obtain ⟨m', hm', rfl⟩ := hm
    exact h.messages.outSize m' hm'
  · simp [Link.engineReset, Link.owes, oneIf, List.countP_map, OutMessage.disowned]

/-- A Link Unit after device reset is good and owes nothing (R169). -/
theorem linkReset_good : LinkGood Link.reset ∧ Link.reset.owes = 0 := by
  refine ⟨⟨⟨?_, ?_, ?_, ?_, rfl, trivial, rfl, rfl, rfl, fun _ => rfl, fun _ => ⟨rfl, rfl, rfl, rfl⟩,
    rfl, ?_, ?_⟩, alignerReset_good, ⟨?_, ?_, ?_, ?_, ?_, ?_, ?_, ?_⟩⟩, rfl⟩ <;>
    simp [Link.reset, MessageChannel.reset, Config.notReadyLimit]

/-- The head of the inbound queue written (R124). -/
theorem delivered_good {l : Link} (h : LinkGood l) :
    LinkGood { l with inQueue := l.inQueue.drop 1 } := by
  refine h.withMessages (c := l.chan) (o := l.outQueue) ⟨h.messages.out, ?_, h.messages.outState,
    h.messages.outSize, ?_, h.messages.assembly, h.messages.retry, h.messages.notReady⟩
  · have := h.messages.inbound
    simp; omega
  · intro m hm; exact h.messages.inSize m (List.mem_of_mem_drop hm)

end Sys2Proof.Machine
end

