-- ==== Sys2Proof/Laws/Step.lean ====
section
/-! SUPPORT. What a step can do, said once: the effect of each command on a hub that is not held in reset,
that exec answers it, and that a property kept by every effect is kept by every step. -/

namespace Sys2Proof.Machine

/-! ## Ends of transfers -/

/-- A write of a route record ends. -/
def routeWritten (how : BusEnd) (s : State) : State :=
  match s.core.slot with
  | none => s
  | some r =>
    match how with
    | .ok => finishRead r s
    | .busError => halt .resultError s

/-- A write of a tap's run ends. -/
def tapWritten (n : TapId) (how : BusEnd) (s : State) : State :=
  if (s.taps.get n).writing then
    match how with
    | .ok => finishWrite n s
    | .busError => halt .tapError s
  else s

/-- A read of a tap's run ends. -/
def tapRead (n : TapId) (how : ReadEnd) (s : State) : State :=
  if (s.taps.get n).reading then
    match how with
    | .data bytes => s.setTap n (storeRun (runSamples bytes) (s.taps.get n))
    | .busError => halt .tapError s
  else s

/-- A write of a completion ends. -/
def completionWritten (how : BusEnd) (s : State) : State :=
  if s.engine.compWrite.isSome then
    match how with
    | .ok => s.withEngine s.engine.completionPosted
    | .busError => halt .postError s
  else s

/-- A write of an event ends. -/
def eventWritten (how : BusEnd) (s : State) : State :=
  match s.events.write with
  | none => s
  | some w =>
    match how with
    | .ok => eventPosted w s
    | .busError => halt .postError s

/-! ## Effects -/

/-- The effect of each command on a hub that is not held in reset. -/
def effectOf (i : Instr) (s : State) : State :=
  match i with
  | .frameStart => startFrame (catchUp s)
  | .callTimerExpires link => s.onLink link (expireIfDue link .call)
  | .trainTimerExpires link => s.onLink link (expireIfDue link .train)
  | .holdTimerExpires link => s.onLink link (expireIfDue link .hold)
  | .closeTimerExpires link => s.onLink link (expireIfDue link .close)
  | .loopTimerExpires link => s.onLink link (expireIfDue link .loop)
  | .retryLimit link => s.onLink link (retryLimitIfDue s.frame)
  | .notReadyLimit link => s.onLink link (notReadyLimitIfDue s.frame)
  | .candidateMarker link bits => s.onLink link (lineCandidate bits)
  | .upstreamFrame link frame => s.onLink link (lineFrame link s.frame frame)
  | .lineActivity link => s.onLink link (lineActivity link)
  | .fetchStart => startFetch s
  | .fetchError => if s.engine.fetch.isSome then halt .fetchError s else s
  | .badKind _ record => takeFetch record (refuse .badKind) s
  | .setRoute record => takeFetch record (fetchedEdit (parseSetRoute record) record) s
  | .clearRoute record => takeFetch record (fetchedEdit (parseClearRoute record) record) s
  | .muteRoute record => takeFetch record (fetchedEdit (parseMuteRoute record) record) s
  | .openTap record => takeFetch record (fetchedEdit (parseOpenTap record) record) s
  | .closeTap record => takeFetch record (fetchedEdit (parseCloseTap record) record) s
  | .cancelGroup record => takeFetch record (fetchedCancel (parseCancel record)) s
  | .readRoute record => takeFetch record (fetchedPlain .a (parseReadRoute record) takeRead) s
  | .fence record => takeFetch record (fetchedPlain .a (parseFence record) takeFence) s
  | .startLink record => takeFetch record (fetchedPlain .b (parseStart record) takeStartLink) s
  | .loopLink record => takeFetch record (fetchedPlain .b (parseLoop record) takeLoopLink) s
  | .stopLink record => takeFetch record (fetchedPlain .b (parseLinkOnly record) takeStopLink) s
  | .queryLink record => takeFetch record (fetchedPlain .b (parseLinkOnly record) takeQueryLink) s
  | .setLamps record => takeFetch record (fetchedPlain .b (parseLamps record) takeSetLamps) s
  | .sendMessage record => takeFetch record (fetchedPlain .b (parseMessage record) takeSendMessage) s
  | .creditTap record => takeFetch record (fetchedPlain .b (parseCredit record) takeCreditTap) s
  | .parkedEditRetry => retryEdit s
  | .parkedReadRouteTaken => takeParkedRead s
  | .fenceRelease => releaseFence s
  | .routeRecordWriteEnd how => routeWritten how s
  | .captureWriteStart tap => startWrite tap s
  | .tapWriteEnd tap how => tapWritten tap how s
  | .playoutReadStart tap => startTapRead tap s
  | .tapReadEnd tap how => tapRead tap how s
  | .completionWriteStart => startCompletion s
  | .completionWriteEnd how => completionWritten how s
  | .eventWriteStart => startEvent s
  | .messageEvent => startMessage s
  | .eventWriteEnd how => eventWritten how s
  | .enableSet enables => (storeEnables enables s).withEngine (storeEnables enables s).engine.setEnable
  | .enableClear enables =>
    stopIfDue ((storeEnables enables s).withEngine (storeEnables enables s).engine.clearEnable)
  | .stopEnd => stopIfDue s
  | .interruptEnableWrite enables => storeEnables enables s
  | .engineReset => resetEngine s
  | .deviceReset => resetDevice s
  | .resetN => { State.reset with held := true, pending := s.pending }
  | .ringBaseWrite ring value => writeBase ring value s
  | .ringProdWrite ring value => writeProd ring value s
  | .compConsWrite value => writeCompCons value s
  | .eventConsWrite value => writeEventCons value s
  | .unstoredRegisterWrite _ _ => s
  | .resetNRelease => s

/-- exec answers the effect of a well-formed command on a hub that is not held in reset. -/
theorem exec_effect {i : Instr} {s : State} (hw : i.wellFormed = true) (hs : s.held = false) :
    exec i s = .next (effectOf i s) := by
  cases i
  case badKind kind record =>
    have hk : kindUnknown kind = true := hw
    show execBadKind kind record s = _
    unfold execBadKind
    rw [if_pos hk, live_next hs]; rfl
  case unstoredRegisterWrite offset value =>
    have hk : offsetUnstored offset = true := hw
    show execUnstoredRegisterWrite offset value s = _
    unfold execUnstoredRegisterWrite
    rw [if_pos hk, live_next hs]; rfl
  case frameStart =>
    show execFrameStart s = _
    unfold execFrameStart
    rw [live_next hs]; rfl
  case resetN => rfl
  case resetNRelease =>
    show execResetNRelease s = _
    unfold execResetNRelease
    rw [if_neg (by simp [hs])]; rfl
  all_goals (dsimp only [exec, effectOf]; exact live_next hs)

/-- A hub held in reset takes no command but the pin (R169). -/
theorem exec_held {i : Instr} {s : State} (hw : i.wellFormed = true) (hs : s.held = true)
    (h1 : i ≠ .resetN) (h2 : i ≠ .resetNRelease) : exec i s = .next s := by
  cases i
  case badKind kind record =>
    have hk : kindUnknown kind = true := hw
    show execBadKind kind record s = _
    unfold execBadKind
    rw [if_pos hk, live_held hs]
  case unstoredRegisterWrite offset value =>
    have hk : offsetUnstored offset = true := hw
    show execUnstoredRegisterWrite offset value s = _
    unfold execUnstoredRegisterWrite
    rw [if_pos hk, live_held hs]
  case frameStart =>
    show execFrameStart s = _
    unfold execFrameStart
    rw [live_held hs]
  case resetN => exact absurd rfl h1
  case resetNRelease => exact absurd rfl h2
  all_goals (dsimp only [exec]; exact live_held hs)

/-- A term that spells no event answers the fault. -/
theorem exec_illFormed {i : Instr} {s : State} (hw : i.wellFormed = false) :
    exec i s = .fault .illFormed := by
  cases i
  case badKind kind record =>
    have hk : kindUnknown kind = false := hw
    show execBadKind kind record s = _
    unfold execBadKind
    rw [if_neg (by simp [hk])]
  case unstoredRegisterWrite offset value =>
    have hk : offsetUnstored offset = false := hw
    show execUnstoredRegisterWrite offset value s = _
    unfold execUnstoredRegisterWrite
    rw [if_neg (by simp [hk])]
  all_goals exact absurd hw (by simp [Instr.wellFormed])

/-- What a command that answers next can have done. -/
theorem exec_next {i : Instr} {s t : State} (h : exec i s = .next t) :
    i.wellFormed = true ∧
      ((s.held = false ∧ t = effectOf i s) ∨ (s.held = true ∧ t = s) ∨
        t = { State.reset with held := true, pending := s.pending } ∨
        t = { State.reset with pending := s.pending }) := by
  have hw : i.wellFormed = true := by
    by_contra hw
    rw [exec_illFormed (by simpa using hw)] at h
    cases h
  refine ⟨hw, ?_⟩
  by_cases hs : s.held = true
  · by_cases h1 : i = .resetN
    · subst h1; cases h; exact .inr (.inr (.inl rfl))
    · by_cases h2 : i = .resetNRelease
      · subst h2
        have : exec .resetNRelease s = .next { State.reset with pending := s.pending } := by
          show execResetNRelease s = _
          unfold execResetNRelease
          rw [if_pos hs]
        rw [this] at h; cases h; exact .inr (.inr (.inr rfl))
      · rw [exec_held hw hs h1 h2] at h; cases h; exact .inr (.inl ⟨hs, rfl⟩)
  · have hs : s.held = false := by simpa using hs
    rw [exec_effect hw hs] at h; cases h; exact .inl ⟨hs, rfl⟩

/-- A property that does not see the queue, that the two reset states of the pin have, and that every effect
keeps is kept by every step. -/
theorem step_keeps {P : State → Prop} (queue : ∀ s q, P s → P (s.withPending q))
    (low : P { State.reset with held := true }) (high : P State.reset)
    (effect : ∀ i s, i.wellFormed = true → s.held = false → P s → P (effectOf i s))
    {s t : State} (hs : P s) (h : step s = .next t) : P t := by
  unfold step at h
  cases hp : s.pending with
  | nil => rw [hp] at h; cases h; exact hs
  | cons c rest =>
    rw [hp] at h
    simp only at h
    have hq := queue s rest hs
    obtain ⟨hw, h | h | h | h⟩ := exec_next h
    · rw [h.2]; exact effect c _ hw h.1 hq
    · rw [h.2]; exact hq
    · rw [h]; exact queue _ _ low
    · rw [h]; exact queue _ _ high

end Sys2Proof.Machine
end

