-- ==== Sys2Proof/Laws/Reach.lean ====
section
/-! SUPPORT. Which blocks each operation reaches: for each operation one theorem with the blocks it can change,
and one lemma for each field that it leaves alone. -/

namespace Sys2Proof.Machine

/-! ## A field that a fold leaves alone -/

/-- What every step of a fold leaves alone, the fold leaves alone. -/
theorem foldl_same {α β γ : Type} (g : α → γ) (f : α → β → α) (h : ∀ a b, g (f a b) = g a) (l : List β)
    (a : α) : g (l.foldl f a) = g a := by
  induction l generalizing a with
  | nil => rfl
  | cons b l ih => rw [List.foldl_cons, ih, h]

/-! ## Fetch and the parked command -/

/-- The start of a fetch is the Ring Engine's (R133). -/
theorem startFetch_eq (s : State) : startFetch s =
    { s with
      engine := (startFetch s).engine } := by
  unfold startFetch
  split
  · split <;> rfl
  · rfl

section
variable (s : State)
@[simp] theorem startFetch_held : (startFetch s).held = s.held := by
  rw [startFetch_eq]
@[simp] theorem startFetch_frame : (startFetch s).frame = s.frame := by
  rw [startFetch_eq]
@[simp] theorem startFetch_sched : (startFetch s).sched = s.sched := by
  rw [startFetch_eq]
@[simp] theorem startFetch_core : (startFetch s).core = s.core := by
  rw [startFetch_eq]
@[simp] theorem startFetch_taps : (startFetch s).taps = s.taps := by
  rw [startFetch_eq]
@[simp] theorem startFetch_closing : (startFetch s).closing = s.closing := by
  rw [startFetch_eq]
@[simp] theorem startFetch_links : (startFetch s).links = s.links := by
  rw [startFetch_eq]
@[simp] theorem startFetch_events : (startFetch s).events = s.events := by
  rw [startFetch_eq]
@[simp] theorem startFetch_pending : (startFetch s).pending = s.pending := by
  rw [startFetch_eq]
end

/-- Acceptance reaches the schedule and hands completions (R31 to R33). -/
theorem acceptGroup_eq (a : Assembly) (s : State) : acceptGroup a s =
    { s with
      engine := (acceptGroup a s).engine
      sched := (acceptGroup a s).sched } := by
  unfold acceptGroup
  split
  · rw [handAll_eq]; rfl
  · split
    · rw [handAll_eq]; rfl
    · rfl

section
variable (a : Assembly) (s : State)
@[simp] theorem acceptGroup_held : (acceptGroup a s).held = s.held := by
  rw [acceptGroup_eq]
@[simp] theorem acceptGroup_frame : (acceptGroup a s).frame = s.frame := by
  rw [acceptGroup_eq]
@[simp] theorem acceptGroup_core : (acceptGroup a s).core = s.core := by
  rw [acceptGroup_eq]
@[simp] theorem acceptGroup_taps : (acceptGroup a s).taps = s.taps := by
  rw [acceptGroup_eq]
@[simp] theorem acceptGroup_closing : (acceptGroup a s).closing = s.closing := by
  rw [acceptGroup_eq]
@[simp] theorem acceptGroup_links : (acceptGroup a s).links = s.links := by
  rw [acceptGroup_eq]
@[simp] theorem acceptGroup_events : (acceptGroup a s).events = s.events := by
  rw [acceptGroup_eq]
@[simp] theorem acceptGroup_pending : (acceptGroup a s).pending = s.pending := by
  rw [acceptGroup_eq]
end

/-- An edit taken reaches the schedule and hands completions (R28). -/
theorem takeEdit_eq (e : Edit) (s : State) : takeEdit e s =
    { s with
      engine := (takeEdit e s).engine
      sched := (takeEdit e s).sched } := by
  unfold takeEdit
  split
  · rfl
  · rw [acceptGroup_eq]; rfl

section
variable (e : Edit) (s : State)
@[simp] theorem takeEdit_held : (takeEdit e s).held = s.held := by
  rw [takeEdit_eq]
@[simp] theorem takeEdit_frame : (takeEdit e s).frame = s.frame := by
  rw [takeEdit_eq]
@[simp] theorem takeEdit_core : (takeEdit e s).core = s.core := by
  rw [takeEdit_eq]
@[simp] theorem takeEdit_taps : (takeEdit e s).taps = s.taps := by
  rw [takeEdit_eq]
@[simp] theorem takeEdit_closing : (takeEdit e s).closing = s.closing := by
  rw [takeEdit_eq]
@[simp] theorem takeEdit_links : (takeEdit e s).links = s.links := by
  rw [takeEdit_eq]
@[simp] theorem takeEdit_events : (takeEdit e s).events = s.events := by
  rw [takeEdit_eq]
@[simp] theorem takeEdit_pending : (takeEdit e s).pending = s.pending := by
  rw [takeEdit_eq]
end

/-- An edit fetched reaches the schedule, is parked, or hands completions (R28, R29, R35). -/
theorem joinEdit_eq (e : Edit) (s : State) : joinEdit e s =
    { s with
      engine := (joinEdit e s).engine
      sched := (joinEdit e s).sched } := by
  unfold joinEdit parkEdit
  split
  · rw [hand_eq]; rfl
  · split
    · split
      · rw [handAll_eq]; rfl
      · split
        · rw [takeEdit_eq]
        · rfl
    · split
      · rw [takeEdit_eq]
      · rfl

section
variable (e : Edit) (s : State)
@[simp] theorem joinEdit_held : (joinEdit e s).held = s.held := by
  rw [joinEdit_eq]
@[simp] theorem joinEdit_frame : (joinEdit e s).frame = s.frame := by
  rw [joinEdit_eq]
@[simp] theorem joinEdit_core : (joinEdit e s).core = s.core := by
  rw [joinEdit_eq]
@[simp] theorem joinEdit_taps : (joinEdit e s).taps = s.taps := by
  rw [joinEdit_eq]
@[simp] theorem joinEdit_closing : (joinEdit e s).closing = s.closing := by
  rw [joinEdit_eq]
@[simp] theorem joinEdit_links : (joinEdit e s).links = s.links := by
  rw [joinEdit_eq]
@[simp] theorem joinEdit_events : (joinEdit e s).events = s.events := by
  rw [joinEdit_eq]
@[simp] theorem joinEdit_pending : (joinEdit e s).pending = s.pending := by
  rw [joinEdit_eq]
end

/-- A broken group leaves the schedule and hands completions (R30). -/
theorem breakFor_eq (ring : CmdRing) (s : State) : breakFor ring s =
    { s with
      engine := (breakFor ring s).engine
      sched := (breakFor ring s).sched } := by
  unfold breakFor breakGroup
  split
  · split
    · rfl
    · rw [handAll_eq]; rfl
  · rfl

section
variable (ring : CmdRing) (s : State)
@[simp] theorem breakFor_held : (breakFor ring s).held = s.held := by
  rw [breakFor_eq]
@[simp] theorem breakFor_frame : (breakFor ring s).frame = s.frame := by
  rw [breakFor_eq]
@[simp] theorem breakFor_core : (breakFor ring s).core = s.core := by
  rw [breakFor_eq]
@[simp] theorem breakFor_taps : (breakFor ring s).taps = s.taps := by
  rw [breakFor_eq]
@[simp] theorem breakFor_closing : (breakFor ring s).closing = s.closing := by
  rw [breakFor_eq]
@[simp] theorem breakFor_links : (breakFor ring s).links = s.links := by
  rw [breakFor_eq]
@[simp] theorem breakFor_events : (breakFor ring s).events = s.events := by
  rw [breakFor_eq]
@[simp] theorem breakFor_pending : (breakFor ring s).pending = s.pending := by
  rw [breakFor_eq]
end

/-- A refusal at fetch breaks an open group and hands completions (R138). -/
theorem refuse_eq (status : Status) (id : CmdId) (s : State) : refuse status id s =
    { s with
      engine := (refuse status id s).engine
      sched := (refuse status id s).sched } := by
  unfold refuse
  rw [hand_eq, breakFor_eq]; rfl

section
variable (status : Status) (id : CmdId) (s : State)
@[simp] theorem refuse_held : (refuse status id s).held = s.held := by
  rw [refuse_eq]
@[simp] theorem refuse_frame : (refuse status id s).frame = s.frame := by
  rw [refuse_eq]
@[simp] theorem refuse_core : (refuse status id s).core = s.core := by
  rw [refuse_eq]
@[simp] theorem refuse_taps : (refuse status id s).taps = s.taps := by
  rw [refuse_eq]
@[simp] theorem refuse_closing : (refuse status id s).closing = s.closing := by
  rw [refuse_eq]
@[simp] theorem refuse_links : (refuse status id s).links = s.links := by
  rw [refuse_eq]
@[simp] theorem refuse_events : (refuse status id s).events = s.events := by
  rw [refuse_eq]
@[simp] theorem refuse_pending : (refuse status id s).pending = s.pending := by
  rw [refuse_eq]
end

/-- CANCEL GROUP reaches the schedule list and hands completions (R42). -/
theorem cancelGroups_eq (id : CmdId) (label : Half) (s : State) : cancelGroups id label s =
    { s with
      engine := (cancelGroups id label s).engine
      sched := (cancelGroups id label s).sched } := by
  unfold cancelGroups
  rw [handAll_eq]; rfl

section
variable (id : CmdId) (label : Half) (s : State)
@[simp] theorem cancelGroups_held : (cancelGroups id label s).held = s.held := by
  rw [cancelGroups_eq]
@[simp] theorem cancelGroups_frame : (cancelGroups id label s).frame = s.frame := by
  rw [cancelGroups_eq]
@[simp] theorem cancelGroups_core : (cancelGroups id label s).core = s.core := by
  rw [cancelGroups_eq]
@[simp] theorem cancelGroups_taps : (cancelGroups id label s).taps = s.taps := by
  rw [cancelGroups_eq]
@[simp] theorem cancelGroups_closing : (cancelGroups id label s).closing = s.closing := by
  rw [cancelGroups_eq]
@[simp] theorem cancelGroups_links : (cancelGroups id label s).links = s.links := by
  rw [cancelGroups_eq]
@[simp] theorem cancelGroups_events : (cancelGroups id label s).events = s.events := by
  rw [cancelGroups_eq]
@[simp] theorem cancelGroups_pending : (cancelGroups id label s).pending = s.pending := by
  rw [cancelGroups_eq]
end

/-- FENCE is the Ring Engine's (R44). -/
theorem takeFence_eq (id : CmdId) (u : Unit) (s : State) : takeFence id u s =
    { s with
      engine := (takeFence id u s).engine } := by
  unfold takeFence uncount
  simp only
  split
  · rw [post_eq]; rfl
  · rfl

section
variable (id : CmdId) (u : Unit) (s : State)
@[simp] theorem takeFence_held : (takeFence id u s).held = s.held := by
  rw [takeFence_eq]
@[simp] theorem takeFence_frame : (takeFence id u s).frame = s.frame := by
  rw [takeFence_eq]
@[simp] theorem takeFence_sched : (takeFence id u s).sched = s.sched := by
  rw [takeFence_eq]
@[simp] theorem takeFence_core : (takeFence id u s).core = s.core := by
  rw [takeFence_eq]
@[simp] theorem takeFence_taps : (takeFence id u s).taps = s.taps := by
  rw [takeFence_eq]
@[simp] theorem takeFence_closing : (takeFence id u s).closing = s.closing := by
  rw [takeFence_eq]
@[simp] theorem takeFence_links : (takeFence id u s).links = s.links := by
  rw [takeFence_eq]
@[simp] theorem takeFence_events : (takeFence id u s).events = s.events := by
  rw [takeFence_eq]
@[simp] theorem takeFence_pending : (takeFence id u s).pending = s.pending := by
  rw [takeFence_eq]
end

/-- READ ROUTE takes the slot or hands a completion (R20). -/
theorem readTaken_eq (id : CmdId) (f : ReadFields) (s : State) : readTaken id f s =
    { s with
      engine := (readTaken id f s).engine
      core := { s.core with slot := (readTaken id f s).core.slot } } := by
  unfold readTaken
  split
  · rw [hand_eq]; rfl
  · rfl

section
variable (id : CmdId) (f : ReadFields) (s : State)
@[simp] theorem readTaken_held : (readTaken id f s).held = s.held := by
  rw [readTaken_eq]
@[simp] theorem readTaken_frame : (readTaken id f s).frame = s.frame := by
  rw [readTaken_eq]
@[simp] theorem readTaken_sched : (readTaken id f s).sched = s.sched := by
  rw [readTaken_eq]
@[simp] theorem readTaken_routes : (readTaken id f s).core.routes = s.core.routes := by
  rw [readTaken_eq]
@[simp] theorem readTaken_free : (readTaken id f s).core.free = s.core.free := by
  rw [readTaken_eq]
@[simp] theorem readTaken_down : (readTaken id f s).core.down = s.core.down := by
  rw [readTaken_eq]
@[simp] theorem readTaken_taps : (readTaken id f s).taps = s.taps := by
  rw [readTaken_eq]
@[simp] theorem readTaken_closing : (readTaken id f s).closing = s.closing := by
  rw [readTaken_eq]
@[simp] theorem readTaken_links : (readTaken id f s).links = s.links := by
  rw [readTaken_eq]
@[simp] theorem readTaken_events : (readTaken id f s).events = s.events := by
  rw [readTaken_eq]
@[simp] theorem readTaken_pending : (readTaken id f s).pending = s.pending := by
  rw [readTaken_eq]
end

/-- READ ROUTE is taken or parked (R19). -/
theorem takeRead_eq (id : CmdId) (f : ReadFields) (s : State) : takeRead id f s =
    { s with
      engine := (takeRead id f s).engine
      core := { s.core with slot := (takeRead id f s).core.slot } } := by
  unfold takeRead
  split
  · rw [readTaken_eq]
  · rfl

section
variable (id : CmdId) (f : ReadFields) (s : State)
@[simp] theorem takeRead_held : (takeRead id f s).held = s.held := by
  rw [takeRead_eq]
@[simp] theorem takeRead_frame : (takeRead id f s).frame = s.frame := by
  rw [takeRead_eq]
@[simp] theorem takeRead_sched : (takeRead id f s).sched = s.sched := by
  rw [takeRead_eq]
@[simp] theorem takeRead_routes : (takeRead id f s).core.routes = s.core.routes := by
  rw [takeRead_eq]
@[simp] theorem takeRead_free : (takeRead id f s).core.free = s.core.free := by
  rw [takeRead_eq]
@[simp] theorem takeRead_down : (takeRead id f s).core.down = s.core.down := by
  rw [takeRead_eq]
@[simp] theorem takeRead_taps : (takeRead id f s).taps = s.taps := by
  rw [takeRead_eq]
@[simp] theorem takeRead_closing : (takeRead id f s).closing = s.closing := by
  rw [takeRead_eq]
@[simp] theorem takeRead_links : (takeRead id f s).links = s.links := by
  rw [takeRead_eq]
@[simp] theorem takeRead_events : (takeRead id f s).events = s.events := by
  rw [takeRead_eq]
@[simp] theorem takeRead_pending : (takeRead id f s).pending = s.pending := by
  rw [takeRead_eq]
end

/-- The end of a route record's write empties the slot (R20). -/
theorem finishRead_eq (r : ReadSlot) (s : State) : finishRead r s =
    { s with
      engine := (finishRead r s).engine
      core := { s.core with slot := (finishRead r s).core.slot } } := by
  unfold finishRead
  rw [hand_eq]; rfl

section
variable (r : ReadSlot) (s : State)
@[simp] theorem finishRead_held : (finishRead r s).held = s.held := by
  rw [finishRead_eq]
@[simp] theorem finishRead_frame : (finishRead r s).frame = s.frame := by
  rw [finishRead_eq]
@[simp] theorem finishRead_sched : (finishRead r s).sched = s.sched := by
  rw [finishRead_eq]
@[simp] theorem finishRead_routes : (finishRead r s).core.routes = s.core.routes := by
  rw [finishRead_eq]
@[simp] theorem finishRead_free : (finishRead r s).core.free = s.core.free := by
  rw [finishRead_eq]
@[simp] theorem finishRead_down : (finishRead r s).core.down = s.core.down := by
  rw [finishRead_eq]
@[simp] theorem finishRead_taps : (finishRead r s).taps = s.taps := by
  rw [finishRead_eq]
@[simp] theorem finishRead_closing : (finishRead r s).closing = s.closing := by
  rw [finishRead_eq]
@[simp] theorem finishRead_links : (finishRead r s).links = s.links := by
  rw [finishRead_eq]
@[simp] theorem finishRead_events : (finishRead r s).events = s.events := by
  rw [finishRead_eq]
@[simp] theorem finishRead_pending : (finishRead r s).pending = s.pending := by
  rw [finishRead_eq]
end

/-- A parked edit retried (R35). -/
theorem retryEdit_eq (s : State) : retryEdit s =
    { s with
      engine := (retryEdit s).engine
      sched := (retryEdit s).sched } := by
  unfold retryEdit unpark
  split
  · split
    · rw [takeEdit_eq]; rfl
    · rfl
  · rfl

section
variable (s : State)
@[simp] theorem retryEdit_held : (retryEdit s).held = s.held := by
  rw [retryEdit_eq]
@[simp] theorem retryEdit_frame : (retryEdit s).frame = s.frame := by
  rw [retryEdit_eq]
@[simp] theorem retryEdit_core : (retryEdit s).core = s.core := by
  rw [retryEdit_eq]
@[simp] theorem retryEdit_taps : (retryEdit s).taps = s.taps := by
  rw [retryEdit_eq]
@[simp] theorem retryEdit_closing : (retryEdit s).closing = s.closing := by
  rw [retryEdit_eq]
@[simp] theorem retryEdit_links : (retryEdit s).links = s.links := by
  rw [retryEdit_eq]
@[simp] theorem retryEdit_events : (retryEdit s).events = s.events := by
  rw [retryEdit_eq]
@[simp] theorem retryEdit_pending : (retryEdit s).pending = s.pending := by
  rw [retryEdit_eq]
end

/-- A parked READ ROUTE taken (R19). -/
theorem takeParkedRead_eq (s : State) : takeParkedRead s =
    { s with
      engine := (takeParkedRead s).engine
      core := { s.core with slot := (takeParkedRead s).core.slot } } := by
  unfold takeParkedRead unpark
  split
  · split
    · rw [readTaken_eq]; rfl
    · rfl
  · rfl

section
variable (s : State)
@[simp] theorem takeParkedRead_held : (takeParkedRead s).held = s.held := by
  rw [takeParkedRead_eq]
@[simp] theorem takeParkedRead_frame : (takeParkedRead s).frame = s.frame := by
  rw [takeParkedRead_eq]
@[simp] theorem takeParkedRead_sched : (takeParkedRead s).sched = s.sched := by
  rw [takeParkedRead_eq]
@[simp] theorem takeParkedRead_routes : (takeParkedRead s).core.routes = s.core.routes := by
  rw [takeParkedRead_eq]
@[simp] theorem takeParkedRead_free : (takeParkedRead s).core.free = s.core.free := by
  rw [takeParkedRead_eq]
@[simp] theorem takeParkedRead_down : (takeParkedRead s).core.down = s.core.down := by
  rw [takeParkedRead_eq]
@[simp] theorem takeParkedRead_taps : (takeParkedRead s).taps = s.taps := by
  rw [takeParkedRead_eq]
@[simp] theorem takeParkedRead_closing : (takeParkedRead s).closing = s.closing := by
  rw [takeParkedRead_eq]
@[simp] theorem takeParkedRead_links : (takeParkedRead s).links = s.links := by
  rw [takeParkedRead_eq]
@[simp] theorem takeParkedRead_events : (takeParkedRead s).events = s.events := by
  rw [takeParkedRead_eq]
@[simp] theorem takeParkedRead_pending : (takeParkedRead s).pending = s.pending := by
  rw [takeParkedRead_eq]
end

/-- A parked FENCE released (R44). -/
theorem releaseFence_eq (s : State) : releaseFence s =
    { s with
      engine := (releaseFence s).engine } := by
  unfold releaseFence unpark
  split
  · split
    · rw [post_eq]; rfl
    · rfl
  · rfl

section
variable (s : State)
@[simp] theorem releaseFence_held : (releaseFence s).held = s.held := by
  rw [releaseFence_eq]
@[simp] theorem releaseFence_frame : (releaseFence s).frame = s.frame := by
  rw [releaseFence_eq]
@[simp] theorem releaseFence_sched : (releaseFence s).sched = s.sched := by
  rw [releaseFence_eq]
@[simp] theorem releaseFence_core : (releaseFence s).core = s.core := by
  rw [releaseFence_eq]
@[simp] theorem releaseFence_taps : (releaseFence s).taps = s.taps := by
  rw [releaseFence_eq]
@[simp] theorem releaseFence_closing : (releaseFence s).closing = s.closing := by
  rw [releaseFence_eq]
@[simp] theorem releaseFence_links : (releaseFence s).links = s.links := by
  rw [releaseFence_eq]
@[simp] theorem releaseFence_events : (releaseFence s).events = s.events := by
  rw [releaseFence_eq]
@[simp] theorem releaseFence_pending : (releaseFence s).pending = s.pending := by
  rw [releaseFence_eq]
end

/-- Whatever is parked proceeds if it can. -/
theorem releaseParked_eq (s : State) : releaseParked s =
    { s with
      engine := (releaseParked s).engine
      sched := (releaseParked s).sched
      core := { s.core with slot := (releaseParked s).core.slot } } := by
  unfold releaseParked
  rw [releaseFence_eq, takeParkedRead_eq, retryEdit_eq]

section
variable (s : State)
@[simp] theorem releaseParked_held : (releaseParked s).held = s.held := by
  rw [releaseParked_eq]
@[simp] theorem releaseParked_frame : (releaseParked s).frame = s.frame := by
  rw [releaseParked_eq]
@[simp] theorem releaseParked_routes : (releaseParked s).core.routes = s.core.routes := by
  rw [releaseParked_eq]
@[simp] theorem releaseParked_free : (releaseParked s).core.free = s.core.free := by
  rw [releaseParked_eq]
@[simp] theorem releaseParked_down : (releaseParked s).core.down = s.core.down := by
  rw [releaseParked_eq]
@[simp] theorem releaseParked_taps : (releaseParked s).taps = s.taps := by
  rw [releaseParked_eq]
@[simp] theorem releaseParked_closing : (releaseParked s).closing = s.closing := by
  rw [releaseParked_eq]
@[simp] theorem releaseParked_links : (releaseParked s).links = s.links := by
  rw [releaseParked_eq]
@[simp] theorem releaseParked_events : (releaseParked s).events = s.events := by
  rw [releaseParked_eq]
@[simp] theorem releaseParked_pending : (releaseParked s).pending = s.pending := by
  rw [releaseParked_eq]
end

/-! ## The stop -/

/-- The assembly group aborted (R163). -/
theorem abortAssembly_eq (s : State) : abortAssembly s =
    { s with
      engine := (abortAssembly s).engine
      sched := (abortAssembly s).sched } := by
  unfold abortAssembly
  split
  · rfl
  · rw [handAll_eq]; rfl

section
variable (s : State)
@[simp] theorem abortAssembly_held : (abortAssembly s).held = s.held := by
  rw [abortAssembly_eq]
@[simp] theorem abortAssembly_frame : (abortAssembly s).frame = s.frame := by
  rw [abortAssembly_eq]
@[simp] theorem abortAssembly_core : (abortAssembly s).core = s.core := by
  rw [abortAssembly_eq]
@[simp] theorem abortAssembly_taps : (abortAssembly s).taps = s.taps := by
  rw [abortAssembly_eq]
@[simp] theorem abortAssembly_closing : (abortAssembly s).closing = s.closing := by
  rw [abortAssembly_eq]
@[simp] theorem abortAssembly_links : (abortAssembly s).links = s.links := by
  rw [abortAssembly_eq]
@[simp] theorem abortAssembly_events : (abortAssembly s).events = s.events := by
  rw [abortAssembly_eq]
@[simp] theorem abortAssembly_pending : (abortAssembly s).pending = s.pending := by
  rw [abortAssembly_eq]
end

/-- The parked command aborted (R163). -/
theorem abortParked_eq (s : State) : abortParked s =
    { s with
      engine := (abortParked s).engine } := by
  unfold abortParked unpark
  split <;> simp only [hand_eq, post_eq] <;> rfl

section
variable (s : State)
@[simp] theorem abortParked_held : (abortParked s).held = s.held := by
  rw [abortParked_eq]
@[simp] theorem abortParked_frame : (abortParked s).frame = s.frame := by
  rw [abortParked_eq]
@[simp] theorem abortParked_sched : (abortParked s).sched = s.sched := by
  rw [abortParked_eq]
@[simp] theorem abortParked_core : (abortParked s).core = s.core := by
  rw [abortParked_eq]
@[simp] theorem abortParked_taps : (abortParked s).taps = s.taps := by
  rw [abortParked_eq]
@[simp] theorem abortParked_closing : (abortParked s).closing = s.closing := by
  rw [abortParked_eq]
@[simp] theorem abortParked_links : (abortParked s).links = s.links := by
  rw [abortParked_eq]
@[simp] theorem abortParked_events : (abortParked s).events = s.events := by
  rw [abortParked_eq]
@[simp] theorem abortParked_pending : (abortParked s).pending = s.pending := by
  rw [abortParked_eq]
end

/-- The end of a stop (R163). -/
theorem stopIfDue_eq (s : State) : stopIfDue s =
    { s with
      engine := (stopIfDue s).engine
      sched := (stopIfDue s).sched
      core := { s.core with slot := (stopIfDue s).core.slot } } := by
  unfold stopIfDue endStop
  split
  · simp only
    rw [abortParked_eq, abortAssembly_eq, releaseParked_eq]; rfl
  · rfl

section
variable (s : State)
@[simp] theorem stopIfDue_held : (stopIfDue s).held = s.held := by
  rw [stopIfDue_eq]
@[simp] theorem stopIfDue_frame : (stopIfDue s).frame = s.frame := by
  rw [stopIfDue_eq]
@[simp] theorem stopIfDue_routes : (stopIfDue s).core.routes = s.core.routes := by
  rw [stopIfDue_eq]
@[simp] theorem stopIfDue_free : (stopIfDue s).core.free = s.core.free := by
  rw [stopIfDue_eq]
@[simp] theorem stopIfDue_down : (stopIfDue s).core.down = s.core.down := by
  rw [stopIfDue_eq]
@[simp] theorem stopIfDue_taps : (stopIfDue s).taps = s.taps := by
  rw [stopIfDue_eq]
@[simp] theorem stopIfDue_closing : (stopIfDue s).closing = s.closing := by
  rw [stopIfDue_eq]
@[simp] theorem stopIfDue_links : (stopIfDue s).links = s.links := by
  rw [stopIfDue_eq]
@[simp] theorem stopIfDue_events : (stopIfDue s).events = s.events := by
  rw [stopIfDue_eq]
@[simp] theorem stopIfDue_pending : (stopIfDue s).pending = s.pending := by
  rw [stopIfDue_eq]
end

/-! ## Taps -/

/-- The start of a tap's write (R61). -/
theorem startWrite_eq (n : TapId) (s : State) : startWrite n s =
    { s with
      taps := (startWrite n s).taps } := by
  unfold startWrite
  split <;> rfl

section
variable (n : TapId) (s : State)
@[simp] theorem startWrite_held : (startWrite n s).held = s.held := by
  rw [startWrite_eq]
@[simp] theorem startWrite_frame : (startWrite n s).frame = s.frame := by
  rw [startWrite_eq]
@[simp] theorem startWrite_engine : (startWrite n s).engine = s.engine := by
  rw [startWrite_eq]
@[simp] theorem startWrite_sched : (startWrite n s).sched = s.sched := by
  rw [startWrite_eq]
@[simp] theorem startWrite_core : (startWrite n s).core = s.core := by
  rw [startWrite_eq]
@[simp] theorem startWrite_closing : (startWrite n s).closing = s.closing := by
  rw [startWrite_eq]
@[simp] theorem startWrite_links : (startWrite n s).links = s.links := by
  rw [startWrite_eq]
@[simp] theorem startWrite_events : (startWrite n s).events = s.events := by
  rw [startWrite_eq]
@[simp] theorem startWrite_pending : (startWrite n s).pending = s.pending := by
  rw [startWrite_eq]
end

/-- The start of a tap's read (R62). -/
theorem startTapRead_eq (n : TapId) (s : State) : startTapRead n s =
    { s with
      taps := (startTapRead n s).taps } := by
  unfold startTapRead
  split <;> rfl

section
variable (n : TapId) (s : State)
@[simp] theorem startTapRead_held : (startTapRead n s).held = s.held := by
  rw [startTapRead_eq]
@[simp] theorem startTapRead_frame : (startTapRead n s).frame = s.frame := by
  rw [startTapRead_eq]
@[simp] theorem startTapRead_engine : (startTapRead n s).engine = s.engine := by
  rw [startTapRead_eq]
@[simp] theorem startTapRead_sched : (startTapRead n s).sched = s.sched := by
  rw [startTapRead_eq]
@[simp] theorem startTapRead_core : (startTapRead n s).core = s.core := by
  rw [startTapRead_eq]
@[simp] theorem startTapRead_closing : (startTapRead n s).closing = s.closing := by
  rw [startTapRead_eq]
@[simp] theorem startTapRead_links : (startTapRead n s).links = s.links := by
  rw [startTapRead_eq]
@[simp] theorem startTapRead_events : (startTapRead n s).events = s.events := by
  rw [startTapRead_eq]
@[simp] theorem startTapRead_pending : (startTapRead n s).pending = s.pending := by
  rw [startTapRead_eq]
end

/-- The starts of a tap's transfers (R61, R62). -/
theorem startTapTransfers_eq (n : TapId) (s : State) : startTapTransfers n s =
    { s with
      taps := (startTapTransfers n s).taps } := by
  unfold startTapTransfers
  rw [startTapRead_eq, startWrite_eq]

section
variable (n : TapId) (s : State)
@[simp] theorem startTapTransfers_held : (startTapTransfers n s).held = s.held := by
  rw [startTapTransfers_eq]
@[simp] theorem startTapTransfers_frame : (startTapTransfers n s).frame = s.frame := by
  rw [startTapTransfers_eq]
@[simp] theorem startTapTransfers_engine : (startTapTransfers n s).engine = s.engine := by
  rw [startTapTransfers_eq]
@[simp] theorem startTapTransfers_sched : (startTapTransfers n s).sched = s.sched := by
  rw [startTapTransfers_eq]
@[simp] theorem startTapTransfers_core : (startTapTransfers n s).core = s.core := by
  rw [startTapTransfers_eq]
@[simp] theorem startTapTransfers_closing : (startTapTransfers n s).closing = s.closing := by
  rw [startTapTransfers_eq]
@[simp] theorem startTapTransfers_links : (startTapTransfers n s).links = s.links := by
  rw [startTapTransfers_eq]
@[simp] theorem startTapTransfers_events : (startTapTransfers n s).events = s.events := by
  rw [startTapTransfers_eq]
@[simp] theorem startTapTransfers_pending : (startTapTransfers n s).pending = s.pending := by
  rw [startTapTransfers_eq]
end

/-- Closed taps return their buffers (R52). -/
theorem settleClosing_eq (s : State) : settleClosing s =
    { s with
      engine := (settleClosing s).engine
      closing := (settleClosing s).closing } := by
  unfold settleClosing
  simp only
  rw [handAll_eq]; rfl

section
variable (s : State)
@[simp] theorem settleClosing_held : (settleClosing s).held = s.held := by
  rw [settleClosing_eq]
@[simp] theorem settleClosing_frame : (settleClosing s).frame = s.frame := by
  rw [settleClosing_eq]
@[simp] theorem settleClosing_sched : (settleClosing s).sched = s.sched := by
  rw [settleClosing_eq]
@[simp] theorem settleClosing_core : (settleClosing s).core = s.core := by
  rw [settleClosing_eq]
@[simp] theorem settleClosing_taps : (settleClosing s).taps = s.taps := by
  rw [settleClosing_eq]
@[simp] theorem settleClosing_links : (settleClosing s).links = s.links := by
  rw [settleClosing_eq]
@[simp] theorem settleClosing_events : (settleClosing s).events = s.events := by
  rw [settleClosing_eq]
@[simp] theorem settleClosing_pending : (settleClosing s).pending = s.pending := by
  rw [settleClosing_eq]
end

/-- The end of a tap's write (R52, R61). -/
theorem finishWrite_eq (n : TapId) (s : State) : finishWrite n s =
    { s with
      engine := (finishWrite n s).engine
      taps := (finishWrite n s).taps
      closing := (finishWrite n s).closing } := by
  unfold finishWrite
  simp only
  split
  · rw [settleClosing_eq, handAll_eq]; rfl
  · rw [handAll_eq]; rfl

section
variable (n : TapId) (s : State)
@[simp] theorem finishWrite_held : (finishWrite n s).held = s.held := by
  rw [finishWrite_eq]
@[simp] theorem finishWrite_frame : (finishWrite n s).frame = s.frame := by
  rw [finishWrite_eq]
@[simp] theorem finishWrite_sched : (finishWrite n s).sched = s.sched := by
  rw [finishWrite_eq]
@[simp] theorem finishWrite_core : (finishWrite n s).core = s.core := by
  rw [finishWrite_eq]
@[simp] theorem finishWrite_links : (finishWrite n s).links = s.links := by
  rw [finishWrite_eq]
@[simp] theorem finishWrite_events : (finishWrite n s).events = s.events := by
  rw [finishWrite_eq]
@[simp] theorem finishWrite_pending : (finishWrite n s).pending = s.pending := by
  rw [finishWrite_eq]
end

/-- CREDIT TAP reaches its tap and hands what follows (R54). -/
theorem takeCreditTap_eq (id : CmdId) (f : CreditFields) (s : State) : takeCreditTap id f s =
    { s with
      engine := (takeCreditTap id f s).engine
      taps := (takeCreditTap id f s).taps
      events := (takeCreditTap id f s).events } := by
  unfold takeCreditTap
  simp only
  rw [emit_eq]; rfl

section
variable (id : CmdId) (f : CreditFields) (s : State)
@[simp] theorem takeCreditTap_held : (takeCreditTap id f s).held = s.held := by
  rw [takeCreditTap_eq]
@[simp] theorem takeCreditTap_frame : (takeCreditTap id f s).frame = s.frame := by
  rw [takeCreditTap_eq]
@[simp] theorem takeCreditTap_sched : (takeCreditTap id f s).sched = s.sched := by
  rw [takeCreditTap_eq]
@[simp] theorem takeCreditTap_core : (takeCreditTap id f s).core = s.core := by
  rw [takeCreditTap_eq]
@[simp] theorem takeCreditTap_closing : (takeCreditTap id f s).closing = s.closing := by
  rw [takeCreditTap_eq]
@[simp] theorem takeCreditTap_links : (takeCreditTap id f s).links = s.links := by
  rw [takeCreditTap_eq]
@[simp] theorem takeCreditTap_pending : (takeCreditTap id f s).pending = s.pending := by
  rw [takeCreditTap_eq]
end

/-! ## Posting -/

/-- The start of a completion's write (R144). -/
theorem startCompletion_eq (s : State) : startCompletion s =
    { s with
      engine := (startCompletion s).engine } := by
  unfold startCompletion
  split
  · rfl
  · split <;> rfl

section
variable (s : State)
@[simp] theorem startCompletion_held : (startCompletion s).held = s.held := by
  rw [startCompletion_eq]
@[simp] theorem startCompletion_frame : (startCompletion s).frame = s.frame := by
  rw [startCompletion_eq]
@[simp] theorem startCompletion_sched : (startCompletion s).sched = s.sched := by
  rw [startCompletion_eq]
@[simp] theorem startCompletion_core : (startCompletion s).core = s.core := by
  rw [startCompletion_eq]
@[simp] theorem startCompletion_taps : (startCompletion s).taps = s.taps := by
  rw [startCompletion_eq]
@[simp] theorem startCompletion_closing : (startCompletion s).closing = s.closing := by
  rw [startCompletion_eq]
@[simp] theorem startCompletion_links : (startCompletion s).links = s.links := by
  rw [startCompletion_eq]
@[simp] theorem startCompletion_events : (startCompletion s).events = s.events := by
  rw [startCompletion_eq]
@[simp] theorem startCompletion_pending : (startCompletion s).pending = s.pending := by
  rw [startCompletion_eq]
end

/-- The start of an event's write (R153). -/
theorem startEvent_eq (s : State) : startEvent s =
    { s with
      events := (startEvent s).events } := by
  unfold startEvent
  split <;> rfl

section
variable (s : State)
@[simp] theorem startEvent_held : (startEvent s).held = s.held := by
  rw [startEvent_eq]
@[simp] theorem startEvent_frame : (startEvent s).frame = s.frame := by
  rw [startEvent_eq]
@[simp] theorem startEvent_engine : (startEvent s).engine = s.engine := by
  rw [startEvent_eq]
@[simp] theorem startEvent_sched : (startEvent s).sched = s.sched := by
  rw [startEvent_eq]
@[simp] theorem startEvent_core : (startEvent s).core = s.core := by
  rw [startEvent_eq]
@[simp] theorem startEvent_taps : (startEvent s).taps = s.taps := by
  rw [startEvent_eq]
@[simp] theorem startEvent_closing : (startEvent s).closing = s.closing := by
  rw [startEvent_eq]
@[simp] theorem startEvent_links : (startEvent s).links = s.links := by
  rw [startEvent_eq]
@[simp] theorem startEvent_pending : (startEvent s).pending = s.pending := by
  rw [startEvent_eq]
end

/-- The start of a message's write (R154). -/
theorem startMessage_eq (s : State) : startMessage s =
    { s with
      events := (startMessage s).events } := by
  unfold startMessage serveMessage
  split
  · split <;> rfl
  · rfl

section
variable (s : State)
@[simp] theorem startMessage_held : (startMessage s).held = s.held := by
  rw [startMessage_eq]
@[simp] theorem startMessage_frame : (startMessage s).frame = s.frame := by
  rw [startMessage_eq]
@[simp] theorem startMessage_engine : (startMessage s).engine = s.engine := by
  rw [startMessage_eq]
@[simp] theorem startMessage_sched : (startMessage s).sched = s.sched := by
  rw [startMessage_eq]
@[simp] theorem startMessage_core : (startMessage s).core = s.core := by
  rw [startMessage_eq]
@[simp] theorem startMessage_taps : (startMessage s).taps = s.taps := by
  rw [startMessage_eq]
@[simp] theorem startMessage_closing : (startMessage s).closing = s.closing := by
  rw [startMessage_eq]
@[simp] theorem startMessage_links : (startMessage s).links = s.links := by
  rw [startMessage_eq]
@[simp] theorem startMessage_pending : (startMessage s).pending = s.pending := by
  rw [startMessage_eq]
end

/-- The end of an event's write (R150, R154). -/
theorem eventPosted_eq (w : EventWrite) (s : State) : eventPosted w s =
    { s with
      links := (eventPosted w s).links
      events := (eventPosted w s).events } := by
  unfold eventPosted deliver
  cases w <;> rfl

section
variable (w : EventWrite) (s : State)
@[simp] theorem eventPosted_held : (eventPosted w s).held = s.held := by
  rw [eventPosted_eq]
@[simp] theorem eventPosted_frame : (eventPosted w s).frame = s.frame := by
  rw [eventPosted_eq]
@[simp] theorem eventPosted_engine : (eventPosted w s).engine = s.engine := by
  rw [eventPosted_eq]
@[simp] theorem eventPosted_sched : (eventPosted w s).sched = s.sched := by
  rw [eventPosted_eq]
@[simp] theorem eventPosted_core : (eventPosted w s).core = s.core := by
  rw [eventPosted_eq]
@[simp] theorem eventPosted_taps : (eventPosted w s).taps = s.taps := by
  rw [eventPosted_eq]
@[simp] theorem eventPosted_closing : (eventPosted w s).closing = s.closing := by
  rw [eventPosted_eq]
@[simp] theorem eventPosted_pending : (eventPosted w s).pending = s.pending := by
  rw [eventPosted_eq]
end

/-! ## Frames -/

/-- What is handed on does not look at the links. -/
theorem withLinks_emit (es : List Effect) (s : State) (t : Table 8 Link) :
    (emit es s).withLinks t = emit es (s.withLinks t) := by
  induction es generalizing s with
  | nil => rfl
  | cons e es ih =>
    rw [emit_cons, emit_cons, ih]
    cases e with
    | complete c => rw [give, give, hand_eq, hand_eq]; rfl
    | event b =>
      congr 1
      show (if (canStartEvent s && s.events.quietSet) = true then _ else _ : State).withLinks t =
        if (canStartEvent s && s.events.quietSet) = true then _ else _
      split <;> rfl

/-- A step at several links: each takes it as it stands, and what they hand is handed in their order. -/
theorem foldLinks_eq (l : List LinkId) (f : LinkId → Link → LinkStep) (s : State) (hl : l.Nodup) :
    l.foldl (fun t n => t.onLink n (f n)) s =
      emit (l.flatMap fun n => (f n (s.links.get n)).2)
        (s.withLinks (Table.ofFn fun n => if n ∈ l then (f n (s.links.get n)).1 else s.links.get n)) := by
  induction l generalizing s with
  | nil =>
    have : (Table.ofFn fun n => if n ∈ ([] : List LinkId) then (f n (s.links.get n)).1
        else s.links.get n) = s.links := Table.ext_get fun i => by simp
    rw [this]; rfl
  | cons m l ih =>
    have hm := (List.nodup_cons.mp hl).1
    have rest : (l.flatMap fun n => (f n ((s.links.set m (f m (s.links.get m)).1).get n)).2) =
        l.flatMap fun n => (f n (s.links.get n)).2 := by
      apply List.flatMap_congr
      intro n hn
      rw [Table.get_set_other _ _ fun (h : m = n) => hm (h ▸ hn)]
    have first : s.onLink m (f m) = emit (f m (s.links.get m)).2
        (s.withLinks (s.links.set m (f m (s.links.get m)).1)) := rfl
    rw [List.foldl_cons, ih _ (List.nodup_cons.mp hl).2, onLink_links, List.flatMap_cons, emit_append,
      rest, first, withLinks_emit, withLinks_twice]
    congr 3
    apply Table.ext_get
    intro i
    rw [Table.get_ofFn, Table.get_ofFn]
    by_cases h : i = m
    · subst h; simp [hm]
    · rw [Table.get_set_other _ _ (Ne.symm h)]; simp [h]

/-- The same step at every link: what it leaves, and what it hands, link 0 first. -/
theorem eachLink_eq (f : LinkId → Link → LinkStep) (s : State) :
    eachLink f s = emit ((List.finRange 8).flatMap fun n => (f n (s.links.get n)).2)
      (s.withLinks (Table.ofFn fun n => (f n (s.links.get n)).1)) := by
  unfold eachLink
  rw [foldLinks_eq _ _ _ (List.nodup_finRange 8)]
  simp only [List.mem_finRange, if_true]

section
variable (f : LinkId → Link → LinkStep) (s : State)
@[simp] theorem eachLink_held : (eachLink f s).held = s.held :=
  foldl_same State.held _ (fun t n => onLink_held t n (f n)) _ _
@[simp] theorem eachLink_frame : (eachLink f s).frame = s.frame :=
  foldl_same State.frame _ (fun t n => onLink_frame t n (f n)) _ _
@[simp] theorem eachLink_sched : (eachLink f s).sched = s.sched :=
  foldl_same State.sched _ (fun t n => onLink_sched t n (f n)) _ _
@[simp] theorem eachLink_core : (eachLink f s).core = s.core :=
  foldl_same State.core _ (fun t n => onLink_core t n (f n)) _ _
@[simp] theorem eachLink_taps : (eachLink f s).taps = s.taps :=
  foldl_same State.taps _ (fun t n => onLink_taps t n (f n)) _ _
@[simp] theorem eachLink_closing : (eachLink f s).closing = s.closing :=
  foldl_same State.closing _ (fun t n => onLink_closing t n (f n)) _ _
@[simp] theorem eachLink_pending : (eachLink f s).pending = s.pending :=
  foldl_same State.pending _ (fun t n => onLink_pending t n (f n)) _ _
@[simp] theorem eachLink_post : (eachLink f s).events.post = s.events.post :=
  foldl_same (fun t : State => t.events.post) _ (fun t n => onLink_post t n (f n)) _ _
end

section
variable (f : TapId → State → State) (s : State)
@[simp] theorem eachTapTransfer_held : (eachTap startTapTransfers s).held = s.held :=
  foldl_same State.held _ (fun t n => startTapTransfers_held n t) _ _
@[simp] theorem eachTapTransfer_frame : (eachTap startTapTransfers s).frame = s.frame :=
  foldl_same State.frame _ (fun t n => startTapTransfers_frame n t) _ _
@[simp] theorem eachTapTransfer_engine : (eachTap startTapTransfers s).engine = s.engine :=
  foldl_same State.engine _ (fun t n => startTapTransfers_engine n t) _ _
@[simp] theorem eachTapTransfer_sched : (eachTap startTapTransfers s).sched = s.sched :=
  foldl_same State.sched _ (fun t n => startTapTransfers_sched n t) _ _
@[simp] theorem eachTapTransfer_core : (eachTap startTapTransfers s).core = s.core :=
  foldl_same State.core _ (fun t n => startTapTransfers_core n t) _ _
@[simp] theorem eachTapTransfer_closing : (eachTap startTapTransfers s).closing = s.closing :=
  foldl_same State.closing _ (fun t n => startTapTransfers_closing n t) _ _
@[simp] theorem eachTapTransfer_links : (eachTap startTapTransfers s).links = s.links :=
  foldl_same State.links _ (fun t n => startTapTransfers_links n t) _ _
@[simp] theorem eachTapTransfer_events : (eachTap startTapTransfers s).events = s.events :=
  foldl_same State.events _ (fun t n => startTapTransfers_events n t) _ _
@[simp] theorem eachTapTransfer_pending : (eachTap startTapTransfers s).pending = s.pending :=
  foldl_same State.pending _ (fun t n => startTapTransfers_pending n t) _ _
end

section
variable (s : State)
@[simp] theorem catchUp_held : (catchUp s).held = s.held := by
  unfold catchUp; simp
@[simp] theorem catchUp_frame : (catchUp s).frame = s.frame := by
  unfold catchUp; simp
@[simp] theorem catchUp_closing : (catchUp s).closing = s.closing := by
  unfold catchUp; simp
@[simp] theorem catchUp_pending : (catchUp s).pending = s.pending := by
  unfold catchUp; simp
@[simp] theorem catchUp_routes : (catchUp s).core.routes = s.core.routes := by
  unfold catchUp; simp
@[simp] theorem catchUp_free : (catchUp s).core.free = s.core.free := by
  unfold catchUp; simp
@[simp] theorem catchUp_down : (catchUp s).core.down = s.core.down := by
  unfold catchUp; simp
end

/-- A cut-over reaches the routes, the pool, the taps and the closed taps, and hands completions (R38, R39). -/
theorem cutGroup_eq (s : State) (g : Group) : cutGroup s g =
    { s with
      engine := (cutGroup s g).engine
      core := (cutGroup s g).core
      taps := (cutGroup s g).taps
      closing := (cutGroup s g).closing } := by
  unfold cutGroup
  split
  · rw [handAll_eq]; rfl
  · rw [settleClosing_eq]; rfl

section
variable (s : State) (g : Group)
@[simp] theorem cutGroup_held : (cutGroup s g).held = s.held := by
  rw [cutGroup_eq]
@[simp] theorem cutGroup_frame : (cutGroup s g).frame = s.frame := by
  rw [cutGroup_eq]
@[simp] theorem cutGroup_sched : (cutGroup s g).sched = s.sched := by
  rw [cutGroup_eq]
@[simp] theorem cutGroup_links : (cutGroup s g).links = s.links := by
  rw [cutGroup_eq]
@[simp] theorem cutGroup_events : (cutGroup s g).events = s.events := by
  rw [cutGroup_eq]
@[simp] theorem cutGroup_pending : (cutGroup s g).pending = s.pending := by
  rw [cutGroup_eq]
end

@[simp] theorem cutGroup_slot (s : State) (g : Group) : (cutGroup s g).core.slot = s.core.slot := by
  unfold cutGroup
  split
  · rw [handAll_eq]; rfl
  · rw [settleClosing_core]; rfl

@[simp] theorem cutGroup_down (s : State) (g : Group) : (cutGroup s g).core.down = s.core.down := by
  unfold cutGroup
  split
  · rw [handAll_eq]; rfl
  · rw [settleClosing_core]; rfl

section
variable (s : State)
@[simp] theorem cutOver_held : (cutOver s).held = s.held :=
  foldl_same State.held _ cutGroup_held _ _
@[simp] theorem startSchedule_held : (startSchedule s).held = s.held := by
  unfold startSchedule; split <;> simp
@[simp] theorem cutOver_frame : (cutOver s).frame = s.frame :=
  foldl_same State.frame _ cutGroup_frame _ _
@[simp] theorem startSchedule_frame : (startSchedule s).frame = s.frame := by
  unfold startSchedule; split <;> simp
@[simp] theorem cutOver_links : (cutOver s).links = s.links :=
  foldl_same State.links _ cutGroup_links _ _
@[simp] theorem startSchedule_links : (startSchedule s).links = s.links := by
  unfold startSchedule; split <;> simp
@[simp] theorem cutOver_events : (cutOver s).events = s.events :=
  foldl_same State.events _ cutGroup_events _ _
@[simp] theorem startSchedule_events : (startSchedule s).events = s.events := by
  unfold startSchedule; split <;> simp
@[simp] theorem cutOver_pending : (cutOver s).pending = s.pending :=
  foldl_same State.pending _ cutGroup_pending _ _
@[simp] theorem startSchedule_pending : (startSchedule s).pending = s.pending := by
  unfold startSchedule; split <;> simp
@[simp] theorem cutOver_slot : (cutOver s).core.slot = s.core.slot :=
  foldl_same (fun t : State => t.core.slot) _ cutGroup_slot _ _
@[simp] theorem cutOver_down : (cutOver s).core.down = s.core.down :=
  foldl_same (fun t : State => t.core.down) _ cutGroup_down _ _
/-- The groups that stay in the list at a frame start are those that are not due (R37). -/
@[simp] theorem cutOver_sched : (cutOver s).sched =
    { s.sched with list := s.sched.list.filter fun g => !(g.due == s.frame) } :=
  foldl_same State.sched _ cutGroup_sched _ _
end

/-- The taps' frame is the taps' own but for what it hands on and a halt (R59 to R62). -/
theorem runTaps_cases (s : State) :
    ∃ t, t = emit ((tapSteps s).flatMap fun p => p.1.2)
        (s.withTaps (Table.ofFn fun n =>
          (tapFrame n (givenSample s (s.taps.get n)) (s.taps.get n)).1.1)) ∧
      (runTaps s = t ∨ runTaps s = halt .tapError t) := by
  refine ⟨_, rfl, ?_⟩
  unfold runTaps
  simp only
  split
  · exact .inr rfl
  · exact .inl rfl

section
variable (s : State)
@[simp] theorem runTaps_held : (runTaps s).held = s.held := by
  obtain ⟨t, rfl, h | h⟩ := runTaps_cases s <;> rw [h] <;> simp
@[simp] theorem startTaps_held : (startTaps s).held = s.held := by
  unfold startTaps; split <;> simp
@[simp] theorem runTaps_frame : (runTaps s).frame = s.frame := by
  obtain ⟨t, rfl, h | h⟩ := runTaps_cases s <;> rw [h] <;> simp
@[simp] theorem startTaps_frame : (startTaps s).frame = s.frame := by
  unfold startTaps; split <;> simp
@[simp] theorem runTaps_sched : (runTaps s).sched = s.sched := by
  obtain ⟨t, rfl, h | h⟩ := runTaps_cases s <;> rw [h] <;> simp
@[simp] theorem startTaps_sched : (startTaps s).sched = s.sched := by
  unfold startTaps; split <;> simp
@[simp] theorem runTaps_closing : (runTaps s).closing = s.closing := by
  obtain ⟨t, rfl, h | h⟩ := runTaps_cases s <;> rw [h] <;> simp
@[simp] theorem startTaps_closing : (startTaps s).closing = s.closing := by
  unfold startTaps; split <;> simp
@[simp] theorem runTaps_links : (runTaps s).links = s.links := by
  obtain ⟨t, rfl, h | h⟩ := runTaps_cases s <;> rw [h] <;> simp
@[simp] theorem startTaps_links : (startTaps s).links = s.links := by
  unfold startTaps; split <;> simp
@[simp] theorem runTaps_pending : (runTaps s).pending = s.pending := by
  obtain ⟨t, rfl, h | h⟩ := runTaps_cases s <;> rw [h] <;> simp
@[simp] theorem startTaps_pending : (startTaps s).pending = s.pending := by
  unfold startTaps; split <;> simp
@[simp] theorem runTaps_routes : (runTaps s).core.routes = s.core.routes := by
  obtain ⟨t, rfl, h | h⟩ := runTaps_cases s <;> rw [h] <;> simp
@[simp] theorem startTaps_routes : (startTaps s).core.routes = s.core.routes := by
  unfold startTaps; split <;> simp
@[simp] theorem runTaps_free : (runTaps s).core.free = s.core.free := by
  obtain ⟨t, rfl, h | h⟩ := runTaps_cases s <;> rw [h] <;> simp
@[simp] theorem startTaps_free : (startTaps s).core.free = s.core.free := by
  unfold startTaps; split <;> simp
@[simp] theorem runTaps_down : (runTaps s).core.down = s.core.down := by
  obtain ⟨t, rfl, h | h⟩ := runTaps_cases s <;> rw [h] <;> simp
@[simp] theorem startTaps_down : (startTaps s).core.down = s.core.down := by
  unfold startTaps; split <;> simp
end

/-! ## What the host wrote, and the positions -/

/-- The Ring Engine keeps the enables, the ring configuration, the host indices and its own positions. -/
structure RingsKept (e f : RingEngine) : Prop where
  cie : f.cie = e.cie
  eie : f.eie = e.eie
  hie : f.hie = e.hie
  cfgIgnored : f.cfgIgnored = e.cfgIgnored
  baseA : f.baseA = e.baseA
  baseB : f.baseB = e.baseB
  baseComp : f.baseComp = e.baseComp
  baseEvent : f.baseEvent = e.baseEvent
  prodA : f.prodA = e.prodA
  prodB : f.prodB = e.prodB
  consComp : f.consComp = e.consComp
  consEvent : f.consEvent = e.consEvent
  fetchA : f.fetchA = e.fetchA
  fetchB : f.fetchB = e.fetchB
  postComp : f.postComp = e.postComp

theorem RingsKept.rfl {e : RingEngine} : RingsKept e e := by constructor <;> exact Eq.refl _

theorem RingsKept.trans {e f g : RingEngine} (h : RingsKept e f) (k : RingsKept f g) : RingsKept e g where
  cie := k.cie.trans h.cie
  eie := k.eie.trans h.eie
  hie := k.hie.trans h.hie
  cfgIgnored := k.cfgIgnored.trans h.cfgIgnored
  baseA := k.baseA.trans h.baseA
  baseB := k.baseB.trans h.baseB
  baseComp := k.baseComp.trans h.baseComp
  baseEvent := k.baseEvent.trans h.baseEvent
  prodA := k.prodA.trans h.prodA
  prodB := k.prodB.trans h.prodB
  consComp := k.consComp.trans h.consComp
  consEvent := k.consEvent.trans h.consEvent
  fetchA := k.fetchA.trans h.fetchA
  fetchB := k.fetchB.trans h.fetchB
  postComp := k.postComp.trans h.postComp

theorem handed_rings (e : RingEngine) (cs : List Completion) : RingsKept e (e.handed cs) := by
  constructor <;> exact Eq.refl _

theorem startFetch_rings (s : State) : RingsKept s.engine (startFetch s).engine := by
  unfold startFetch
  split
  · split
    · exact .rfl
    · constructor <;> exact Eq.refl _
  · exact .rfl

theorem acceptGroup_rings (a : Assembly) (s : State) : RingsKept s.engine (acceptGroup a s).engine := by
  unfold acceptGroup
  split
  · rw [handAll_eq]; exact handed_rings _ _
  · split
    · rw [handAll_eq]; exact handed_rings _ _
    · exact .rfl

theorem takeEdit_rings (e : Edit) (s : State) : RingsKept s.engine (takeEdit e s).engine := by
  unfold takeEdit
  split
  · exact .rfl
  · show RingsKept (s.withSched { s.sched with assembly := none }).engine _
    exact acceptGroup_rings _ _

theorem joinEdit_rings (e : Edit) (s : State) : RingsKept s.engine (joinEdit e s).engine := by
  unfold joinEdit parkEdit
  split
  · rw [hand_eq]; exact handed_rings _ _
  · split
    · split
      · rw [handAll_eq]; exact handed_rings _ _
      · split
        · exact takeEdit_rings _ _
        · constructor <;> exact Eq.refl _
    · split
      · exact takeEdit_rings _ _
      · constructor <;> exact Eq.refl _

theorem breakFor_rings (ring : CmdRing) (s : State) : RingsKept s.engine (breakFor ring s).engine := by
  unfold breakFor breakGroup
  split
  · split
    · exact .rfl
    · rw [handAll_eq]; exact handed_rings _ _
  · exact .rfl

theorem refuse_rings (status : Status) (id : CmdId) (s : State) : RingsKept s.engine (refuse status id s).engine := by
  unfold refuse
  rw [hand_eq]
  exact (breakFor_rings _ _).trans (handed_rings _ _)

theorem cancelGroups_rings (id : CmdId) (label : Half) (s : State) : RingsKept s.engine (cancelGroups id label s).engine := by
  unfold cancelGroups
  rw [handAll_eq]; exact handed_rings _ _

theorem takeFence_rings (id : CmdId) (u : Unit) (s : State) : RingsKept s.engine (takeFence id u s).engine := by
  unfold takeFence uncount
  simp only
  split
  · rw [post_eq]; constructor <;> exact Eq.refl _
  · constructor <;> exact Eq.refl _

theorem readTaken_rings (id : CmdId) (f : ReadFields) (s : State) : RingsKept s.engine (readTaken id f s).engine := by
  unfold readTaken
  split
  · rw [hand_eq]; exact handed_rings _ _
  · exact .rfl

theorem takeRead_rings (id : CmdId) (f : ReadFields) (s : State) : RingsKept s.engine (takeRead id f s).engine := by
  unfold takeRead
  split
  · exact readTaken_rings _ _ _
  · constructor <;> exact Eq.refl _

theorem finishRead_rings (r : ReadSlot) (s : State) : RingsKept s.engine (finishRead r s).engine := by
  unfold finishRead
  rw [hand_eq]; exact handed_rings _ _

theorem unpark_rings (s : State) : RingsKept s.engine (unpark s).engine := by constructor <;> exact Eq.refl _

theorem retryEdit_rings (s : State) : RingsKept s.engine (retryEdit s).engine := by
  unfold retryEdit
  split
  · split
    · exact (unpark_rings s).trans (takeEdit_rings _ _)
    · exact .rfl
  · exact .rfl

theorem takeParkedRead_rings (s : State) : RingsKept s.engine (takeParkedRead s).engine := by
  unfold takeParkedRead
  split
  · split
    · exact (unpark_rings s).trans (readTaken_rings _ _ _)
    · exact .rfl
  · exact .rfl

theorem releaseFence_rings (s : State) : RingsKept s.engine (releaseFence s).engine := by
  unfold releaseFence
  split
  · split
    · rw [post_eq]; constructor <;> exact Eq.refl _
    · exact .rfl
  · exact .rfl

theorem releaseParked_rings (s : State) : RingsKept s.engine (releaseParked s).engine := by
  unfold releaseParked
  exact ((retryEdit_rings s).trans (takeParkedRead_rings _)).trans (releaseFence_rings _)

theorem abortAssembly_rings (s : State) : RingsKept s.engine (abortAssembly s).engine := by
  unfold abortAssembly
  split
  · exact .rfl
  · rw [handAll_eq]; exact handed_rings _ _

theorem abortParked_rings (s : State) : RingsKept s.engine (abortParked s).engine := by
  unfold abortParked
  split
  · exact .rfl
  · rw [hand_eq]; constructor <;> exact Eq.refl _
  · rw [hand_eq]; constructor <;> exact Eq.refl _
  · rw [post_eq]; constructor <;> exact Eq.refl _

theorem start_rings (e : RingEngine) : RingsKept e e.start := by
  unfold RingEngine.start
  split <;> constructor <;> exact Eq.refl _

theorem stopEnded_rings (e : RingEngine) : RingsKept e e.stopEnded := by
  unfold RingEngine.stopEnded
  simp only
  split
  · unfold RingEngine.start
    split <;> constructor <;> exact Eq.refl _
  · constructor <;> exact Eq.refl _

theorem stopIfDue_rings (s : State) : RingsKept s.engine (stopIfDue s).engine := by
  unfold stopIfDue endStop
  split
  · exact (((releaseParked_rings s).trans (abortAssembly_rings _)).trans (abortParked_rings _)).trans
      (stopEnded_rings _)
  · exact .rfl

theorem settleClosing_rings (s : State) : RingsKept s.engine (settleClosing s).engine := by
  unfold settleClosing
  simp only
  rw [handAll_eq]; exact handed_rings _ _

theorem finishWrite_rings (n : TapId) (s : State) : RingsKept s.engine (finishWrite n s).engine := by
  unfold finishWrite
  simp only
  split
  · refine .trans ?_ (settleClosing_rings _)
    rw [handAll_eq]; exact handed_rings _ _
  · rw [handAll_eq]; exact handed_rings _ _

theorem takeCreditTap_rings (id : CmdId) (f : CreditFields) (s : State) : RingsKept s.engine (takeCreditTap id f s).engine := by
  unfold takeCreditTap
  simp only [emit_engine]
  exact handed_rings _ _

theorem startCompletion_rings (s : State) : RingsKept s.engine (startCompletion s).engine := by
  unfold startCompletion
  split
  · exact .rfl
  · split
    · constructor <;> exact Eq.refl _
    · exact .rfl

theorem onLink_rings (s : State) (n : LinkId) (f : Link → LinkStep) :
    RingsKept s.engine (s.onLink n f).engine := by
  rw [onLink_engine]; exact handed_rings _ _

theorem eachLink_rings (f : LinkId → Link → LinkStep) (s : State) :
    RingsKept s.engine (eachLink f s).engine := by
  unfold eachLink
  generalize List.finRange 8 = l
  induction l generalizing s with
  | nil => exact .rfl
  | cons n l ih => exact (onLink_rings s n (f n)).trans (ih _)

theorem catchUp_rings (s : State) : RingsKept s.engine (catchUp s).engine := by
  unfold catchUp
  simp only [startMessage_engine, startEvent_engine]
  refine .trans ?_ (startCompletion_rings _)
  rw [eachTapTransfer_engine]
  refine .trans ?_ (startFetch_rings _)
  refine .trans ?_ (stopIfDue_rings _)
  refine .trans ?_ (releaseParked_rings _)
  exact (eachLink_rings _ s).trans (eachLink_rings _ _)

theorem cutGroup_rings (s : State) (g : Group) : RingsKept s.engine (cutGroup s g).engine := by
  unfold cutGroup
  split
  · rw [handAll_eq]; exact handed_rings _ _
  · exact settleClosing_rings ((s.commit _).withClosing _)

theorem cutGroups_rings (due : List Group) (u : State) : RingsKept u.engine (due.foldl cutGroup u).engine := by
  induction due generalizing u with
  | nil => exact .rfl
  | cons g l ih => exact (cutGroup_rings u g).trans (ih _)

theorem cutOver_rings (s : State) : RingsKept s.engine (cutOver s).engine := by
  exact cutGroups_rings (s.sched.list.filter fun g => g.due == s.frame)
    (s.withSched { s.sched with list := s.sched.list.filter fun g => !(g.due == s.frame) })

theorem halt_rings (cause : HaltCause) (s : State) : RingsKept s.engine (halt cause s).engine := by
  by_cases h : s.engine.mode = .halted
  · rw [halt_halted h]; exact .rfl
  · rw [halt_eq h]; constructor <;> exact Eq.refl _

theorem runTaps_rings (s : State) : RingsKept s.engine (runTaps s).engine := by
  obtain ⟨t, rfl, h | h⟩ := runTaps_cases s <;> rw [h]
  · rw [emit_engine]; exact handed_rings _ _
  · refine .trans ?_ (halt_rings _ _)
    rw [emit_engine]; exact handed_rings _ _

theorem startFrame_rings (s : State) : RingsKept s.engine (startFrame s).engine := by
  unfold startFrame startTaps
  have h1 : RingsKept s.engine (startLinks (advanceFrame s)).engine := eachLink_rings _ (advanceFrame s)
  have h2 : RingsKept s.engine (framePass (startSchedule (startLinks (advanceFrame s)))).engine := by
    refine h1.trans ?_
    show RingsKept _ (startSchedule _).engine
    unfold startSchedule
    split
    · exact .rfl
    · exact cutOver_rings _
  split
  · exact h2
  · exact h2.trans (runTaps_rings _)

end Sys2Proof.Machine
end

