-- ==== Sys2Proof/Laws/Taps.lean ====
section
/-! SUPPORT. What a frame, a credit and the end of a transfer do to one tap context: it stays good, keeps its
use, and settles the completions of its buffers. -/

namespace Sys2Proof.Machine

/-! ## The first member that meets a test -/

/-- Where the first member that meets a test stands, and what changing it leaves. -/
theorem updateFirst_of_find {α : Type} {p : α → Bool} {f : α → α} {l : List α} {b : α}
    (h : l.find? p = some b) :
    ∃ l1 l2, l = l1 ++ b :: l2 ∧ p b = true ∧ (∀ x ∈ l1, p x = false) ∧
      updateFirst p f l = l1 ++ f b :: l2 := by
  induction l with
  | nil => cases h
  | cons a l ih =>
    by_cases ha : p a = true
    · rw [List.find?_cons_of_pos ha] at h
      cases h
      exact ⟨[], l, rfl, ha, by simp, by simp [updateFirst, ha]⟩
    · rw [List.find?_cons_of_neg ha] at h
      obtain ⟨l1, l2, rfl, hb, h1, h2⟩ := ih h
      refine ⟨a :: l1, l2, rfl, hb, ?_, ?_⟩
      · intro x hx
        rcases List.mem_cons.1 hx with rfl | hx
        · simpa using ha
        · exact h1 x hx
      · simp [updateFirst, ha, h2]

theorem updateFirst_none {α : Type} {p : α → Bool} {f : α → α} {l : List α} (h : l.find? p = none) :
    updateFirst p f l = l := by
  induction l with
  | nil => rfl
  | cons a l ih =>
    have ha : ¬ p a = true := by
      have := List.find?_eq_none.1 h a (by simp); simpa using this
    rw [List.find?_cons_of_neg ha] at h
    simp [updateFirst, ha, ih h]

@[simp] theorem updateFirst_length {α : Type} (p : α → Bool) (f : α → α) (l : List α) :
    (updateFirst p f l).length = l.length := by
  cases h : l.find? p with
  | none => rw [updateFirst_none h]
  | some b =>
    obtain ⟨l1, l2, rfl, -, -, h2⟩ := updateFirst_of_find (f := f) h
    rw [h2]; simp

/-- What every member has, the members have after one of them is changed. -/
theorem updateFirst_all {α : Type} {p : α → Bool} {f : α → α} {l : List α} {P : α → Prop}
    (h : ∀ x ∈ l, P x) (hf : ∀ x ∈ l, p x = true → P (f x)) : ∀ x ∈ updateFirst p f l, P x := by
  cases hb : l.find? p with
  | none => rwa [updateFirst_none hb]
  | some b =>
    obtain ⟨l1, l2, rfl, h1, -, h2⟩ := updateFirst_of_find (f := f) hb
    rw [h2]
    intro x hx
    rcases List.mem_append.1 hx with hx | hx
    · exact h x (by simp [hx])
    · rcases List.mem_cons.1 hx with rfl | hx
      · exact hf b (by simp) h1
      · exact h x (by simp [hx])

/-! ## One step of a tap -/

/-- A step leaves the tap good with the use it had, and the completions handed with the buffers that
remain are the buffers before and `k` more (R49, R52, R60). -/
structure TapKeeps (t : Tap) (k : Nat) (p : Tap × List Effect) : Prop where
  good : TapGood p.1
  use : p.1.use = t.use
  settles : (completionsOf p.2).length + p.1.buffers.length = t.buffers.length + k

theorem TapKeeps.rfl {t : Tap} (h : TapGood t) : TapKeeps t 0 (t, []) := ⟨h, Eq.refl _, by simp⟩

theorem open_use {t : Tap} (h : TapGood t) (ho : t.state ≠ .closed) : t.use ≠ none :=
  fun hu => ho (h.closed.2 hu)

/-- A gap frame (R58). -/
theorem gapFrame_good {t : Tap} (h : TapGood t) (ho : t.state ≠ .closed) : TapGood (gapFrame t) :=
  ⟨h.closed, fun hc => absurd hc ho, h.buffers, h.each, h.unspent,
    Nat.min_le_left _ _, h.collecting, h.runs, h.reading⟩

theorem buffer_gap {b : Buffer} {g : Option Nat} (h : BufferGood b) :
    BufferGood { b with gapResult := g } := ⟨h.length, h.position, h.transferred⟩

/-- The gap count taken by the first sample of a buffer (R59). -/
theorem takeGap_good {t : Tap} {b : Buffer} (h : TapGood t) (ho : t.state ≠ .closed) :
    TapGood (takeGap t b) ∧ (takeGap t b).use = t.use ∧ (takeGap t b).state = t.state ∧
      (takeGap t b).buffers.length = t.buffers.length ∧ (takeGap t b).runs = t.runs ∧
      (takeGap t b).collecting = t.collecting := by
  unfold takeGap
  split
  · refine ⟨⟨h.closed, fun hc => absurd hc ho, ?_, ?_, ?_, Nat.zero_le _, h.collecting, h.runs, h.reading⟩,
      Eq.refl _, Eq.refl _, ?_, Eq.refl _, Eq.refl _⟩
    · simp only [updateFirst_length]; exact h.buffers
    · exact updateFirst_all h.each fun x hx _ => buffer_gap (h.each x hx)
    · intro hp; exact updateFirst_all (h.unspent hp) fun x hx _ => h.unspent hp x hx
    · simp only [updateFirst_length]
  · exact ⟨h, Eq.refl _, Eq.refl _, Eq.refl _, Eq.refl _, Eq.refl _⟩

/-- The current buffer once it has taken the gap count: the same, but for its gap result. -/
theorem takeGap_current {t : Tap} {b : Buffer} (hb : t.current = some b) :
    ∃ g, (takeGap t b).buffers.find? Buffer.unspent = some { b with gapResult := g } := by
  unfold takeGap
  split
  · refine ⟨some t.gap, ?_⟩
    obtain ⟨l1, l2, hl, h1, h2, h3⟩ := updateFirst_of_find
      (f := fun x : Buffer => { x with gapResult := some t.gap }) hb
    simp only
    rw [h3, List.find?_append, List.find?_eq_none.2 (fun x hx => by simp [h2 x hx])]
    rw [List.find?_cons_of_pos (by exact h1)]
    rfl
  · exact ⟨b.gapResult, hb⟩

/-- The tap is told apart by its buffers alone. -/
theorem TapGood.withBuffers {t : Tap} (h : TapGood t) (ho : t.state ≠ .closed) {l : List Buffer}
    (h1 : l.length ≤ t.buffers.length) (h2 : ∀ b ∈ l, BufferGood b)
    (h3 : t.plays = true → ∀ b ∈ l, b.position < b.length) : TapGood { t with buffers := l } :=
  ⟨h.closed, fun hc => absurd hc ho, h1.trans h.buffers, h2, h3, h.gap, h.collecting, h.runs, h.reading⟩

/-- A tap that has nothing unspent starves (R60). -/
theorem starveIfEmpty_good {n : TapId} {t : Tap} (h : TapGood t) (ho : t.state ≠ .closed) :
    TapGood (starveIfEmpty n t).1 ∧ (starveIfEmpty n t).1.use = t.use ∧
      (starveIfEmpty n t).1.buffers = t.buffers ∧ completionsOf (starveIfEmpty n t).2 = [] := by
  have hu := open_use h ho
  unfold starveIfEmpty
  split
  · exact ⟨h, Eq.refl _, Eq.refl _, Eq.refl _⟩
  · exact ⟨⟨⟨fun hc => by (cases hc), fun hx => absurd hx hu⟩, (fun hc => by cases hc), h.buffers, h.each, h.unspent,
      h.gap, h.collecting, h.runs, h.reading⟩, Eq.refl _, Eq.refl _, Eq.refl _⟩

/-- One sample of the current buffer moved (R59, R60). -/
theorem moveSample_keeps {n : TapId} {t : Tap} {b : Buffer} (h : TapGood t) (ho : t.state ≠ .closed)
    (hb : t.current = some b) : TapKeeps t 0 (moveSample n b t) := by
  obtain ⟨g1, g2, g3, g4, -, -⟩ := takeGap_good (b := b) h ho
  obtain ⟨g, hg⟩ := takeGap_current hb
  obtain ⟨l1, l2, hl, h1, h2, h3⟩ := updateFirst_of_find
    (f := fun x : Buffer => { x with position := x.position + 1 }) hg
  have ho' : (takeGap t b).state ≠ .closed := g3 ▸ ho
  have hb' : BufferGood { b with gapResult := g } := g1.each _ (by rw [hl]; simp)
  have hlt : b.position < b.length := by
    have : ({ b with gapResult := g } : Buffer).unspent = true := h1
    simpa [Buffer.unspent] using this
  have each : ∀ x ∈ (advance (takeGap t b)).buffers, BufferGood x :=
    updateFirst_all g1.each fun x hx hp => ⟨(g1.each x hx).length, by simpa [Buffer.unspent] using hp,
      (g1.each x hx).transferred⟩
  have len : (advance (takeGap t b)).buffers.length = (takeGap t b).buffers.length := by
    simp [advance]
  have plays : ∀ x : Tap, x.use = t.use → x.plays = t.plays := by
    intro x hx; unfold Tap.plays; rw [hx]
  unfold moveSample
  simp only
  split
  · rename_i hend
    split
    · rename_i hp
      have hp' : (takeGap t b).plays = true := by
        rw [plays _ g2]; exact hp
      have hun := g1.unspent hp'
      have hnil : l1 = [] := by
        cases l1 with
        | nil => rfl
        | cons x l1 =>
          have hx := hun x (by rw [hl]; simp)
          have := h2 x (by simp)
          simp [Buffer.unspent] at this; omega
      subst hnil
      have hfil : (advance (takeGap t b)).buffers.filter Buffer.unspent = l2 := by
        show (updateFirst _ _ _).filter _ = _
        rw [h3]
        rw [List.nil_append, List.filter_cons_of_neg (by simp [Buffer.unspent, hend])]
        apply List.filter_eq_self.2
        intro x hx
        have := hun x (by rw [hl]; simp [hx])
        simpa [Buffer.unspent] using this
      rw [hfil]
      have good : TapGood { advance (takeGap t b) with buffers := l2 } :=
        g1.withBuffers ho' (by rw [hl]; simp) (fun x hx => g1.each x (by rw [hl]; simp [hx]))
          (fun _ x hx => hun x (by rw [hl]; simp [hx]))
      obtain ⟨k1, k2, k3, k4⟩ := starveIfEmpty_good (n := n) good ho'
      refine ⟨k1, k2.trans g2, ?_⟩
      simp only [completionsOf_complete, k4, k3, List.length_cons, List.length_nil]
      have := congrArg List.length hl
      simp at this; omega
    · rename_i hp
      have good : TapGood (advance (takeGap t b)) :=
        g1.withBuffers ho' (by simp) each (fun hx => absurd ((plays (advance (takeGap t b)) g2).symm.trans hx) (by simpa using hp))
      obtain ⟨k1, k2, k3, k4⟩ := starveIfEmpty_good (n := n) good ho'
      refine ⟨k1, k2.trans g2, ?_⟩
      rw [k4, k3, len]; simp [g4]
  · rename_i hend
    refine ⟨g1.withBuffers ho' (by simp) each ?_, g2, ?_⟩
    · intro hp
      show ∀ x ∈ updateFirst _ _ _, _
      rw [h3]
      intro x hx
      rcases List.mem_append.1 hx with hx | hx
      · exact g1.unspent hp x (by rw [hl]; simp [hx])
      · rcases List.mem_cons.1 hx with rfl | hx
        · show b.position + 1 < b.length; omega
        · exact g1.unspent hp x (by rw [hl]; simp [hx])
    · show 0 + (advance (takeGap t b)).buffers.length = _
      rw [len, g4]; omega

/-- What a frame does to a tap (R58 to R62). -/
theorem tapFrame_keeps {n : TapId} {given : Sample} {t : Tap} (h : TapGood t) :
    TapKeeps t 0 (tapFrame n given t).1 := by
  unfold tapFrame
  split
  · exact .rfl h
  · rename_i ho
    split
    · exact ⟨gapFrame_good h ho, Eq.refl _, by simp [gapFrame]⟩
    · rename_i b hb
      split
      · exact ⟨gapFrame_good h ho, Eq.refl _, by simp [gapFrame]⟩
      · have hu := open_use h ho
        have run : TapGood (runTap t) :=
          ⟨⟨fun hc => by (cases hc), fun hx => absurd hx hu⟩, (fun hc => by cases hc), h.buffers, h.each, h.unspent,
            h.gap, h.collecting, h.runs, h.reading⟩
        have hr : (runTap t).state ≠ .closed := by simp [runTap]
        simp only
        split
        · obtain ⟨g1, g2, -, g4, -, -⟩ := takeGap_good (b := b) run hr
          exact ⟨g1, g2, by simp only [completionsOf_nil, List.length_nil, g4]; simp [runTap]⟩
        · rename_i hlate
          split
          · rename_i hp
            have good : TapGood { runTap t with runs := dropTakenRun b.position (runTap t).runs } := by
              have hle : (dropTakenRun b.position (runTap t).runs).length ≤ (runTap t).runs.length := by
                unfold dropTakenRun; split <;> simp
              exact ⟨run.closed, fun hc => absurd hc hr, run.buffers, run.each, run.unspent, run.gap,
                run.collecting, hle.trans run.runs, fun hx => ⟨(run.reading hx).1, hle.trans_lt (run.reading hx).2⟩⟩
            have := moveSample_keeps (n := n) (b := b) good hr hb
            exact ⟨this.good, this.use, this.settles⟩
          · rename_i hp
            have hlt : (runTap t).runs.length < Config.runLimit := by
              simp only [transferLate, hp, Bool.false_eq_true, if_false, decide_eq_true_eq] at hlate
              exact Nat.lt_of_not_le hlate
            have hnp : ¬ (runTap t).plays = true := hp
            have good : TapGood (placeSample b given (runTap t)) ∧
                (placeSample b given (runTap t)).state ≠ .closed ∧
                (placeSample b given (runTap t)).use = t.use ∧
                (placeSample b given (runTap t)).buffers = t.buffers := by
              unfold placeSample
              simp only
              split
              · exact ⟨⟨run.closed, fun hc => absurd hc hr, run.buffers, run.each, run.unspent, run.gap,
                  by simp [Config.runLength], by simp only [List.length_append, List.length_singleton]; exact hlt, fun hx => absurd (run.reading hx).1 hnp⟩, hr,
                  Eq.refl _, Eq.refl _⟩
              · rename_i hne
                have hc := run.collecting
                refine ⟨⟨run.closed, fun hc => absurd hc hr, run.buffers, run.each, run.unspent, run.gap,
                  ?_, run.runs, fun hx => absurd (run.reading hx).1 hnp⟩, hr,
                  Eq.refl _, Eq.refl _⟩
                simp only [List.length_append, List.length_singleton] at hne ⊢
                omega
            obtain ⟨k1, k2, k3, k4⟩ := good
            have hcur : (placeSample b given (runTap t)).current = some b := by
              unfold Tap.current; rw [k4]; exact hb
            have := moveSample_keeps (n := n) k1 k2 hcur
            exact ⟨this.good, this.use.trans k3, by rw [this.settles, k4]⟩

/-- A credited buffer (R54). -/
theorem takeCredit_keeps {id : CmdId} {f : CreditFields} {t : Tap} (h : TapGood t) :
    TapKeeps t 1 (takeCredit id f t) := by
  unfold takeCredit
  split
  · exact ⟨h, Eq.refl _, by simp; omega⟩
  · rename_i ho
    split
    · exact ⟨h, Eq.refl _, by simp; omega⟩
    · rename_i hbad
      split
      · exact ⟨h, Eq.refl _, by simp; omega⟩
      · rename_i hlim
        have hb : BufferGood ⟨id, f.address, f.length, 0, 0, none⟩ := by
          unfold badBuffer at hbad
          simp only [Bool.or_eq_true, decide_eq_true_eq, not_or, bne_iff_ne, ne_eq, not_not, not_lt] at hbad
          exact ⟨⟨hbad.1.1.1.2, hbad.1.1.2, Nat.dvd_of_mod_eq_zero hbad.1.2⟩, Nat.zero_le _, Nat.zero_le _, by simp⟩
        have hpos : 0 < f.length := by have := hb.length.1; simp [Config.bufferMin] at this; omega
        refine ⟨⟨h.closed, fun hc => absurd hc ho, ?_, ?_, ?_, h.gap, h.collecting, h.runs, h.reading⟩, Eq.refl _, ?_⟩
        · simp; omega
        · intro b hx
          rcases List.mem_append.1 hx with hx | hx
          · exact h.each b hx
          · rw [List.mem_singleton.1 hx]; exact hb
        · intro hp b hx
          rcases List.mem_append.1 hx with hx | hx
          · exact h.unspent hp b hx
          · rw [List.mem_singleton.1 hx]; exact hpos
        · simp

/-! ## Transfers -/

theorem startRead_good {t : Tap} (h : TapGood t) : TapGood (startRead t) := by
  unfold startRead
  split
  · rename_i hc
    unfold canRead at hc
    simp only [Bool.and_eq_true, decide_eq_true_eq] at hc
    exact ⟨h.closed, h.empty, h.buffers, h.each, h.unspent, h.gap, h.collecting, h.runs, fun _ => ⟨hc.1.1.1, hc.1.2⟩⟩
  · exact h

theorem startRead_same (t : Tap) : (startRead t).use = t.use ∧ (startRead t).buffers = t.buffers := by
  unfold startRead; split <;> exact ⟨Eq.refl _, Eq.refl _⟩

/-- Eight samples more of a buffer not yet transferred (R61, R62). -/
theorem buffer_transferred {b : Buffer} (h : BufferGood b) (hu : b.untransferred = true) :
    BufferGood { b with transferred := b.transferred + 8 } := by
  have hlt : b.transferred < b.length := by simpa [Buffer.untransferred] using hu
  obtain ⟨a, ha⟩ := h.length.2.2
  obtain ⟨c, hc⟩ := h.transferred.2
  refine ⟨h.length, h.position, ?_, ?_⟩
  · show b.transferred + 8 ≤ b.length; omega
  · show 8 ∣ b.transferred + 8; omega

/-- A run read ahead (R62). -/
theorem storeRun_good {samples : List Sample} {t : Tap} (h : TapGood t) (hr : t.reading = true) :
    TapGood (storeRun samples t) := by
  obtain ⟨hp, hlt⟩ := h.reading hr
  have ho : t.state ≠ .closed := by
    intro hc
    have := h.closed.1 hc
    simp [Tap.plays, this] at hp
  refine ⟨h.closed, fun hc => absurd hc ho, ?_, ?_, ?_, h.gap, h.collecting, ?_, fun hx => by cases hx⟩
  · simp [storeRun, noteTransferred]; exact h.buffers
  · exact updateFirst_all h.each fun x hx hu => buffer_transferred (h.each x hx) hu
  · intro hp; exact updateFirst_all (h.unspent hp) fun x hx _ => h.unspent hp x hx
  · show (t.runs ++ [_]).length ≤ _; simp only [List.length_append, List.length_singleton]; exact hlt

theorem storeRun_same (samples : List Sample) (t : Tap) :
    (storeRun samples t).use = t.use ∧ (storeRun samples t).buffers.length = t.buffers.length := by
  simp [storeRun, noteTransferred]

theorem abandon_good {t : Tap} (h : TapGood t) : TapGood t.abandon :=
  ⟨h.closed, h.empty, h.buffers, h.each, h.unspent, h.gap, h.collecting, h.runs, fun hx => by cases hx⟩

theorem tapReset_good : TapGood Tap.reset := by
  refine ⟨by simp [Tap.reset], fun _ => ⟨Eq.refl _, Eq.refl _, Eq.refl _, Eq.refl _⟩, ?_, ?_, ?_, ?_, ?_, ?_, ?_⟩ <;>
    simp [Tap.reset, Config.runLength]

theorem tapEngineReset_good {t : Tap} (h : TapGood t) :
    TapGood t.engineReset ∧ t.engineReset.use = t.use ∧ t.engineReset.buffers = [] := by
  unfold Tap.engineReset
  split
  · rename_i hc; exact ⟨tapReset_good, (h.closed.1 hc).symm, Eq.refl _⟩
  · rename_i ho
    have hu := open_use h ho
    refine ⟨⟨⟨fun hc => by (cases hc), fun hx => absurd hx hu⟩, (fun hc => by cases hc), ?_, ?_, ?_, ?_, ?_, ?_, ?_⟩,
      Eq.refl _, Eq.refl _⟩ <;> simp [Tap.reset, Config.runLength]

theorem openedTap_good (u : TapUse) (t : Tap) : TapGood (openedTap u t) := by
  refine ⟨by simp [openedTap], (fun hc => by cases hc), ?_, ?_, ?_, ?_, ?_, ?_, ?_⟩ <;>
    simp [openedTap, Tap.reset, Config.runLength]

theorem closedContext_good (t : Tap) : TapGood (closedContext t) := by
  refine ⟨by simp [closedContext, Tap.reset], fun _ => ⟨Eq.refl _, Eq.refl _, Eq.refl _, Eq.refl _⟩, ?_, ?_, ?_, ?_, ?_, ?_, ?_⟩ <;>
    simp [closedContext, Tap.reset, Config.runLength]

/-- The buffers once a run of them is written: those that remain are as before but for one count, and each
that leaves is completed (R61). -/
theorem noteWritten_keeps (l : List Buffer) :
    (noteWritten l).2.length + (noteWritten l).1.length = l.length ∧
      ((∀ b ∈ l, BufferGood b) → ∀ b ∈ (noteWritten l).1, BufferGood b) ∧
      ((∀ b ∈ l, b.position < b.length) → ∀ b ∈ (noteWritten l).1, b.position < b.length) := by
  induction l with
  | nil => simp [noteWritten]
  | cons a l ih =>
    unfold noteWritten
    split
    · rename_i hu
      simp only
      split
      · refine ⟨by simp; omega, fun h b hb => h b (by simp [hb]), fun h b hb => h b (by simp [hb])⟩
      · refine ⟨by simp, ?_, ?_⟩
        · intro h b hb
          rcases List.mem_cons.1 hb with rfl | hb
          · exact buffer_transferred (h a (by simp)) hu
          · exact h b (by simp [hb])
        · intro h b hb
          rcases List.mem_cons.1 hb with rfl | hb
          · exact h a (by simp)
          · exact h b (by simp [hb])
    · refine ⟨by simp; omega, ?_, ?_⟩
      · intro h b hb
        rcases List.mem_cons.1 hb with rfl | hb
        · exact h _ (by simp)
        · exact ih.2.1 (fun x hx => h x (by simp [hx])) b hb
      · intro h b hb
        rcases List.mem_cons.1 hb with rfl | hb
        · exact h _ (by simp)
        · exact ih.2.2 (fun x hx => h x (by simp [hx])) b hb

/-- An open tap once its oldest run is written (R61). -/
theorem written_good {t : Tap} (h : TapGood t) :
    TapGood { t with writing := false, runs := t.runs.drop 1, buffers := (noteWritten t.buffers).1 } := by
  obtain ⟨h1, h2, h3⟩ := noteWritten_keeps t.buffers
  refine ⟨h.closed, ?_, ?_, h2 h.each, fun hp => h3 (h.unspent hp), h.gap, h.collecting, ?_, ?_⟩
  · intro hc
    obtain ⟨e1, e2, e3, e4⟩ := h.empty hc
    refine ⟨?_, e2, e3, ?_⟩
    · show (noteWritten t.buffers).1 = []; rw [e1]; rfl
    · show t.runs.drop 1 = []; rw [e4]; rfl
  · have := h.buffers
    show (noteWritten t.buffers).1.length ≤ _; omega
  · have := h.runs; show (t.runs.drop 1).length ≤ _; rw [List.length_drop]; exact (Nat.sub_le _ _).trans this
  · intro hx
    obtain ⟨e1, e2⟩ := h.reading hx
    exact ⟨e1, by show (t.runs.drop 1).length < _; rw [List.length_drop]; exact (Nat.sub_le _ _).trans_lt e2⟩

end Sys2Proof.Machine
end

