-- ==== Sys2Proof/Laws/CutOver.lean ====
section
/-! SUPPORT. What an edit does to the working copy, what a cut-over does to the hub, and the completions of
closed taps: the pool, the taps and the routes stay good, and every completion owed is handed or still owed. -/

namespace Sys2Proof.Machine

/-! ## Sums over tables -/

theorem list_sum_set {α : Type} (f : α → Nat) (l : List α) (i : Nat) (a : α) (h : i < l.length) :
    ((l.set i a).map f).sum + f l[i] = (l.map f).sum + f a := by
  induction l generalizing i with
  | nil => exact absurd h (by simp)
  | cons b l ih =>
    cases i with
    | zero => simp; omega
    | succ i =>
      have := ih i (by simpa using h)
      simp only [List.set_cons_succ, List.map_cons, List.sum_cons, List.getElem_cons_succ]
      omega

theorem table_sum_set {n : Nat} {α : Type} (f : α → Nat) (t : Table n α) (i : Fin n) (a : α) :
    ((t.set i a).items.map f).sum + f (t.get i) = (t.items.map f).sum + f a :=
  list_sum_set f t.items i.val a _

theorem table_sum_map {n : Nat} {α : Type} (f : α → Nat) (g : α → α) (h : ∀ a, f (g a) = f a) (t : Table n α) :
    ((t.map g).items.map f).sum = (t.items.map f).sum := by
  unfold Table.map
  simp only [List.map_map]
  exact congrArg List.sum (List.map_congr_left fun a _ => h a)

theorem table_sum_congr {n : Nat} {α : Type} (f g : α → Nat) (t u : Table n α)
    (h : ∀ i, f (t.get i) = g (u.get i)) : (t.items.map f).sum = (u.items.map g).sum := by
  congr 1
  apply List.ext_getElem (by simp [t.size_eq, u.size_eq])
  intro i h1 h2
  have hi : i < n := by simpa [t.size_eq] using h1
  simpa [Table.get] using h ⟨i, hi⟩

theorem table_get_mem {n : Nat} {α : Type} (t : Table n α) (i : Fin n) : t.get i ∈ t.items :=
  List.getElem_mem _

/-! ## One edit against the working copy -/

theorem setPlace_place (w : Work) (n m : LinkId) (c d : Channel) (r : Option Route) :
    (w.setPlace n c r).place m d = if n = m ∧ c = d then r else w.place m d := by
  unfold Work.setPlace Work.place
  simp only [Table.get_set]
  by_cases h : n = m
  · subst h
    simp only [if_true, Table.get_set, true_and]
  · simp [h]

theorem setPlace_entries (w : Work) (n : LinkId) (c : Channel) (r : Option Route) :
    entriesInUse (w.setPlace n c r).routes + entriesHeld (w.place n c) =
      entriesInUse w.routes + entriesHeld r := by
  unfold entriesInUse Work.setPlace Work.place
  have h1 := table_sum_set (fun row : Table 12 (Option Route) => (row.items.map entriesHeld).sum) w.routes n
    ((w.routes.get n).set c r)
  have h2 := table_sum_set entriesHeld (w.routes.get n) c r
  simp only at h1 h2 ⊢
  omega

/-- The working copy's count of free entries (R4). -/
def Work.poolGood (w : Work) : Prop := w.free + entriesInUse w.routes = Config.poolSize

/-- An edit keeps the count of free entries (R4, R24, R25). -/
theorem applyEdit_pool {op : EditOp} {w v : Work} (h : w.poolGood) (he : applyEdit op w = .ok v) :
    v.poolGood := by
  unfold Work.poolGood at *
  cases op with
  | setRoute n c k r =>
    simp only [applyEdit, applySetRoute] at he
    split at he
    · cases he
    · split at he
      · cases he
      · split at he
        · cases he
          have := setPlace_entries w n c (some r)
          rename_i hfree _
          simp only [entriesHeld] at this hfree ⊢
          show _ + entriesInUse (w.setPlace n c (some r)).routes = _
          omega
        · cases he
  | clearRoute n c =>
    simp only [applyEdit, applyClearRoute] at he
    split at he
    · cases he
    · rename_i r hr
      cases he
      have := setPlace_entries w n c none
      rw [hr] at this
      simp only [entriesHeld] at this ⊢
      show _ + entriesInUse (w.setPlace n c none).routes = _
      omega
  | muteRoute n c m =>
    simp only [applyEdit, applyMuteRoute] at he
    split at he
    · cases he
    · rename_i r hr
      cases he
      have := setPlace_entries w n c (some { r with muted := m })
      rw [hr] at this
      simp only [entriesHeld] at this ⊢
      show w.free + entriesInUse (w.setPlace n c _).routes = _
      omega
  | openTap t use =>
    simp only [applyEdit, applyOpenTap] at he
    split at he
    · cases he; exact h
    · cases he
  | closeTap t =>
    simp only [applyEdit, applyCloseTap] at he
    split at he
    · cases he
    · split at he
      · cases he
      · cases he; exact h

/-- The routes of a table have 1 to 4 entries (R1). -/
def Work.sized (w : Work) : Prop := ∀ n c r, w.place n c = some r → r.sized

/-- An edit keeps the sizes of the routes (R1, R24, R25). -/
theorem applyEdit_sized {op : EditOp} {w v : Work} (h : w.sized) (ho : op.sized)
    (he : applyEdit op w = .ok v) : v.sized := by
  have set : ∀ n c r, (∀ r', r = some r' → r'.sized) → (w.setPlace n c r).sized := by
    intro n c r hr m d r' h'
    rw [setPlace_place] at h'
    split at h'
    · exact hr r' h'
    · exact h m d r' h'
  cases op with
  | setRoute n c k r =>
    simp only [applyEdit, applySetRoute] at he
    split at he
    · cases he
    · split at he
      · cases he
      · split at he
        · cases he
          exact set n c (some r) fun r' e => by cases e; exact ho
        · cases he
  | clearRoute n c =>
    simp only [applyEdit, applyClearRoute] at he
    split at he
    · cases he
    · cases he; exact set n c none fun r' e => by cases e
  | muteRoute n c m =>
    simp only [applyEdit, applyMuteRoute] at he
    split at he
    · cases he
    · rename_i r hr
      cases he
      exact set n c _ fun r' e => by cases e; exact h n c r hr
  | openTap t use =>
    simp only [applyEdit, applyOpenTap] at he
    split at he
    · cases he; exact h
    · cases he
  | closeTap t =>
    simp only [applyEdit, applyCloseTap] at he
    split at he
    · cases he
    · split at he
      · cases he
      · cases he; exact h

/-- Taps good, and every playout tap that a route names open (R15, R38, R49, R53). -/
structure Work.tapsGood (w : Work) : Prop where
  taps : ∀ n, TapGood (w.taps.get n)
  routed : ∀ n c r, w.place n c = some r → ∀ e ∈ r.entries, ∀ t, e.source = .playout t →
    (w.taps.get t).plays = true

theorem named_of_place {routes : Table 8 (Table 12 (Option Route))} {n : LinkId} {c : Channel} {r : Route}
    {e : SourceEntry} {t : TapId} (h : (routes.get n).get c = some r) (he : e ∈ r.entries)
    (hs : e.source = .playout t) : tableNames routes t = true := by
  unfold tableNames
  rw [List.any_eq_true]
  refine ⟨routes.get n, table_get_mem _ _, ?_⟩
  rw [List.any_eq_true]
  refine ⟨(routes.get n).get c, table_get_mem _ _, ?_⟩
  rw [h]
  simp only [List.any_eq_true]
  exact ⟨e, he, by simp [entryNames, hs]⟩

/-- An edit keeps the taps good and those that are routed open (R38, R51 to R53). -/
theorem applyEdit_taps {op : EditOp} {w v : Work} (h : w.tapsGood) (he : applyEdit op w = .ok v) :
    v.tapsGood := by
  have set : ∀ n c r x, (∀ r', r = some r' → ∀ e ∈ r'.entries, ∀ t, e.source = .playout t →
      (w.taps.get t).plays = true) → ({ w.setPlace n c r with free := x }).tapsGood := by
    intro n c r x hr
    refine ⟨h.taps, ?_⟩
    intro m d r' h'
    have h'' : (w.setPlace n c r).place m d = some r' := h'
    rw [setPlace_place] at h''
    split at h''
    · exact hr r' h''
    · exact h.routed m d r' h''
  cases op with
  | setRoute n c k r =>
    simp only [applyEdit, applySetRoute] at he
    split at he
    · cases he
    · split at he
      · cases he
      · split at he
        · rename_i hall
          cases he
          refine set n c (some r) _ fun r' e => ?_
          cases e
          intro e hm t hs
          have := List.all_eq_true.1 hall e hm
          rw [hs] at this; exact this
        · cases he
  | clearRoute n c =>
    simp only [applyEdit, applyClearRoute] at he
    split at he
    · cases he
    · cases he; exact set n c none _ fun r' e => by cases e
  | muteRoute n c m =>
    simp only [applyEdit, applyMuteRoute] at he
    split at he
    · cases he
    · rename_i r hr
      cases he
      exact set n c _ w.free fun r' e => by cases e; exact h.routed n c r hr
  | openTap t u =>
    simp only [applyEdit, applyOpenTap] at he
    split at he
    · rename_i hc
      cases he
      have hp : (w.taps.get t).plays = false := by
        unfold Tap.plays; rw [(h.taps t).closed.1 hc]; rfl
      refine ⟨?_, ?_⟩
      · intro n
        show TapGood ((w.taps.set t _).get n)
        rw [Table.get_set]; split
        · exact openedTap_good _ _
        · exact h.taps n
      · intro n c r hr e hm t' hs
        have := h.routed n c r hr e hm t' hs
        show ((w.taps.set t _).get t').plays = true
        rw [Table.get_set]; split
        · rename_i e; subst e; rw [hp] at this; cases this
        · exact this
    · cases he
  | closeTap t =>
    simp only [applyEdit, applyCloseTap] at he
    split at he
    · cases he
    · split at he
      · cases he
      · rename_i hn
        cases he
        refine ⟨?_, ?_⟩
        · intro n
          show TapGood ((w.taps.set t _).get n)
          rw [Table.get_set]; split
          · exact closedContext_good _
          · exact h.taps n
        · intro n c r hr e hm t' hs
          have := h.routed n c r hr e hm t' hs
          show ((w.taps.set t _).get t').plays = true
          rw [Table.get_set]; split
          · rename_i e; subst e; exact absurd (named_of_place hr hm hs) (by simpa using hn)
          · exact this

/-- Completions owed for the buffers of the taps (R60). -/
def tapsOwe (taps : Table 16 Tap) : Nat := (taps.items.map fun t => t.buffers.length).sum

/-- Completions owed for the buffers of closed taps (R52). -/
def closedOwe (closed : List ClosedTap) : Nat := (closed.map fun c => c.buffers.length).sum

/-- An edit passes the buffers of a tap it closes on, and touches no other (R52). -/
theorem applyEdit_owes {op : EditOp} {w v : Work} (ht : ∀ n, TapGood (w.taps.get n))
    (he : applyEdit op w = .ok v) :
    tapsOwe v.taps + closedOwe v.closed = tapsOwe w.taps + closedOwe w.closed := by
  cases op with
  | setRoute n c k r =>
    simp only [applyEdit, applySetRoute] at he
    split at he
    · cases he
    · split at he
      · cases he
      · split at he
        · cases he; rfl
        · cases he
  | clearRoute n c =>
    simp only [applyEdit, applyClearRoute] at he
    split at he
    · cases he
    · cases he; rfl
  | muteRoute n c m =>
    simp only [applyEdit, applyMuteRoute] at he
    split at he
    · cases he
    · cases he; rfl
  | openTap t u =>
    simp only [applyEdit, applyOpenTap] at he
    split at he
    · rename_i hc
      cases he
      have := table_sum_set (fun t : Tap => t.buffers.length) w.taps t (openedTap u (w.taps.get t))
      have e1 := ((ht t).empty hc).1
      simp only [e1] at this
      have e2 : (openedTap u (w.taps.get t)).buffers = [] := by rfl
      simp only [e2] at this
      show tapsOwe (w.taps.set t _) + _ = _
      unfold tapsOwe
      simp only [List.length_nil, Nat.add_zero] at this
      rw [this]
    · cases he
  | closeTap t =>
    simp only [applyEdit, applyCloseTap] at he
    split at he
    · cases he
    · split at he
      · cases he
      · cases he
        have := table_sum_set (fun t : Tap => t.buffers.length) w.taps t (closedContext (w.taps.get t))
        have e2 : (closedContext (w.taps.get t)).buffers = [] := by rfl
        simp only [e2, List.length_nil, Nat.add_zero] at this
        show tapsOwe (w.taps.set t _) + closedOwe (w.closed ++ [closedRecord t (w.taps.get t)]) = _
        unfold tapsOwe closedOwe
        have e3 : (closedRecord t (w.taps.get t)).buffers = (w.taps.get t).buffers := by rfl
        simp only [List.map_append, List.sum_append, List.map_cons, List.map_nil, List.sum_cons,
          List.sum_nil, e3]
        omega

/-- What every edit keeps, the commands of a group keep (R38). -/
theorem runMembers_keeps {P : Work → Prop} {members : List (CmdId × EditOp)} {w v : Work} (h : P w)
    (step : ∀ m ∈ members, ∀ w v, P w → applyEdit m.2 w = .ok v → P v)
    (he : runMembers members w = .ok v) : P v := by
  induction members generalizing w with
  | nil => cases he; exact h
  | cons m rest ih =>
    simp only [runMembers] at he
    split at he
    · cases he
    · rename_i w' hw
      split at he
      · rename_i w'' hw''
        cases he
        exact ih (step m (by simp) w w' h hw) (fun m hm => step m (by simp [hm])) hw''
      · cases he

/-! ## Completions of groups -/

@[simp] theorem memberCompletions_length {α : Type} (status : Status) (result : Word)
    (members : List (CmdId × α)) : (memberCompletions status result members).length = members.length := by
  simp [memberCompletions]

@[simp] theorem doneCompletions_length (g : Group) : (doneCompletions g).length = g.members.length := by
  simp [doneCompletions]

@[simp] theorem failedCompletions_length (due : Word) (status : Status) (place : Nat)
    (members : List (CmdId × EditOp)) :
    (failedCompletions due status place members).length = members.length := by
  induction members generalizing place with
  | nil => cases place <;> rfl
  | cons m rest ih => cases place <;> simp [failedCompletions, ih]

@[simp] theorem tooFarCompletions_length (members : List (CmdId × Option EditOp)) :
    (tooFarCompletions members).length = members.length := by
  cases members <;> simp [tooFarCompletions]

theorem goodMembers_length {members : List (CmdId × Option EditOp)}
    (h : ¬ (members.any fun m => m.2.isNone) = true) : (goodMembers members).length = members.length := by
  induction members with
  | nil => rfl
  | cons m rest ih =>
    obtain ⟨id, op⟩ := m
    cases op with
    | none => exact absurd (by simp) h
    | some op =>
      have hr : ¬ (rest.any fun m => m.2.isNone) = true := by
        intro hx; exact h (by simpa using hx)
      have := ih hr
      simp [goodMembers] at this ⊢
      exact this

/-- Members of a list of groups. -/
def groupsSize (list : List Group) : Nat := (list.map fun g => g.members.length).sum

theorem cancelCompletions_length (list : List Group) :
    (cancelCompletions list).length = groupsSize list := by
  simp [cancelCompletions, groupsSize, List.length_flatMap]

theorem groupsSize_filter (p : Group → Bool) (list : List Group) :
    groupsSize (list.filter p) + groupsSize (list.filter fun g => !(p g)) = groupsSize list := by
  unfold groupsSize
  induction list with
  | nil => rfl
  | cons g list ih =>
    by_cases h : p g = true
    · simp only [List.filter_cons, h, if_true, Bool.not_true, Bool.false_eq_true, if_false, List.map_cons,
        List.sum_cons]
      omega
    · simp only [Bool.not_eq_true] at h
      simp only [List.filter_cons, h, Bool.not_false, Bool.false_eq_true, if_true, if_false, List.map_cons,
        List.sum_cons]
      omega

theorem insertGroup_perm (now : Word) (g : Group) (list : List Group) :
    (insertGroup now g list).Perm (g :: list) := by
  unfold insertGroup
  simp only
  refine List.perm_middle.trans ?_
  rw [List.takeWhile_append_dropWhile]

theorem insertGroup_size (now : Word) (g : Group) (list : List Group) :
    groupsSize (insertGroup now g list) = g.members.length + groupsSize list := by
  unfold groupsSize
  rw [((insertGroup_perm now g list).map _).sum_eq]
  rfl

/-! ## Closed taps -/

/-- Completions owed by all closing groups (R39, R52). -/
def closingOwe (groups : List ClosingGroup) : Nat := (groups.map ClosingGroup.owes).sum

theorem settleClosedTaps_owes (busy : List TapId) (taps : List ClosedTap) :
    closedOwe (settleClosedTaps busy taps).1 + (settleClosedTaps busy taps).2.1.length = closedOwe taps := by
  induction taps generalizing busy with
  | nil => rfl
  | cons c rest ih =>
    unfold settleClosedTaps
    split
    · have := ih busy
      simp only [closedOwe, List.map_cons, List.sum_cons, List.length_append, closedCompletions,
        List.length_map] at this ⊢
      omega
    · have := ih (c.tap :: busy)
      simp only [closedOwe, List.map_cons, List.sum_cons] at this ⊢
      omega

/-- What closed taps and their groups owe is handed, or is owed still (R39, R52). -/
theorem settleGroups_owes (busy : List TapId) (groups : List ClosingGroup) :
    closingOwe (settleGroups busy groups).1 + (settleGroups busy groups).2.length = closingOwe groups := by
  induction groups generalizing busy with
  | nil => rfl
  | cons g rest ih =>
    unfold settleGroups
    have h1 := settleClosedTaps_owes busy g.taps
    have h2 := ih (settleClosedTaps busy g.taps).2.2
    simp only
    split
    · rename_i hemp
      have h3 : closedOwe (settleClosedTaps busy g.taps).1 = 0 := by
        rw [List.isEmpty_iff.1 hemp]; rfl
      simp only [closingOwe, List.map_cons, List.sum_cons, List.length_append, ClosingGroup.owes,
        closedOwe] at *
      omega
    · simp only [closingOwe, List.map_cons, List.sum_cons, List.length_append, ClosingGroup.owes,
        closedOwe] at *
      omega

theorem writeClosedTap_owes {n : TapId} {taps : List ClosedTap} {p : List ClosedTap × List Completion}
    (h : writeClosedTap n taps = some p) : closedOwe p.1 + p.2.length = closedOwe taps := by
  induction taps generalizing p with
  | nil => cases h
  | cons c rest ih =>
    have other : ((writeClosedTap n rest).map fun q => (c :: q.1, q.2)) = some p →
        closedOwe p.1 + p.2.length = closedOwe (c :: rest) := by
      intro h
      cases hq : writeClosedTap n rest with
      | none => rw [hq] at h; cases h
      | some q =>
        rw [hq] at h
        cases h
        have := ih hq
        simp only [closedOwe, List.map_cons, List.sum_cons] at this ⊢
        omega
    unfold writeClosedTap at h
    split at h
    · split at h
      · cases h
        have := (noteWritten_keeps c.buffers).1
        simp only [closedOwe, List.map_cons, List.sum_cons]
        omega
      · exact other h
    · exact other h

theorem writeClosed_owes {n : TapId} {groups : List ClosingGroup}
    {p : List ClosingGroup × List Completion} (h : writeClosed n groups = some p) :
    closingOwe p.1 + p.2.length = closingOwe groups := by
  induction groups generalizing p with
  | nil => cases h
  | cons g rest ih =>
    unfold writeClosed at h
    split at h
    · rename_i q hq
      cases h
      have := writeClosedTap_owes hq
      simp only [closingOwe, List.map_cons, List.sum_cons, ClosingGroup.owes, closedOwe] at this ⊢
      omega
    · cases hq : writeClosed n rest with
      | none => rw [hq] at h; cases h
      | some q =>
        rw [hq] at h
        cases h
        have := ih hq
        simp only [closingOwe, List.map_cons, List.sum_cons] at this ⊢
        omega

end Sys2Proof.Machine
end

