-- ==== Sys2Proof/Laws/Control.lean ====
section
/-! SUPPORT. The control side of the Ring Engine: which operations leave its state, its enable and its fetch
alone, and what the others do to them. -/

namespace Sys2Proof.Machine

/-- The Ring Engine keeps its state, its enable, its halt cause and the fetch in flight (R161). -/
structure ControlKept (e f : RingEngine) : Prop where
  mode : f.mode = e.mode
  enable : f.enable = e.enable
  cause : f.cause = e.cause
  startRefused : f.startRefused = e.startRefused
  fetch : f.fetch = e.fetch

theorem ControlKept.rfl {e : RingEngine} : ControlKept e e := by constructor <;> exact Eq.refl _

theorem ControlKept.trans {e f g : RingEngine} (h : ControlKept e f) (k : ControlKept f g) :
    ControlKept e g where
  mode := k.mode.trans h.mode
  enable := k.enable.trans h.enable
  cause := k.cause.trans h.cause
  startRefused := k.startRefused.trans h.startRefused
  fetch := k.fetch.trans h.fetch

theorem handed_control (e : RingEngine) (cs : List Completion) : ControlKept e (e.handed cs) := by
  constructor <;> exact Eq.refl _

theorem acceptGroup_control (a : Assembly) (s : State) : ControlKept s.engine (acceptGroup a s).engine := by
  unfold acceptGroup
  split
  · rw [handAll_eq]; exact handed_control _ _
  · split
    · rw [handAll_eq]; exact handed_control _ _
    · exact .rfl

theorem takeEdit_control (e : Edit) (s : State) : ControlKept s.engine (takeEdit e s).engine := by
  unfold takeEdit
  split
  · exact .rfl
  · show ControlKept (s.withSched { s.sched with assembly := none }).engine _
    exact acceptGroup_control _ _

theorem joinEdit_control (e : Edit) (s : State) : ControlKept s.engine (joinEdit e s).engine := by
  unfold joinEdit parkEdit
  split
  · rw [hand_eq]; exact handed_control _ _
  · split
    · split
      · rw [handAll_eq]; exact handed_control _ _
      · split
        · exact takeEdit_control _ _
        · constructor <;> exact Eq.refl _
    · split
      · exact takeEdit_control _ _
      · constructor <;> exact Eq.refl _

theorem breakFor_control (ring : CmdRing) (s : State) : ControlKept s.engine (breakFor ring s).engine := by
  unfold breakFor breakGroup
  split
  · split
    · exact .rfl
    · rw [handAll_eq]; exact handed_control _ _
  · exact .rfl

theorem refuse_control (status : Status) (id : CmdId) (s : State) : ControlKept s.engine (refuse status id s).engine := by
  unfold refuse
  rw [hand_eq]
  exact (breakFor_control _ _).trans (handed_control _ _)

theorem cancelGroups_control (id : CmdId) (label : Half) (s : State) : ControlKept s.engine (cancelGroups id label s).engine := by
  unfold cancelGroups
  rw [handAll_eq]; exact handed_control _ _

theorem takeFence_control (id : CmdId) (u : Unit) (s : State) : ControlKept s.engine (takeFence id u s).engine := by
  unfold takeFence uncount
  simp only
  split
  · rw [post_eq]; constructor <;> exact Eq.refl _
  · constructor <;> exact Eq.refl _

theorem readTaken_control (id : CmdId) (f : ReadFields) (s : State) : ControlKept s.engine (readTaken id f s).engine := by
  unfold readTaken
  split
  · rw [hand_eq]; exact handed_control _ _
  · exact .rfl

theorem takeRead_control (id : CmdId) (f : ReadFields) (s : State) : ControlKept s.engine (takeRead id f s).engine := by
  unfold takeRead
  split
  · exact readTaken_control _ _ _
  · constructor <;> exact Eq.refl _

theorem finishRead_control (r : ReadSlot) (s : State) : ControlKept s.engine (finishRead r s).engine := by
  unfold finishRead
  rw [hand_eq]; exact handed_control _ _

theorem unpark_control (s : State) : ControlKept s.engine (unpark s).engine := by constructor <;> exact Eq.refl _

theorem retryEdit_control (s : State) : ControlKept s.engine (retryEdit s).engine := by
  unfold retryEdit
  split
  · split
    · exact (unpark_control s).trans (takeEdit_control _ _)
    · exact .rfl
  · exact .rfl

theorem takeParkedRead_control (s : State) : ControlKept s.engine (takeParkedRead s).engine := by
  unfold takeParkedRead
  split
  · split
    · exact (unpark_control s).trans (readTaken_control _ _ _)
    · exact .rfl
  · exact .rfl

theorem releaseFence_control (s : State) : ControlKept s.engine (releaseFence s).engine := by
  unfold releaseFence
  split
  · split
    · rw [post_eq]; constructor <;> exact Eq.refl _
    · exact .rfl
  · exact .rfl

theorem releaseParked_control (s : State) : ControlKept s.engine (releaseParked s).engine := by
  unfold releaseParked
  exact ((retryEdit_control s).trans (takeParkedRead_control _)).trans (releaseFence_control _)

theorem abortAssembly_control (s : State) : ControlKept s.engine (abortAssembly s).engine := by
  unfold abortAssembly
  split
  · exact .rfl
  · rw [handAll_eq]; exact handed_control _ _

theorem abortParked_control (s : State) : ControlKept s.engine (abortParked s).engine := by
  unfold abortParked
  split
  · exact .rfl
  · rw [hand_eq]; constructor <;> exact Eq.refl _
  · rw [hand_eq]; constructor <;> exact Eq.refl _
  · rw [post_eq]; constructor <;> exact Eq.refl _

/-- A stop ends only in STOPPING with no fetch in flight (R163). -/
theorem stopIfDue_waits {s : State} (h : s.engine.mode ≠ .stopping ∨ s.engine.fetch.isSome = true) :
    stopIfDue s = s := by
  unfold stopIfDue
  rw [if_neg]
  rcases h with h | h
  · simp [h]
  · simp [Option.isSome_iff_ne_none.mp h]

/-- What a stop that ends leaves of the Ring Engine's control side (R162, R163). -/
theorem endStop_control (s : State) :
    ∃ e, ControlKept s.engine e ∧ (endStop s).engine = e.stopEnded :=
  ⟨_, ((releaseParked_control s).trans (abortAssembly_control _)).trans (abortParked_control _), rfl⟩

/-- The end of a stop is STOPPED, or RUNNING where ENABLE is found set. -/
theorem stopEnded_mode (e : RingEngine) : e.stopEnded.mode = .stopped ∨ e.stopEnded.mode = .running := by
  unfold RingEngine.stopEnded RingEngine.start
  simp only
  split
  · split
    · exact .inr rfl
    · exact .inl rfl
  · exact .inl rfl

/-- No engine stays in STOPPING without a fetch in flight (R163). -/
theorem stopIfDue_stopping {s : State} (h : (stopIfDue s).engine.mode = .stopping) :
    s.engine.fetch.isSome = true := by
  by_contra hf
  by_cases hm : s.engine.mode = .stopping
  · have he : stopIfDue s = endStop s := by
      unfold stopIfDue
      rw [if_pos (by simp [hm, Option.not_isSome_iff_eq_none.mp hf])]
    obtain ⟨e, _, h2⟩ := endStop_control s
    rw [he, h2] at h
    rcases stopEnded_mode e with k | k <;> rw [k] at h <;> cases h
  · rw [stopIfDue_waits (.inl hm)] at h
    exact hm h

theorem settleClosing_control (s : State) : ControlKept s.engine (settleClosing s).engine := by
  unfold settleClosing
  simp only
  rw [handAll_eq]; exact handed_control _ _

theorem finishWrite_control (n : TapId) (s : State) : ControlKept s.engine (finishWrite n s).engine := by
  unfold finishWrite
  simp only
  split
  · refine .trans ?_ (settleClosing_control _)
    rw [handAll_eq]; exact handed_control _ _
  · rw [handAll_eq]; exact handed_control _ _

theorem takeCreditTap_control (id : CmdId) (f : CreditFields) (s : State) : ControlKept s.engine (takeCreditTap id f s).engine := by
  unfold takeCreditTap
  simp only [emit_engine]
  exact handed_control _ _

theorem startCompletion_control (s : State) : ControlKept s.engine (startCompletion s).engine := by
  unfold startCompletion
  split
  · exact .rfl
  · split
    · constructor <;> exact Eq.refl _
    · exact .rfl

theorem onLink_control (s : State) (n : LinkId) (f : Link → LinkStep) :
    ControlKept s.engine (s.onLink n f).engine := by
  rw [onLink_engine]; exact handed_control _ _

theorem eachLink_control (f : LinkId → Link → LinkStep) (s : State) :
    ControlKept s.engine (eachLink f s).engine := by
  unfold eachLink
  generalize List.finRange 8 = l
  induction l generalizing s with
  | nil => exact .rfl
  | cons n l ih => exact (onLink_control s n (f n)).trans (ih _)

theorem cutGroup_control (s : State) (g : Group) : ControlKept s.engine (cutGroup s g).engine := by
  unfold cutGroup
  split
  · rw [handAll_eq]; exact handed_control _ _
  · exact settleClosing_control ((s.commit _).withClosing _)

theorem cutGroups_control (due : List Group) (u : State) : ControlKept u.engine (due.foldl cutGroup u).engine := by
  induction due generalizing u with
  | nil => exact .rfl
  | cons g l ih => exact (cutGroup_control u g).trans (ih _)

theorem cutOver_control (s : State) : ControlKept s.engine (cutOver s).engine := by
  exact cutGroups_control (s.sched.list.filter fun g => g.due == s.frame)
    (s.withSched { s.sched with list := s.sched.list.filter fun g => !(g.due == s.frame) })

end Sys2Proof.Machine
end

