-- ==== Sys2Proof/Laws/Schedule.lean ====
section
/-! SUPPORT. The schedule list, the assembly group and the parked command: what each operation keeps of their
bounds, of the order of the list and of the sizes of the routes that wait. -/

namespace Sys2Proof.Machine

/-! ## The order of the list -/

/-- Some of the groups of a list in order are in order. -/
theorem order_filter {now : Word} {list : List Group} (p : Group → Bool) (h : OrderGood now list) :
    OrderGood now (list.filter p) :=
  ⟨fun g hg => h.ahead g (List.mem_of_mem_filter hg), h.sorted.filter p⟩

/-- A group inserted at its place (R33). -/
theorem order_insert {now : Word} {g : Group} {list : List Group} (h : OrderGood now list)
    (hg : 1 ≤ frameDistance now g.due ∧ frameDistance now g.due ≤ Config.horizon) :
    OrderGood now (insertGroup now g list) := by
  have perm := insertGroup_perm now g list
  refine ⟨?_, ?_⟩
  · intro x hx
    rcases List.mem_cons.1 (perm.mem_iff.1 hx) with rfl | hx
    · exact hg
    · exact h.ahead x hx
  · have : ∀ list : List Group, list.Pairwise (fun g h => frameDistance now g.due ≤ frameDistance now h.due) →
        (insertGroup now g list).Pairwise fun g h => frameDistance now g.due ≤ frameDistance now h.due := by
      intro list hs
      induction list with
      | nil => exact List.pairwise_singleton _ _
      | cons a l ih =>
        obtain ⟨h1, h2⟩ := List.pairwise_cons.1 hs
        by_cases ha : frameDistance now a.due ≤ frameDistance now g.due
        · have e : insertGroup now g (a :: l) = a :: insertGroup now g l := by
            simp [insertGroup, ha]
          rw [e, List.pairwise_cons]
          refine ⟨fun x hx => ?_, ih h2⟩
          rcases List.mem_cons.1 ((insertGroup_perm now g l).mem_iff.1 hx) with rfl | hx
          · exact ha
          · exact h1 x hx
        · have e : insertGroup now g (a :: l) = g :: a :: l := by
            simp [insertGroup, ha]
          rw [e, List.pairwise_cons]
          refine ⟨fun x hx => ?_, hs⟩
          rcases List.mem_cons.1 hx with rfl | hx
          · omega
          · have := h1 x hx; omega
    exact this list h.sorted

/-- A frame later, the groups that are not due then are still in order (R36, R37). -/
theorem order_advance {now : Word} {list : List Group} (h : OrderGood now list) :
    OrderGood (now + 1) (list.filter fun g => !(g.due == now + 1)) := by
  have near : ∀ g ∈ list, ¬ g.due = now + 1 →
      frameDistance (now + 1) g.due + 1 = frameDistance now g.due ∧ 2 ≤ frameDistance now g.due := by
    intro g hg hne
    have h1 := (h.ahead g hg).1
    unfold frameDistance at *
    have hne' : ¬ g.due.toNat = (now.toNat + 1) % 2 ^ 32 := by
      intro e
      apply hne
      apply BitVec.eq_of_toNat_eq
      rw [e, BitVec.toNat_add]; rfl
    have e1 : (g.due - now).toNat = (2 ^ 32 - now.toNat + g.due.toNat) % 2 ^ 32 := BitVec.toNat_sub _ _
    have e2 : (g.due - (now + 1)).toNat = (2 ^ 32 - (now.toNat + 1) % 2 ^ 32 + g.due.toNat) % 2 ^ 32 := by
      rw [BitVec.toNat_sub, BitVec.toNat_add]; rfl
    have l1 := g.due.isLt
    have l2 := now.isLt
    rw [e1] at h1 ⊢
    rw [e2]
    omega
  refine ⟨?_, ?_⟩
  · intro g hg
    obtain ⟨hm, hne⟩ := List.mem_filter.1 hg
    obtain ⟨h1, h2⟩ := near g hm (by simpa using hne)
    have := h.ahead g hm
    omega
  · refine List.Pairwise.imp_of_mem ?_ (h.sorted.filter _)
    intro a b ha hb hab
    obtain ⟨ma, na⟩ := List.mem_filter.1 ha
    obtain ⟨mb, nb⟩ := List.mem_filter.1 hb
    have h1 := near a ma (by simpa using na)
    have h2 := near b mb (by simpa using nb)
    omega

/-- The due frame of an accepted group lies ahead (R32). -/
theorem groupTiming_within {now due : Word} {scheduled : Bool} {p : Word × Bool}
    (h : groupTiming now scheduled due = some p) :
    1 ≤ frameDistance now p.1 ∧ frameDistance now p.1 ≤ Config.horizon := by
  have next : frameDistance now (now + 1) = 1 := by
    unfold frameDistance
    have : now + 1 - now = 1 := by rw [BitVec.add_comm]; simp
    rw [this]; rfl
  unfold groupTiming at h
  simp only at h
  split at h
  · split at h
    · rename_i hd; cases h; exact hd
    · split at h
      · cases h
      · cases h; simp only [next]; decide
  · cases h; simp only [next]; decide

theorem acceptGroup_order {a : Assembly} {s : State} (h : OrderGood s.frame s.sched.list) :
    OrderGood s.frame (acceptGroup a s).sched.list := by
  unfold acceptGroup
  split
  · rw [handAll_eq]; exact h
  · split
    · rw [handAll_eq]; exact h
    · rename_i due late ht
      exact order_insert h (groupTiming_within (p := (due, late)) ht)

theorem takeEdit_order {e : Edit} {s : State} (h : OrderGood s.frame s.sched.list) :
    OrderGood s.frame (takeEdit e s).sched.list := by
  unfold takeEdit
  split
  · exact h
  · exact acceptGroup_order (s := s.withSched { s.sched with assembly := none }) h

theorem joinEdit_order {e : Edit} {s : State} (h : OrderGood s.frame s.sched.list) :
    OrderGood s.frame (joinEdit e s).sched.list := by
  unfold joinEdit parkEdit
  split
  · rw [hand_eq]; exact h
  · split
    · split
      · rw [handAll_eq]; exact h
      · split
        · exact takeEdit_order h
        · exact h
    · split
      · exact takeEdit_order h
      · exact h

theorem retryEdit_order {s : State} (h : OrderGood s.frame s.sched.list) :
    OrderGood s.frame (retryEdit s).sched.list := by
  unfold retryEdit
  split
  · split
    · exact takeEdit_order (s := unpark s) h
    · exact h
  · exact h

/-- The list is not touched by an abort of the assembly group, by a broken chain or by a release. -/
theorem abortAssembly_list (s : State) : (abortAssembly s).sched.list = s.sched.list := by
  unfold abortAssembly
  split
  · rfl
  · rw [handAll_eq]; rfl

theorem breakFor_list (ring : CmdRing) (s : State) : (breakFor ring s).sched.list = s.sched.list := by
  unfold breakFor breakGroup
  split
  · split
    · rfl
    · rw [handAll_eq]; rfl
  · rfl

theorem releaseParked_order {s : State} (h : OrderGood s.frame s.sched.list) :
    OrderGood s.frame (releaseParked s).sched.list := by
  unfold releaseParked
  have := retryEdit_order h
  simpa using this

theorem stopIfDue_order {s : State} (h : OrderGood s.frame s.sched.list) :
    OrderGood s.frame (stopIfDue s).sched.list := by
  unfold stopIfDue
  split
  · unfold endStop
    show OrderGood _ (abortParked (abortAssembly (releaseParked s))).sched.list
    rw [abortParked_sched, abortAssembly_list]
    exact releaseParked_order h
  · exact h

theorem catchUp_order {s : State} (h : OrderGood s.frame s.sched.list) :
    OrderGood s.frame (catchUp s).sched.list := by
  unfold catchUp
  simp only [startMessage_sched, startEvent_sched, startCompletion_sched, eachTapTransfer_sched, startFetch_sched]
  have h1 : ∀ u : State, u.frame = s.frame → u.sched = s.sched →
      OrderGood s.frame (stopIfDue (releaseParked u)).sched.list := by
    intro u hf hd
    have h2 : OrderGood u.frame u.sched.list := by rw [hf, hd]; exact h
    have h3 := stopIfDue_order (s := releaseParked u) (by rw [releaseParked_frame]; exact releaseParked_order h2)
    rw [releaseParked_frame, hf] at h3
    exact h3
  exact h1 _ (by simp) (by simp)

/-! ## Places -/

theorem staged_eq (d : Scheduler) : d.staged = groupsSize d.list + assemblySize d.assembly := rfl

/-- An edit joins or opens a group whose places are free (R28, R33, R34). -/
theorem takeEdit_places {e : Edit} {s : State} (h : PlacesGood s.sched) (hr : s.sched.roomForEdit = true)
    (hl : ∀ a, s.sched.assembly = some a → a.members.length < Config.groupLimit)
    (ho : s.sched.overflow = false) : PlacesGood (takeEdit e s).sched := by
  have hstaged : s.sched.staged < Config.stagingPlaces := by
    unfold Scheduler.roomForEdit Scheduler.stagingFree at hr
    simp only [Bool.and_eq_true, decide_eq_true_eq] at hr
    exact hr.1
  have hplace : s.sched.assembly = none → s.sched.list.length < Config.schedulePlaces := by
    intro hn
    unfold Scheduler.roomForEdit Scheduler.placeFree Scheduler.places at hr
    simp only [hn, Option.isSome_none, Bool.false_or, Bool.and_eq_true, decide_eq_true_eq] at hr
    simpa using hr.2
  have hplaces := h.places
  unfold Scheduler.places at hplaces
  have hjoin : (joinAssembly s.sched.assembly e).members.length = assemblySize s.sched.assembly + 1 := by
    unfold joinAssembly assemblySize
    cases s.sched.assembly <;> simp
  have hroom : s.sched.list.length + 1 ≤ Config.schedulePlaces := by
    cases ha : s.sched.assembly with
    | none => exact hplace ha
    | some a => rw [ha] at hplaces; simpa using hplaces
  have hsize : 1 ≤ (joinAssembly s.sched.assembly e).members.length ∧
      (joinAssembly s.sched.assembly e).members.length ≤ Config.groupLimit := by
    rw [hjoin]
    refine ⟨by omega, ?_⟩
    cases ha : s.sched.assembly with
    | none => decide
    | some a => exact hl a ha
  rw [staged_eq] at hstaged
  unfold takeEdit
  split
  · refine ⟨?_, ?_, h.groups, ?_, ?_⟩
    · show s.sched.list.length + 1 ≤ _; exact hroom
    · show groupsSize s.sched.list + (joinAssembly s.sched.assembly e).members.length ≤ _
      rw [hjoin]; omega
    · intro a ha; cases ha; exact hsize
    · intro hx; exact absurd (show s.sched.overflow = true from hx) (by simp [ho])
  · have base : PlacesGood ({ s.sched with assembly := none } : Scheduler) := by
      refine ⟨?_, ?_, h.groups, (fun a ha => by cases ha), fun _ => rfl⟩
      · show s.sched.list.length + 0 ≤ _; omega
      · show groupsSize s.sched.list + 0 ≤ _; omega
    show PlacesGood (acceptGroup (joinAssembly s.sched.assembly e) (s.withSched { s.sched with assembly := none })).sched
    unfold acceptGroup
    split
    · rw [handAll_eq]; exact base
    · rename_i hgood
      split
      · rw [handAll_eq]; exact base
      · rename_i due late ht
        have hlen := goodMembers_length hgood
        refine ⟨?_, ?_, ?_, (fun a ha => by cases ha), fun _ => rfl⟩
        · show (insertGroup _ _ s.sched.list).length + 0 ≤ _
          rw [(insertGroup_perm _ _ _).length_eq]
          simpa using hroom
        · show groupsSize (insertGroup _ _ s.sched.list) + 0 ≤ _
          rw [insertGroup_size]
          simp only [hlen, hjoin]
          omega
        · intro g hg
          rcases List.mem_cons.1 ((insertGroup_perm _ _ _).mem_iff.1 hg) with rfl | hg
          · simp only [hlen]; exact hsize
          · exact h.groups g hg

/-- An edit fetched from ring A keeps the places (R28, R29, R34, R35). -/
theorem joinEdit_places {e : Edit} {s : State} (h : PlacesGood s.sched) :
    PlacesGood (joinEdit e s).sched := by
  unfold joinEdit parkEdit
  split
  · rename_i ho
    rw [hand_eq]
    have hn := h.tail ho
    exact ⟨h.places, h.staged, h.groups, h.assembly, fun _ => hn⟩
  · rename_i ho
    have ho' : s.sched.overflow = false := by simpa using ho
    split
    · rename_i a ha
      split
      · rw [handAll_eq]
        refine ⟨?_, ?_, h.groups, (fun a ha => by cases ha), fun _ => rfl⟩
        · have := h.places; unfold Scheduler.places at this
          show s.sched.list.length + 0 ≤ _; omega
        · have := h.staged; rw [staged_eq] at this
          show groupsSize s.sched.list + 0 ≤ _; omega
      · rename_i hfull
        split
        · rename_i hroom
          refine takeEdit_places h hroom (fun b hb => ?_) ho'
          rw [ha] at hb; cases hb
          simpa [groupFull] using hfull
        · exact h
    · rename_i ha
      split
      · rename_i hroom
        exact takeEdit_places h hroom (fun b hb => by rw [ha] at hb; cases hb) ho'
      · exact h

/-- The assembly group gone and the overflow tail ended (R30, R163). -/
theorem cleared_places {d : Scheduler} (h : PlacesGood d) :
    PlacesGood { d with assembly := none, overflow := false } := by
  refine ⟨?_, ?_, h.groups, (fun a ha => by cases ha), fun _ => rfl⟩
  · have := h.places; unfold Scheduler.places at this
    show d.list.length + 0 ≤ _; omega
  · have := h.staged; rw [staged_eq] at this
    show groupsSize d.list + 0 ≤ _; omega

theorem breakFor_sched_eq (s : State) :
    (breakFor .a s).sched = { s.sched with assembly := none, overflow := false } := by
  unfold breakFor breakGroup
  simp only
  split
  · rename_i ha
    show ({ s.sched with overflow := false } : Scheduler) = _
    rw [← ha]
  · rw [handAll_eq]; rfl

theorem abortAssembly_sched_eq (s : State) :
    (abortAssembly s).sched = { s.sched with assembly := none, overflow := false } := by
  unfold abortAssembly
  split
  · rename_i ha
    show ({ s.sched with overflow := false } : Scheduler) = _
    rw [← ha]
  · rw [handAll_eq]; rfl

/-- Groups leave the list (R37, R42). -/
theorem filter_places {d : Scheduler} (p : Group → Bool) (h : PlacesGood d) :
    PlacesGood { d with list := d.list.filter p } := by
  have hsize := groupsSize_filter p d.list
  have hlen := List.length_filter_le p d.list
  refine ⟨?_, ?_, fun g hg => h.groups g (List.mem_of_mem_filter hg), h.assembly, h.tail⟩
  · have := h.places
    unfold Scheduler.places at *
    simp only at *
    omega
  · have := h.staged
    rw [staged_eq] at *
    simp only at *
    omega

/-! ## Sizes of the routes that wait -/

/-- Every edit that waits in the schedule and sets a route carries 1 to 4 entries (R24). -/
structure Scheduler.sized (d : Scheduler) : Prop where
  list : ∀ g ∈ d.list, ∀ m ∈ g.members, m.2.sized
  assembly : ∀ a, d.assembly = some a → ∀ m ∈ a.members, ∀ op, m.2 = some op → op.sized

theorem takeEdit_sized {e : Edit} {s : State} (h : s.sched.sized) (he : ∀ op, e.op = some op → op.sized) :
    (takeEdit e s).sched.sized := by
  have hjoin : ∀ m ∈ (joinAssembly s.sched.assembly e).members, ∀ op, m.2 = some op → op.sized := by
    unfold joinAssembly
    cases ha : s.sched.assembly with
    | none =>
      intro m hm op ho
      rw [List.mem_singleton.1 hm] at ho
      exact he op ho
    | some a =>
      intro m hm op ho
      rcases List.mem_append.1 hm with hm | hm
      · exact h.assembly a ha m hm op ho
      · rw [List.mem_singleton.1 hm] at ho
        exact he op ho
  have base : ({ s.sched with assembly := none } : Scheduler).sized :=
    ⟨h.list, fun a ha => by cases ha⟩
  unfold takeEdit
  split
  · exact ⟨h.list, fun a ha => by cases ha; exact hjoin⟩
  · show (acceptGroup (joinAssembly s.sched.assembly e) (s.withSched { s.sched with assembly := none })).sched.sized
    unfold acceptGroup
    split
    · rw [handAll_eq]; exact base
    · split
      · rw [handAll_eq]; exact base
      · refine ⟨?_, fun a ha => by cases ha⟩
        intro g hg m hm
        rcases List.mem_cons.1 ((insertGroup_perm _ _ _).mem_iff.1 hg) with rfl | hg
        · unfold goodMembers at hm
          simp only [List.mem_filterMap] at hm
          obtain ⟨x, hx, hxm⟩ := hm
          cases hop : x.2 with
          | none => rw [hop] at hxm; cases hxm
          | some op =>
            rw [hop] at hxm
            cases hxm
            exact hjoin x hx op hop
        · exact h.list g hg m hm

theorem joinEdit_sized {e : Edit} {s : State} (h : s.sched.sized) (he : ∀ op, e.op = some op → op.sized) :
    (joinEdit e s).sched.sized := by
  unfold joinEdit parkEdit
  split
  · rw [hand_eq]; exact ⟨h.list, h.assembly⟩
  · split
    · split
      · rw [handAll_eq]; exact ⟨h.list, fun a ha => by cases ha⟩
      · split
        · exact takeEdit_sized h he
        · exact h
    · split
      · exact takeEdit_sized h he
      · exact h

theorem cleared_sized {d : Scheduler} (h : d.sized) :
    ({ d with assembly := none, overflow := false } : Scheduler).sized :=
  ⟨h.list, fun a ha => by cases ha⟩

theorem filter_sized {d : Scheduler} (p : Group → Bool) (h : d.sized) :
    ({ d with list := d.list.filter p } : Scheduler).sized :=
  ⟨fun g hg => h.list g (List.mem_of_mem_filter hg), h.assembly⟩

/-! ## What is parked -/

/-- An edit fetched from ring A is parked, or the parked command is as before (R35). -/
theorem joinEdit_parked (e : Edit) (s : State) :
    (joinEdit e s).engine.parked = s.engine.parked ∨
      ((joinEdit e s).engine.parked = some (.edit e) ∧ (joinEdit e s).sched = s.sched ∧
        s.sched.overflow = false ∧ ∀ a, s.sched.assembly = some a → a.members.length < Config.groupLimit) := by
  have take : ∀ u : State, (takeEdit e u).engine.parked = u.engine.parked := by
    intro u
    unfold takeEdit
    split
    · rfl
    · show (acceptGroup (joinAssembly u.sched.assembly e) (u.withSched { u.sched with assembly := none })).engine.parked = _
      unfold acceptGroup
      split
      · rw [handAll_eq]; rfl
      · split
        · rw [handAll_eq]; rfl
        · rfl
  unfold joinEdit parkEdit
  split
  · rw [hand_eq]; exact .inl rfl
  · rename_i ho
    have ho' : s.sched.overflow = false := by simpa using ho
    split
    · rename_i a ha
      split
      · rw [handAll_eq]; exact .inl rfl
      · rename_i hfull
        split
        · exact .inl (take s)
        · refine .inr ⟨rfl, rfl, ho', fun b hb => ?_⟩
          rw [ha] at hb; cases hb
          simpa [groupFull] using hfull
    · rename_i ha
      split
      · exact .inl (take s)
      · exact .inr ⟨rfl, rfl, ho', fun b hb => by rw [ha] at hb; cases hb⟩

/-! Operations that leave the parked command alone. -/

section
variable (s : State)
@[simp] theorem breakFor_parked (ring : CmdRing) : (breakFor ring s).engine.parked = s.engine.parked := by
  unfold breakFor breakGroup
  split
  · split
    · rfl
    · rw [handAll_eq]; rfl
  · rfl
@[simp] theorem refuse_parked (status : Status) (id : CmdId) :
    (refuse status id s).engine.parked = s.engine.parked := by
  unfold refuse
  rw [hand_eq]
  exact breakFor_parked s id.ring
@[simp] theorem cancelGroups_parked (id : CmdId) (label : Half) :
    (cancelGroups id label s).engine.parked = s.engine.parked := by
  unfold cancelGroups
  rw [handAll_eq]; rfl
@[simp] theorem takeEdit_parked (e : Edit) : (takeEdit e s).engine.parked = s.engine.parked := by
  unfold takeEdit
  split
  · rfl
  · show (acceptGroup (joinAssembly s.sched.assembly e)
      (s.withSched { s.sched with assembly := none })).engine.parked = _
    unfold acceptGroup
    split
    · rw [handAll_eq]; rfl
    · split
      · rw [handAll_eq]; rfl
      · rfl
@[simp] theorem readTaken_parked (id : CmdId) (f : ReadFields) :
    (readTaken id f s).engine.parked = s.engine.parked := by
  unfold readTaken
  split
  · rw [hand_eq]; rfl
  · rfl
@[simp] theorem finishRead_parked (r : ReadSlot) : (finishRead r s).engine.parked = s.engine.parked := by
  unfold finishRead
  rw [hand_eq]; rfl
@[simp] theorem startFetch_parked : (startFetch s).engine.parked = s.engine.parked := by
  unfold startFetch
  split
  · split <;> rfl
  · rfl
@[simp] theorem startCompletion_parked : (startCompletion s).engine.parked = s.engine.parked := by
  unfold startCompletion
  split
  · rfl
  · split <;> rfl
@[simp] theorem settleClosing_parked : (settleClosing s).engine.parked = s.engine.parked := by
  unfold settleClosing
  simp only
  rw [handAll_eq]; rfl
@[simp] theorem finishWrite_parked (n : TapId) : (finishWrite n s).engine.parked = s.engine.parked := by
  unfold finishWrite
  simp only
  split
  · rw [settleClosing_parked, handAll_eq]; rfl
  · rw [handAll_eq]; rfl
@[simp] theorem takeCreditTap_parked (id : CmdId) (f : CreditFields) :
    (takeCreditTap id f s).engine.parked = s.engine.parked := by
  unfold takeCreditTap
  simp only [emit_engine]; rfl
@[simp] theorem onLink_parked (n : LinkId) (f : Link → LinkStep) :
    (s.onLink n f).engine.parked = s.engine.parked := by
  rw [onLink_engine]; rfl
@[simp] theorem eachLink_parked (f : LinkId → Link → LinkStep) :
    (eachLink f s).engine.parked = s.engine.parked :=
  foldl_same (fun t : State => t.engine.parked) _ (fun t n => onLink_parked t n (f n)) _ _
@[simp] theorem cutGroup_parked (g : Group) : (cutGroup s g).engine.parked = s.engine.parked := by
  unfold cutGroup
  split
  · rw [handAll_eq]; rfl
  · rw [settleClosing_parked]; rfl
@[simp] theorem cutOver_parked : (cutOver s).engine.parked = s.engine.parked :=
  foldl_same (fun t : State => t.engine.parked) _ cutGroup_parked _ _
@[simp] theorem startSchedule_parked : (startSchedule s).engine.parked = s.engine.parked := by
  unfold startSchedule; split <;> simp
@[simp] theorem runTaps_parked : (runTaps s).engine.parked = s.engine.parked := by
  obtain ⟨t, rfl, h | h⟩ := runTaps_cases s <;> rw [h] <;> simp
@[simp] theorem startTaps_parked : (startTaps s).engine.parked = s.engine.parked := by
  unfold startTaps; split <;> simp
/-- When a stop has ended nothing is parked (R45, R163). -/
theorem abortParked_parked : (abortParked s).engine.parked = none := by
  unfold abortParked
  split
  · assumption
  · rw [hand_eq]; rfl
  · rw [hand_eq]; rfl
  · rw [post_eq]; rfl
end

/-- The commands in a set-route record have 1 to 4 entries (R24). -/
theorem parseEntries_length {r : CommandRecord} {n o : Nat} {es : List SourceEntry}
    (h : parseEntries r n o = some es) : es.length = n := by
  induction n generalizing o es with
  | zero => cases h; rfl
  | succ n ih =>
    unfold parseEntries at h
    split at h
    · rename_i e rest _ hr
      cases h
      simp [ih hr]
    · cases h

theorem editOf_sized {i : Instr} {r : CommandRecord} {op : EditOp} (h : editOf i = some (r, some op)) :
    op.sized := by
  cases i <;> simp only [editOf, Option.some.injEq, Prod.mk.injEq, reduceCtorEq] at h
  case setRoute q =>
    have hp := h.2
    unfold parseSetRoute at hp
    simp only at hp
    split at hp
    · rename_i hc
      simp only [Bool.and_eq_true, decide_eq_true_eq] at hc
      split at hp
      · rename_i n c es _ _ he
        cases hp
        have := parseEntries_length he
        exact ⟨by rw [this]; exact hc.1.1.2, by rw [this]; exact hc.1.2⟩
      · cases hp
    · cases hp
  case clearRoute q =>
    have hp := h.2
    unfold parseClearRoute at hp
    split at hp
    · split at hp <;> cases hp; trivial
    · cases hp
  case muteRoute q =>
    have hp := h.2
    unfold parseMuteRoute at hp
    split at hp
    · split at hp <;> cases hp; trivial
    · cases hp
  case openTap q =>
    have hp := h.2
    unfold parseOpenTap at hp
    split at hp
    · split at hp <;> cases hp; trivial
    · cases hp
  case closeTap q =>
    have hp := h.2
    unfold parseCloseTap at hp
    split at hp
    · cases hp' : named 16 (recByte q 16) <;> rw [hp'] at hp <;> cases hp; trivial
    · cases hp

end Sys2Proof.Machine
end

