-- ==== Sys2Proof/Laws/Credits.lean ====
section
/-! SUPPORT. What each operation does to the number of completions that the hub owes: handing a completion,
taking a command and settling closed taps lose none and count none twice. -/

namespace Sys2Proof.Machine

@[simp] theorem oneIf_some {α : Type} (a : α) : oneIf (some a) = 1 := rfl
@[simp] theorem oneIf_none {α : Type} : oneIf (none : Option α) = 0 := rfl

/-- The completions owed by all links (R86, R116). -/
def linksOwe (links : Table 8 Link) : Nat := (links.items.map Link.owes).sum

/-- The completions owed, part by part. -/
theorem owed_parts (s : State) : s.owed =
    oneIf s.engine.fetch + s.engine.postQueue.length + oneIf s.engine.compWrite
      + s.sched.staged + oneIf s.engine.parked + oneIf s.core.slot
      + tapsOwe s.taps + closingOwe s.closing + linksOwe s.links := rfl

section
variable {s : State} (h : s.engine.mode ≠ .halted)
include h

theorem owed_handed (cs : List Completion) :
    (s.withEngine (s.engine.handed cs)).owed = s.owed + cs.length := by
  rw [owed_parts, owed_parts]
  simp only [withEngine_engine, withEngine_sched, withEngine_core, withEngine_taps, withEngine_closing,
    withEngine_links, handed_fetch, handed_compWrite, handed_parked, handed_postQueue _ _ h,
    List.length_append]
  omega

theorem owed_hand (c : Completion) : (hand c s).owed = s.owed + 1 := by
  rw [hand_eq, owed_handed h]; rfl

theorem owed_handAll (cs : List Completion) : (handAll cs s).owed = s.owed + cs.length := by
  rw [handAll_eq, owed_handed h]

theorem owed_post (c : Completion) : (post c s).owed = s.owed + 1 := by
  rw [post_eq, if_neg h, owed_parts, owed_parts]
  simp only [withEngine_engine, withEngine_sched, withEngine_core, withEngine_taps, withEngine_closing,
    withEngine_links, List.length_append, List.length_singleton]
  omega

theorem owed_emit (es : List Effect) : (emit es s).owed = s.owed + (completionsOf es).length := by
  rw [emit_eq, owed_parts]
  show oneIf (s.engine.handed _).fetch + (s.engine.handed _).postQueue.length
    + oneIf (s.engine.handed _).compWrite + _ + oneIf (s.engine.handed _).parked + _ + _ + _ + _ = _
  rw [handed_postQueue _ _ h, owed_parts]
  simp only [handed_fetch, handed_compWrite, handed_parked, List.length_append, withEvents_sched,
    withEngine_sched, withEvents_core, withEngine_core, withEvents_taps, withEngine_taps, withEvents_closing,
    withEngine_closing, withEvents_links, withEngine_links]
  omega
end

theorem owed_setLink (s : State) (n : LinkId) (l : Link) :
    (s.setLink n l).owed + (s.links.get n).owes = s.owed + l.owes := by
  have := table_sum_set Link.owes s.links n l
  rw [owed_parts, owed_parts]
  show _ + linksOwe (s.links.set n l) + _ = _
  unfold linksOwe
  simp only [setLink_engine, setLink_sched, setLink_core, setLink_taps, setLink_closing]
  omega

theorem owed_setTap (s : State) (n : TapId) (t : Tap) :
    (s.setTap n t).owed + (s.taps.get n).buffers.length = s.owed + t.buffers.length := by
  have := table_sum_set (fun t : Tap => t.buffers.length) s.taps n t
  rw [owed_parts, owed_parts]
  show _ + tapsOwe (s.taps.set n t) + _ + _ + _ = _
  unfold tapsOwe
  simp only [setTap_engine, setTap_sched, setTap_core, setTap_closing, setTap_links]
  omega

theorem owed_withSched (s : State) (d : Scheduler) :
    (s.withSched d).owed + s.sched.staged = s.owed + d.staged := by
  rw [owed_parts, owed_parts]
  simp only [withSched_engine, withSched_sched, withSched_core, withSched_taps, withSched_closing,
    withSched_links]
  omega

theorem owed_withClosing (s : State) (c : List ClosingGroup) :
    (s.withClosing c).owed + closingOwe s.closing = s.owed + closingOwe c := by
  rw [owed_parts, owed_parts]
  simp only [withClosing_engine, withClosing_sched, withClosing_core, withClosing_taps, withClosing_closing,
    withClosing_links]
  omega

/-- A Link Unit's event: `k` completions more are owed (R86, R116). -/
theorem owed_onLink {s : State} {n : LinkId} {f : Link → LinkStep} {k : Nat} (h : s.engine.mode ≠ .halted)
    (hk : Settles (s.links.get n) k (f (s.links.get n))) : (s.onLink n f).owed = s.owed + k := by
  unfold State.onLink
  simp only
  rw [owed_emit (by simpa using h)]
  have := owed_setLink s n (f (s.links.get n)).1
  unfold Settles at hk
  omega

/-! ## The schedule -/

theorem owed_acceptGroup {a : Assembly} {s : State} (h : s.engine.mode ≠ .halted) :
    (acceptGroup a s).owed = s.owed + a.members.length := by
  unfold acceptGroup
  split
  · rw [owed_handAll h]; simp
  · rename_i hgood
    split
    · rw [owed_handAll h]; simp
    · rename_i due late _
      have := owed_withSched s { s.sched with
        list := insertGroup s.frame ⟨a.label, due, late, goodMembers a.members⟩ s.sched.list }
      rw [staged_eq, staged_eq] at this
      simp only [insertGroup_size, goodMembers_length hgood] at this
      simp only
      omega

theorem joinAssembly_size (a : Option Assembly) (e : Edit) :
    (joinAssembly a e).members.length = assemblySize a + 1 := by
  unfold joinAssembly assemblySize
  cases a <;> simp

theorem owed_takeEdit {e : Edit} {s : State} (h : s.engine.mode ≠ .halted) :
    (takeEdit e s).owed = s.owed + 1 := by
  have hj := joinAssembly_size s.sched.assembly e
  unfold takeEdit
  split
  · have := owed_withSched s { s.sched with assembly := some (joinAssembly s.sched.assembly e) }
    rw [staged_eq, staged_eq] at this
    simp only [assemblySize] at this hj ⊢
    omega
  · show (acceptGroup (joinAssembly s.sched.assembly e)
      (s.withSched { s.sched with assembly := none })).owed = _
    rw [owed_acceptGroup (by simpa using h)]
    have := owed_withSched s { s.sched with assembly := none }
    rw [staged_eq, staged_eq] at this
    simp only [assemblySize] at this hj ⊢
    omega

theorem owed_park {s : State} (p : Parked) (hp : s.engine.parked = none) :
    (s.withEngine { s.engine with parked := some p }).owed = s.owed + 1 := by
  rw [owed_parts, owed_parts]
  simp only [withEngine_engine, withEngine_sched, withEngine_core, withEngine_taps, withEngine_closing,
    withEngine_links, hp, oneIf_some, oneIf_none]
  omega

theorem owed_unpark {s : State} {p : Parked} (hp : s.engine.parked = some p) :
    (unpark s).owed + 1 = s.owed := by
  rw [owed_parts, owed_parts]
  unfold unpark
  simp only [withEngine_engine, withEngine_sched, withEngine_core, withEngine_taps, withEngine_closing,
    withEngine_links, hp, oneIf_some, oneIf_none]
  omega

theorem owed_joinEdit {e : Edit} {s : State} (h : s.engine.mode ≠ .halted) (hp : s.engine.parked = none) :
    (joinEdit e s).owed = s.owed + 1 := by
  unfold joinEdit parkEdit
  split
  · rw [owed_hand (by simpa using h)]
    have : (s.withSched { s.sched with overflow := e.chain }).owed + s.sched.staged = s.owed + s.sched.staged :=
      owed_withSched s _
    omega
  · split
    · rename_i a ha
      split
      · rw [owed_handAll (by simpa using h)]
        have := owed_withSched s { s.sched with assembly := none, overflow := e.chain }
        rw [staged_eq, staged_eq] at this
        simp only [ha, assemblySize] at this
        simp only [List.length_append, memberCompletions_length, List.length_singleton]
        omega
      · split
        · exact owed_takeEdit h
        · exact owed_park _ hp
    · split
      · exact owed_takeEdit h
      · exact owed_park _ hp

theorem owed_breakFor {ring : CmdRing} {s : State} (h : s.engine.mode ≠ .halted) :
    (breakFor ring s).owed = s.owed := by
  unfold breakFor breakGroup
  split
  · split
    · rename_i ha
      have : (s.withSched { s.sched with overflow := false }).owed + s.sched.staged = s.owed + s.sched.staged :=
        owed_withSched s _
      omega
    · rename_i a ha
      rw [owed_handAll (by simpa using h)]
      have := owed_withSched s { s.sched with assembly := none, overflow := false }
      rw [staged_eq, staged_eq] at this
      simp only [ha, assemblySize] at this
      simp only [memberCompletions_length]
      omega
  · rfl

theorem breakFor_mode (ring : CmdRing) (s : State) : (breakFor ring s).engine.mode = s.engine.mode :=
  (breakFor_control ring s).mode

theorem owed_refuse {status : Status} {id : CmdId} {s : State} (h : s.engine.mode ≠ .halted) :
    (refuse status id s).owed = s.owed + 1 := by
  unfold refuse
  rw [owed_hand (by rw [breakFor_mode]; exact h), owed_breakFor h]

theorem owed_cancelGroups {id : CmdId} {label : Half} {s : State} (h : s.engine.mode ≠ .halted) :
    (cancelGroups id label s).owed = s.owed + 1 := by
  unfold cancelGroups
  simp only
  rw [owed_handAll (by simpa using h)]
  have h1 := owed_withSched s { s.sched with list := s.sched.list.filter fun g => !(g.label == label) }
  have h2 := groupsSize_filter (fun g => g.label == label) s.sched.list
  rw [staged_eq, staged_eq] at h1
  simp only [List.length_append, cancelCompletions_length, List.length_singleton] at h1 ⊢
  omega

/-! ## Commands at the Switch Core and the parked command -/

theorem owed_readTaken {id : CmdId} {f : ReadFields} {s : State} (h : s.engine.mode ≠ .halted)
    (hs : s.core.slot = none) : (readTaken id f s).owed = s.owed + 1 := by
  unfold readTaken
  split
  · exact owed_hand h _
  · rw [owed_parts, owed_parts]
    simp only [withCore_engine, withCore_sched, withCore_core, withCore_taps, withCore_closing,
      withCore_links, hs, oneIf_some, oneIf_none]
    omega

theorem owed_takeRead {id : CmdId} {f : ReadFields} {s : State} (h : s.engine.mode ≠ .halted)
    (hp : s.engine.parked = none) : (takeRead id f s).owed = s.owed + 1 := by
  unfold takeRead
  split
  · rename_i hs
    exact owed_readTaken h (by simpa using hs)
  · exact owed_park _ hp

theorem owed_takeFence {id : CmdId} {u : Unit} {s : State} (h : s.engine.mode ≠ .halted)
    (hp : s.engine.parked = none) : (takeFence id u s).owed = s.owed + 1 := by
  unfold takeFence uncount
  simp only
  split
  · rw [owed_post (by exact h)]; rfl
  · exact owed_park (s := s.withEngine { s.engine with outstanding := s.engine.outstanding - 1 }) _ hp

theorem owed_finishRead {r : ReadSlot} {s : State} (h : s.engine.mode ≠ .halted)
    (hs : s.core.slot = some r) : (finishRead r s).owed = s.owed := by
  unfold finishRead
  rw [owed_hand (by simpa using h), owed_parts, owed_parts]
  simp only [withCore_engine, withCore_sched, withCore_core, withCore_taps, withCore_closing,
    withCore_links, hs, oneIf_some, oneIf_none]
  omega

theorem owed_retryEdit (s : State) : (retryEdit s).owed = s.owed := by
  unfold retryEdit
  split
  · rename_i e he
    split
    · rename_i hc
      simp only [Bool.and_eq_true, bne_iff_ne, ne_eq] at hc
      rw [owed_takeEdit (by exact hc.1)]
      exact owed_unpark he
    · rfl
  · rfl

theorem owed_takeParkedRead (s : State) : (takeParkedRead s).owed = s.owed := by
  unfold takeParkedRead
  split
  · rename_i he
    split
    · rename_i hc
      simp only [Bool.and_eq_true, bne_iff_ne, ne_eq, Option.isNone_iff_eq_none] at hc
      rw [owed_readTaken (by exact hc.1) (by exact hc.2)]
      exact owed_unpark he
    · rfl
  · rfl

theorem owed_releaseFence (s : State) : (releaseFence s).owed = s.owed := by
  unfold releaseFence
  split
  · rename_i he
    split
    · rename_i hc
      simp only [Bool.and_eq_true, bne_iff_ne, ne_eq] at hc
      rw [owed_post (by exact hc.1)]
      exact owed_unpark he
    · rfl
  · rfl

theorem owed_releaseParked (s : State) : (releaseParked s).owed = s.owed := by
  unfold releaseParked
  rw [owed_releaseFence, owed_takeParkedRead, owed_retryEdit]

theorem owed_abortAssembly {s : State} (h : s.engine.mode ≠ .halted) :
    (abortAssembly s).owed = s.owed := by
  unfold abortAssembly
  split
  · have key : ∀ d : Scheduler, d.staged = s.sched.staged → (s.withSched d).owed = s.owed := by
      intro d hd
      have := owed_withSched s d
      omega
    exact key _ rfl
  · rename_i a ha
    rw [owed_handAll (by simpa using h)]
    have := owed_withSched s { s.sched with assembly := none, overflow := false }
    rw [staged_eq, staged_eq] at this
    simp only [ha, assemblySize] at this
    simp only [memberCompletions_length]
    omega

theorem owed_abortParked {s : State} (h : s.engine.mode ≠ .halted) : (abortParked s).owed = s.owed := by
  unfold abortParked
  split
  · rfl
  · rename_i hp; rw [owed_hand (by exact h)]; exact owed_unpark hp
  · rename_i hp; rw [owed_hand (by exact h)]; exact owed_unpark hp
  · rename_i hp; rw [owed_post (by exact h)]; exact owed_unpark hp

theorem owed_stopEnded (s : State) : (s.withEngine s.engine.stopEnded).owed = s.owed := by
  unfold RingEngine.stopEnded RingEngine.start
  simp only
  split
  · split <;> rfl
  · rfl

theorem owed_stopIfDue (s : State) : (stopIfDue s).owed = s.owed := by
  unfold stopIfDue
  split
  · rename_i hc
    simp only [Bool.and_eq_true, beq_iff_eq] at hc
    have h : s.engine.mode ≠ .halted := by rw [hc.1]; exact fun h => by cases h
    have h1 : (releaseParked s).engine.mode ≠ .halted := by rw [(releaseParked_control s).mode]; exact h
    have h2 : (abortAssembly (releaseParked s)).engine.mode ≠ .halted := by
      rw [(abortAssembly_control _).mode]; exact h1
    unfold endStop
    simp only
    rw [owed_stopEnded, owed_abortParked h2, owed_abortAssembly h1, owed_releaseParked]
  · rfl

/-! ## Taps -/

theorem owed_settleClosing {s : State} (h : s.engine.mode ≠ .halted) : (settleClosing s).owed = s.owed := by
  unfold settleClosing
  simp only
  rw [owed_handAll (by simpa using h)]
  have h1 := owed_withClosing s (settleGroups [] s.closing).1
  have h2 := settleGroups_owes [] s.closing
  omega

theorem owed_finishWrite {n : TapId} {s : State} (h : s.engine.mode ≠ .halted) :
    (finishWrite n s).owed = s.owed := by
  unfold finishWrite
  simp only
  split
  · rename_i p hp
    have h0 : ((s.setTap n { s.taps.get n with writing := false }).withClosing p.1).engine.mode ≠ .halted := by
      simpa using h
    rw [owed_settleClosing (by rw [handAll_eq]; exact h0), owed_handAll h0]
    have key : ∀ t : Tap, t.buffers.length = (s.taps.get n).buffers.length →
        ((s.setTap n t).withClosing p.1).owed + p.2.length = s.owed := by
      intro t ht
      have h1 := owed_setTap s n t
      have h2 := owed_withClosing (s.setTap n t) p.1
      have h3 := writeClosed_owes hp
      simp only [setTap_closing] at h2
      omega
    exact key _ rfl
  · rw [owed_handAll (by simpa using h)]
    have h1 := owed_setTap s n { s.taps.get n with
      writing := false, runs := (s.taps.get n).runs.drop 1, buffers := (noteWritten (s.taps.get n).buffers).1 }
    have h2 := (noteWritten_keeps (s.taps.get n).buffers).1
    simp only at h1
    omega

theorem owed_takeCreditTap {id : CmdId} {f : CreditFields} {s : State} (h : s.engine.mode ≠ .halted)
    (ht : TapGood (s.taps.get f.tap)) : (takeCreditTap id f s).owed = s.owed + 1 := by
  unfold takeCreditTap
  simp only
  rw [owed_emit (by simpa using h)]
  have h1 := owed_setTap s f.tap (takeCredit id f (s.taps.get f.tap)).1
  have h2 := (takeCredit_keeps (id := id) (f := f) ht).settles
  omega

theorem owed_cutGroup {s : State} {g : Group} (h : s.engine.mode ≠ .halted)
    (ht : ∀ n, TapGood (s.taps.get n)) (hr : RoutedTapsOpen s) :
    (cutGroup s g).owed = s.owed + g.members.length := by
  unfold cutGroup
  split
  · rw [owed_handAll h]; simp
  · rename_i w hw
    have h1 := runMembers_keeps
      (P := fun w => w.tapsGood ∧ tapsOwe w.taps + closedOwe w.closed = tapsOwe s.taps)
      (w := s.work) ⟨⟨ht, hr⟩, rfl⟩
      (fun m _ w v h he => ⟨applyEdit_taps h.1 he, (applyEdit_owes h.1.taps he).trans h.2⟩) hw
    rw [owed_settleClosing (by exact h), owed_parts, owed_parts]
    show oneIf s.engine.fetch + s.engine.postQueue.length + oneIf s.engine.compWrite + s.sched.staged
      + oneIf s.engine.parked + oneIf s.core.slot + tapsOwe w.taps
      + closingOwe (s.closing ++ [⟨w.closed, doneCompletions g⟩]) + linksOwe s.links = _
    have h2 : closingOwe (s.closing ++ [⟨w.closed, doneCompletions g⟩]) =
        closingOwe s.closing + (g.members.length + closedOwe w.closed) := by
      simp [closingOwe, ClosingGroup.owes, closedOwe]
    rw [h2]
    have := h1.2
    omega

/-- The completions that the taps hand in a frame settle what their buffers owe (R60). -/
theorem tapSteps_settle (s : State) (ht : ∀ n, TapGood (s.taps.get n)) :
    (completionsOf ((tapSteps s).flatMap fun p => p.1.2)).length +
        tapsOwe (Table.ofFn fun n => (tapFrame n (givenSample s (s.taps.get n)) (s.taps.get n)).1.1) =
      tapsOwe s.taps := by
  have split : ∀ f : TapId → (Tap × List Effect) × Bool, ∀ l : List TapId,
      (completionsOf ((l.map f).flatMap fun p => p.1.2)).length =
        (l.map fun n => (completionsOf (f n).1.2).length).sum := by
    intro f l
    induction l with
    | nil => rfl
    | cons n l ih =>
      simp only [List.map_cons, List.flatMap_cons, completionsOf_append, List.length_append, List.sum_cons, ih]
  have items : ∀ (t : Table 16 Tap), tapsOwe t = ((List.finRange 16).map fun n => (t.get n).buffers.length).sum := by
    intro t
    unfold tapsOwe
    congr 1
    apply List.ext_getElem (by simp [t.size_eq])
    intro i h1 h2
    simp [Table.get]
  unfold tapSteps
  rw [split, items, items, ← List.sum_map_add]
  congr 1
  apply List.map_congr_left
  intro n _
  have := (tapFrame_keeps (n := n) (given := givenSample s (s.taps.get n)) (ht n)).settles
  rw [Table.get_ofFn]
  omega

end Sys2Proof.Machine
end

