-- ==== Sys2Proof/Laws/Decode.lean ====
section
/-! SUPPORT. What a fetched record of 64 bytes is read as: the row that its kind code names, with its other
bytes in their places. -/

namespace Sys2Proof

theorem commandOfRecord_known {bytes : Table 64 Byte} {command : CommandRecord → Instr}
    (h : commandOfKind (bytes.get 0) = some command) :
    commandOfRecord bytes = command ⟨Table.ofFn fun i => bytes.get i.succ⟩ := by
  unfold commandOfRecord
  simp only [h]

theorem commandOfRecord_unknown {bytes : Table 64 Byte} (h : commandOfKind (bytes.get 0) = none) :
    commandOfRecord bytes = .badKind (bytes.get 0) ⟨Table.ofFn fun i => bytes.get i.succ⟩ := by
  unfold commandOfRecord
  simp only [h]

/-- A listed kind names a row that every record spells. -/
theorem commandOfKind_wellFormed {kind : Byte} {command : CommandRecord → Instr}
    (h : commandOfKind kind = some command) (r : CommandRecord) : (command r).wellFormed = true := by
  unfold commandOfKind at h
  split at h <;> cases h <;> rfl

namespace Machine

/-- A byte inside a table is the table's. -/
theorem byteAt_items {n : Nat} (t : Table n Byte) (i : Fin n) : byteAt t.items i.val = t.get i := by
  simp [byteAt, Table.get, t.size_eq]

/-- Byte `k` of the command is byte `k` of the whole record (10.2). -/
theorem recByte_tail (bytes : Table 64 Byte) {k : Fin 64} (h : k ≠ 0) :
    recByte ⟨Table.ofFn fun i => bytes.get i.succ⟩ k.val = bytes.get k := by
  obtain ⟨i, rfl⟩ := Fin.exists_succ_eq.mpr h
  show byteAt (Table.ofFn fun i => bytes.get i.succ).items i.val = _
  rw [byteAt_items, Table.get_ofFn]

end Machine

end Sys2Proof
end

