-- ==== Sys2Proof/Laws/Fetch.lean ====
section
/-! SUPPORT. The shared operations of fetch and of forming groups in the terms of the statements: handing
completions, the end of a read, breaking a group, timing, and an edit that joins. -/

namespace Sys2Proof.Machine

/-! ## Completions -/

theorem answered_eq {s : State} (h : s.engine.mode ≠ .halted) (cs : List Completion) :
    s.withEngine (s.engine.handed cs) = s.answered cs := by
  simp [State.answered, RingEngine.handed, h, State.withEngine]

theorem hand_answered {s : State} (h : s.engine.mode ≠ .halted) (c : Completion) :
    hand c s = s.answered [c] := by
  rw [hand_eq, answered_eq h]

theorem handAll_answered {s : State} (h : s.engine.mode ≠ .halted) (cs : List Completion) :
    handAll cs s = s.answered cs := by
  rw [handAll_eq, answered_eq h]

/-- A FENCE's completion, which no count goes with (R44). -/
theorem post_running {s : State} (h : s.engine.mode ≠ .halted) (c : Completion) :
    post c s = { s with engine := { s.engine with postQueue := s.engine.postQueue ++ [c] } } := by
  unfold post
  rw [if_neg h]
  rfl

@[simp] theorem answered_mode (s : State) (cs : List Completion) :
    (s.answered cs).engine.mode = s.engine.mode := rfl

/-! ## The end of a read -/

theorem readEnded_eq (s : State) (ring : CmdRing) :
    s.withEngine (s.engine.fetchEnded ring) = s.readEnded ring := by
  cases ring <;> rfl

@[simp] theorem readEnded_mode (s : State) (ring : CmdRing) :
    (s.readEnded ring).engine.mode = s.engine.mode := by
  cases ring <;> rfl

/-- The end of a read hands the command, with the identity of its slot, and then ends a stop that has waited
for it (R135, R140, R163). -/
theorem takeFetch_inFlight {s : State} {ring : CmdRing} {slot : Nat} (h : ReadInFlight s ring slot)
    (r : CommandRecord) (f : CmdId → State → State) :
    takeFetch r f s = stopIfDue (f ⟨recTag r, ring, slot⟩ (s.readEnded ring)) := by
  unfold takeFetch
  rw [h.fetch]
  simp only [readEnded_eq]

@[simp] theorem broken_mode (s : State) (ring : CmdRing) :
    (s.broken ring).engine.mode = s.engine.mode := by
  cases ring <;> rfl

theorem breakFor_broken {s : State} (h : s.engine.mode ≠ .halted) (ring : CmdRing) :
    breakFor ring s = s.broken ring := by
  cases ring with
  | b => rfl
  | a =>
    unfold breakFor breakGroup State.broken
    simp only
    cases ha : s.sched.assembly with
    | none => simp [brokenCompletions, State.answered, ringACount, State.withSched]
    | some a =>
      simp only [memberCompletions, brokenCompletions]
      rw [handAll_answered (by exact h)]
      rfl

/-- A command refused at fetch (R138, R139). -/
theorem refuse_answered {s : State} (h : s.engine.mode ≠ .halted) (status : Status) (id : CmdId) :
    refuse status id s = (s.broken id.ring).answered [.plain id status 0] := by
  unfold refuse
  rw [breakFor_broken h, hand_answered (by rwa [broken_mode])]

/-- A command of one ring found there with good fields (R138, R139). -/
theorem fetchedPlain_taken {α : Type} {own : CmdRing} {fields : Option α} {f : α}
    {take : CmdId → α → State → State} {tag : Word} {slot : Nat} {s : State}
    (h : s.engine.mode ≠ .halted) (hf : fields = some f) :
    fetchedPlain own fields take ⟨tag, own, slot⟩ s = take ⟨tag, own, slot⟩ f (s.broken own) := by
  unfold fetchedPlain
  rw [if_pos rfl, hf]
  simp only
  rw [breakFor_broken h]

theorem fetchedPlain_wrong {α : Type} {own : CmdRing} {fields : Option α}
    {take : CmdId → α → State → State} {id : CmdId} {s : State} (h : s.engine.mode ≠ .halted)
    (hr : id.ring ≠ own) :
    fetchedPlain own fields take id s = (s.broken id.ring).answered [.plain id .wrongRing 0] := by
  unfold fetchedPlain
  rw [if_neg hr, refuse_answered h]

theorem fetchedPlain_bad {α : Type} {own : CmdRing} {fields : Option α}
    {take : CmdId → α → State → State} {id : CmdId} {s : State} (h : s.engine.mode ≠ .halted)
    (hr : id.ring = own) (hf : fields = none) :
    fetchedPlain own fields take id s = (s.broken id.ring).answered [.plain id .badField 0] := by
  unfold fetchedPlain
  rw [if_pos hr, hf]
  simp only
  rw [refuse_answered h]

/-! ## Forming groups -/

theorem editOf_effect {i : Instr} {r : CommandRecord} {op : Option EditOp} {s : State}
    (h : editOf i = some (r, op)) :
    i.wellFormed = true ∧ effectOf i s = takeFetch r (fetchedEdit op r) s := by
  cases i <;> simp [editOf] at h <;> obtain ⟨rfl, rfl⟩ := h <;> exact ⟨rfl, rfl⟩

/-- An edit fetched from ring A reaches the Edit Scheduler (R27). -/
theorem edit_joins {i : Instr} {r : CommandRecord} {op : Option EditOp} {s : State} {slot : Nat}
    (hr : ReadInFlight s .a slot) (h : editOf i = some (r, op)) :
    exec i s = .next (stopIfDue (joinEdit
      ⟨⟨recTag r, .a, slot⟩, recChain r, recScheduled r, recLabel r, recDue r, op⟩
      (s.readEnded .a))) := by
  obtain ⟨hw, he⟩ := editOf_effect (s := s) h
  rw [exec_effect hw hr.running, he, takeFetch_inFlight hr]
  rfl

theorem roomForEdit_of {d : Scheduler} (h1 : d.staged < 64)
    (h2 : d.assembly = none → d.places < 8) : d.roomForEdit = true := by
  unfold Scheduler.roomForEdit Scheduler.stagingFree Scheduler.placeFree
  cases h : d.assembly <;> simp_all [Config.stagingPlaces, Config.schedulePlaces]

theorem noRoomForEdit_of {d : Scheduler}
    (h : 64 ≤ d.staged ∨ (d.assembly = none ∧ 8 ≤ d.places)) : d.roomForEdit = false := by
  unfold Scheduler.roomForEdit Scheduler.stagingFree Scheduler.placeFree
  rcases h with h | ⟨h1, h2⟩
  · have : ¬ d.staged < 64 := by omega
    simp [this, Config.stagingPlaces]
  · have : ¬ d.places < 8 := by omega
    simp [h1, this, Config.schedulePlaces]

theorem groupFull_iff (a : Assembly) : groupFull a = true ↔ 16 ≤ a.members.length := by
  simp [groupFull, Config.groupLimit]

/-- An edit with room opens or joins a group (R28). -/
theorem joinEdit_room {s : State} {e : Edit} (ho : s.sched.overflow = false)
    (hr : s.sched.roomForEdit = true)
    (hf : ∀ a, s.sched.assembly = some a → a.members.length < 16) :
    joinEdit e s = takeEdit e s := by
  unfold joinEdit
  rw [if_neg (by simp [ho])]
  cases ha : s.sched.assembly with
  | none => simp [hr]
  | some a =>
    have := hf a ha
    have : ¬ groupFull a = true := by rw [groupFull_iff]; omega
    simp [hr, this]

/-- An edit without room is parked (R35). -/
theorem joinEdit_noRoom {s : State} {e : Edit} (ho : s.sched.overflow = false)
    (hr : s.sched.roomForEdit = false)
    (hf : ∀ a, s.sched.assembly = some a → a.members.length < 16) :
    joinEdit e s = parkEdit e s := by
  unfold joinEdit
  rw [if_neg (by simp [ho])]
  cases ha : s.sched.assembly with
  | none => simp [hr]
  | some a =>
    have := hf a ha
    have : ¬ groupFull a = true := by rw [groupFull_iff]; omega
    simp [hr, this]

theorem anyBad_iff {ms : List (CmdId × Option EditOp)} :
    (ms.any fun m => m.2.isNone) = true ↔ ∃ m ∈ ms, m.2 = none := by
  simp [Option.isNone_iff_eq_none]

/-! ## Timing (R32) -/

theorem groupTiming_tooFar {now due : Word} (h : Config.horizon < (due - now).toNat)
    (h2 : (due - now).toNat < Config.behind) : groupTiming now true due = none := by
  have n1 : ¬ (1 ≤ (due - now).toNat ∧ (due - now).toNat ≤ Config.horizon) := by omega
  simp only [groupTiming, if_true, if_neg n1, if_pos (And.intro h h2)]

theorem groupTiming_ahead {now due : Word} (h : 1 ≤ (due - now).toNat)
    (h2 : (due - now).toNat ≤ Config.horizon) : groupTiming now true due = some (due, false) := by
  simp only [groupTiming, if_true, if_pos (And.intro h h2)]

theorem groupTiming_late {now due : Word}
    (h : (due - now).toNat = 0 ∨ Config.behind ≤ (due - now).toNat) :
    groupTiming now true due = some (now + 1, true) := by
  have h0 : Config.horizon < Config.behind := by decide
  have n1 : ¬ (1 ≤ (due - now).toNat ∧ (due - now).toNat ≤ Config.horizon) := by omega
  have n2 : ¬ (Config.horizon < (due - now).toNat ∧ (due - now).toNat < Config.behind) := by omega
  simp only [groupTiming, if_true, if_neg n1, if_neg n2]

theorem groupTiming_unscheduled {now due : Word} :
    groupTiming now false due = some (now + 1, false) := rfl

/-- The frame after lies one frame ahead. -/
theorem frameDistance_next (now : Word) : frameDistance now (now + 1) = 1 := by
  unfold frameDistance
  have : now + 1 - now = 1 := by
    rw [BitVec.add_comm]; exact BitVec.add_sub_cancel 1 now
  rw [this]; rfl

/-- An accepted group's due frame lies 1 to 2^24 frames ahead (R32, R36). -/
theorem groupTiming_bounds {now due due' : Word} {scheduled late : Bool}
    (h : groupTiming now scheduled due = some (due', late)) :
    1 ≤ frameDistance now due' ∧ frameDistance now due' ≤ Config.horizon := by
  have hn : 1 ≤ frameDistance now (now + 1) ∧ frameDistance now (now + 1) ≤ Config.horizon := by
    rw [frameDistance_next]; decide
  cases scheduled with
  | false => cases h; exact hn
  | true =>
    by_cases h1 : 1 ≤ (due - now).toNat ∧ (due - now).toNat ≤ Config.horizon
    · rw [groupTiming_ahead h1.1 h1.2] at h; cases h; exact h1
    · by_cases h2 : Config.horizon < (due - now).toNat ∧ (due - now).toNat < Config.behind
      · rw [groupTiming_tooFar h2.1 h2.2] at h; cases h
      · rw [groupTiming_late (by omega)] at h; cases h; exact hn

end Sys2Proof.Machine
end

