-- ==== Sys2Proof/Laws/PerInstr.lean ====
section
/-! SUPPORT. The family WellFormedness, per command: a term is well formed exactly where the kind code of a
BAD_KIND names no command and the offset of an UNSTORED_REGISTER_WRITE names no stored register. -/

namespace Sys2Proof.Laws.WellFormedness

/-- Which terms are well formed (R138, R159). -/
def Statement (i : Instr) : Prop :=
  i.wellFormed = true ↔
    (∀ kind record, i = .badKind kind record → commandOfKind kind = none) ∧
      ∀ offset value, i = .unstoredRegisterWrite offset value → offset ∉ storedOffsets

/-- A term of a row with no condition is well formed. -/
theorem of_free {i : Instr} (h : i.wellFormed = true) (h1 : ∀ kind record, i ≠ .badKind kind record)
    (h2 : ∀ offset value, i ≠ .unstoredRegisterWrite offset value) : Statement i :=
  ⟨fun _ => ⟨fun k r e => absurd e (h1 k r), fun o v e => absurd e (h2 o v)⟩, fun _ => h⟩

theorem frameStart : Statement .frameStart :=
  of_free rfl (fun _ _ h => nomatch h) (fun _ _ h => nomatch h)

theorem callTimerExpires (link : LinkId) : Statement (.callTimerExpires link) :=
  of_free rfl (fun _ _ h => nomatch h) (fun _ _ h => nomatch h)

theorem trainTimerExpires (link : LinkId) : Statement (.trainTimerExpires link) :=
  of_free rfl (fun _ _ h => nomatch h) (fun _ _ h => nomatch h)

theorem holdTimerExpires (link : LinkId) : Statement (.holdTimerExpires link) :=
  of_free rfl (fun _ _ h => nomatch h) (fun _ _ h => nomatch h)

theorem closeTimerExpires (link : LinkId) : Statement (.closeTimerExpires link) :=
  of_free rfl (fun _ _ h => nomatch h) (fun _ _ h => nomatch h)

theorem loopTimerExpires (link : LinkId) : Statement (.loopTimerExpires link) :=
  of_free rfl (fun _ _ h => nomatch h) (fun _ _ h => nomatch h)

theorem retryLimit (link : LinkId) : Statement (.retryLimit link) :=
  of_free rfl (fun _ _ h => nomatch h) (fun _ _ h => nomatch h)

theorem notReadyLimit (link : LinkId) : Statement (.notReadyLimit link) :=
  of_free rfl (fun _ _ h => nomatch h) (fun _ _ h => nomatch h)

theorem candidateMarker (link : LinkId) (bits : Byte) : Statement (.candidateMarker link bits) :=
  of_free rfl (fun _ _ h => nomatch h) (fun _ _ h => nomatch h)

theorem upstreamFrame (link : LinkId) (frame : LineFrame) : Statement (.upstreamFrame link frame) :=
  of_free rfl (fun _ _ h => nomatch h) (fun _ _ h => nomatch h)

theorem lineActivity (link : LinkId) : Statement (.lineActivity link) :=
  of_free rfl (fun _ _ h => nomatch h) (fun _ _ h => nomatch h)

theorem fetchStart : Statement .fetchStart :=
  of_free rfl (fun _ _ h => nomatch h) (fun _ _ h => nomatch h)

theorem fetchError : Statement .fetchError :=
  of_free rfl (fun _ _ h => nomatch h) (fun _ _ h => nomatch h)

theorem badKind (kind : Byte) (record : CommandRecord) : Statement (.badKind kind record) := by
  have h : (Instr.badKind kind record).wellFormed = (commandOfKind kind).isNone := rfl
  simp [Statement, h]

theorem setRoute (record : CommandRecord) : Statement (.setRoute record) :=
  of_free rfl (fun _ _ h => nomatch h) (fun _ _ h => nomatch h)

theorem clearRoute (record : CommandRecord) : Statement (.clearRoute record) :=
  of_free rfl (fun _ _ h => nomatch h) (fun _ _ h => nomatch h)

theorem muteRoute (record : CommandRecord) : Statement (.muteRoute record) :=
  of_free rfl (fun _ _ h => nomatch h) (fun _ _ h => nomatch h)

theorem openTap (record : CommandRecord) : Statement (.openTap record) :=
  of_free rfl (fun _ _ h => nomatch h) (fun _ _ h => nomatch h)

theorem closeTap (record : CommandRecord) : Statement (.closeTap record) :=
  of_free rfl (fun _ _ h => nomatch h) (fun _ _ h => nomatch h)

theorem cancelGroup (record : CommandRecord) : Statement (.cancelGroup record) :=
  of_free rfl (fun _ _ h => nomatch h) (fun _ _ h => nomatch h)

theorem readRoute (record : CommandRecord) : Statement (.readRoute record) :=
  of_free rfl (fun _ _ h => nomatch h) (fun _ _ h => nomatch h)

theorem fence (record : CommandRecord) : Statement (.fence record) :=
  of_free rfl (fun _ _ h => nomatch h) (fun _ _ h => nomatch h)

theorem startLink (record : CommandRecord) : Statement (.startLink record) :=
  of_free rfl (fun _ _ h => nomatch h) (fun _ _ h => nomatch h)

theorem loopLink (record : CommandRecord) : Statement (.loopLink record) :=
  of_free rfl (fun _ _ h => nomatch h) (fun _ _ h => nomatch h)

theorem stopLink (record : CommandRecord) : Statement (.stopLink record) :=
  of_free rfl (fun _ _ h => nomatch h) (fun _ _ h => nomatch h)

theorem queryLink (record : CommandRecord) : Statement (.queryLink record) :=
  of_free rfl (fun _ _ h => nomatch h) (fun _ _ h => nomatch h)

theorem setLamps (record : CommandRecord) : Statement (.setLamps record) :=
  of_free rfl (fun _ _ h => nomatch h) (fun _ _ h => nomatch h)

theorem sendMessage (record : CommandRecord) : Statement (.sendMessage record) :=
  of_free rfl (fun _ _ h => nomatch h) (fun _ _ h => nomatch h)

theorem creditTap (record : CommandRecord) : Statement (.creditTap record) :=
  of_free rfl (fun _ _ h => nomatch h) (fun _ _ h => nomatch h)

theorem parkedEditRetry : Statement .parkedEditRetry :=
  of_free rfl (fun _ _ h => nomatch h) (fun _ _ h => nomatch h)

theorem parkedReadRouteTaken : Statement .parkedReadRouteTaken :=
  of_free rfl (fun _ _ h => nomatch h) (fun _ _ h => nomatch h)

theorem fenceRelease : Statement .fenceRelease :=
  of_free rfl (fun _ _ h => nomatch h) (fun _ _ h => nomatch h)

theorem routeRecordWriteEnd (how : BusEnd) : Statement (.routeRecordWriteEnd how) :=
  of_free rfl (fun _ _ h => nomatch h) (fun _ _ h => nomatch h)

theorem captureWriteStart (tap : TapId) : Statement (.captureWriteStart tap) :=
  of_free rfl (fun _ _ h => nomatch h) (fun _ _ h => nomatch h)

theorem tapWriteEnd (tap : TapId) (how : BusEnd) : Statement (.tapWriteEnd tap how) :=
  of_free rfl (fun _ _ h => nomatch h) (fun _ _ h => nomatch h)

theorem playoutReadStart (tap : TapId) : Statement (.playoutReadStart tap) :=
  of_free rfl (fun _ _ h => nomatch h) (fun _ _ h => nomatch h)

theorem tapReadEnd (tap : TapId) (how : ReadEnd) : Statement (.tapReadEnd tap how) :=
  of_free rfl (fun _ _ h => nomatch h) (fun _ _ h => nomatch h)

theorem completionWriteStart : Statement .completionWriteStart :=
  of_free rfl (fun _ _ h => nomatch h) (fun _ _ h => nomatch h)

theorem completionWriteEnd (how : BusEnd) : Statement (.completionWriteEnd how) :=
  of_free rfl (fun _ _ h => nomatch h) (fun _ _ h => nomatch h)

theorem eventWriteStart : Statement .eventWriteStart :=
  of_free rfl (fun _ _ h => nomatch h) (fun _ _ h => nomatch h)

theorem messageEvent : Statement .messageEvent :=
  of_free rfl (fun _ _ h => nomatch h) (fun _ _ h => nomatch h)

theorem eventWriteEnd (how : BusEnd) : Statement (.eventWriteEnd how) :=
  of_free rfl (fun _ _ h => nomatch h) (fun _ _ h => nomatch h)

theorem enableSet (enables : Enables) : Statement (.enableSet enables) :=
  of_free rfl (fun _ _ h => nomatch h) (fun _ _ h => nomatch h)

theorem enableClear (enables : Enables) : Statement (.enableClear enables) :=
  of_free rfl (fun _ _ h => nomatch h) (fun _ _ h => nomatch h)

theorem stopEnd : Statement .stopEnd :=
  of_free rfl (fun _ _ h => nomatch h) (fun _ _ h => nomatch h)

theorem interruptEnableWrite (enables : Enables) : Statement (.interruptEnableWrite enables) :=
  of_free rfl (fun _ _ h => nomatch h) (fun _ _ h => nomatch h)

theorem engineReset : Statement .engineReset :=
  of_free rfl (fun _ _ h => nomatch h) (fun _ _ h => nomatch h)

theorem deviceReset : Statement .deviceReset :=
  of_free rfl (fun _ _ h => nomatch h) (fun _ _ h => nomatch h)

theorem resetN : Statement .resetN :=
  of_free rfl (fun _ _ h => nomatch h) (fun _ _ h => nomatch h)

theorem ringBaseWrite (ring : Ring) (value : Word) : Statement (.ringBaseWrite ring value) :=
  of_free rfl (fun _ _ h => nomatch h) (fun _ _ h => nomatch h)

theorem ringProdWrite (ring : CmdRing) (value : Word) : Statement (.ringProdWrite ring value) :=
  of_free rfl (fun _ _ h => nomatch h) (fun _ _ h => nomatch h)

theorem compConsWrite (value : Word) : Statement (.compConsWrite value) :=
  of_free rfl (fun _ _ h => nomatch h) (fun _ _ h => nomatch h)

theorem eventConsWrite (value : Word) : Statement (.eventConsWrite value) :=
  of_free rfl (fun _ _ h => nomatch h) (fun _ _ h => nomatch h)

theorem unstoredRegisterWrite (offset : Word) (value : Word) : Statement (.unstoredRegisterWrite offset value) := by
  have h : (Instr.unstoredRegisterWrite offset value).wellFormed = !storedOffsets.contains offset := rfl
  simp [Statement, h]

theorem resetNRelease : Statement .resetNRelease :=
  of_free rfl (fun _ _ h => nomatch h) (fun _ _ h => nomatch h)

end Sys2Proof.Laws.WellFormedness
end

