-- ==== Sys2Proof/Tests/Slice0.lean ====
section
/-! SUPPORT. The model's own tests: ill-formed terms that are refused, the spec's worked values, and for
every statement with hypotheses a state and operands that meet them all, at the ends of their ranges. -/

namespace Sys2Proof.Tests

open Sys2Proof Sys2Proof.Machine

/-! ## Small states and records -/

/-- A command record with the given bytes, 0 elsewhere. -/
def record (l : List (Nat × Byte)) : CommandRecord :=
  ⟨Table.ofFn fun i => ((l.find? fun p => p.1 == i.val + 1).map Prod.snd).getD 0⟩

/-- A line frame with all bytes 0 but the marker. -/
def frameOf (marker : Byte) : LineFrame := ⟨(Table.fill 27 0).set 0 marker⟩

/-- A frame that an aligner finds good, with silence. -/
def goodFrame (marker : Byte) : LineFrame := makeFrame marker (Table.fill 12 0) 0

/-- The engine RUNNING with all four rings of 16 slots. -/
def engine : RingEngine :=
  { RingEngine.reset with
    mode := .running, enable := true, baseA := 1, baseB := 0x1001, baseComp := 0x2001, baseEvent := 0x3001 }

/-- The hub with the engine RUNNING. -/
def running : State := State.reset.withEngine engine

/-- The engine RUNNING with a read in flight. -/
def reading (ring : CmdRing) (slot : Nat) : State :=
  running.withEngine { engine with fetch := some (ring, slot), reserved := 1 }

theorem reading_inFlight (ring : CmdRing) (slot : Nat) : ReadInFlight (reading ring slot) ring slot where
  running := rfl
  engine := by show EngineState.running ≠ _; decide
  fetch := rfl

/-- The engine HALTED. -/
def stuck : State := halt .badTail running

/-- The identity of a ring-A command. -/
def idA : CmdId := ⟨7, .a, 3⟩

/-- Link 0 of a running hub replaced. -/
def withLink (l : Link) : State := running.setLink 0 l

theorem withLink_link (l : Link) : (withLink l).links.get 0 = l := rfl

/-- Tap 0 of a running hub replaced. -/
def withTap (t : Tap) : State := running.setTap 0 t

/-! ## Ill-formed terms are refused -/

theorem test_knownKindIsIllFormed : Instr.wellFormed (.badKind 0x18 (record [])) = false := by decide

theorem test_unknownKindIsWellFormed : Instr.wellFormed (.badKind 0x06 (record [])) = true := by decide

theorem test_storedOffsetIsIllFormed : Instr.wellFormed (.unstoredRegisterWrite 0x2C 0) = false := by
  decide

theorem test_identOffsetIsWellFormed : Instr.wellFormed (.unstoredRegisterWrite 0x00 0) = true := by
  decide

theorem test_illFormedTermsFault :
    exec (.badKind 0x01 (record [])) running = .fault .illFormed ∧
    exec (.unstoredRegisterWrite 0x04 0) running = .fault .illFormed :=
  ⟨rfl, rfl⟩

theorem test_noWordSpellsACommand : decodeTableWord 8 0 = none := rfl


/-! ## Worked values of the spec -/

/-- The route of chapter 1's worked example. -/
def workedRoute : List SourceEntry :=
  [⟨.inbound 0 3, 0, none⟩, ⟨.inbound 4 1, 1, some ⟨4, 2, .pressed⟩⟩,
    ⟨.playout 6, 3, some ⟨2, 0, .released⟩⟩, ⟨.inbound 0 3, 2, none⟩]

/-- The links of that example: what (0, 3) and (4, 1) hold, with the key tables of links 2 and 4. -/
def workedLinks (state4 : SessionState) (keys2 keys4 : Half) : Table 8 Link :=
  ((((Table.fill 8 Link.reset).set 0
    { Link.reset with state := .active, inbound := (Table.fill 12 0).set 3 12000 }).set 2
    { Link.reset with state := .active, keyTable := keys2 }).set 4
    { Link.reset with
      state := state4, keyTable := keys4, inbound := (Table.fill 12 0).set 1 (BitVec.ofInt 16 (-9001)) })

/-- Playout tap 6 of that example supplies 30001. -/
def workedSupply : Table 16 Sample := (Table.fill 16 0).set 6 30001

theorem test_workedFrames :
    mixPlace (workedLinks .active 0 4) workedSupply (some ⟨false, workedRoute⟩) = 14249 ∧
    mixPlace (workedLinks .active 0 0) workedSupply (some ⟨false, workedRoute⟩) = 18750 ∧
    mixPlace (workedLinks .degraded 1 0) workedSupply (some ⟨false, workedRoute⟩) = 15000 := by
  decide

/-- The SET ROUTE of 10.8, found in ring A slot 7. -/
def workedRecord : CommandRecord :=
  record [(4, 1), (5, 1), (16, 2), (17, 5), (19, 2), (22, 3), (28, 1), (29, 6), (31, 3), (32, 0x82), (33, 2)]

theorem test_workedSetRoute : recTag workedRecord = 0x00000101 ∧ recChain workedRecord = false ∧
    parseSetRoute workedRecord = some (.setRoute 2 5 false
      ⟨false, [⟨.inbound 0 3, 0, none⟩, ⟨.playout 6, 3, some ⟨2, 0, .released⟩⟩]⟩) := by
  decide

/-- A record of 64 bytes with this kind code and the other bytes of a record. -/
def wholeRecord (kind : Byte) (r : CommandRecord) : Table 64 Byte :=
  ⟨kind :: r.tail.items, by rw [List.length_cons, r.tail.size_eq]⟩

/-- The kind codes of 10.6 at the ends of their runs, and a code that names nothing. -/
theorem test_kindCodesNameTheirRows :
    commandOfRecord (wholeRecord 0x01 workedRecord) = .setRoute workedRecord ∧
    commandOfRecord (wholeRecord 0x05 workedRecord) = .closeTap workedRecord ∧
    commandOfRecord (wholeRecord 0x0A workedRecord) = .fence workedRecord ∧
    commandOfRecord (wholeRecord 0x10 workedRecord) = .startLink workedRecord ∧
    commandOfRecord (wholeRecord 0x15 workedRecord) = .sendMessage workedRecord ∧
    commandOfRecord (wholeRecord 0x18 workedRecord) = .creditTap workedRecord ∧
    commandOfRecord (wholeRecord 0x06 workedRecord) = .badKind 0x06 workedRecord := by
  decide

theorem test_workedAnswers :
    completionBytes ⟨⟨0x101, .a, 7⟩, .done, false, 0x1001⟩ 0x1001 =
      [1, 1, 0, 0, 7, 0, 0, 0, 1, 0x10, 0, 0, 1, 0x10, 0, 0] ∧
    routeRecordBytes 2 5 ⟨false, [⟨.inbound 0 3, 0, none⟩, ⟨.playout 6, 3, some ⟨2, 0, .released⟩⟩]⟩ =
      [2, 5, 0, 2, 0, 0, 0, 0] ++ [0, 0, 3, 0, 0, 0, 0, 0] ++ [1, 6, 0, 3, 0x82, 2, 0, 0] ++
        List.replicate 16 0 := by
  decide

/-- A frame that the framer makes is good; one with a wrong check byte is not. -/
theorem test_madeFrameIsGood : frameGood (goodFrame 0x2D) = true ∧ frameGood (goodFrame 0xD2) = true ∧
    frameGood (frameOf 0x2D) = false := by
  decide +kernel

/-! ## Good links -/

/-- An aligner in service, 15 bytes into a block. -/
def serving : Aligner :=
  { Aligner.reset with
    frameAlign := .locked, superAlign := .sfLocked, confirm := 2, markers := 3, score := 15, misses := 1
    phase := some 14, upBlock := some ⟨List.replicate 15 0, false⟩ }

def listening : Link :=
  { Link.reset with state := .listen, detector := .armed, reportKeys := true, callLength := 4095 }

def calling : Link :=
  { Link.reset with
    state := .calling, timer := some (.call, 0), op := some ⟨.start, idA⟩, framer := .sending }

def training : Link :=
  { Link.reset with
    state := .training, timer := some (.train, 0), op := some ⟨.start, idA⟩, framer := .sending }

def active : Link :=
  { Link.reset with
    state := .active, framer := .sending, aligner := serving, reportKeys := true
    takenWord := some .run, takenKeys := 0x8001, candKeys := some 0x8001, keyTable := 0x8001
    outQueue := [⟨some idA, [1]⟩, ⟨none, List.replicate 44 2⟩]
    chan := { MessageChannel.reset with retry := 16, notReady := 255 } }

def degraded : Link :=
  { Link.reset with state := .degraded, timer := some (.hold, 0), framer := .sending }

def closing : Link :=
  { Link.reset with
    state := .closing, side := some .hub, timer := some (.close, 0), op := some ⟨.stop, idA⟩
    framer := .sending }

def failed : Link := { Link.reset with state := .fault, faultReason := .loopFail, lamps := 0xFFFF }

def looping : Link :=
  { Link.reset with
    state := .loop, timer := some (.loop, 0), op := some ⟨.loop, idA⟩, framer := .sending
    aligner := { Aligner.reset with input := .loopback } }

theorem listening_good : LinkGood listening := by
  refine ⟨?_, alignerReset_good, ?_⟩ <;> constructor <;> first | decide | trivial

theorem calling_good : LinkGood calling := by
  refine ⟨?_, alignerReset_good, ?_⟩ <;> constructor <;> first | decide | exact .inl rfl

theorem training_good : LinkGood training := by
  refine ⟨?_, alignerReset_good, ?_⟩ <;> constructor <;> first | decide | exact .inr rfl

theorem serving_good : AlignerGood serving := by
  constructor <;> decide

theorem active_good : LinkGood active := by
  refine ⟨?_, serving_good, ?_⟩ <;> constructor <;> first | decide | trivial

theorem degraded_good : LinkGood degraded := by
  refine ⟨?_, alignerReset_good, ?_⟩ <;> constructor <;> first | decide | trivial

theorem closing_good : LinkGood closing := by
  refine ⟨?_, alignerReset_good, ?_⟩ <;> constructor <;> first | decide | exact ⟨rfl, rfl⟩

theorem failed_good : LinkGood failed := by
  refine ⟨?_, alignerReset_good, ?_⟩ <;> constructor <;> first | decide | trivial

theorem looping_good : LinkGood looping := by
  refine ⟨?_, ?_, ?_⟩ <;> constructor <;> first | decide | exact ⟨rfl, rfl⟩

/-! ## What every step keeps: a good hub with a command to take -/

/-- A run of 8 samples. -/
def run : Run := ⟨0x1000, List.replicate 8 0⟩

/-- A buffer of 16 samples whose first run has been moved. -/
def buffer : Buffer := ⟨⟨9, .b, 0⟩, 0x1000, 16, 8, 0, some 0⟩

/-- A capture tap with a complete run to write. -/
def capturing : Tap := ⟨.running, some (.captureInbound 0 11), [buffer], 0, [], [run], false, false⟩

/-- A playout tap with two runs read ahead. -/
def playing : Tap :=
  ⟨.running, some .playout, [⟨⟨9, .b, 0⟩, 0x1000, 32, 7, 16, some 0⟩], 0, [], [run, run], false, false⟩

/-- A route of one entry that names playout tap 1. -/
def tapRoute : Route := ⟨false, [⟨.playout 1, 0, none⟩]⟩

/-- A group of one command. -/
def group (label : Half) (due : Word) : Group := ⟨label, due, false, [(idA, .clearRoute 7 11)]⟩

/-- A hub at work: an ACTIVE link, two open taps, a route that names one of them, an open group and two
scheduled ones at the ends of the horizon, and the six completions that all this owes. -/
def busy : State :=
  { running with
    frame := 5
    engine := { engine with reserved := 6, postComp := 9 }
    sched := ⟨some ⟨1, true, 9, [(idA, some (.openTap 2 .playout))]⟩, false,
      [group 1 6, group 2 (5 + 2 ^ 24)]⟩
    core := { SwitchCore.reset with
      free := 255
      routes := (Table.fill 8 (Table.fill 12 none)).set 0 ((Table.fill 12 none).set 0 (some tapRoute)) }
    taps := ((Table.fill 16 Tap.reset).set 0 capturing).set 1 playing
    links := (Table.fill 8 Link.reset).set 0 active
    pending := [.tapWriteEnd 5 .ok] }

theorem busy_routes {n : LinkId} {c : Channel} {r : Route}
    (h : (busy.core.routes.get n).get c = some r) : r = tapRoute := by
  simp only [busy, SwitchCore.reset, Table.get_set] at h
  split at h
  · simp only [Table.get_set] at h
    split at h
    · cases h; rfl
    · simp at h
  · simp at h

theorem tapReset_good : TapGood Tap.reset := by constructor <;> first | decide | nofun
theorem buffer_good : BufferGood buffer := by constructor <;> decide

theorem capturing_good : TapGood capturing where
  closed := by decide
  empty := by decide
  buffers := by decide
  each := fun b hb => by rw [List.mem_singleton.mp hb]; exact buffer_good
  unspent := by decide
  gap := by decide
  collecting := by decide
  runs := by decide
  reading := by decide

theorem playing_good : TapGood playing where
  closed := by decide
  empty := by decide
  buffers := by decide
  each := fun b hb => by rw [List.mem_singleton.mp hb]; constructor <;> decide
  unspent := by decide
  gap := by decide
  collecting := by decide
  runs := by decide
  reading := by decide

theorem busy_good : Good busy where
  rings := by constructor <;> (show (_ : Nat) < 16; decide)
  engine := by constructor <;> first | decide | nofun
  places := by constructor <;> decide
  parked := by constructor <;> nofun
  order := fun _ => by constructor <;> decide
  pool := by show _ = _; decide
  sized := by
    constructor
    · intro n c r h; rw [busy_routes h]; show _ ∧ _; decide
    · intro g hg m hm
      have : ∀ g ∈ busy.sched.list, ∀ m ∈ g.members, m.2 = .clearRoute 7 11 := by decide
      rw [this g hg m hm]; trivial
    · intro a ha m hm op ho
      cases ha; cases hm with
      | head => cases ho; trivial
      | tail _ h => cases h
    · nofun
  routed := by
    intro n c r h e he t ht
    rw [busy_routes h] at he
    rw [List.mem_singleton.mp he] at ht
    cases ht; decide
  taps := by
    intro n
    simp only [busy, Table.get_set]
    repeat' split
    · exact playing_good
    · exact capturing_good
    · simpa using tapReset_good
  links := by
    intro n
    simp only [busy, Table.get_set]
    split
    · exact active_good
    · simpa using linkReset_good.1
  credits := by
    constructor
    · intro n h; cases h; decide
    · nofun
    · intro _; decide

/-! ## Hypotheses that are met: steps, resets, invariants -/

theorem test_meets_StepTakesTheFrontCommand :
    (∃ s : State, s.pending = .fetchStart :: [.fetchError]) ∧ ∃ s : State, s.pending = [] :=
  ⟨⟨State.reset.withPending [.fetchStart, .fetchError], rfl⟩, State.reset, rfl⟩

theorem test_meets_WellFormedCommandsAnswerNext :
    Instr.wellFormed .frameStart = true ∧ Instr.wellFormed (.badKind 1 (record [])) = false ∧
    ∃ t, exec .fetchError running = .next t :=
  ⟨rfl, by decide, running, rfl⟩

theorem test_meets_HeldHubTakesNothing :
    ∃ s : State, s.held = true ∧ Instr.wellFormed .frameStart = true ∧ Instr.frameStart ≠ .resetN ∧
      Instr.frameStart ≠ .resetNRelease :=
  ⟨{ State.reset with held := true }, rfl, rfl, by decide, by decide⟩

theorem test_meets_ResetsLeaveWhatTheySay :
    (∃ s : State, s.held = false) ∧ ∃ s : State, s.held = true :=
  ⟨⟨busy, rfl⟩, { State.reset with held := true }, rfl⟩

/-- Every invariant's hypotheses at once: a good hub and the step it takes. -/
theorem test_meets_StepsKeepTheHubGood : ∃ s t, Good s ∧ step s = .next t := ⟨busy, _, busy_good, rfl⟩

theorem test_meets_StepsKeepRingIndices : ∃ s t, RingsGood s ∧ step s = .next t :=
  ⟨busy, _, busy_good.rings, rfl⟩

theorem test_meets_StepsKeepEngineState : ∃ s t, EngineGood s ∧ step s = .next t :=
  ⟨busy, _, busy_good.engine, rfl⟩

theorem test_meets_StepsKeepLinks : ∃ s t, (∀ n, LinkGood (s.links.get n)) ∧ step s = .next t :=
  ⟨busy, _, busy_good.links, rfl⟩

/-- A closed capture tap with a run and a buffer of 16 samples, of which 8 are written. -/
def closedTap (k : TapId) : ClosedTap := ⟨k, false, [run], [buffer]⟩

/-- One closed tap with a run to write, and one that waits for it. -/
theorem closed_waits (k : TapId) (d e : List Completion) :
    ClosingWaits [⟨[closedTap k], d⟩, ⟨[⟨k, false, [], [buffer]⟩], e⟩] := by
  refine ⟨by simp, fun before c after h => ?_⟩
  have h : [closedTap k, ⟨k, false, [], [buffer]⟩] = before ++ c :: after := h
  match before, h with
  | [], h => exact .inl (by injection h with h _; rw [← h]; nofun)
  | b :: l, h =>
    injection h with h h'
    match l, h' with
    | [], h' =>
      injection h' with h' _
      exact .inr ⟨b, by simp, by rw [← h, ← h']; exact ⟨rfl, by nofun⟩⟩
    | _ :: l, h' => cases l <;> injection h' with _ h' <;> injection h'

/-- A hub at work in which a closed tap waits for a write. -/
def closingHub : State := { busy with
  closing := [⟨[closedTap 0], []⟩, ⟨[⟨0, false, [], [buffer]⟩], []⟩] }

theorem test_meets_StepsKeepTaps :
    (∃ s t, (∀ n, TapGood (s.taps.get n)) ∧ RoutedTapsOpen s ∧ step s = .next t) ∧
    ∃ s t, ClosingWaits s.closing ∧ step s = .next t :=
  ⟨⟨busy, _, busy_good.taps, busy_good.routed, rfl⟩, closingHub, _, closed_waits 0 [] [], rfl⟩

theorem test_meets_StepsKeepSchedulePlaces :
    ∃ s t, PlacesGood s.sched ∧ ParkedGood s ∧ RoutesSized s ∧ step s = .next t :=
  ⟨busy, _, busy_good.places, busy_good.parked, busy_good.sized, rfl⟩

theorem test_meets_StepsKeepScheduleOrder :
    ∃ s t, (s.engine.mode ≠ .halted → OrderGood s.frame s.sched.list) ∧ step s = .next t ∧
      t.engine.mode ≠ .halted :=
  ⟨busy, _, busy_good.order, rfl, by decide⟩

theorem test_meets_StepsKeepPoolCount : ∃ s t, PoolGood s.core ∧ step s = .next t :=
  ⟨busy, _, busy_good.pool, rfl⟩

theorem test_meets_StepsKeepCompletionCredits : ∃ s t, Good s ∧ step s = .next t :=
  ⟨busy, _, busy_good, rfl⟩

/-! ## Hypotheses that are met: the frame pass -/

theorem test_meets_AttenuationRoundsDown : (7 : Fin 8) ≠ 0 := by decide

theorem test_meets_GatesDecideContribution :
    (∃ e : SourceEntry, e.gate = none) ∧
    (∃ e : SourceEntry, e.gate = some ⟨0, 15, .pressed⟩ ∧ LinkGood degraded ∧
      degraded.state ≠ .active ∧ degraded.state ≠ .loop) ∧
    (∃ e : SourceEntry, e.gate = some ⟨7, 0, .released⟩ ∧ LinkGood Link.reset ∧
      Link.reset.state ≠ .active ∧ Link.reset.state ≠ .loop) ∧ ∃ l, LinkGood l ∧ l.state = .loop :=
  ⟨⟨⟨.playout 0, 0, none⟩, rfl⟩, ⟨⟨.playout 0, 0, _⟩, rfl, degraded_good, by decide, by decide⟩,
    ⟨⟨.playout 0, 0, _⟩, rfl, linkReset_good.1, by decide, by decide⟩, looping, looping_good, rfl⟩

/-- Four entries at either end, and totals that just fit. -/
theorem test_meets_SumIsSaturatedOnce :
    let four := List.replicate 4 (⟨.playout 0, 0, none⟩ : SourceEntry)
    let one : List SourceEntry := [⟨.playout 0, 0, none⟩]
    let links := Table.fill 8 Link.reset
    four.length ≤ 4 ∧ 32767 < mixTotal links (Table.fill 16 32767) four ∧
    mixTotal links (Table.fill 16 (BitVec.ofInt 16 (-32768))) four < -32768 ∧
    mixTotal links (Table.fill 16 32767) one = 32767 ∧
    mixTotal links (Table.fill 16 (BitVec.ofInt 16 (-32768))) one = -32768 ∧ four.Perm four := by
  refine ⟨?_, ?_, ?_, ?_, ?_, .refl _⟩ <;> decide

theorem test_meets_DestinationsReadTheirSources :
    ∀ e ∈ [(⟨.playout 0, 0, some ⟨0, 15, .pressed⟩⟩ : SourceEntry)],
      gateOpen (Table.fill 8 Link.reset) e.gate = false := by decide

theorem test_meets_FrameStartRunsTheFramePass : ∃ s u : State, s.held = false ∧
    u = startSchedule (startLinks (advanceFrame (catchUp s))) := ⟨busy, _, rfl, rfl⟩

theorem stuck_good : EngineGood stuck where
  cause := by decide
  halted := fun _ => by constructor <;> decide
  stopped := by decide
  running := by decide
  stopping := by decide
  configured := by decide

theorem test_meets_HaltedFrameStartFreezesEditsAndTaps :
    ∃ s : State, s.held = false ∧ EngineGood s ∧ s.engine.mode = .halted :=
  ⟨stuck, rfl, stuck_good, rfl⟩

/-! ## Hypotheses that are met: the schedule -/

/-- A CLEAR ROUTE for (0, 0) with the given flags and due frame byte. -/
def clearRecord (flags due : Byte) : CommandRecord := record [(1, flags), (4, 7), (8, due)]

/-- A group of `n` good commands in assembly. -/
def opened (n : Nat) : Assembly := ⟨0, true, 9, List.replicate n (idA, some (.clearRoute 0 0))⟩

/-- A ring-A read in flight, with this schedule. -/
def planning (assembly : Option Assembly) (overflow : Bool) (list : List Group) : State :=
  { reading .a 15 with sched := ⟨assembly, overflow, list⟩ }

theorem planning_inFlight (a : Option Assembly) (o : Bool) (l : List Group) :
    ReadInFlight (planning a o l) .a 15 where
  running := rfl
  engine := by show EngineState.running ≠ _; decide
  fetch := rfl

/-- A full group list: `n` groups of `k` commands each. -/
def groups (n k : Nat) : List Group :=
  List.replicate n ⟨1, 6, false, List.replicate k (idA, .clearRoute 0 0)⟩

/-- An empty schedule, seven groups of 9 commands, and an open group of 15 commands. -/
theorem test_meets_ChainedEditStaysInTheGroup :
    ∀ d ∈ [(⟨none, false, []⟩ : Scheduler), ⟨none, false, groups 7 9⟩, ⟨some (opened 15), false, groups 7 6⟩],
    ∃ s i r op, ReadInFlight s .a 15 ∧ editOf i = some (r, op) ∧ recChain r = true ∧ s.sched = d ∧
      s.sched.overflow = false ∧ s.sched.staged < 64 ∧ (s.sched.assembly = none → s.sched.places < 8) ∧
      ∀ a, s.sched.assembly = some a → a.members.length < 16 := by
  intro d hd
  refine ⟨planning d.assembly d.overflow d.list, .clearRoute (clearRecord 1 0), _, _,
    planning_inFlight _ _ _, rfl, by decide, rfl, ?_⟩
  revert d
  decide

/-- The four ways a closing group can go: a bad command, a due frame too far ahead at both ends, on time at
both ends, and immediate or late at both ends. -/
theorem test_meets_UnchainedEditClosesTheGroup :
    ∃ s i r op, ReadInFlight s .a 15 ∧ editOf i = some (r, op) ∧ recChain r = false ∧
      s.sched.overflow = false ∧ s.sched.staged < 64 ∧ (s.sched.assembly = none → s.sched.places < 8) ∧
      (∀ b, s.sched.assembly = some b → b.members.length < 16) ∧
      (∃ m ∈ (joinedGroup s.sched.assembly ⟨recTag r, .a, 15⟩ r none).members, m.2 = none) ∧
      (∀ m ∈ (joinedGroup s.sched.assembly ⟨recTag r, .a, 15⟩ r op).members, m.2 ≠ none) ∧
      (joinedGroup s.sched.assembly ⟨recTag r, .a, 15⟩ r op).scheduled = true := by
  refine ⟨planning (some (opened 15)) false (groups 7 6), .clearRoute (clearRecord 0 0), _, _,
    planning_inFlight _ _ _, rfl, ?_⟩
  decide

theorem test_meets_UnchainedEditClosesTheGroup_dueFrames :
    let ahead := fun due : Word => (due - 5).toNat
    2 ^ 24 < ahead (5 + 2 ^ 24 + 1) ∧ ahead (5 + 2 ^ 31 - 1) < 2 ^ 31 ∧ 1 ≤ ahead 6 ∧
    ahead (5 + 2 ^ 24) ≤ 2 ^ 24 ∧ 2 ^ 31 ≤ ahead (5 + 2 ^ 31) ∧ 2 ^ 31 ≤ ahead 4 := by
  decide

theorem test_meets_OverlongGroupFails :
    ∃ i r op, editOf i = some (r, op) ∧
      (∃ s, ReadInFlight s .a 15 ∧ s.sched.overflow = true) ∧
      ∃ s a, ReadInFlight s .a 15 ∧ s.sched.overflow = false ∧ s.sched.assembly = some a ∧
        16 ≤ a.members.length :=
  ⟨.clearRoute (clearRecord 1 0), _, _, rfl, ⟨planning none true [], planning_inFlight _ _ _, rfl⟩,
    planning (some (opened 16)) false [], opened 16, planning_inFlight _ _ _, rfl, rfl, by decide⟩

/-- A full staging store, and a full list with no group open. -/
theorem test_meets_EditWithoutPlaceIsParked_parked :
    ∀ d ∈ [(⟨some (opened 8), false, groups 7 8⟩ : Scheduler), ⟨none, false, groups 8 1⟩],
    ∃ s i r op, ReadInFlight s .a 15 ∧ editOf i = some (r, op) ∧ s.sched = d ∧
      s.sched.overflow = false ∧ (∀ a, s.sched.assembly = some a → a.members.length < 16) ∧
      (64 ≤ s.sched.staged ∨ (s.sched.assembly = none ∧ 8 ≤ s.sched.places)) := by
  intro d hd
  refine ⟨planning d.assembly d.overflow d.list, .clearRoute (clearRecord 0 0), _, _,
    planning_inFlight _ _ _, rfl, rfl, ?_⟩
  revert d
  decide

/-- A parked edit with this schedule. -/
def waiting (chain : Bool) (assembly : Option Assembly) (list : List Group) : State :=
  { running with
    engine := { engine with parked := some (.edit ⟨idA, chain, false, 0, 0, some (.clearRoute 0 0)⟩) }
    sched := ⟨assembly, false, list⟩ }

theorem test_meets_EditWithoutPlaceIsParked_retried :
    (∃ (s : State) (e : Edit), s.held = false ∧ s.engine.mode ≠ .halted ∧ s.engine.parked = some (.edit e) ∧
      e.chain = true ∧ s.sched.staged < 64 ∧ (s.sched.assembly = none → s.sched.places < 8)) ∧
    ∃ (s : State) (e : Edit), s.held = false ∧ s.engine.parked = some (.edit e) ∧
      (64 ≤ s.sched.staged ∨ (s.sched.assembly = none ∧ 8 ≤ s.sched.places)) :=
  ⟨⟨waiting true none (groups 7 9), _, rfl, by decide, rfl, rfl, by decide⟩,
    waiting false none (groups 8 8), _, rfl, rfl, by decide⟩

/-- A closing edit parked in frame 5, alone: bad, too far at both ends, on time at both ends, immediate, due
now and late at both ends; and one that joins a group of 15. -/
theorem test_meets_EditWithoutPlaceIsParked_closed :
    (∀ assembly ∈ [none, some (opened 15)], ∀ e ∈ [(⟨idA, false, true, 0, 9, none⟩ : Edit),
        ⟨idA, false, false, 0, 0, some (.clearRoute 0 0)⟩],
      ∃ s : State, s.held = false ∧ s.engine.mode ≠ .halted ∧ s.engine.parked = some (.edit e) ∧
        e.chain = false ∧ s.sched.staged < 64 ∧ (s.sched.assembly = none → s.sched.places < 8) ∧
        s.sched.assembly = assembly) ∧
    (∃ m ∈ [(idA, (none : Option EditOp))], m.2 = none) ∧
    (∀ m ∈ [(idA, some (EditOp.clearRoute 0 0))], m.2 ≠ none) ∧
    (let ahead := fun due : Word => (due - 5).toNat;
      2 ^ 24 < ahead (5 + 2 ^ 24 + 1) ∧ ahead (5 + 2 ^ 31 - 1) < 2 ^ 31 ∧ 1 ≤ ahead 6 ∧
      ahead (5 + 2 ^ 24) ≤ 2 ^ 24 ∧ 2 ^ 31 ≤ ahead (5 + 2 ^ 31) ∧ 2 ^ 31 ≤ ahead 4) := by
  have room : ∀ assembly ∈ [none, some (opened 15)],
      (⟨assembly, false, groups 6 8⟩ : Scheduler).staged < 64 ∧
      (assembly = none → (⟨assembly, false, groups 6 8⟩ : Scheduler).places < 8) := by decide
  refine ⟨fun assembly ha e he => ⟨{ running with
    frame := 5
    engine := { engine with parked := some (.edit e) }
    sched := ⟨assembly, false, groups 6 8⟩ }, rfl, by show EngineState.running ≠ _; decide, rfl, ?_,
      (room assembly ha).1, (room assembly ha).2, rfl⟩, ?_⟩
  · revert e; decide
  · decide

/-- A group at each end of the horizon, between groups at both ends. -/
theorem test_meets_InsertionKeepsOrder :
    OrderGood 5 [group 1 6, group 2 (5 + 2 ^ 24)] ∧
    1 ≤ frameDistance 5 (group 3 6).due ∧ frameDistance 5 (group 3 6).due ≤ 2 ^ 24 ∧
    1 ≤ frameDistance 5 (group 3 (5 + 2 ^ 24)).due ∧ frameDistance 5 (group 3 (5 + 2 ^ 24)).due ≤ 2 ^ 24 :=
  ⟨busy_good.order (by decide), by decide, by decide, by decide, by decide⟩

/-- The working copy of the hub at work. -/
theorem test_meets_EditsAreCheckedAtCutOver :
    let w := busy.work
    let playout := fun (t : TapId) => (⟨false, [⟨.playout t, 0, none⟩]⟩ : Route)
    w.place 0 0 ≠ none ∧ w.place 7 11 = none ∧
    { w with free := 0 }.free + entriesHeld (w.place 7 11) < (playout 1).entries.length ∧
    (playout 1).entries.length ≤ { w with free := 0 }.free + entriesHeld (w.place 0 0) ∧
    (∃ e ∈ (playout 0).entries, ∃ t, e.source = .playout t ∧ (w.taps.get t).plays = false) ∧
    (∀ e ∈ (playout 1).entries, ∀ t, e.source = .playout t → (w.taps.get t).plays = true) ∧
    w.place 0 0 = some tapRoute ∧ (w.taps.get 15).state = .closed ∧ (w.taps.get 0).state ≠ .closed ∧
    tableNames w.routes 1 = true ∧ tableNames w.routes 0 = false := by
  refine ⟨?_, ?_, ?_, ?_, ?_, ?_, ?_, ?_, ?_, ?_, ?_⟩ <;> decide

/-- A frame at which a group is due. The second of three commands fails. Groups whose commands all pass: with no
tap closed; with one closed that waits for its own run; with one closed behind an older close of its number. -/
theorem test_meets_CutOverIsAllOrNothing :
    (∃ s u : State, s.held = false ∧ u = startLinks (advanceFrame (catchUp s)) ∧
      u.engine.mode ≠ .halted ∧
      (u.sched.list.filter fun (g : Group) => decide (g.due = s.frame + 1)) = [group 1 6]) ∧
    (∃ s : State, s.engine.mode ≠ .halted ∧
      runMembers [(idA, .clearRoute 0 0)] s.work = .ok (s.work.setPlace 0 0 none) ∧
      applyEdit (.clearRoute 0 0) (s.work.setPlace 0 0 none) = .error .noRoute) ∧
    (∃ w, busy.engine.mode ≠ .halted ∧ ClosingWaits busy.closing ∧
      runMembers [(idA, .muteRoute 0 0 true)] busy.work = .ok w ∧ w.closed = []) ∧
    (∃ w, runMembers [(idA, .closeTap 0)] busy.work = .ok w ∧ w.closed = [closedTap 0]) ∧
    ∃ w, closingHub.engine.mode ≠ .halted ∧ ClosingWaits closingHub.closing ∧
      runMembers [(idA, .closeTap 0)] closingHub.work = .ok w ∧ w.closed = [closedTap 0] := by
  refine ⟨⟨busy, _, rfl, rfl, by decide +kernel, by decide +kernel⟩,
    ⟨{ busy with core := { busy.core with
      routes := (Table.fill 8 (Table.fill 12 none)).set 0 ((Table.fill 12 none).set 0 (some ⟨false, []⟩)) } },
    by decide, rfl, rfl⟩, ⟨_, by decide, ⟨nofun, fun before c after h => ?_⟩, rfl, rfl⟩, ⟨_, rfl, rfl⟩,
    _, by decide, closed_waits 0 [] [], rfl, rfl⟩
  exact absurd h (by cases before <;> nofun)

theorem test_meets_CancelGroupRemovesItsLabel :
    ∀ ring, ∃ s r label, ReadInFlight s ring 15 ∧ parseCancel r = some label :=
  fun ring => ⟨reading ring 15, record [(16, 2)], 2, reading_inFlight _ _, by decide⟩

/-! ## Hypotheses that are met: fetch -/

/-- Which rings have something to fetch: both, A alone, B alone, none; and the last credit, free and taken. -/
def offering (prodA prodB reserved : Nat) : State :=
  running.withEngine { engine with prodA := prodA, prodB := prodB, reserved := reserved }

theorem test_meets_FetchStartReservesACredit :
    ∃ s : State, s.held = false ∧ ringSize s.engine.baseComp = some 16 ∧ s.engine.mode = .running ∧
      s.engine.fetch = none ∧ ringDistance 16 s.engine.consComp s.engine.postComp + s.engine.reserved < 15 ∧
      ringSize s.engine.baseA ≠ none ∧ s.engine.prodA ≠ s.engine.fetchA ∧ s.engine.parked = none ∧
      ringSize s.engine.baseB ≠ none ∧ s.engine.prodB ≠ s.engine.fetchB ∧ s.engine.prefer = .a :=
  ⟨offering 15 15 14, by decide⟩

theorem test_fetchStartChoosesTheRing :
    exec .fetchStart (offering 1 0 14) =
      .next ((offering 1 0 14).withEngine { (offering 1 0 14).engine with
        fetch := some (.a, 0), reserved := 15 }) ∧
    exec .fetchStart (offering 0 1 0) =
      .next ((offering 0 1 0).withEngine { (offering 0 1 0).engine with
        fetch := some (.b, 0), reserved := 1 }) ∧
    exec .fetchStart (offering 0 0 0) = .next (offering 0 0 0) ∧
    exec .fetchStart (offering 1 1 15) = .next (offering 1 1 15) :=
  ⟨rfl, rfl, rfl, rfl⟩

theorem test_meets_RecordsAreCheckedAtFetch :
    commandOfKind 0x06 = none ∧ (∃ r, editOf (.closeTap r) = some (r, none)) ∧
    (∃ r, plainOf (.fence r) = some (r, some .a, true) ∧ CmdRing.a ≠ .b) ∧
    (∃ r, plainOf (.stopLink r) = some (r, some .b, true) ∧ CmdRing.b ≠ .a) ∧
    (∃ r, plainOf (.cancelGroup r) = some (r, none, false)) ∧
    (∃ r, plainOf (.creditTap r) = some (r, some .b, false)) ∧ ∀ ring, ReadInFlight (reading ring 15) ring 15 :=
  ⟨by decide, ⟨record [(17, 1)], by decide⟩, ⟨record [], by decide, by decide⟩,
    ⟨record [], by decide, by decide⟩, ⟨record [(1, 1)], by decide⟩,
    ⟨record [(26, 1)], by decide⟩, fun ring => reading_inFlight ring 15⟩

/-- Every row that a record can spell, and the codes beside the listed ones. -/
theorem test_meets_RecordsAreCheckedAtFetch_kinds :
    (∀ kind : Byte, ∃ bytes : Table 64 Byte, bytes.get 0 = kind) ∧
    ∀ kind ∈ ([0x00, 0x06, 0x07, 0x0B, 0x0F, 0x16, 0x17, 0x19, 0xFF] : List Byte), commandOfKind kind = none :=
  ⟨fun kind => ⟨Table.fill 64 kind, Table.get_fill _ _⟩, by decide⟩

/-- A READ ROUTE of (0, 0) at the highest address, with the slot empty and taken, the place empty and not. -/
def readRecord : CommandRecord := record [(20, 0xD8), (21, 0xFF), (22, 0xFF), (23, 0xFF)]

def slotOf : ReadSlot := ⟨idA, 0x8000, 0, 0, tapRoute⟩

theorem test_meets_ReadRouteUsesTheSlot :
    (∃ f, parseReadRoute readRecord = some f ∧
      (∃ s, ReadInFlight s .a 15 ∧ s.core.slot = none ∧ (s.core.routes.get f.link).get f.channel = none) ∧
      (∃ s, ReadInFlight s .a 15 ∧ s.core.slot = none ∧
        (s.core.routes.get f.link).get f.channel = some tapRoute) ∧
      ∃ s, ReadInFlight s .a 15 ∧ s.core.slot ≠ none) ∧
    (∀ slot, ∃ s : State, s.held = false ∧ s.engine.mode ≠ .halted ∧
      s.engine.parked = some (.readRoute idA 0 0 0) ∧ s.core.slot = slot ∧
      (s.core.routes.get 0).get 0 = some tapRoute ∧ (s.core.routes.get 7).get 11 = none) ∧
    (∃ s : State, s.held = false ∧ s.engine.mode ≠ .halted ∧ s.core.slot = some slotOf ∧
      slotOf.route.sized) ∧
    (let full : Route := ⟨true, List.replicate 3 ⟨.inbound 7 11, 7, some ⟨7, 15, .pressed⟩⟩ ++
        [⟨.playout 15, 0, none⟩]⟩;
      full.sized ∧ full.entries[3]? = some ⟨.playout 15, 0, none⟩ ∧
      8 + 8 * full.entries.length ≤ 40) :=
  ⟨⟨⟨0, 0, 0xFFFFFFD8⟩, by decide, ⟨reading .a 15, reading_inFlight _ _, rfl, rfl⟩,
      ⟨{ reading .a 15 with core := busy.core }, ⟨rfl, by show EngineState.running ≠ _; decide, rfl⟩, rfl, rfl⟩,
      { reading .a 15 with core := { busy.core with slot := some slotOf } },
      ⟨rfl, by show EngineState.running ≠ _; decide, rfl⟩, by show some _ ≠ none; decide⟩,
    fun slot => ⟨{ busy with
      engine := { engine with parked := some (.readRoute idA 0 0 0) }, core := { busy.core with slot := slot } },
      rfl, by show EngineState.running ≠ _; decide, rfl, rfl, rfl, rfl⟩,
    ⟨{ busy with core := { busy.core with slot := some slotOf } }, rfl, by decide, rfl,
      by show _ ∧ _; decide⟩, by show _ ∧ _; decide, by decide, by decide⟩

theorem test_meets_FenceWaitsForEarlierCommands :
    (∀ k ∈ [0, 1], ∃ s, ReadInFlight s .a 15 ∧ parseFence (record []) = some () ∧
      ((s.readEnded .a).broken .a).engine.outstanding = k + 1) ∧
    ∀ k, ∃ s : State, s.held = false ∧ s.engine.mode ≠ .halted ∧ s.engine.parked = some (.fence idA) ∧
      s.engine.outstanding = k :=
  ⟨fun k _ => ⟨(reading .a 15).withEngine { (reading .a 15).engine with outstanding := k },
      ⟨rfl, by show EngineState.running ≠ _; decide, rfl⟩, by decide, rfl⟩,
    fun k => ⟨running.withEngine { engine with parked := some (.fence idA), outstanding := k },
      rfl, by show EngineState.running ≠ _; decide, rfl, rfl⟩⟩

/-! ## Hypotheses that are met: completions, events, transfers -/

def completion : Completion := .plain idA .done 0

theorem test_meets_CompletionsArePostedInOrder :
    (∃ s : State, s.held = false ∧ s.engine.mode ≠ .halted ∧ s.engine.compWrite = none ∧
      s.engine.postQueue = completion :: []) ∧
    ∃ s : State, s.held = false ∧ s.engine.compWrite = some (completion, 0xFFFFFFFF) :=
  ⟨⟨running.withEngine { engine with postQueue := [completion] }, rfl,
      by show EngineState.running ≠ _; decide, rfl, rfl⟩,
    running.withEngine { engine with compWrite := some (completion, 0xFFFFFFFF) }, rfl, rfl⟩

def record40 : EventRecord := ⟨.tapStarved 15, 9, 65535⟩

/-- Each kind, at counts 1 and 65535. -/
theorem test_meets_MergedEventsFollowTheirKind :
    ∀ k ∈ [1, 65535], ∀ b ∈ [EventBody.linkState 0 ⟨.active, false⟩ ⟨.degraded, false⟩ .serviceLost,
        .keys 7 1 1, .messageError 0 .tooLong, .tapStarved 15],
      ∃ s : State, s.events.set.get b.source = some ⟨b, 0xFFFFFFFF, k⟩ :=
  fun k _ b _ => ⟨{ running with events := { EventUnit.reset with
    set := (Table.fill 40 none).set b.source (some ⟨b, 0xFFFFFFFF, k⟩) } }, by
      show Table.get (Table.set _ _ _) _ = _; rw [Table.get_set_same]⟩

/-- The event ring with one slot free, and full; a write in flight; something pending; no ring. -/
theorem test_meets_EventsArePostedOrHeld :
    (∃ s : State, ringSize s.engine.baseEvent = some 16 ∧
      ringDistance 16 s.engine.consEvent s.events.post < 15 ∧ s.engine.mode ≠ .halted ∧
      s.events.write = none ∧ ∀ i, s.events.set.get i = none) ∧
    (∃ s : State, ringSize s.engine.baseEvent = none) ∧
    (∃ s : State, ringSize s.engine.baseEvent = some 16 ∧
      15 ≤ ringDistance 16 s.engine.consEvent s.events.post) ∧
    (∃ s : State, s.events.write = some (.event record40)) ∧
    (∃ s : State, s.events.write = some (.message 0 ⟨[1], 0⟩)) ∧ ∃ s : State, ∃ i, s.events.set.get i ≠ none :=
  ⟨⟨{ running with events := { EventUnit.reset with post := 14 } }, by decide⟩, ⟨State.reset, by decide⟩,
    ⟨{ running with events := { EventUnit.reset with post := 15 } }, by decide⟩,
    ⟨{ running with events := { EventUnit.reset with write := some (.event record40) } }, rfl⟩,
    ⟨{ running with events := { EventUnit.reset with write := some (.message 0 ⟨[1], 0⟩) } }, rfl⟩,
    { running with events := { EventUnit.reset with set := (Table.fill 40 none).set 39 (some record40) } },
    39, by decide⟩

/-- The last source of the 40; the link just before the pointer; both kinds of write in flight. -/
theorem test_meets_EventWritesDrainInOrder :
    (∃ s : State, s.held = false ∧ ringSize s.engine.baseEvent = some 16 ∧
      ringDistance 16 s.engine.consEvent s.events.post < 15 ∧ s.engine.mode ≠ .halted ∧
      s.events.write = none ∧ s.events.set.get 39 = some record40 ∧
      ∀ j, j < 39 → s.events.set.get j = none) ∧
    (∃ s : State, s.held = false ∧ ringSize s.engine.baseEvent = some 16 ∧
      ringDistance 16 s.engine.consEvent s.events.post < 15 ∧ s.engine.mode ≠ .halted ∧
      s.events.write = none ∧ (∀ i, s.events.set.get i = none) ∧
      (s.links.get (s.events.pointer + 7)).inQueue = ⟨[1], 0⟩ :: [] ∧
      ∀ j, j < 7 → (s.links.get (s.events.pointer + j)).inQueue = []) ∧
    (∃ s : State, s.held = false ∧ s.events.write = some (.event record40)) ∧
    (∃ s : State, s.held = false ∧ s.events.write = some (.message 0 ⟨[1], 0⟩)) ∧
    (∀ w : EventWrite, ∃ s : State, s.events.write = some w) ∧ (List.replicate 44 (1 : Byte)).length ≤ 44 :=
  ⟨⟨{ running with events := { EventUnit.reset with
      post := 14, set := (Table.fill 40 none).set 39 (some record40) } }, by decide⟩,
    ⟨{ (withLink { Link.reset with inQueue := [⟨[1], 0⟩] }) with
      events := { EventUnit.reset with pointer := 1 } }, by decide⟩,
    ⟨{ running with events := { EventUnit.reset with write := some (.event record40) } }, rfl, rfl⟩,
    ⟨{ running with events := { EventUnit.reset with write := some (.message 0 ⟨[1], 0⟩) } }, rfl, rfl⟩,
    fun w => ⟨{ running with events := { EventUnit.reset with write := some w } }, rfl⟩, by decide⟩

/-! ## Hypotheses that are met: taps -/

/-- A CREDIT TAP for tap 0: the longest buffer there is, ending where host memory ends. -/
def creditRecord : CommandRecord := record [(21, 0xE0), (22, 0xFF), (23, 0xFF), (25, 0x10)]

/-- A ring-B read in flight, with tap 0 in this context. -/
def crediting (t : Tap) : State := { reading .b 15 with taps := (Table.fill 16 Tap.reset).set 0 t }

theorem test_meets_CreditTapAddsABuffer :
    parseCredit creditRecord = some ⟨0, 0xFFFFE000, 4096⟩ ∧
    ((0xFFFFE000 : Word).toNat % 4 = 0 ∧ 8 ≤ 4096 ∧ 4096 % 8 = 0 ∧
      (0xFFFFE000 : Word).toNat + 2 * 4096 = 2 ^ 32) ∧
    parseCredit (record [(24, 8)]) = some ⟨0, 0, 8⟩ ∧ parseCredit (record [(24, 7)]) = some ⟨0, 0, 7⟩ ∧
    parseCredit (record [(63, 1)]) = none ∧ parseCredit (record [(16, 16)]) = none ∧
    ReadInFlight (reading .a 15) .a 15 ∧ (∀ t, ReadInFlight (crediting t) .b 15) ∧ Tap.reset.state = .closed ∧
    capturing.state ≠ .closed ∧ { capturing with buffers := List.replicate 7 buffer }.buffers.length < 8 ∧
    8 ≤ { capturing with buffers := List.replicate 8 buffer }.buffers.length :=
  ⟨by decide, by decide, by decide, by decide, by decide, by decide,
    reading_inFlight _ _, fun _ => ⟨rfl, by show EngineState.running ≠ _; decide, rfl⟩, rfl, by decide, by decide, by decide⟩

/-- A closed tap; no buffer, and one of which nothing is read. -/
theorem test_meets_TapsMoveOneSampleAFrame :
    Tap.reset.state = .closed ∧
    { capturing with buffers := [] }.current = none ∧ capturing.state ≠ .closed ∧
    (let b : Buffer := ⟨idA, 0, 8, 0, 0, none⟩
      let t := { playing with buffers := [b], runs := [] };
      t.state ≠ .closed ∧ t.current = some b ∧ t.plays = true ∧ b.transferred = 0) := by
  decide

/-- A capture tap: a buffer's first sample and the sample before its last, the one that completes a run and the one
before; its last sample with another buffer behind, and with none. -/
theorem test_meets_TapsMoveOneSampleAFrame_capture :
    (∀ p ∈ [0, 14, 15], ∀ k ∈ [6, 7], let b := { buffer with position := p }
      let t := { capturing with buffers := [b], collecting := List.replicate k 0 };
      t.state ≠ .closed ∧ t.current = some b ∧ t.plays = false ∧ t.runs.length < 2 ∧
      t.collecting.length = k) ∧
    14 + 1 < buffer.length ∧ 15 + 1 = buffer.length ∧
    (let behind := [{ buffer with position := 16 }, buffer]
      let alone := [{ buffer with position := 16 }];
      (∃ c ∈ behind, c.position < c.length) ∧ ∀ c ∈ alone, c.length ≤ c.position) := by
  decide

/-- A playout tap: a buffer's first sample, the sample before its last, and its last, with a buffer behind and with
none. -/
theorem test_meets_TapsMoveOneSampleAFrame_playout :
    (∀ p ∈ [0, 14, 15], let b := { buffer with position := p, transferred := 16 }
      let t := { playing with buffers := [b] };
      t.state ≠ .closed ∧ t.current = some b ∧ t.plays = true ∧ b.position < b.transferred) ∧
    14 + 1 < buffer.length ∧ 15 + 1 = buffer.length ∧
    (let left := fun l : List Buffer => l.filter fun c => 16 < 16 || decide (c.position < c.length);
      left [{ buffer with position := 16 }, buffer] ≠ [] ∧ left [{ buffer with position := 16 }] = []) := by
  decide

/-- Both kinds of tap late; a playout tap that supplies nothing, in three ways. -/
theorem test_meets_TapsMoveOneSampleAFrame_late :
    (let t := { capturing with runs := [run, run] };
      t.state ≠ .closed ∧ t.current = some buffer ∧ t.plays = false ∧ 2 ≤ t.runs.length) ∧
    (let b := { buffer with position := 8, transferred := 8 }
      let t := { playing with buffers := [b], runs := [] };
      t.state ≠ .closed ∧ t.current = some b ∧ t.plays = true ∧ 0 < b.transferred ∧
      b.transferred ≤ b.position) ∧
    { playing with buffers := [] }.current = none ∧
    { playing with buffers := [{ buffer with transferred := 0 }] }.current =
      some { buffer with transferred := 0 } := by
  decide

/-- A frame at which no tap is late, and one at which a tap is. -/
theorem test_meets_TapsMoveOneSampleAFrame_frame :
    ∀ late ∈ [false, true], ∃ (s u v : State) (given : TapId → Sample)
        (took : TapId → (Tap × List Effect) × Bool),
      s.held = false ∧ u = startSchedule (startLinks (advanceFrame (catchUp s))) ∧
      u.engine.mode ≠ .halted ∧
      v = { u with core := { u.core with
        down := mixAll u.links (u.taps.map supplyOf) u.core.routes } } ∧
      (∀ k, given k = match (u.taps.get k).use with
        | none => 0
        | some use => captureSample u.links v.core.down use) ∧
      (∀ k, took k = tapFrame k (given k) (u.taps.get k)) ∧
      if late then ∃ k, (took k).2 = true else ∀ k, (took k).2 = false := by
  intro late _
  refine ⟨withTap { capturing with writing := true, runs := if late then [run, run] else [run] },
    _, _, _, _, rfl, rfl, by cases late <;> decide +kernel, rfl, fun _ => rfl, fun _ => rfl, ?_⟩
  cases late <;> decide +kernel

/-- A capture run to write; a HALTED engine, a write in flight, nothing to write; the end of a write, with the
buffer going on and done, while another closed tap waits; a playout read that can start, and its end behind a
buffer that is read. -/
theorem test_meets_TapTransfersMoveRuns :
    (let s := withTap capturing;
      s.held = false ∧ s.engine.mode ≠ .halted ∧ (s.taps.get 0).writing = false ∧ runsToWrite s 0 ≠ []) ∧
    (stuck.held = false ∧ stuck.engine.mode = .halted ∧ runsToWrite running 0 = [] ∧
      ((withTap { capturing with writing := true }).taps.get 0).writing = true) ∧
    (∀ b ∈ [buffer, { buffer with transferred := 8 }],
      let s := { withTap { capturing with writing := true, buffers := [b] } with
        closing := [⟨[closedTap 15], []⟩] };
      s.held = false ∧ s.engine.mode ≠ .halted ∧
      (∀ g ∈ s.closing, ∀ c ∈ g.taps, c.tap = 0 → c.runs = []) ∧ (s.taps.get 0).writing = true ∧
      (s.taps.get 0).plays = false ∧
      (s.taps.get 0).runs = run :: [] ∧ (s.taps.get 0).buffers = b :: [] ∧ b.transferred < b.length) ∧
    buffer.transferred + 8 ≠ buffer.length ∧
    { buffer with transferred := 8 }.transferred + 8 = { buffer with transferred := 8 }.length ∧
    (let s := withTap { playing with runs := [run] };
      s.held = false ∧ s.engine.mode ≠ .halted ∧ (s.taps.get 0).use = some .playout ∧
      (s.taps.get 0).reading = false ∧ (s.taps.get 0).runs.length < 2 ∧
      ∃ b ∈ (s.taps.get 0).buffers, b.transferred < b.length) ∧
    (let read := { buffer with transferred := 16 }
      let s := withTap { playing with reading := true, runs := [], buffers := [read, buffer] };
      s.held = false ∧ (s.taps.get 0).reading = true ∧ (s.taps.get 0).buffers = [read] ++ buffer :: [] ∧
      (∀ c ∈ [read], c.length ≤ c.transferred) ∧ buffer.transferred < buffer.length) := by
  refine ⟨?_, ?_, ?_, ?_, ?_, ?_, ?_⟩ <;> decide

/-- A closed tap whose write ends: with a run to follow, with none, alone in its group and not. -/
theorem test_meets_TapTransfersMoveRuns_closed :
    ∀ runs ∈ [[run], []], ∀ last ∈ [[], [closedTap 15]],
      ∃ s : State, s.held = false ∧ s.engine.mode ≠ .halted ∧ (s.taps.get 0).writing = true ∧
        ClosingWaits s.closing ∧
        s.closing = [] ++ ⟨[] ++ ⟨0, false, run :: runs, buffer :: [buffer]⟩ :: last, [completion]⟩ :: [] ∧
        (∀ c ∈ last, c.tap ≠ 0) ∧ buffer.transferred < buffer.length := by
  intro runs _ last hl
  refine ⟨{ withTap { Tap.reset with writing := true } with
    closing := [⟨⟨0, false, run :: runs, [buffer, buffer]⟩ :: last, [completion]⟩] },
    rfl, by show EngineState.running ≠ _; decide, rfl, ⟨by simp, fun before c after h => .inl ?_⟩, rfl,
    by revert last; decide, by decide⟩
  have : c ∈ (⟨0, false, run :: runs, [buffer, buffer]⟩ : ClosedTap) :: last := by
    have h : ⟨0, false, run :: runs, [buffer, buffer]⟩ :: last ++ [] = before ++ c :: after := h
    rw [List.append_nil] at h
    rw [h]; simp
  rcases List.mem_cons.mp this with h | h
  · rw [h]; nofun
  · have : ∀ last ∈ [[], [closedTap 15]], ∀ c ∈ last, c.runs ≠ [] := by decide
    exact this last hl c h

/-! ## Hypotheses that are met: the engine -/

/-- All transfers in flight at once. -/
def transferring : State :=
  { reading .a 0 with
    engine := { (reading .a 0).engine with compWrite := some (completion, 0) }
    core := { SwitchCore.reset with slot := some slotOf }
    events := { EventUnit.reset with write := some (.event record40) }
    taps := (((Table.fill 16 Tap.reset).set 0 { capturing with writing := true }).set 15
      { playing with reading := true, runs := [] }) }

theorem test_meets_BusErrorsHaltTheEngine :
    let s := transferring
    s.held = false ∧ s.engine.mode ≠ .halted ∧ s.engine.fetch ≠ none ∧ s.engine.compWrite ≠ none ∧
    s.events.write ≠ none ∧ s.core.slot ≠ none ∧ (s.taps.get 0).writing = true ∧
    (s.taps.get 15).reading = true := by
  refine ⟨?_, ?_, ?_, ?_, ?_, ?_, ?_, ?_⟩ <;> decide

theorem test_meets_EnableSetStartsTheEngine :
    ∀ mode, ∃ s : State, s.held = false ∧ s.engine.mode = mode ∧
      ringSize s.engine.baseComp ≠ none ∧ ringSize s.engine.baseEvent ≠ none :=
  fun mode => ⟨running.withEngine { engine with mode := mode }, rfl, rfl,
    by show ringSize 0x2001 ≠ none; decide, by show ringSize 0x3001 ≠ none; decide⟩

theorem test_meets_EnableSetStartsTheEngine_refused :
    State.reset.held = false ∧ State.reset.engine.mode = .stopped ∧
      ¬ (ringSize State.reset.engine.baseComp ≠ none ∧ ringSize State.reset.engine.baseEvent ≠ none) := by
  decide

theorem test_meets_OtherControlWritesAreStored :
    running.held = false ∧ (0x08 : Word) ∉ storedOffsets ∧ (0x40 : Word) ∉ storedOffsets ∧
      (0x04 : Word) ∈ storedOffsets ∧ (0x2C : Word) ∈ storedOffsets := by
  decide

/-- A RUNNING engine without a read in flight and with one, and an engine in each other state. -/
theorem test_meets_OtherControlWritesAreStored_modes :
    (running.engine.mode = .running ∧ running.engine.fetch = none) ∧
    (reading .a 15).engine.mode = .running ∧ (reading .a 15).engine.fetch ≠ none ∧
    State.reset.engine.mode = .stopped ∧ stuck.engine.mode = .halted := by
  decide

/-- ENABLE_CLEAR with no read in flight ends the stop at once, and a base write right after it is accepted. -/
theorem test_clearedEnableStopsAtOnce :
    ∃ s t, exec (.enableClear ⟨false, false, false⟩) running = .next s ∧ s.engine.mode = .stopped ∧
      exec (.ringBaseWrite .ringA 0x8002) s = .next t ∧ t.engine.baseA = 0x8002 ∧
      t.engine.cfgIgnored = false :=
  ⟨_, _, rfl, rfl, rfl, rfl, rfl⟩

/-- A stop that can end, with nothing parked, an edit parked that finds no place, a READ ROUTE parked whose
slot is taken; ENABLE clear and set. -/
def stopping (enable : Bool) (parked : Option Parked) : State :=
  { running with
    engine := { engine with mode := .stopping, enable := enable, parked := parked }
    sched := ⟨some (opened 8), false, groups 7 8⟩
    core := { SwitchCore.reset with slot := some slotOf } }

theorem test_meets_StopEndAbortsWhatIsOpen :
    (∀ enable parked, (stopping enable parked).held = false ∧
      (stopping enable parked).engine.mode = .stopping ∧ (stopping enable parked).engine.fetch = none ∧
      (stopping enable parked).engine.enable = enable ∧ (stopping enable parked).engine.parked = parked ∧
      (stopping enable parked).core.slot = some slotOf ∧ ringSize (stopping enable parked).engine.baseComp ≠ none ∧
      ringSize (stopping enable parked).engine.baseEvent ≠ none) ∧
    (stopping true none).sched.roomForEdit = false ∧
    ∃ s : State, s.held = false ∧ s.engine.mode = .stopping ∧ s.engine.fetch = none ∧
      s.engine.parked = none ∧ s.engine.enable = true ∧ ringSize s.engine.baseComp = none :=
  ⟨fun _ _ => ⟨rfl, rfl, rfl, rfl, rfl, rfl, by show ringSize 0x2001 ≠ none; decide,
      by show ringSize 0x3001 ≠ none; decide⟩,
    by decide, State.reset.withEngine { RingEngine.reset with mode := .stopping, enable := true },
    rfl, rfl, rfl, rfl, rfl, rfl⟩

/-- The read that a stop waits for: its command opens a group, which the end of the stop aborts. -/
def lastRead : State := (reading .a 15).withEngine { (reading .a 15).engine with mode := .stopping, enable := false }

theorem test_lastReadEndsTheStop :
    ReadInFlight lastRead .a 15 ∧ ∃ t, exec (.clearRoute (clearRecord 1 0)) lastRead = .next t ∧
      t.engine.mode = .stopped ∧ t.sched.assembly = none ∧
      t.engine.postQueue = [.plain ⟨7, .a, 15⟩ .aborted 0] :=
  ⟨⟨rfl, by decide, rfl⟩, _, rfl, by decide⟩

/-- A parked FENCE with commands outstanding and with none; and each kind of parked command that can proceed. -/
theorem test_meets_StopEndAbortsWhatIsOpen_proceeds :
    (∀ k ∈ [0, 1], ∃ (s : State) (id : CmdId), s.held = false ∧ s.engine.mode = .stopping ∧
      s.engine.fetch = none ∧ s.engine.parked = some (.fence id) ∧ s.sched.assembly = none ∧
      s.engine.outstanding = k) ∧
    ∀ p ∈ [Parked.edit ⟨idA, true, false, 0, 0, none⟩, .readRoute idA 0 0 0, .fence idA],
      ∃ s : State, s.held = false ∧ s.engine.mode = .stopping ∧ s.engine.fetch = none ∧
        s.engine.parked = some p ∧ s.sched.roomForEdit = true ∧ s.core.slot = none ∧
        s.engine.outstanding = 0 :=
  ⟨fun k _ => ⟨running.withEngine { engine with
      mode := .stopping, parked := some (.fence idA), outstanding := k }, idA, rfl, rfl, rfl, rfl, rfl, rfl⟩,
    fun p _ => ⟨running.withEngine { engine with mode := .stopping, parked := some p },
      rfl, rfl, rfl, rfl, by show Scheduler.roomForEdit State.reset.sched = true; decide, rfl, rfl⟩⟩

/-- A STOPPED and QUIET engine; the last place of a ring of 4096 slots of either size; one that does not
fit; an engine that runs. -/
theorem test_meets_RingBaseWritesConfigure :
    State.reset.held = false ∧ State.reset.engine.mode = .stopped ∧ quiet State.reset = true ∧
    ringSize 0xFFFC0009 = some 4096 ∧ ringAddress 0xFFFC0009 + 4096 * 64 = 2 ^ 32 ∧
    ringSize 0xFFFF0009 = some 4096 ∧ ringAddress 0xFFFF0009 + 4096 * 16 = 2 ^ 32 ∧
    2 ^ 32 < ringAddress 0xFFFC0019 + 4096 * 64 ∧ 2 ^ 32 < ringAddress 0xFFFF0019 + 4096 * 16 ∧
    ringSize 0xFFFFFFFA = none ∧ running.engine.mode ≠ .stopped := by
  refine ⟨?_, ?_, ?_, ?_, ?_, ?_, ?_, ?_, ?_, ?_, ?_⟩ <;> decide

/-- Indices 15 and 16 of rings of 16 slots; consumers at and past the posting positions; a halted engine; no
rings. -/
theorem test_meets_HostIndexWritesAreChecked :
    let s := { (running.withEngine { engine with postComp := 3, consComp := 1 }) with
      events := { EventUnit.reset with post := 3 } }
    s.held = false ∧ ringSize s.engine.baseA = some 16 ∧ ringSize s.engine.baseB = some 16 ∧
    ringSize s.engine.baseComp = some 16 ∧ ringSize s.engine.baseEvent = some 16 ∧
    (15 : Word).toNat < 16 ∧ 16 ≤ (16 : Word).toNat ∧
    ¬ ringDistance 16 s.engine.consComp s.engine.postComp < ringDistance 16 s.engine.consComp 3 ∧
    ringDistance 16 s.engine.consComp s.engine.postComp < ringDistance 16 s.engine.consComp 4 ∧
    ¬ ringDistance 16 s.engine.consEvent s.events.post < ringDistance 16 s.engine.consEvent 3 ∧
    ringDistance 16 s.engine.consEvent s.events.post < ringDistance 16 s.engine.consEvent 4 ∧
    s.engine.mode ≠ .halted ∧ stuck.held = false ∧ stuck.engine.mode = .halted ∧
    ringSize stuck.engine.baseComp = some 16 ∧ ringSize State.reset.engine.baseA = none := by
  decide

theorem test_meets_InterruptFollowsItsConditions :
    (∃ s t, s.held = false ∧ exec .deviceReset s = .next t) ∧
    ∃ s t, s.held = false ∧ exec .engineReset s = .next t :=
  ⟨⟨stuck, _, rfl, rfl⟩, stuck, _, rfl, rfl⟩

/-! ## Hypotheses that are met: the line and the sessions -/

theorem test_meets_CheckByteIsTheCrc :
    frameCovered (frameOf 0x2D) = frameCovered (frameOf 0xD2) ∧
    (frameOf 0x2D).bytes.get 26 = (frameOf 0xD2).bytes.get 26 := by
  decide

/-- A link that sends on the line, with this aligner. -/
def aligning (a : Aligner) : Link := { Link.reset with state := .calling, framer := .sending, aligner := a }

/-- Both markers and a byte that is none; the internal loop; a link at rest; confirmation with one good frame
to go and with two; good frames and bad ones. -/
theorem test_meets_AlignerHuntsAndConfirms :
    (∀ a, (withLink (aligning a)).held = false ∧ ((withLink (aligning a)).links.get 0).aligner = a ∧
      sendsIn ((withLink (aligning a)).links.get 0).state = true) ∧
    Aligner.reset.input = .line ∧ Aligner.reset.frameAlign = .hunt ∧
    (0x2C : Byte) ≠ 0x2D ∧ (0x2C : Byte) ≠ 0xD2 ∧
    (let l := { looping with loopFrame := some (frameOf 0xD2) };
      sendsIn l.state = true ∧ l.aligner.input = .loopback ∧ l.aligner.frameAlign = .hunt ∧
      frameMarker (frameOf 0xD2) = 0xD2) ∧
    sendsIn failed.state = false ∧ serving.frameAlign ≠ .hunt ∧
    (∀ k ∈ [0, 1], { Aligner.reset with frameAlign := .confirm, confirm := k }.confirm = k) ∧
    frameGood (goodFrame 0x2D) = true ∧ frameGood (frameOf 0x2D) = false :=
  ⟨fun _ => ⟨rfl, rfl, rfl⟩, rfl, rfl, by decide, by decide, by decide, by decide, by decide,
    by decide, by decide +kernel, by decide +kernel⟩

/-- An aligner in LOCKED that searches for markers. -/
def searching (input : AlignerInput) (markers since score : Nat) : Aligner :=
  { Aligner.reset with
    input := input, frameAlign := .locked, confirm := 2, markers := markers, sinceMarker := since, score := score }

theorem searching_good {input : AlignerInput} {markers since score : Nat} (hm : markers < 3)
    (hs : score < 16) : AlignerGood (searching input markers since score) where
  confirm := by show 2 ≤ 2; decide
  confirming := nofun
  score := hs
  markers := Nat.le_of_lt hm
  unlocked := fun _ => hm
  misses := nofun
  phase := rfl
  searching := fun _ => rfl
  block := nofun

/-- A good link out of service with another aligner that searches. -/
theorem searches_good {l : Link} (h : LinkGood l) {a : Aligner} (f : Option LineFrame) (ha : AlignerGood a)
    (hi : a.input = inputOf l.state) (hs : sendsIn l.state = true) (hn : l.inService = false)
    (hu : a.superAlign = .search) : LinkGood { l with loopFrame := f, aligner := a } :=
  ⟨⟨h.session.lock, h.session.side, h.session.reason, h.session.report, h.session.timer, h.session.op,
      h.session.framer, h.session.detector, hi, fun h' => absurd (hs.symm.trans h') (by decide),
      fun _ => h.session.filters hn, h.session.keys,
      fun h' => absurd ((h.session.service h').symm.trans hn) (by decide),
      fun h' => (h.session.loopService h').trans (hn.trans (by simp [Link.inService, hu]))⟩, ha,
    ⟨h.messages.out, h.messages.inbound, h.messages.outState, h.messages.outSize, h.messages.inSize,
      h.messages.assembly, h.messages.retry, h.messages.notReady⟩⟩

theorem callSearching_good {markers since score : Nat} (hm : markers < 3) (hs : score < 16) :
    LinkGood { calling with aligner := searching .line markers since score } :=
  searches_good calling_good none (searching_good hm hs) rfl rfl rfl rfl

theorem loopSearching_good {f : Option LineFrame} {markers since score : Nat} (hm : markers < 3)
    (hs : score < 16) :
    LinkGood { looping with loopFrame := f, aligner := searching .loopback markers since score } :=
  searches_good looping_good f (searching_good hm hs) rfl rfl rfl rfl

/-- A frame examined in CONFIRM and in LOCKED, on the line and on the internal loop, for every marker count and
score. -/
theorem test_meets_AlignerHuntsAndConfirms_examined :
    (∀ k f, let l := aligning { Aligner.reset with frameAlign := .confirm, confirm := k };
      (withLink l).held = false ∧ Examines l f f l ∧ l.aligner.frameAlign = .confirm) ∧
    (∀ f g, let l := { looping with
        loopFrame := some g, aligner := { looping.aligner with frameAlign := .confirm } };
      Examines l f g { l with loopFrame := none } ∧ l.aligner.frameAlign = .confirm) ∧
    ∀ f g markers since score, markers < 3 → score < 16 →
      (let l := { calling with aligner := searching .line markers since score };
        LinkGood l ∧ Examines l f f l ∧ l.aligner.frameAlign = .locked ∧
          l.aligner.superAlign = .search ∧ l.state ≠ .loop) ∧
      (let l := { looping with
          loopFrame := some g, aligner := searching .loopback markers since score };
        LinkGood l ∧ Examines l f g { l with loopFrame := none } ∧ l.aligner.frameAlign = .locked ∧
          l.aligner.superAlign = .search ∧ l.state = .loop) :=
  ⟨fun _ _ => ⟨rfl, ⟨rfl, .inl ⟨rfl, rfl, rfl⟩⟩, rfl⟩, fun _ _ => ⟨⟨rfl, .inr ⟨rfl, rfl, rfl⟩⟩, rfl⟩,
    fun _ _ _ _ _ hm hs => ⟨⟨callSearching_good hm hs, ⟨rfl, .inl ⟨rfl, rfl, rfl⟩⟩, rfl, rfl, nofun⟩,
      loopSearching_good hm hs, ⟨rfl, .inr ⟨rfl, rfl, rfl⟩⟩, rfl, rfl, rfl⟩⟩

/-- A marker B in its place as the second and the third one, out of its place, and none in either place; scores that
stay below 16 and reach it. -/
theorem test_meets_AlignerHuntsAndConfirms_markers :
    let place := fun markers since : Nat => 0 < markers ∧ since + 1 = 16
    frameMarker (goodFrame 0xD2) = 0xD2 ∧ frameMarker (goodFrame 0x2D) ≠ 0xD2 ∧
    frameMarker (frameOf 0xD2) = 0xD2 ∧ frameGood (goodFrame 0xD2) = true ∧
    frameGood (frameOf 0xD2) = false ∧ place 1 15 ∧ 1 + 1 < 3 ∧ place 2 15 ∧ 2 + 1 = 3 ∧
    ¬ place 0 15 ∧ ¬ place 1 14 ∧ 15 - 1 < 16 ∧ 11 + 4 < 16 ∧ 16 ≤ 12 + 4 := by
  decide +kernel

/-- The last phase before a block completes, and the first; a good frame and an errored one at the highest
score that keeps lock; a marker found, a first miss. -/
theorem test_meets_UpstreamFrameCarriesBearerAndHousekeeping :
    (let f := goodFrame 0x2D
      let a := { serving with phase := some 13 };
      a.input = .line ∧ a.frameAlign = .locked ∧ a.superAlign = .sfLocked ∧ a.phase = some 13 ∧
      (13 : Fin 16) + 1 ≠ 15 ∧ frameGood f = true ∧ a.score - 1 < 16 ∧ (frameMarker f == 0xD2) = false ∧
      a.misses < 2) ∧
    (let f := frameOf 0xD2
      let a := { serving with phase := some 15, score := 11, upBlock := none };
      a.phase = some 15 ∧ (15 : Fin 16) + 1 = 0 ∧ frameGood f = false ∧ a.score + 4 < 16 ∧
      (frameMarker f != 0xD2) = false) ∧
    (let f := goodFrame 0x2D
      let a := { serving with phase := some 15, misses := 0 };
      (frameMarker f != 0xD2) = true ∧ a.misses + 1 < 2) := by
  refine ⟨?_, ?_, ?_⟩ <;> decide +kernel

/-- A frame that completes a block: undamaged, damaged by the frame, and with no block begun. -/
theorem test_meets_UpstreamFrameCarriesBearerAndHousekeeping_block :
    (withLink active).held = false ∧ (∀ f, Examines active f f active) ∧ serving.phase = some 14 ∧
    (15 : Fin 16) = 14 + 1 ∧ serving.upBlock = some ⟨List.replicate 15 0, false⟩ ∧
    frameGood (goodFrame 0x2D) = true ∧ (frameMarker (goodFrame 0x2D) == 0xD2) = false ∧ serving.misses < 2 ∧
    serving.score - 1 < 16 ∧ frameGood (frameOf 0x2D) = false ∧ 11 + 4 < 16 ∧
    { serving with upBlock := none }.upBlock = none ∧ (List.replicate 11 (0 : Byte)).length = 11 ∧
    linkWordOf 0x44 0xBB = some .run ∧ linkWordOf 0x44 0x44 = none := by
  refine ⟨rfl, fun f => ⟨rfl, .inl ⟨rfl, rfl, rfl⟩⟩, ?_⟩
  decide +kernel

/-- The key filter with another candidate, with the field taken before, and taking one, where the table follows and
where it does not; an ACK of a last segment and of one that is not, and ACKs of nothing. -/
theorem test_meets_UpstreamFrameCarriesBearerAndHousekeeping_fields :
    active.candKeys ≠ some 1 ∧ active.takenKeys = 0x8001 ∧ active.candKeys = some 0x8001 ∧
    (let l := { active with candKeys := some 1 };
      l.candKeys = some 1 ∧ l.takenKeys ≠ 1 ∧ l.state = .active ∧ l.keyTable ≠ 1) ∧
    (let l := { training with candKeys := some 1 };
      l.takenKeys ≠ 1 ∧ l.state ≠ .active ∧ l.state ≠ .loop) ∧
    active.outQueue = ⟨some idA, [1]⟩ :: [⟨none, List.replicate 44 2⟩] ∧ 0 < active.chan.retry ∧
    active.chan.sendSeq = false ∧ active.chan.segIndex + 1 = (1 + 10) / 11 ∧
    active.chan.segIndex + 1 ≠ (44 + 10) / 11 ∧ training.outQueue = [] ∧ training.chan.retry = 0 := by
  decide

/-- Segments of 0, 1, 11 and 12 bytes; a repeat, one without room, one not ready for; one discarded; one that makes a
message of 45 bytes and one of 44; with END and without. -/
theorem test_meets_UpstreamFrameCarriesBearerAndHousekeeping_segments :
    let h := fun b : Byte => (b.toNat % 16, b.getLsbD 7, b.getLsbD 5)
    let c := { MessageChannel.reset with sentRdy := true, assembly := List.replicate 33 0 }
    h 0x00 = (0, false, false) ∧ h 0x0C = (12, false, false) ∧ h 0x01 = (1, false, false) ∧
    h 0x2B = (11, false, true) ∧ h 0x8B = (11, true, false) ∧ (List.replicate 11 (0 : Byte)).length = 11 ∧
    c.lastSeq ≠ some false ∧ c.sentRdy = true ∧ c.discarding = false ∧ active.inQueue.length < 4 ∧
    c.assembly.length + 11 ≤ 44 ∧ 44 < { c with assembly := List.replicate 34 0 }.assembly.length + 11 ∧
    { c with lastSeq := some false }.lastSeq = some false ∧ MessageChannel.reset.sentRdy = false ∧
    ¬ (List.replicate 4 (⟨[1], 0⟩ : InMessage)).length < 4 ∧ { c with discarding := true }.discarding = true := by
  decide

theorem test_meets_LossOfLockDegradesASession :
    (withLink active).held = false ∧ LinkGood active ∧ active.state = .active ∧
    frameGood (frameOf 0x2D) = false ∧ 12 ≤ active.aligner.score :=
  ⟨rfl, active_good, rfl, by decide +kernel, by decide⟩

/-- A session that does not end with its service. -/
def trained : Link := { training with aligner := serving }

/-- LOOP with loop lock, its looped frame still to be examined. -/
def loopLocked (f : LineFrame) : Link :=
  { looping with
    loopLock := true, timer := none, op := none, loopFrame := some f
    aligner := { serving with input := .loopback } }

theorem trained_good : LinkGood trained := by
  refine ⟨?_, serving_good, ?_⟩ <;> constructor <;> first | decide | exact .inr rfl

theorem loopLocked_good (f : LineFrame) : LinkGood (loopLocked f) := by
  have ha : AlignerGood { serving with input := .loopback } := by constructor <;> decide
  have h : LinkGood { loopLocked (frameOf 0) with loopFrame := none } := by
    refine ⟨?_, ha, ?_⟩ <;> constructor <;> first | decide | trivial
  exact h.withLine none none (some f)

/-- An errored frame at the score of 15, and a second marker B out of its phase, in the three kinds of session. -/
theorem test_meets_LossOfLockDegradesASession_departures :
    (∀ f, LinkGood active ∧ Examines active f f active ∧ active.state = .active ∧ LinkGood trained ∧
      Examines trained f f trained ∧ trained.state ≠ .active ∧ trained.state ≠ .loop) ∧
    (∀ f g, LinkGood (loopLocked g) ∧ Examines (loopLocked g) f g { loopLocked g with loopFrame := none } ∧
      (loopLocked g).state = .loop) ∧
    serving.frameAlign = .locked ∧ serving.superAlign = .sfLocked ∧ serving.phase = some 14 ∧
    (15 : Fin 16) = 14 + 1 ∧ frameGood (frameOf 0x2D) = false ∧ 16 ≤ serving.score + 4 ∧
    frameGood (goodFrame 0xD2) = true ∧ (frameMarker (goodFrame 0xD2) == 0xD2) = true ∧
    serving.score - 1 < 16 ∧ 2 ≤ serving.misses + 1 := by
  refine ⟨fun f => ⟨active_good, ⟨rfl, .inl ⟨rfl, rfl, rfl⟩⟩, rfl, trained_good, ⟨rfl, .inl ⟨rfl, rfl, rfl⟩⟩,
    by decide, by decide⟩, fun f g => ⟨loopLocked_good g, ⟨rfl, .inr ⟨rfl, rfl, rfl⟩⟩, rfl⟩, ?_⟩
  decide +kernel

theorem test_meets_TakenWordsMoveTheSession :
    calling.state = .calling ∧ training.state = .training ∧ active.state = .active ∧
    degraded.state = .degraded ∧ closing.state = .closing ∧ closing.side = some .hub ∧
    { closing with side := some .station }.side ≠ some .hub ∧ LinkWord.done ≠ .run ∧
    (let l := { calling with candWord := some (some .hello) };
      l.candWord = some (some .hello) ∧ l.takenWord ≠ some .hello ∧ l.candWord ≠ some (some .wake)) ∧
    active.takenWord = some .run := by
  decide

theorem stationClosing_good : LinkGood { closing with side := some .station, op := none } := by
  refine ⟨?_, alignerReset_good, ?_⟩ <;> constructor <;> first | decide | trivial

/-- A good link in every session state, and in CLOSING from either side. -/
theorem test_meets_TakenWordsMoveTheSession_good :
    LinkGood calling ∧ LinkGood training ∧ LinkGood active ∧ LinkGood degraded ∧ LinkGood closing ∧
    LinkGood { closing with side := some .station, op := none } ∧ LinkGood Link.reset ∧
    LinkGood listening ∧ LinkGood failed ∧ LinkGood looping :=
  ⟨calling_good, training_good, active_good, degraded_good, closing_good, stationClosing_good,
    linkReset_good.1, listening_good, failed_good, looping_good⟩

/-- Phase 15 of an ACTIVE session, and the superframe starts of the three sessions without messages. -/
theorem test_meets_FramerSendsFramesAndBlocks :
    (let block := makeBlock .run 0 0 []
      let l := { active with block := some block };
      { withLink l with frame := 14 }.held = false ∧ l.framer = .sending ∧ l.state ≠ .loop ∧
      l.loopFrame = none ∧ l.timer = none ∧ l.block = some block ∧ phaseOf (14 + 1) = 15 ∧
      (15 : Fin 16) ≠ 0) ∧
    (∀ l ∈ [{ calling with timer := some (.call, 500) }, { training with timer := some (.train, 1) },
      { closing with timer := some (.close, 16) }],
      l.framer = .sending ∧ l.loopFrame = none ∧ l.timer ≠ none ∧
      (l.state = .calling ∨ l.state = .training ∨ l.state = .closing)) ∧
    phaseOf (0xFFFFFFFF + 1) = 0 := by
  refine ⟨?_, ?_, ?_⟩ <;> decide

/-- A looped frame not yet examined, in HUNT and out of it, and each timer at 0. -/
theorem test_meets_FramerSendsFramesAndBlocks_due :
    (∀ l, (withLink l).held = false ∧ (withLink l).links.get 0 = l) ∧
    (let l := { looping with timer := some (.loop, 1), loopFrame := some (frameOf 0xD2) };
      l.timer ≠ some (.loop, 0) ∧ l.loopFrame = some (frameOf 0xD2) ∧ l.aligner.frameAlign = .hunt) ∧
    (loopLocked (frameOf 0xD2)).timer = none ∧ (loopLocked (frameOf 0xD2)).aligner.frameAlign ≠ .hunt ∧
    calling.timer = some (.call, 0) ∧ training.timer = some (.train, 0) ∧ degraded.timer = some (.hold, 0) ∧
    closing.timer = some (.close, 0) ∧ looping.timer = some (.loop, 0) :=
  ⟨fun _ => ⟨rfl, rfl⟩, ⟨nofun, rfl, rfl⟩, rfl, nofun, rfl, rfl, rfl, rfl, rfl⟩

/-- Phases 15 and 0; a link at rest, one before its first block and one with a block; the superframe start of each
kind of session, with a segment to carry and with none. -/
theorem test_meets_FramerSendsFramesAndBlocks_started :
    phaseOf 15 = 15 ∧ (15 : Fin 16) ≠ 0 ∧ phaseOf 0xFFFFFFF0 = 0 ∧ failed.framer = .atRest ∧
    calling.framer = .sending ∧ calling.block = none ∧
    { active with block := some (Table.fill 16 0) }.block = some (Table.fill 16 0) ∧
    calling.state = .calling ∧ training.state = .training ∧ closing.state = .closing ∧
    degraded.state = .degraded ∧ degraded.framer = .sending ∧ active.framer = .sending ∧
    looping.state = .loop ∧ looping.framer = .sending ∧
    (settleOldest looping).1.outQueue = [] ∧ (settleOldest active).1.chan.peerRdy = false ∧
    (let l := (settleOldest { active with chan := { active.chan with retry := 15, peerRdy := true } }).1;
      l.outQueue = ⟨some idA, [1]⟩ :: [⟨none, List.replicate 44 2⟩] ∧ l.chan.peerRdy = true) ∧
    (List.replicate 11 (0 : Byte)).length ≤ 11 ∧ 15 < 16 := by
  decide

/-- Each way to settle a message, at the ends of the counts. -/
theorem test_meets_FramerSendsFramesAndBlocks_settled :
    let c := fun (retry notReady : Nat) (ready : Bool) =>
      { MessageChannel.reset with retry := retry, notReady := notReady, peerRdy := ready }
    looping.outQueue = [] ∧ active.outQueue = ⟨some idA, [1]⟩ :: [⟨none, List.replicate 44 2⟩] ∧
    (c 15 255 true).retry < 16 ∧ (c 15 255 true).peerRdy = true ∧ (c 15 254 false).peerRdy = false ∧
    (c 15 254 false).notReady + 1 < 256 ∧ 256 ≤ (c 15 255 false).notReady + 1 ∧
    16 ≤ (c 16 0 true).retry ∧ 16 ≤ (c 16 0 false).retry := by
  decide

/-- A ring-B read in flight, with this link in place of link 0. -/
def commanding (l : Link) : State := { reading .b 15 with links := (Table.fill 8 Link.reset).set 0 l }

theorem commanding_inFlight (l : Link) : ReadInFlight (commanding l) .b 15 :=
  ⟨rfl, by show EngineState.running ≠ _; decide, rfl⟩

theorem commanding_link (l : Link) : (commanding l).links.get 0 = l := rfl

/-- Both modes, with the shortest and the longest call timer, from every state of a link. -/
theorem test_meets_StartLinkCallsOrListens :
    parseStart (record [(17, 1)]) = some ⟨0, .call, false, 0⟩ ∧
    parseStart (record [(17, 2), (18, 1), (20, 0xFF), (21, 0x0F)]) = some ⟨0, .answer, true, 4095⟩ ∧
    (∀ l, ReadInFlight (commanding l) .b 15) ∧ LinkGood Link.reset ∧ LinkGood listening ∧
    LinkGood failed ∧ LinkGood active ∧ LinkGood looping :=
  ⟨by decide, by decide, commanding_inFlight, linkReset_good.1, listening_good,
    failed_good, active_good, looping_good⟩

theorem test_meets_LoopLinkEntersTheLoop :
    parseLoop (record [(18, 1)]) = some ⟨0, true⟩ ∧ (∀ l, ReadInFlight (commanding l) .b 15) ∧
    LinkGood Link.reset ∧ LinkGood failed ∧ LinkGood listening :=
  ⟨by decide, commanding_inFlight, linkReset_good.1, failed_good, listening_good⟩

theorem test_meets_StopLinkEndsTheSession :
    parseLinkOnly (record []) = some 0 ∧ (∀ l, ReadInFlight (commanding l) .b 15) ∧
    LinkGood Link.reset ∧ LinkGood listening ∧ LinkGood failed ∧ LinkGood calling ∧ LinkGood looping ∧
    LinkGood training ∧ LinkGood active ∧ LinkGood degraded ∧ LinkGood closing :=
  ⟨by decide, commanding_inFlight, linkReset_good.1, listening_good, failed_good, calling_good,
    looping_good, training_good, active_good, degraded_good, closing_good⟩

/-- Every link, the last lamp, messages of 1 and 44 bytes; a queue of one and one of two. -/
theorem test_meets_QueryLampsAndMessagesAreTaken :
    parseLinkOnly (record [(16, 7)]) = some 7 ∧
    parseLamps (record [(21, 0x80), (23, 0x80)]) = some ⟨0, 0x8000, 0x8000⟩ ∧
    (parseMessage (record [(17, 1)])).isSome = true ∧ (parseMessage (record [(17, 44)])).isSome = true ∧
    (∀ l, ReadInFlight (commanding l) .b 15) ∧
    (active.state = .active ∧ active.outQueue.length = 2 ∧
      { active with outQueue := [⟨none, [1]⟩] }.outQueue.length < 2) ∧
    closing.state ≠ .active ∧ closing.state ≠ .degraded ∧ closing.state ≠ .loop :=
  ⟨by decide, by decide, by decide, by decide, commanding_inFlight,
    by decide, by decide, by decide, by decide⟩

theorem test_meets_LineActivityStartsACall :
    (withLink listening).held = false ∧ LinkGood listening ∧ listening.state = .listen ∧
    LinkGood active ∧ active.state ≠ .listen :=
  ⟨rfl, listening_good, rfl, active_good, by decide⟩

/-- Each timer at 0, and one that is not due. -/
theorem test_meets_SupervisionTimersExpire :
    (∀ l, (withLink l).held = false) ∧ LinkGood calling ∧ calling.timer = some (.call, 0) ∧
    LinkGood training ∧ training.timer = some (.train, 0) ∧ LinkGood degraded ∧
    degraded.timer = some (.hold, 0) ∧ LinkGood closing ∧ closing.timer = some (.close, 0) ∧
    LinkGood looping ∧ looping.timer = some (.loop, 0) ∧ active.timer = none :=
  ⟨fun _ => rfl, calling_good, rfl, training_good, rfl, degraded_good, rfl, closing_good, rfl,
    looping_good, rfl, rfl⟩

/-- Both limits reached and one short of each, on the eve of a superframe start. -/
theorem test_meets_MessageLimitsFailTheOldest :
    let at_ := fun (retry notReady : Nat) (ready : Bool) =>
      { active with chan := { MessageChannel.reset with
          retry := retry, notReady := notReady, peerRdy := ready } }
    { withLink active with frame := 15 }.held = false ∧ phaseOf (15 + 1) = 0 ∧ active.state = .active ∧
    active.outQueue = ⟨some idA, [1]⟩ :: [⟨none, List.replicate 44 2⟩] ∧
    16 ≤ (at_ 16 0 false).chan.retry ∧ (at_ 15 255 false).chan.retry < 16 ∧
    (at_ 15 255 false).chan.peerRdy = false ∧ 256 ≤ (at_ 15 255 false).chan.notReady + 1 ∧
    (at_ 15 254 false).chan.notReady + 1 < 256 ∧ (at_ 15 255 true).chan.peerRdy = true := by
  decide

end Sys2Proof.Tests
end

section
/-! SUPPORT. The laws of the frame pass's arithmetic (chapter 1), one layer for each function of the mixer, and
the statements about routes and destinations settled from them. -/

namespace Sys2Proof.Machine

/-! ### Attenuation -/

theorem attenuate_eq_sshiftRight (x : Sample) (k : Fin 8) :
    attenuate x k = (x.sshiftRight k.val).toInt := by
  rw [BitVec.toInt_sshiftRight, Int.shiftRight_eq_div_pow, attenuate]
  norm_cast

theorem attenuate_mul_le (x : Sample) (k : Fin 8) : attenuate x k * 2 ^ k.val ≤ x.toInt :=
  Int.ediv_mul_le _ (by positivity)

theorem lt_attenuate_add_one_mul (x : Sample) (k : Fin 8) :
    x.toInt < (attenuate x k + 1) * 2 ^ k.val :=
  Int.lt_ediv_add_one_mul_self _ (by positivity)

/-- The shifted sample is again a 16-bit sample, which bounds it. -/
theorem attenuate_bounds (x : Sample) (k : Fin 8) :
    -32768 ≤ attenuate x k ∧ attenuate x k ≤ 32767 := by
  rw [attenuate_eq_sshiftRight]
  exact ⟨BitVec.le_toInt _, Int.le_of_lt_add_one BitVec.toInt_lt⟩

@[simp] theorem attenuate_step_zero (x : Sample) : attenuate x 0 = x.toInt := by
  simp [attenuate]

@[simp] theorem attenuate_silence (k : Fin 8) : attenuate 0 k = 0 := by
  simp [attenuate]

/-- Settles O16: R10's bounds are those of a floor division and of a 16-bit word; its table is computed. -/
theorem attenuationRoundsDown : Obligations.AttenuationRoundsDown := by
  have shift (x : Sample) (k : Fin 8) : attenuate x k = (x.sshiftRight k.val).toInt ∧
      attenuate x k * 2 ^ k.val ≤ x.toInt ∧ x.toInt < (attenuate x k + 1) * 2 ^ k.val ∧
      -32768 ≤ attenuate x k ∧ attenuate x k ≤ 32767 :=
    ⟨attenuate_eq_sshiftRight x k, attenuate_mul_le x k, lt_attenuate_add_one_mul x k,
      attenuate_bounds x k⟩
  exact ⟨shift, attenuate_step_zero, attenuate_silence, by decide, by decide, by decide, by decide,
    by decide, by decide, by decide, by decide⟩

/-! ### Gates -/

@[simp] theorem gateOpen_none (links : Table 8 Link) : gateOpen links none = true := rfl

/-- A gate is open where the key's state agrees with its sense (R9). -/
theorem gateOpen_some_iff (links : Table 8 Link) (g : Gate) :
    gateOpen links (some g) = true ↔
      (links.get g.link).keyTable.getLsbD g.key.val = (g.sense == .pressed) := by
  cases hs : g.sense with
  | pressed => simp [gateOpen, hs]
  | released =>
    have opposite : (Sense.released == .pressed) = false := rfl
    simp [gateOpen, hs, opposite]

theorem contribution_of_open {links : Table 8 Link} {supply : Table 16 Sample} {e : SourceEntry}
    (h : gateOpen links e.gate = true) :
    contribution links supply e = attenuate (sourceSample links supply e.source) e.step :=
  if_pos h

theorem contribution_of_shut {links : Table 8 Link} {supply : Table 16 Sample} {e : SourceEntry}
    (h : gateOpen links e.gate = false) : contribution links supply e = 0 :=
  if_neg (by simp [h])

theorem contribution_ungated {links : Table 8 Link} {supply : Table 16 Sample} {e : SourceEntry}
    (h : e.gate = none) :
    contribution links supply e = attenuate (sourceSample links supply e.source) e.step :=
  contribution_of_open (by rw [h, gateOpen_none])

theorem contribution_gated {links : Table 8 Link} {supply : Table 16 Sample} {e : SourceEntry}
    {g : Gate} (h : e.gate = some g) :
    contribution links supply e =
      if (links.get g.link).keyTable.getLsbD g.key.val = (g.sense == .pressed) then
        attenuate (sourceSample links supply e.source) e.step
      else 0 := by
  simp only [contribution, h, gateOpen_some_iff]

/-! ### The key table of a good link -/

theorem followsKeys_iff (state : SessionState) :
    followsKeys state = true ↔ state = .active ∨ state = .loop := by
  simp [followsKeys]

theorem LinkGood.keyTable_of_follows {l : Link} (h : LinkGood l)
    (hs : l.state = .active ∨ l.state = .loop) : l.keyTable = l.takenKeys := by
  rw [h.session.keys, if_pos ((followsKeys_iff _).2 hs)]

/-- No key counts as pressed outside ACTIVE and LOOP (R9). -/
theorem LinkGood.keyTable_eq_zero {l : Link} (h : LinkGood l) (ha : l.state ≠ .active)
    (hl : l.state ≠ .loop) : l.keyTable = 0 := by
  rw [h.session.keys, if_neg fun hf => ((followsKeys_iff _).1 hf).elim ha hl]

/-- Bytes 2 and 3 of a block, where the key field is read, hold the lamp table, high byte first. -/
theorem makeBlock_lamps (word : LinkWord) (lamps : Half) (header : Byte) (segment : List Byte) :
    (makeBlock word lamps header segment).get 2 ++ (makeBlock word lamps header segment).get 3 =
      lamps :=
  calc (makeBlock word lamps header segment).get 2 ++ (makeBlock word lamps header segment).get 3
      = lamps.extractLsb' 8 8 ++ lamps.extractLsb' 0 8 := rfl
    _ = lamps.extractLsb' 0 16 := BitVec.extractLsb'_append_extractLsb'_eq_extractLsb' rfl
    _ = lamps := BitVec.extractLsb'_eq_self

/-- Settles O17: off ACTIVE and LOOP the key table is all zeros, so the gate's sense alone decides. -/
theorem gatesDecideContribution : Obligations.GatesDecideContribution := by
  refine ⟨fun _ _ _ => contribution_ungated, fun _ _ _ _ => contribution_gated, ?_,
    fun _ hgood hloop => hgood.keyTable_of_follows (.inr hloop), makeBlock_lamps⟩
  intro links supply e g hgate hgood hactive hloop
  have unpressed : (links.get g.link).keyTable.getLsbD g.key.val = false := by
    rw [hgood.keyTable_eq_zero hactive hloop]
    exact BitVec.getLsbD_zero
  rw [contribution_gated hgate, unpressed]
  exact ⟨fun hs => if_neg (by simp [hs]), fun hs => if_pos (by simp [hs])⟩

/-! ### The sum and its one saturation -/

theorem contribution_bounds (links : Table 8 Link) (supply : Table 16 Sample) (e : SourceEntry) :
    -32768 ≤ contribution links supply e ∧ contribution links supply e ≤ 32767 := by
  cases h : gateOpen links e.gate with
  | true => rw [contribution_of_open h]; exact attenuate_bounds _ _
  | false => rw [contribution_of_shut h]; decide

theorem mixTotal_bounds (links : Table 8 Link) (supply : Table 16 Sample)
    (entries : List SourceEntry) :
    entries.length * -32768 ≤ mixTotal links supply entries ∧
      mixTotal links supply entries ≤ entries.length * 32767 := by
  have low := List.card_nsmul_le_sum (entries.map (contribution links supply)) (-32768)
    (List.forall_mem_map.2 fun e _ => (contribution_bounds links supply e).1)
  have high := List.sum_le_card_nsmul (entries.map (contribution links supply)) 32767
    (List.forall_mem_map.2 fun e _ => (contribution_bounds links supply e).2)
  rw [List.length_map, nsmul_eq_mul] at low high
  exact ⟨low, high⟩

theorem mixTotal_eq_foldl (links : Table 8 Link) (supply : Table 16 Sample)
    (entries : List SourceEntry) :
    mixTotal links supply entries =
      entries.foldl (fun total e => total + contribution links supply e) 0 := by
  rw [mixTotal, List.sum_eq_foldl, List.foldl_map]

theorem mixTotal_perm (links : Table 8 Link) (supply : Table 16 Sample)
    {entries others : List SourceEntry} (h : entries.Perm others) :
    mixTotal links supply entries = mixTotal links supply others :=
  (h.map _).sum_eq

theorem mixTotal_of_shut {links : Table 8 Link} (supply : Table 16 Sample)
    {entries : List SourceEntry} (h : ∀ e ∈ entries, gateOpen links e.gate = false) :
    mixTotal links supply entries = 0 :=
  List.sum_eq_zero (List.forall_mem_map.2 fun e he => contribution_of_shut (h e he))

theorem saturate_above {total : Int} (h : 32767 < total) : saturate total = 32767 := if_pos h

theorem saturate_below {total : Int} (h : total < -32768) :
    saturate total = BitVec.ofInt 16 (-32768) := by
  rw [saturate, if_neg (by omega), if_pos h]

theorem saturate_within {total : Int} (low : -32768 ≤ total) (high : total ≤ 32767) :
    (saturate total).toInt = total := by
  rw [saturate, if_neg (by omega), if_neg (by omega)]
  exact BitVec.toInt_ofInt_eq_self (by decide) low (Int.lt_add_one_of_le high)

@[simp] theorem mixPlace_unmuted (links : Table 8 Link) (supply : Table 16 Sample)
    (entries : List SourceEntry) :
    mixPlace links supply (some ⟨false, entries⟩) = saturate (mixTotal links supply entries) := rfl

/-- Settles O18: each contribution is a 16-bit value, the sum is one of integers, and only `saturate` limits
it. -/
theorem sumIsSaturatedOnce : Obligations.SumIsSaturatedOnce := by
  refine ⟨fun links supply entries hlen => ?_, fun links supply _ _ hperm => ?_,
    by decide, by decide, by decide⟩
  · obtain ⟨low, high⟩ := mixTotal_bounds links supply entries
    refine ⟨by omega, by omega, mixTotal_eq_foldl links supply entries, ?_, ?_, ?_⟩
    · exact saturate_above
    · intro h
      rw [mixPlace_unmuted, saturate_below h]
      decide
    · exact saturate_within
  · rw [mixPlace_unmuted, mixPlace_unmuted, mixTotal_perm links supply hperm]

/-! ### Destinations and their sources -/

/-- A CAPTURE_OUTPUT tap is given its destination's sample of the same frame pass (R17). -/
theorem captureSample_mixAll (links : Table 8 Link) (supply : Table 16 Sample)
    (routes : Table 8 (Table 12 (Option Route))) (n : LinkId) (c : Channel) :
    captureSample links (mixAll links supply routes) (.captureOutput n c) =
      mixPlace links supply ((routes.get n).get c) := by
  simp only [captureSample, mixAll, Table.get_map]

theorem mixPlace_of_shut {links : Table 8 Link} (supply : Table 16 Sample)
    {entries : List SourceEntry} (h : ∀ e ∈ entries, gateOpen links e.gate = false) :
    mixPlace links supply (some ⟨false, entries⟩) = 0 := by
  rw [mixPlace_unmuted, mixTotal_of_shut supply h]
  decide

/-- Settles O19: each branch of `mixPlace`, `sourceSample` and `captureSample` is the rule it models; the
shut route and the captured output need the sum and the table of destinations. -/
theorem destinationsReadTheirSources : Obligations.DestinationsReadTheirSources :=
  ⟨fun _ _ => rfl, fun _ _ _ => rfl, mixPlace_unmuted, fun _ supply _ => mixPlace_of_shut supply,
    fun _ _ _ _ => rfl, fun _ _ _ => rfl, fun _ _ _ _ _ => ⟨rfl, rfl⟩, captureSample_mixAll⟩

end Sys2Proof.Machine
end

section
/-! SUPPORT. CREDIT TAP (R54): which records have bad fields, what its tap does with the others, and the statement
about it settled from these. -/

namespace Sys2Proof.Machine

/-! ### Checks of a record's bytes -/

/-- A must-be-zero stretch fails where one of its bytes is not zero (R173). -/
theorem recZero_eq_false_iff {r : CommandRecord} {lo hi : Nat} :
    recZero r lo hi = false ↔ ∃ k, (lo ≤ k ∧ k < hi) ∧ recByte r k ≠ 0 := by
  have mem_stretch (k : Nat) : k ∈ List.range' lo (hi - lo) ↔ lo ≤ k ∧ k < hi := by
    rw [List.mem_range'_1]; omega
  simp only [recZero, List.all_eq_false, mem_stretch, beq_iff_eq, ne_eq]

theorem named_eq_none_iff {n : Nat} {b : Byte} : named n b = none ↔ n ≤ b.toNat := by
  unfold named
  split
  · rename_i inRange
    simpa using inRange
  · rename_i outside
    simpa using outside

theorem named_val {n : Nat} {b : Byte} {i : Fin n} (h : named n b = some i) : i.val = b.toNat := by
  unfold named at h
  split at h
  · cases h; rfl
  · cases h

/-! ### The fields of CREDIT TAP -/

theorem parseCredit_eq_none_iff {r : CommandRecord} :
    parseCredit r = none ↔
      named 16 (recByte r 16) = none ∨ (plainHeader r && recZero r 17 20 && recZero r 26 64) = false := by
  unfold parseCredit
  split
  · rename_i zero
    cases named 16 (recByte r 16) <;> simp [zero]
  · rename_i nonzero
    simp [nonzero]

/-- The fields are bad for a tap past 15 and for a must-be-zero byte that is not zero, and for nothing else. -/
theorem parseCredit_none_bytes {r : CommandRecord} :
    parseCredit r = none ↔ 16 ≤ (recByte r 16).toNat ∨
      ∃ k, (1 ≤ k ∧ k < 4 ∨ 8 ≤ k ∧ k < 16 ∨ 17 ≤ k ∧ k < 20 ∨ 26 ≤ k ∧ k < 64) ∧ recByte r k ≠ 0 := by
  simp only [parseCredit_eq_none_iff, named_eq_none_iff, plainHeader, Bool.and_eq_false_iff,
    recZero_eq_false_iff, or_and_right, exists_or, or_assoc]

theorem parseCredit_fields {r : CommandRecord} {f : CreditFields} (h : parseCredit r = some f) :
    f.tap.val = (recByte r 16).toNat ∧ f.address = recWord r 20 ∧ f.length = (recHalf r 24).toNat := by
  unfold parseCredit at h
  split at h
  · split at h
    · rename_i tap htap
      cases h
      exact ⟨named_val htap, rfl, rfl⟩
    · cases h
  · cases h

/-! ### The credit at its tap -/

/-- The conditions of R54 on a buffer, those `badBuffer` finds broken. -/
theorem badBuffer_eq_false_iff {address : Word} {length : Nat} :
    badBuffer address length = false ↔ address.toNat % 4 = 0 ∧ 8 ≤ length ∧ length ≤ 4096 ∧
      length % 8 = 0 ∧ address.toNat + 2 * length ≤ 2 ^ 32 := by
  simp only [badBuffer, Bool.or_eq_false_iff, bne_eq_false_iff_eq, decide_eq_false_iff_not, not_lt,
    and_assoc]

section
variable {id : CmdId} {f : CreditFields} {t : Tap}

theorem takeCredit_closed (h : t.state = .closed) :
    takeCredit id f t = (t, [.complete (.plain id .notOpen 0)]) :=
  if_pos h

theorem takeCredit_bad (h : t.state ≠ .closed) (hb : badBuffer f.address f.length = true) :
    takeCredit id f t = (t, [.complete (.plain id .badBuffer 0)]) := by
  rw [takeCredit, if_neg h, if_pos hb]

theorem takeCredit_full (h : t.state ≠ .closed) (hb : badBuffer f.address f.length = false)
    (hf : 8 ≤ t.buffers.length) : takeCredit id f t = (t, [.complete (.plain id .queueFull 0)]) := by
  rw [takeCredit, if_neg h, if_neg (by simp [hb]), if_pos hf]

theorem takeCredit_room (h : t.state ≠ .closed) (hb : badBuffer f.address f.length = false)
    (hr : t.buffers.length < 8) : takeCredit id f t =
      ({ t with buffers := t.buffers ++ [⟨id, f.address, f.length, 0, 0, none⟩] }, []) := by
  rw [takeCredit, if_neg h, if_neg (by simp [hb]), if_neg (Nat.not_le.2 hr)]

end

/-- A credit that its tap refuses changes no tap and is answered. -/
theorem takeCreditTap_refused {id : CmdId} {f : CreditFields} {s : State} {status : Status}
    (h : s.engine.mode ≠ .halted)
    (ht : takeCredit id f (s.taps.get f.tap) =
      (s.taps.get f.tap, [.complete (.plain id status 0)])) :
    takeCreditTap id f s = s.answered [.plain id status 0] := by
  rw [takeCreditTap, ht, State.setTap, Table.set_get_self, withTaps_self]
  exact hand_answered h _

/-- A credit that its tap accepts changes that tap alone and is not answered. -/
theorem takeCreditTap_accepted {id : CmdId} {f : CreditFields} {s : State} {t : Tap}
    (ht : takeCredit id f (s.taps.get f.tap) = (t, [])) :
    takeCreditTap id f s = s.setTap f.tap t := by
  rw [takeCreditTap, ht, emit_nil]

/-! ### CREDIT TAP as its read ends -/

section
variable {s : State} {slot : Nat} {r : CommandRecord}

/-- The end of a read leaves the engine out of HALTED. -/
theorem ReadInFlight.readEnded_running {ring : CmdRing} (h : ReadInFlight s ring slot) :
    (s.readEnded ring).engine.mode ≠ .halted := by
  rw [readEnded_mode]
  exact h.engine

theorem exec_creditTap_inFlight {ring : CmdRing} (h : ReadInFlight s ring slot) :
    exec (.creditTap r) s = .next (stopIfDue (fetchedPlain .b (parseCredit r) takeCreditTap
      ⟨recTag r, ring, slot⟩ (s.readEnded ring))) := by
  rw [exec_effect rfl h.running, effectOf, takeFetch_inFlight h]

theorem exec_creditTap_wrongRing (h : ReadInFlight s .a slot) :
    exec (.creditTap r) s = .next (stopIfDue (((s.readEnded .a).broken .a).answered
      [.plain ⟨recTag r, .a, slot⟩ .wrongRing 0])) := by
  rw [exec_creditTap_inFlight h, fetchedPlain_wrong h.readEnded_running (by simp)]

theorem exec_creditTap_badField (h : ReadInFlight s .b slot) (hf : parseCredit r = none) :
    exec (.creditTap r) s = .next (stopIfDue ((s.readEnded .b).answered
      [.plain ⟨recTag r, .b, slot⟩ .badField 0])) := by
  rw [exec_creditTap_inFlight h, fetchedPlain_bad (own := .b) h.readEnded_running rfl hf]
  rfl

variable {f : CreditFields}

/-- With good fields in ring B the command reaches its tap. -/
theorem exec_creditTap_taken (h : ReadInFlight s .b slot) (hf : parseCredit r = some f) :
    exec (.creditTap r) s =
      .next (stopIfDue (takeCreditTap ⟨recTag r, .b, slot⟩ f (s.readEnded .b))) := by
  rw [exec_creditTap_inFlight h, fetchedPlain_taken h.readEnded_running hf]
  rfl

theorem exec_creditTap_refused {status : Status} (h : ReadInFlight s .b slot)
    (hf : parseCredit r = some f)
    (ht : takeCredit ⟨recTag r, .b, slot⟩ f (s.taps.get f.tap) =
      (s.taps.get f.tap, [.complete (.plain ⟨recTag r, .b, slot⟩ status 0)])) :
    exec (.creditTap r) s = .next (stopIfDue ((s.readEnded .b).answered
      [.plain ⟨recTag r, .b, slot⟩ status 0])) := by
  rw [exec_creditTap_taken h hf, takeCreditTap_refused h.readEnded_running ht]

theorem exec_creditTap_accepted {t : Tap} (h : ReadInFlight s .b slot) (hf : parseCredit r = some f)
    (ht : takeCredit ⟨recTag r, .b, slot⟩ f (s.taps.get f.tap) = (t, [])) :
    exec (.creditTap r) s = .next (stopIfDue ((s.readEnded .b).setTap f.tap t)) := by
  rw [exec_creditTap_taken h hf, takeCreditTap_accepted (s := s.readEnded .b) ht]

end

/-- Settles O38: fetch refuses the wrong ring and bad fields, and with good fields each branch of `takeCredit`
is one of the tap's four answers. -/
theorem creditTapAddsABuffer : Obligations.CreditTapAddsABuffer := by
  refine ⟨fun s slot r => exec_creditTap_wrongRing, fun r => parseCredit_none_bytes,
    fun s slot r => exec_creditTap_badField, fun s slot r f h hf => ?_⟩
  intro t id fits
  have good : badBuffer f.address f.length = false ↔ fits := badBuffer_eq_false_iff
  obtain ⟨tap, address, length⟩ := parseCredit_fields hf
  refine ⟨tap, address, length, ?notOpen, ?badBuffer, ?queueFull, ?accepted⟩
  case notOpen =>
    exact fun closed => exec_creditTap_refused h hf (takeCredit_closed closed)
  case badBuffer =>
    intro opened hfit
    have bad : badBuffer f.address f.length = true := by rwa [← good, Bool.not_eq_false] at hfit
    exact exec_creditTap_refused h hf (takeCredit_bad opened bad)
  case queueFull =>
    intro opened hfit full
    exact exec_creditTap_refused h hf (takeCredit_full opened (good.2 hfit) full)
  case accepted =>
    intro opened hfit room
    exact exec_creditTap_accepted h hf (takeCredit_room opened (good.2 hfit) room)

end Sys2Proof.Machine
end

section
/-! SUPPORT. The line frame (R68, R69): the check register over a stretch of bits, the bytes of a frame that the
framer makes, and the statement about the check settled from these. -/

namespace Sys2Proof

theorem Table.ofList_items {n : Nat} {α : Type} {a : α} {l : List α} (h : l.length = n) :
    (Table.ofList n a l).items = l :=
  List.take_left' h

namespace Machine

/-! ### The check register -/

/-- One bit shifts the register, and combines it with the polynomial where the bit shifted out differs. -/
theorem crcBit_eq_ite (reg : Byte) (bit : Bool) :
    crcBit reg bit = if reg.getLsbD 7 ≠ bit then (reg <<< 1) ^^^ (0x31 : Byte) else reg <<< 1 := by
  simp only [crcBit, bne_iff_ne]

theorem crcByte_eq_foldl_bits (reg b : Byte) : crcByte reg b = (bitsOf b).foldl crcBit reg := rfl

/-- Byte by byte is bit by bit: the bits of the bytes one after another, from 0xFF. -/
theorem crc8_eq_foldl_bits (bytes : List Byte) :
    crc8 bytes = (bytes.flatMap bitsOf).foldl crcBit (0xFF : Byte) := by
  rw [List.foldl_flatMap]
  rfl

/-! ### The bytes of a frame -/

/-- The byte that comes after `k` others stands at place `k`. -/
theorem byteAt_append_cons {l rest : List Byte} {b : Byte} {k : Nat} (h : l.length = k) :
    byteAt (l ++ b :: rest) k = b := by
  subst h
  simp [byteAt]

theorem frameMarker_eq_get (f : LineFrame) : frameMarker f = f.bytes.get 0 := byteAt_items f.bytes 0

theorem frameHouse_eq_get (f : LineFrame) : frameHouse f = f.bytes.get 25 := byteAt_items f.bytes 25

theorem frameCheck_eq_get (f : LineFrame) : frameCheck f = f.bytes.get 26 := byteAt_items f.bytes 26

/-- A good frame has one of the two markers and passes its check: two separate judgements (R69, R79). -/
theorem frameGood_iff (f : LineFrame) :
    frameGood f = true ↔ (frameMarker f = Config.markerA ∨ frameMarker f = Config.markerB) ∧
      crc8 (frameCovered f) = frameCheck f := by
  simp only [frameGood, frameIsB, Bool.and_eq_true, Bool.or_eq_true, beq_iff_eq]

/-! ### Samples on the line -/

theorem lineBytes16_join (h : Half) : h.extractLsb' 8 8 ++ h.extractLsb' 0 8 = h :=
  calc h.extractLsb' 8 8 ++ h.extractLsb' 0 8
      = h.extractLsb' 0 16 := BitVec.extractLsb'_append_extractLsb'_eq_extractLsb' rfl
    _ = h := BitVec.extractLsb'_eq_self

theorem length_flatMap_lineBytes16 (samples : List Sample) :
    (samples.flatMap lineBytes16).length = 2 * samples.length := by
  induction samples with
  | nil => rfl
  | cons x xs ih =>
    rw [List.flatMap_cons, List.length_append, ih, List.length_cons, Nat.mul_succ, Nat.add_comm]
    rfl

/-- Sample `i` of a stretch of samples stands at bytes 2i and 2i + 1, high byte first. -/
theorem byteAt_flatMap_lineBytes16 (samples : List Sample) (rest : List Byte) (i : Nat)
    (h : i < samples.length) :
    byteAt (samples.flatMap lineBytes16 ++ rest) (2 * i) ++
      byteAt (samples.flatMap lineBytes16 ++ rest) (2 * i + 1) = samples[i] := by
  induction samples generalizing i with
  | nil => exact absurd h (Nat.not_lt_zero i)
  | cons x xs ih =>
    cases i with
    | zero => exact lineBytes16_join x
    | succ i => exact ih i (Nat.lt_of_succ_lt_succ h)

/-! ### A frame the framer makes -/

section
variable (marker : Byte) (bearer : Table 12 Sample) (house : Byte)

/-- The bytes between marker and check, as the framer lays them out. -/
def coveredBytes : List Byte := bearer.items.flatMap lineBytes16 ++ [house]

theorem length_bearerBytes : (bearer.items.flatMap lineBytes16).length = 24 := by
  rw [length_flatMap_lineBytes16, bearer.size_eq]

theorem length_coveredBytes : (coveredBytes bearer house).length = 25 := by
  rw [coveredBytes, List.length_append, length_bearerBytes, List.length_singleton]

/-- A frame as sent is its marker, the covered bytes and their check: 27 bytes, none cut off or filled in. -/
theorem makeFrame_items : (makeFrame marker bearer house).bytes.items =
    marker :: (coveredBytes bearer house ++ [crc8 (coveredBytes bearer house)]) :=
  Table.ofList_items (l := marker :: (coveredBytes bearer house ++ [crc8 (coveredBytes bearer house)])) (by
    rw [List.length_cons, List.length_append, length_coveredBytes, List.length_singleton])

theorem frameCovered_makeFrame :
    frameCovered (makeFrame marker bearer house) = coveredBytes bearer house := by
  rw [frameCovered, makeFrame_items, List.drop_one, List.tail_cons,
    List.take_left' (length_coveredBytes bearer house)]

theorem frameMarker_makeFrame : frameMarker (makeFrame marker bearer house) = marker := by
  rw [frameMarker, makeFrame_items]
  exact byteAt_append_cons (l := []) rfl

theorem frameHouse_makeFrame : frameHouse (makeFrame marker bearer house) = house := by
  rw [frameHouse, makeFrame_items, coveredBytes, List.append_assoc]
  exact byteAt_append_cons (l := marker :: bearer.items.flatMap lineBytes16)
    (congrArg Nat.succ (length_bearerBytes bearer))

/-- A frame the framer makes passes its check. -/
theorem frameCheck_makeFrame : frameCheck (makeFrame marker bearer house) =
    crc8 (frameCovered (makeFrame marker bearer house)) := by
  rw [frameCovered_makeFrame, frameCheck, makeFrame_items]
  exact byteAt_append_cons (l := marker :: coveredBytes bearer house)
    (congrArg Nat.succ (length_coveredBytes bearer house))

theorem frameSample_makeFrame (c : Channel) :
    frameSample (makeFrame marker bearer house) c = bearer.get c := by
  have inBearer : c.val < bearer.items.length := by rw [bearer.size_eq]; exact c.isLt
  rw [frameSample, makeFrame_items, coveredBytes, List.append_assoc, Nat.add_comm 1, Nat.add_comm 2]
  exact byteAt_flatMap_lineBytes16 bearer.items _ c.val inBearer

theorem frameBearer_makeFrame : frameBearer (makeFrame marker bearer house) = bearer :=
  Table.ext_get fun c => by rw [frameBearer, Table.get_ofFn, frameSample_makeFrame]

end

/-- Settles O48: the register runs over the bits of the bytes in turn, and the bytes of a made frame are its
marker, its covered bytes and their check. -/
theorem checkByteIsTheCrc : Obligations.CheckByteIsTheCrc := by
  refine ⟨?register, ?good, ?markerApart, ?made⟩
  case register =>
    intro bytes
    rw [crc8_eq_foldl_bits, funext₂ crcBit_eq_ite]
  case good =>
    intro f
    rw [← frameCheck_eq_get]
    exact ⟨rfl, frameGood_iff f⟩
  case markerApart =>
    intro f g covered check
    rw [frameCheck_eq_get, frameCheck_eq_get, covered, check]
  case made =>
    intro marker bearer house
    rw [← frameCheck_eq_get, ← frameMarker_eq_get, ← frameHouse_eq_get]
    exact ⟨frameCheck_makeFrame marker bearer house, frameMarker_makeFrame marker bearer house,
      frameHouse_makeFrame marker bearer house, frameBearer_makeFrame marker bearer house⟩

end Machine

end Sys2Proof
end

section
/-! SUPPORT. Host writes of the ring indices (R131): what each write does to its register, which consumer values
are stored, and the statement about the four indices settled from these. -/

namespace Sys2Proof.Machine

/-! ### The halt of a refused write -/

/-- Outside HALTED the model's halt is the one that the statements spell (R166, R167). -/
theorem halt_eq_haltedBy {cause : HaltCause} {s : State} (h : s.engine.mode ≠ .halted) :
    halt cause s = s.haltedBy cause :=
  halt_eq h

/-- A command whose effect is a halt halts the engine, and changes nothing in HALTED. -/
theorem exec_halt {i : Instr} {s : State} {cause : HaltCause} (running : s.held = false)
    (wellFormed : i.wellFormed = true) (effect : effectOf i s = halt cause s) :
    (s.engine.mode ≠ .halted → exec i s = .next (s.haltedBy cause)) ∧
      (s.engine.mode = .halted → exec i s = .next s) := by
  rw [exec_effect wellFormed running, effect]
  exact ⟨fun live => by rw [halt_eq_haltedBy live], fun halted => by rw [halt_halted halted]⟩

/-! ### Producer indices -/

section
variable {s : State} {ring : CmdRing} {v : Word} {n : Nat}

theorem writeProd_unconfigured (size : ringSize (s.engine.baseOf ring) = none) :
    writeProd ring v s = s := by
  simp only [writeProd, size]

theorem writeProd_stored (size : ringSize (s.engine.baseOf ring) = some n) (below : v.toNat < n) :
    writeProd ring v s = s.withEngine (s.engine.setProd ring v.toNat) := by
  simp only [writeProd, size, if_pos below]

theorem writeProd_refused (size : ringSize (s.engine.baseOf ring) = some n) (past : n ≤ v.toNat) :
    writeProd ring v s = halt .badTail s := by
  simp only [writeProd, size, if_neg (Nat.not_lt.2 past)]

theorem exec_prodWrite_unconfigured (running : s.held = false)
    (size : ringSize (s.engine.baseOf ring) = none) : exec (.ringProdWrite ring v) s = .next s := by
  rw [exec_effect rfl running, effectOf, writeProd_unconfigured size]

/-- A producer index on a configured ring is checked against the ring's size alone. -/
theorem exec_prodWrite_configured (running : s.held = false)
    (size : ringSize (s.engine.baseOf ring) = some n) :
    (v.toNat < n → exec (.ringProdWrite ring v) s =
      .next (s.withEngine (s.engine.setProd ring v.toNat))) ∧
    (n ≤ v.toNat → s.engine.mode ≠ .halted →
      exec (.ringProdWrite ring v) s = .next (s.haltedBy .badTail)) ∧
    (n ≤ v.toNat → s.engine.mode = .halted → exec (.ringProdWrite ring v) s = .next s) := by
  have refused (past : n ≤ v.toNat) :=
    exec_halt (i := .ringProdWrite ring v) running rfl (writeProd_refused size past)
  refine ⟨fun below => ?_, fun past => (refused past).1, fun past => (refused past).2⟩
  rw [exec_effect rfl running, effectOf, writeProd_stored size below]

end

/-! ### Consumer indices -/

/-- A consumer value is stored where it lies in the ring and does not pass the post position. -/
theorem consumerAccepted_iff {n old posted value : Nat} :
    consumerAccepted n old posted value = true ↔
      value < n ∧ ¬ ringDistance n old posted < ringDistance n old value := by
  simp only [consumerAccepted, Bool.and_eq_true, decide_eq_true_iff, Nat.not_lt]

theorem consumerAccepted_eq_false {n old posted value : Nat}
    (h : n ≤ value ∨ ringDistance n old posted < ringDistance n old value) :
    consumerAccepted n old posted value = false := by
  rw [← Bool.not_eq_true, consumerAccepted_iff]
  omega

section
variable {s : State} {v : Word} {n : Nat}

theorem writeCompCons_unconfigured (size : ringSize s.engine.baseComp = none) :
    writeCompCons v s = s := by
  simp only [writeCompCons, size]

theorem writeCompCons_configured (size : ringSize s.engine.baseComp = some n) :
    writeCompCons v s =
      if consumerAccepted n s.engine.consComp s.engine.postComp v.toNat = true then
        s.withEngine { s.engine with consComp := v.toNat }
      else halt .badHead s := by
  simp only [writeCompCons, size]

theorem writeEventCons_unconfigured (size : ringSize s.engine.baseEvent = none) :
    writeEventCons v s = s := by
  simp only [writeEventCons, size]

theorem writeEventCons_configured (size : ringSize s.engine.baseEvent = some n) :
    writeEventCons v s =
      if consumerAccepted n s.engine.consEvent s.events.post v.toNat = true then
        s.withEngine { s.engine with consEvent := v.toNat }
      else halt .badHead s := by
  simp only [writeEventCons, size]

/-- A command that stores an accepted consumer value and halts on any other. -/
theorem exec_consWrite {i : Instr} {t : State} {old posted : Nat} (running : s.held = false)
    (wellFormed : i.wellFormed = true)
    (effect : effectOf i s =
      if consumerAccepted n old posted v.toNat = true then t else halt .badHead s) :
    (v.toNat < n → ¬ ringDistance n old posted < ringDistance n old v.toNat →
      exec i s = .next t) ∧
    (n ≤ v.toNat ∨ ringDistance n old posted < ringDistance n old v.toNat →
      s.engine.mode ≠ .halted → exec i s = .next (s.haltedBy .badHead)) ∧
    (n ≤ v.toNat ∨ ringDistance n old posted < ringDistance n old v.toNat →
      s.engine.mode = .halted → exec i s = .next s) := by
  have refused (h : n ≤ v.toNat ∨ ringDistance n old posted < ringDistance n old v.toNat) :=
    exec_halt running wellFormed (effect.trans (if_neg (by simp [consumerAccepted_eq_false h])))
  refine ⟨fun below stays => ?_, fun h => (refused h).1, fun h => (refused h).2⟩
  rw [exec_effect wellFormed running, effect, if_pos (consumerAccepted_iff.2 ⟨below, stays⟩)]

end

/-- Settles O46: each index write is its register's check, whose refusals are one halt. -/
theorem hostIndexWritesAreChecked : Obligations.HostIndexWritesAreChecked := by
  intro s v running
  refine ⟨?producerA, ?producerB, ?completion, ?event, ?noRingA, ?noRingB, ?noCompletion, ?noEvent⟩
  case producerA => exact fun n size => exec_prodWrite_configured (ring := .a) running size
  case producerB => exact fun n size => exec_prodWrite_configured (ring := .b) running size
  case completion =>
    exact fun n size => exec_consWrite running rfl (writeCompCons_configured size)
  case event =>
    exact fun n size => exec_consWrite running rfl (writeEventCons_configured size)
  case noRingA => exact fun size => exec_prodWrite_unconfigured (ring := .a) running size
  case noRingB => exact fun size => exec_prodWrite_unconfigured (ring := .b) running size
  case noCompletion =>
    intro size
    rw [exec_effect rfl running, effectOf, writeCompCons_unconfigured size]
  case noEvent =>
    intro size
    rw [exec_effect rfl running, effectOf, writeEventCons_unconfigured size]

end Sys2Proof.Machine
end

section
/-! SUPPORT. Events merged into the pending set (R151, R152): an entry held keeps an event from being posted
directly, what an event makes of the entry of its source, and the statement about the four kinds settled from
these. -/

namespace Sys2Proof.Machine

/-! ### The pending set -/

/-- A pending set with an entry is not empty, whatever its source. -/
theorem quietSet_of_entry {u : EventUnit} {i : Fin 40} {r : EventRecord} (held : u.set.get i = some r) :
    u.quietSet = false :=
  List.all_eq_false.2 ⟨some r, held ▸ table_get_mem u.set i, by simp⟩

/-- An event joins a pending set that is not empty, even where a write could start (R150, R151). -/
theorem raise_joins {b : EventBody} {s : State} (held : s.events.quietSet = false) :
    raise b s = s.withEvents { s.events with
      set := s.events.set.set b.source (some (joinEntry (s.events.set.get b.source) ⟨b, s.frame, 1⟩)) } := by
  have notDirect : (canStartEvent s && s.events.quietSet) ≠ true := by simp [held]
  exact if_neg notDirect

/-! ### The fields of a merged entry -/

section
variable {n : LinkId}

@[simp] theorem merge_linkState {o1 w1 o2 w2 : SessionView} {r1 r2 : ChangeReason} :
    (EventBody.linkState n o1 w1 r1).merge (.linkState n o2 w2 r2) = .linkState n o1 w2 r2 := rfl

@[simp] theorem merge_keys {a1 m1 a2 m2 : Half} :
    (EventBody.keys n a1 m1).merge (.keys n a2 m2) = .keys n a2 (m1 ||| m2) := rfl

@[simp] theorem merge_messageError {e1 e2 : MessageErrorKind} :
    (EventBody.messageError n e1).merge (.messageError n e2) = .messageError n e2 := rfl

@[simp] theorem merge_tapStarved {t : TapId} :
    (EventBody.tapStarved t).merge (.tapStarved t) = .tapStarved t := rfl
end

/-! ### An event whose source has an entry -/

/-- An event changes the entry of its source alone, whose frame becomes the event's and whose count rises by 1
up to 65535; the fields are those of the kind's merge (R152). -/
theorem raise_of_entry {s : State} {b earlier merged : EventBody} {f : Word} {k : Nat}
    (held : s.events.set.get b.source = some ⟨earlier, f, k⟩) (fields : earlier.merge b = merged) :
    raise b s = s.withEvents { s.events with
      set := s.events.set.set b.source (some ⟨merged, s.frame, min 65535 (k + 1)⟩) } := by
  rw [raise_joins (quietSet_of_entry held), held, joinEntry, EventRecord.merge, fields]

/-- Settles O35: the entry held rules direct posting out, and each kind has its own merge of the fields. -/
theorem mergedEventsFollowTheirKind : Obligations.MergedEventsFollowTheirKind := by
  intro s f k
  refine ⟨?linkState, ?keys, ?messageError, ?tapStarved⟩
  case linkState => exact fun _ _ _ _ _ _ _ held => raise_of_entry held merge_linkState
  case keys => exact fun _ _ _ _ _ held => raise_of_entry held merge_keys
  case messageError => exact fun _ _ _ held => raise_of_entry held merge_messageError
  case tapStarved => exact fun _ held => raise_of_entry held merge_tapStarved

end Sys2Proof.Machine
end

section
/-! SUPPORT. The interrupt line (R170): the three conditions, their enables, the places of the STATUS register in
which the conditions are reported, and the two resets that release the line. -/

namespace Sys2Proof.Machine

/-! ### A flag at its place in a register -/

section
variable {n i p : Nat} (b : Bool)

/-- A flag above a value that ends below its place reaches just past that place. -/
theorem add_boolBit_lt (below : n < 2 ^ p) : n + boolBit b p < 2 ^ (p + 1) := by
  rw [Nat.pow_succ]
  cases b
  case false => simp only [boolBit, Bool.false_eq_true, if_false]; omega
  case true => simp only [boolBit, if_true]; omega

/-- A flag is read back at its place. -/
theorem testBit_add_boolBit_self (below : n < 2 ^ p) : (n + boolBit b p).testBit p = b := by
  have clear : n.testBit p = false := Nat.testBit_lt_two_pow below
  cases b
  case false => exact clear
  case true => rw [boolBit, if_pos rfl, Nat.add_comm, Nat.testBit_two_pow_add_eq, clear, Bool.not_false]

/-- A flag does not reach the places below its own. -/
theorem testBit_add_boolBit_of_lt (lower : i < p) : (n + boolBit b p).testBit i = n.testBit i := by
  cases b
  case false => rfl
  case true => rw [boolBit, if_pos rfl, Nat.add_comm, Nat.testBit_two_pow_add_gt lower]

end

/-! ### The three conditions -/

section
variable {s : State}

theorem completionsWaiting_iff :
    completionsWaiting s = true ↔ s.engine.postComp ≠ s.engine.consComp := bne_iff_ne

theorem eventsWaiting_iff : eventsWaiting s = true ↔ s.events.post ≠ s.engine.consEvent := bne_iff_ne

theorem haltedCondition_iff : haltedCondition s = true ↔ s.engine.mode = .halted := beq_iff_eq

/-- The line is asserted while a condition holds whose enable is set. -/
theorem interrupt_iff :
    s.interrupt = true ↔
      (s.engine.cie = true ∧ s.engine.postComp ≠ s.engine.consComp) ∨
      (s.engine.eie = true ∧ s.events.post ≠ s.engine.consEvent) ∨
      (s.engine.hie = true ∧ s.engine.mode = .halted) := by
  simp only [State.interrupt, Bool.or_eq_true, Bool.and_eq_true, completionsWaiting_iff,
    eventsWaiting_iff, haltedCondition_iff, or_assoc]

/-- With none of the conditions the line is released, whatever the enables. -/
theorem interrupt_eq_false (noCompletion : s.engine.postComp = s.engine.consComp)
    (noEvent : s.events.post = s.engine.consEvent) (live : s.engine.mode ≠ .halted) :
    s.interrupt = false := by
  rw [← Bool.not_eq_true, interrupt_iff]
  rintro (⟨-, waiting⟩ | ⟨-, waiting⟩ | ⟨-, halted⟩)
  · exact waiting noCompletion
  · exact waiting noEvent
  · exact live halted

/-! ### The conditions in STATUS -/

theorem EngineState.code_le (m : EngineState) : m.code ≤ 3 := by
  cases m <;> decide

theorem HaltCause.code_le (c : HaltCause) : c.code ≤ 6 := by
  cases c <;> decide

/-- What STATUS reports besides the three conditions lies below place 12. -/
theorem statusRegister_eq (s : State) : ∃ low < 2 ^ 12, statusRegister s =
    BitVec.ofNat 32 (low + boolBit (completionsWaiting s) 12 + boolBit (eventsWaiting s) 13
      + boolBit (haltedCondition s) 14) := by
  have codes : s.engine.mode.code + 16 * s.engine.cause.code < 2 ^ 8 := by
    have mode := s.engine.mode.code_le
    have cause := s.engine.cause.code_le
    omega
  have flags := add_boolBit_lt s.engine.cfgIgnored
    (add_boolBit_lt s.engine.startRefused (add_boolBit_lt (quiet s) codes))
  exact ⟨_, flags.trans (by decide), rfl⟩

/-- Places 12 to 14 of STATUS are the three conditions, whatever the enables. -/
theorem statusRegister_conditions (s : State) :
    (statusRegister s).getLsbD 12 = completionsWaiting s ∧
    (statusRegister s).getLsbD 13 = eventsWaiting s ∧
    (statusRegister s).getLsbD 14 = haltedCondition s := by
  obtain ⟨low, below, status⟩ := statusRegister_eq s
  have below13 := add_boolBit_lt (completionsWaiting s) below
  have below14 := add_boolBit_lt (eventsWaiting s) below13
  have place {i : Nat} (small : i < 32) : (statusRegister s).getLsbD i = Nat.testBit
      (low + boolBit (completionsWaiting s) 12 + boolBit (eventsWaiting s) 13
        + boolBit (haltedCondition s) 14) i := by
    rw [status, BitVec.getLsbD_ofNat, decide_eq_true small, Bool.true_and]
  refine ⟨?completions, ?events, ?halted⟩
  case completions =>
    rw [place (by decide), testBit_add_boolBit_of_lt _ (by decide),
      testBit_add_boolBit_of_lt _ (by decide), testBit_add_boolBit_self _ below]
  case events =>
    rw [place (by decide), testBit_add_boolBit_of_lt _ (by decide), testBit_add_boolBit_self _ below13]
  case halted => rw [place (by decide), testBit_add_boolBit_self _ below14]

/-! ### The resets -/

/-- Device reset releases the line and clears the enables (R169, R170). -/
theorem resetDevice_interrupt (s : State) :
    (resetDevice s).interrupt = false ∧ (resetDevice s).engine.cie = false ∧
      (resetDevice s).engine.eie = false ∧ (resetDevice s).engine.hie = false :=
  ⟨interrupt_eq_false rfl rfl (by simp [resetDevice, RingEngine.reset]), rfl, rfl, rfl⟩

/-- Engine reset releases the line and keeps the enables (R168, R170). -/
theorem resetEngine_interrupt (s : State) :
    (resetEngine s).interrupt = false ∧ (resetEngine s).engine.cie = s.engine.cie ∧
      (resetEngine s).engine.eie = s.engine.eie ∧ (resetEngine s).engine.hie = s.engine.hie :=
  ⟨interrupt_eq_false rfl rfl (by simp [resetEngine, RingEngine.engineReset, RingEngine.reset]),
    rfl, rfl, rfl⟩

/-- What a command answers on a hub that is not held is its effect. -/
theorem eq_effectOf_of_exec {i : Instr} {t : State} (wellFormed : i.wellFormed = true)
    (running : s.held = false) (next : exec i s = .next t) : t = effectOf i s := by
  rw [exec_effect wellFormed running] at next
  cases next
  rfl

end

/-- Settles O47: the line by its three conditions, STATUS by its places, and each reset by its next state, in
which none of the conditions holds. -/
theorem interruptFollowsItsConditions : Obligations.InterruptFollowsItsConditions := by
  refine ⟨fun _ => interrupt_iff, fun s => ?status, fun s t running next => ?deviceReset,
    fun s t running next => ?engineReset⟩
  case status =>
    obtain ⟨completions, events, halted⟩ := statusRegister_conditions s
    exact ⟨(Bool.eq_iff_iff.1 completions).trans completionsWaiting_iff,
      (Bool.eq_iff_iff.1 events).trans eventsWaiting_iff,
      (Bool.eq_iff_iff.1 halted).trans haltedCondition_iff⟩
  case deviceReset =>
    rw [eq_effectOf_of_exec rfl running next]
    exact resetDevice_interrupt s
  case engineReset =>
    rw [eq_effectOf_of_exec rfl running next]
    exact resetEngine_interrupt s

end Sys2Proof.Machine
end

section
/-! SUPPORT. One inversion of a step: what a fetched command leaves behind when it has been handed to its block, what
any command but FRAME_START leaves behind on a hub that is not held in reset, the steps that FRAME_START takes first,
and the induction that every invariant of the hub goes through. With it the statements about steps, the held reset and the resets. -/

namespace Sys2Proof.Machine

/-! ### A fetched command at its block -/

/-- What a command found in the slot `id` leaves of the state `s` in which its read has ended: refused, or taken by the
Edit Scheduler, the Switch Core, a Link Unit or a tap. -/
inductive Handed (id : CmdId) (s : State) : State → Prop
  | refused (status : Status) : Handed id s (refuse status id s)
  | edit (e : Edit) (own : id.ring = .a) (sized : ∀ op, e.op = some op → op.sized) :
      Handed id s (joinEdit e s)
  | cancel (label : Half) : Handed id s (cancelGroups id label (breakFor id.ring s))
  | read (f : ReadFields) (own : id.ring = .a) : Handed id s (takeRead id f (breakFor .a s))
  | fence (own : id.ring = .a) : Handed id s (takeFence id () (breakFor .a s))
  | link (n : LinkId) (g : Link → LinkStep) (own : id.ring = .b)
      (keeps : ∀ l, LinkGood l → Keeps l 1 (g l)) : Handed id s (s.onLink n g)
  | credit (f : CreditFields) (own : id.ring = .b) : Handed id s (takeCreditTap id f s)

theorem fetchedEdit_handed {i : Instr} {r : CommandRecord} {op : Option EditOp}
    (row : editOf i = some (r, op)) (id : CmdId) (s : State) : Handed id s (fetchedEdit op r id s) := by
  unfold fetchedEdit
  split
  next own =>
    refine .edit _ own fun o good => ?_
    obtain rfl : op = some o := good
    exact editOf_sized row
  next => exact .refused _

theorem fetchedCancel_handed (fields : Option Half) (id : CmdId) (s : State) :
    Handed id s (fetchedCancel fields id s) := by
  unfold fetchedCancel
  split
  · exact .refused _
  · exact .cancel _

/-- A command of one ring is refused, or taken from its own ring with its fields read. -/
theorem fetchedPlain_handed {α : Type} {own : CmdRing} {fields : Option α}
    {take : CmdId → α → State → State} {id : CmdId} {s : State}
    (taken : ∀ f, id.ring = own → fields = some f → Handed id s (take id f (breakFor own s))) :
    Handed id s (fetchedPlain own fields take id s) := by
  unfold fetchedPlain
  split
  next ring =>
    split
    next => exact .refused _
    next f => rw [ring]; exact taken f ring rfl
  next => exact .refused _

/-- A message of SEND MESSAGE has 1 to 44 bytes (R116). -/
theorem parseMessage_length {r : CommandRecord} {f : MessageFields} (h : parseMessage r = some f) :
    1 ≤ f.bytes.length ∧ f.bytes.length ≤ Config.messageMax := by
  unfold parseMessage at h
  simp only at h
  split at h
  next checks =>
    split at h
    · cases h
      simp only [Bool.and_eq_true, decide_eq_true_eq] at checks
      rw [List.length_map, List.length_range]
      exact ⟨checks.1.2, checks.2⟩
    · cases h
  · cases h

/-! ### Any command on a hub that is not held -/

/-- What a command other than FRAME_START can leave of a hub that is not held in reset, with the facts each case goes
with. -/
inductive Effected (s : State) : State → Prop
  | idle : Effected s s
  | link (n : LinkId) (f : Link → LinkStep) (keeps : ∀ l, LinkGood l → Keeps l 0 (f l)) :
      Effected s (s.onLink n f)
  | fetchStart : Effected s (startFetch s)
  | fetched (id : CmdId) (slot : Nat) (t : State) (inFlight : s.engine.fetch = some (id.ring, slot))
      (handed : Handed id (s.withEngine (s.engine.fetchEnded id.ring)) t) : Effected s (stopIfDue t)
  | halted (cause : HaltCause) (known : cause ≠ .none) : Effected s (halt cause s)
  | editRetried : Effected s (retryEdit s)
  | readTaken : Effected s (takeParkedRead s)
  | fenceReleased : Effected s (releaseFence s)
  | routeWritten (r : ReadSlot) (slot : s.core.slot = some r) : Effected s (finishRead r s)
  | writeStart (n : TapId) : Effected s (startWrite n s)
  | tapWritten (n : TapId) (writing : (s.taps.get n).writing = true) : Effected s (finishWrite n s)
  | readStart (n : TapId) : Effected s (startTapRead n s)
  | tapRead (n : TapId) (samples : List Sample) (reading : (s.taps.get n).reading = true) :
      Effected s (s.setTap n (storeRun samples (s.taps.get n)))
  | completionStart : Effected s (startCompletion s)
  | completionPosted (writing : s.engine.compWrite.isSome = true) :
      Effected s (s.withEngine s.engine.completionPosted)
  | eventStart : Effected s (startEvent s)
  | messageStart : Effected s (startMessage s)
  | eventPosted (w : EventWrite) (writing : s.events.write = some w) : Effected s (eventPosted w s)
  | enableSet (e : Enables) :
      Effected s ((storeEnables e s).withEngine (storeEnables e s).engine.setEnable)
  | enableClear (e : Enables) :
      Effected s (stopIfDue ((storeEnables e s).withEngine (storeEnables e s).engine.clearEnable))
  | stopEnd : Effected s (stopIfDue s)
  | enables (e : Enables) : Effected s (storeEnables e s)
  | engineReset : Effected s (resetEngine s)
  | deviceReset : Effected s (resetDevice s)
  | pinLow : Effected s { State.reset with held := true, pending := s.pending }
  | base (ring : Ring) (value : Word) : Effected s (writeBase ring value s)
  | prod (ring : CmdRing) (i n : Nat) (size : ringSize (s.engine.baseOf ring) = some n) (below : i < n) :
      Effected s (s.withEngine (s.engine.setProd ring i))
  | compCons (i n : Nat) (size : ringSize s.engine.baseComp = some n)
      (accepted : consumerAccepted n s.engine.consComp s.engine.postComp i = true) :
      Effected s (s.withEngine { s.engine with consComp := i })
  | eventCons (i n : Nat) (size : ringSize s.engine.baseEvent = some n)
      (accepted : consumerAccepted n s.engine.consEvent s.events.post i = true) :
      Effected s (s.withEngine { s.engine with consEvent := i })

theorem takeFetch_effected {r : CommandRecord} {take : CmdId → State → State} (s : State)
    (handed : ∀ id t, Handed id t (take id t)) : Effected s (takeFetch r take s) := by
  unfold takeFetch
  split
  next => exact .idle
  next ring slot inFlight => exact .fetched ⟨recTag r, ring, slot⟩ slot _ inFlight (handed _ _)

theorem fetchError_effected (s : State) :
    Effected s (if s.engine.fetch.isSome then halt .fetchError s else s) := by
  split
  · exact .halted _ (by decide)
  · exact .idle

theorem routeWritten_effected (how : BusEnd) (s : State) : Effected s (routeWritten how s) := by
  unfold routeWritten
  split
  next => exact .idle
  next r slot =>
    cases how with
    | ok => exact .routeWritten r slot
    | busError => exact .halted _ (by decide)

theorem tapWritten_effected (n : TapId) (how : BusEnd) (s : State) :
    Effected s (tapWritten n how s) := by
  unfold tapWritten
  split
  next writing =>
    cases how with
    | ok => exact .tapWritten n writing
    | busError => exact .halted _ (by decide)
  next => exact .idle

theorem tapRead_effected (n : TapId) (how : ReadEnd) (s : State) : Effected s (tapRead n how s) := by
  unfold tapRead
  split
  next reading =>
    cases how with
    | data bytes => exact .tapRead n _ reading
    | busError => exact .halted _ (by decide)
  next => exact .idle

theorem completionWritten_effected (how : BusEnd) (s : State) :
    Effected s (completionWritten how s) := by
  unfold completionWritten
  split
  next writing =>
    cases how with
    | ok => exact .completionPosted writing
    | busError => exact .halted _ (by decide)
  next => exact .idle

theorem eventWritten_effected (how : BusEnd) (s : State) : Effected s (eventWritten how s) := by
  unfold eventWritten
  split
  next => exact .idle
  next w writing =>
    cases how with
    | ok => exact .eventPosted w writing
    | busError => exact .halted _ (by decide)

theorem writeProd_effected (ring : CmdRing) (v : Word) (s : State) :
    Effected s (writeProd ring v s) := by
  unfold writeProd
  split
  next => exact .idle
  next n size =>
    split
    next below => exact .prod ring _ n size below
    next => exact .halted _ (by decide)

theorem writeCompCons_effected (v : Word) (s : State) : Effected s (writeCompCons v s) := by
  unfold writeCompCons
  split
  next => exact .idle
  next n size =>
    split
    next accepted => exact .compCons _ n size accepted
    next => exact .halted _ (by decide)

theorem writeEventCons_effected (v : Word) (s : State) : Effected s (writeEventCons v s) := by
  unfold writeEventCons
  split
  next => exact .idle
  next n size =>
    split
    next accepted => exact .eventCons _ n size accepted
    next => exact .halted _ (by decide)

/-- A row of an edit leaves what the Edit Scheduler leaves. -/
theorem edit_effected {i : Instr} {r : CommandRecord} {op : Option EditOp} (s : State)
    (row : editOf i = some (r, op)) : Effected s (effectOf i s) := by
  rw [(editOf_effect row).2]
  exact takeFetch_effected s (fetchedEdit_handed row)

/-- A row of a link command leaves what its Link Unit leaves. -/
theorem linkCommand_effected {α : Type} {r : CommandRecord} {fields : Option α}
    {take : CmdId → α → State → State} (s : State) {n : α → LinkId} {g : CmdId → α → Link → LinkStep}
    (unit : ∀ id f t, take id f t = t.onLink (n f) (g id f))
    (keeps : ∀ f, fields = some f → ∀ id l, LinkGood l → Keeps l 1 (g id f l)) :
    Effected s (takeFetch r (fetchedPlain .b fields take) s) :=
  takeFetch_effected s fun id _ => fetchedPlain_handed fun f own good => by
    rw [unit]
    exact .link (n f) (g id f) own (keeps f good id)

/-- The inversion of a command: what it leaves is one of the cases of `Effected`. -/
theorem effectOf_effected {i : Instr} (s : State) (other : i ≠ .frameStart) :
    Effected s (effectOf i s) := by
  cases i with
  | frameStart => exact absurd rfl other
  | callTimerExpires n => exact .link n _ fun _ => expireIfDue_keeps
  | trainTimerExpires n => exact .link n _ fun _ => expireIfDue_keeps
  | holdTimerExpires n => exact .link n _ fun _ => expireIfDue_keeps
  | closeTimerExpires n => exact .link n _ fun _ => expireIfDue_keeps
  | loopTimerExpires n => exact .link n _ fun _ => expireIfDue_keeps
  | retryLimit n => exact .link n _ fun _ => retryLimitIfDue_keeps
  | notReadyLimit n => exact .link n _ fun _ => notReadyLimitIfDue_keeps
  | candidateMarker n bits => exact .link n _ fun _ => lineCandidate_keeps
  | upstreamFrame n f => exact .link n _ fun _ => lineFrame_keeps
  | lineActivity n => exact .link n _ fun _ => lineActivity_keeps
  | fetchStart => exact .fetchStart
  | fetchError => exact fetchError_effected s
  | badKind kind r => exact takeFetch_effected s fun _ _ => .refused _
  | setRoute r => exact edit_effected s rfl
  | clearRoute r => exact edit_effected s rfl
  | muteRoute r => exact edit_effected s rfl
  | openTap r => exact edit_effected s rfl
  | closeTap r => exact edit_effected s rfl
  | cancelGroup r => exact takeFetch_effected s (fetchedCancel_handed _)
  | readRoute r =>
    exact takeFetch_effected s fun _ _ => fetchedPlain_handed fun f own _ => .read f own
  | fence r => exact takeFetch_effected s fun _ _ => fetchedPlain_handed fun _ own _ => .fence own
  | startLink r =>
    exact linkCommand_effected s (take := takeStartLink) (fun _ _ _ => rfl) fun _ _ _ _ => takeStart_keeps
  | loopLink r =>
    exact linkCommand_effected s (take := takeLoopLink) (fun _ _ _ => rfl) fun _ _ _ _ => takeLoop_keeps
  | stopLink r =>
    exact linkCommand_effected s (take := takeStopLink) (fun _ _ _ => rfl) fun _ _ _ _ => takeStop_keeps
  | queryLink r =>
    exact linkCommand_effected s (take := takeQueryLink) (fun _ _ _ => rfl) fun _ _ _ _ => takeQuery_keeps
  | setLamps r =>
    exact linkCommand_effected s (take := takeSetLamps) (fun _ _ _ => rfl) fun _ _ _ _ => takeLamps_keeps
  | sendMessage r =>
    exact linkCommand_effected s (take := takeSendMessage) (fun _ _ _ => rfl)
      fun _ fields _ _ good => takeMessage_keeps good (parseMessage_length fields)
  | creditTap r =>
    exact takeFetch_effected s fun _ _ => fetchedPlain_handed fun f own _ => .credit f own
  | parkedEditRetry => exact .editRetried
  | parkedReadRouteTaken => exact .readTaken
  | fenceRelease => exact .fenceReleased
  | routeRecordWriteEnd how => exact routeWritten_effected how s
  | captureWriteStart n => exact .writeStart n
  | tapWriteEnd n how => exact tapWritten_effected n how s
  | playoutReadStart n => exact .readStart n
  | tapReadEnd n how => exact tapRead_effected n how s
  | completionWriteStart => exact .completionStart
  | completionWriteEnd how => exact completionWritten_effected how s
  | eventWriteStart => exact .eventStart
  | messageEvent => exact .messageStart
  | eventWriteEnd how => exact eventWritten_effected how s
  | enableSet e => exact .enableSet e
  | enableClear e => exact .enableClear e
  | stopEnd => exact .stopEnd
  | interruptEnableWrite e => exact .enables e
  | engineReset => exact .engineReset
  | deviceReset => exact .deviceReset
  | resetN => exact .pinLow
  | ringBaseWrite ring value => exact .base ring value
  | ringProdWrite ring value => exact writeProd_effected ring value s
  | compConsWrite value => exact writeCompCons_effected value s
  | eventConsWrite value => exact writeEventCons_effected value s
  | unstoredRegisterWrite offset value => exact .idle
  | resetNRelease => exact .idle

/-! ### The start of a frame -/

section
variable {P : State → Prop}

theorem foldl_keeps {α β : Type} {Q : α → Prop} {f : α → β → α} (step : ∀ a b, Q a → Q (f a b))
    (l : List β) {a : α} (h : Q a) : Q (l.foldl f a) := by
  induction l generalizing a with
  | nil => exact h
  | cons b l ih => exact ih (step a b h)

/-- What every event of a Link Unit keeps, the same event at all eight keeps. -/
theorem eachLink_keeps {f : LinkId → Link → LinkStep} (link : ∀ s n, P s → P (s.onLink n (f n)))
    {s : State} (hs : P s) : P (eachLink f s) :=
  foldl_keeps link _ hs

theorem releaseParked_keeps (edit : ∀ s, P s → P (retryEdit s)) (read : ∀ s, P s → P (takeParkedRead s))
    (fence : ∀ s, P s → P (releaseFence s)) {s : State} (hs : P s) : P (releaseParked s) :=
  fence _ (read _ (edit _ hs))

/-- The steps still due when a frame starts are events like any others (log entry 3). -/
theorem catchUp_keeps (effect : ∀ s t, P s → Effected s t → P t) {s : State} (hs : P s) :
    P (catchUp s) := by
  have timers : P (eachLink expireAnyDue s) :=
    eachLink_keeps (fun t n ht => effect t _ ht (.link n _ fun _ => expireAnyDue_keeps)) hs
  have loops : P (eachLink (fun n => examineLoop n (eachLink expireAnyDue s).frame)
      (eachLink expireAnyDue s)) :=
    eachLink_keeps (fun t n ht => effect t _ ht (.link n _ fun _ => examineLoop_keeps)) timers
  have released := releaseParked_keeps (fun t ht => effect t _ ht .editRetried)
    (fun t ht => effect t _ ht .readTaken) (fun t ht => effect t _ ht .fenceReleased) loops
  have stopped := effect _ _ released .stopEnd
  have fetching := effect _ _ stopped .fetchStart
  have transfers := foldl_keeps (f := fun t n => startTapTransfers n t)
    (fun t n ht => effect _ _ (effect t _ ht (.writeStart n)) (.readStart n)) (List.finRange 16) fetching
  exact effect _ _ (effect _ _ (effect _ _ transfers .completionStart) .eventStart) .messageStart

/-- The induction of every invariant: what does not see the queue or the pin, holds at reset and is kept by every case
of `Effected` and by the frame itself, every step keeps. -/
theorem step_keeps_of_effected (queue : ∀ s q, P s → P (s.withPending q))
    (low : P { State.reset with held := true }) (high : P State.reset)
    (effect : ∀ s t, P s → Effected s t → P t) (frame : ∀ s, P s → P (startFrame s))
    {s t : State} (hs : P s) (h : step s = .next t) : P t := by
  refine step_keeps queue low high (fun i s _ _ hs => ?_) hs h
  by_cases start : i = .frameStart
  · subst start
    exact frame _ (catchUp_keeps effect hs)
  · exact effect s _ hs (effectOf_effected s start)

end

/-! ### The queue of waiting commands -/

@[simp] theorem writeBase_pending (ring : Ring) (value : Word) (s : State) :
    (writeBase ring value s).pending = s.pending := by
  unfold writeBase
  split
  · cases ring <;> simp [reconfigureEvents]
  · rfl

theorem Handed.pending {id : CmdId} {s t : State} (h : Handed id s t) : t.pending = s.pending := by
  cases h <;> simp

theorem startFrame_pending (s : State) : (startFrame s).pending = s.pending := by
  simp [startFrame, framePass, advanceFrame, startLinks]

theorem Effected.pending {s t : State} (h : Effected s t) : t.pending = s.pending := by
  cases h with
  | fetched id slot u _ handed => rw [stopIfDue_pending, handed.pending, withEngine_pending]
  | enables e => rfl
  | engineReset => rfl
  | deviceReset => rfl
  | pinLow => rfl
  | enableClear e => exact stopIfDue_pending _
  | enableSet e => rfl
  | tapRead n samples _ => rfl
  | _ => simp

end Sys2Proof.Machine

namespace Sys2Proof.Machine

/-- Settles O1: `step` by its two cases. -/
theorem stepTakesTheFrontCommand : Obligations.StepTakesTheFrontCommand := by
  constructor
  · intro c rest s queue
    rw [step, queue]
  · intro s queue
    rw [step, queue]

/-- Every well-formed command answers a next state: in a held hub but for the pin's commands the same state, else
its effect. -/
theorem exec_answers_next {c : Instr} (wellFormed : c.wellFormed = true) (s : State) :
    ∃ t, exec c s = .next t := by
  by_cases held : s.held = true
  · by_cases low : c = .resetN
    · exact ⟨_, by rw [low]; rfl⟩
    by_cases release : c = .resetNRelease
    · exact ⟨_, by rw [release]; exact if_pos held⟩
    exact ⟨s, exec_held wellFormed held low release⟩
  · exact ⟨_, exec_effect wellFormed (Bool.not_eq_true _ ▸ held)⟩

/-- No command touches the queue (log entry 1). -/
theorem exec_keeps_pending {c : Instr} {s t : State} (h : exec c s = .next t) :
    t.pending = s.pending := by
  obtain ⟨_, ⟨_, rfl⟩ | ⟨_, rfl⟩ | rfl | rfl⟩ := exec_next h
  · by_cases start : c = .frameStart
    · subst start
      exact (startFrame_pending _).trans (catchUp_pending s)
    · exact (effectOf_effected s start).pending
  all_goals rfl

/-- Settles O2: totality by the effects of the commands, the fault by well-formedness, and the queue by the inversion
of a step. -/
theorem wellFormedCommandsAnswerNext : Obligations.WellFormedCommandsAnswerNext :=
  ⟨fun _ s => ⟨fun wellFormed => exec_answers_next wellFormed s, exec_illFormed⟩,
    fun _ _ _ => exec_keeps_pending⟩

/-- Settles O3. -/
theorem heldHubTakesNothing : Obligations.HeldHubTakesNothing :=
  fun _ _ held wellFormed low release => exec_held wellFormed held low release

/-- Settles O4: the reset values, read field by field. -/
theorem resetLeavesTheseValues : Obligations.ResetLeavesTheseValues := by
  refine ⟨fun o listed => ?zeros, rfl, by decide, by decide, rfl, rfl, rfl, rfl, rfl, rfl, rfl, rfl,
    fun n c => ?routes, rfl, rfl, rfl, rfl, rfl, rfl, fun n => ?taps, fun n => ?links,
    fun i => ?events, rfl, by decide⟩
  case zeros => fin_cases listed <;> rfl
  case routes => simp [State.reset, SwitchCore.reset]
  case taps => simp [State.reset, Tap.reset]
  case links => simp [State.reset, Link.reset, Aligner.reset]
  case events => simp [State.reset, EventUnit.reset]

/-- Settles O5: each reset is the effect of its command, and the pin's commands are read from their meanings. -/
theorem resetsLeaveWhatTheySay : Obligations.ResetsLeaveWhatTheySay := by
  refine ⟨fun s running => ?engine, fun s running => ?device, fun s => rfl, fun s held => ?release,
    fun s running => ?idle⟩
  case engine => exact exec_effect rfl running
  case device => exact exec_effect rfl running
  case release => exact if_pos held
  case idle => exact exec_effect rfl running

end Sys2Proof.Machine
end

section
/-! SUPPORT. The invariants of the Ring Engine (chapters 7 and 9): ring indices and engine states, kept by every step. -/

namespace Sys2Proof.Machine

/-! ### The parts of a frame start, field by field -/

section
variable (s : State)
@[simp] theorem advanceFrame_held : (advanceFrame s).held = s.held := rfl
@[simp] theorem advanceFrame_frame : (advanceFrame s).frame = s.frame + 1 := rfl
@[simp] theorem advanceFrame_engine : (advanceFrame s).engine = s.engine := rfl
@[simp] theorem advanceFrame_sched : (advanceFrame s).sched = s.sched := rfl
@[simp] theorem advanceFrame_core : (advanceFrame s).core = s.core := rfl
@[simp] theorem advanceFrame_taps : (advanceFrame s).taps = s.taps := rfl
@[simp] theorem advanceFrame_closing : (advanceFrame s).closing = s.closing := rfl
@[simp] theorem advanceFrame_links : (advanceFrame s).links = s.links := rfl
@[simp] theorem advanceFrame_events : (advanceFrame s).events = s.events := rfl

@[simp] theorem startLinks_held : (startLinks s).held = s.held := eachLink_held _ _
@[simp] theorem startLinks_frame : (startLinks s).frame = s.frame := eachLink_frame _ _
@[simp] theorem startLinks_sched : (startLinks s).sched = s.sched := eachLink_sched _ _
@[simp] theorem startLinks_core : (startLinks s).core = s.core := eachLink_core _ _
@[simp] theorem startLinks_taps : (startLinks s).taps = s.taps := eachLink_taps _ _
@[simp] theorem startLinks_closing : (startLinks s).closing = s.closing := eachLink_closing _ _
@[simp] theorem startLinks_post : (startLinks s).events.post = s.events.post := eachLink_post _ _

@[simp] theorem framePass_held : (framePass s).held = s.held := rfl
@[simp] theorem framePass_frame : (framePass s).frame = s.frame := rfl
@[simp] theorem framePass_engine : (framePass s).engine = s.engine := rfl
@[simp] theorem framePass_sched : (framePass s).sched = s.sched := rfl
@[simp] theorem framePass_routes : (framePass s).core.routes = s.core.routes := rfl
@[simp] theorem framePass_free : (framePass s).core.free = s.core.free := rfl
@[simp] theorem framePass_slot : (framePass s).core.slot = s.core.slot := rfl
@[simp] theorem framePass_taps : (framePass s).taps = s.taps := rfl
@[simp] theorem framePass_closing : (framePass s).closing = s.closing := rfl
@[simp] theorem framePass_links : (framePass s).links = s.links := rfl
@[simp] theorem framePass_events : (framePass s).events = s.events := rfl
end

theorem startSchedule_halted {s : State} (h : s.engine.mode = .halted) : startSchedule s = s := if_pos h

theorem startSchedule_running {s : State} (h : s.engine.mode ≠ .halted) : startSchedule s = cutOver s :=
  if_neg h

theorem startTaps_halted {s : State} (h : s.engine.mode = .halted) : startTaps s = s := if_pos h

theorem startTaps_running {s : State} (h : s.engine.mode ≠ .halted) : startTaps s = runTaps s := if_neg h

/-! ### Ring indices (R130, R131, R165) -/

/-- Ring indices see only what `RingsKept` keeps, and the event post position. -/
theorem RingsGood.of_kept {s t : State} (h : RingsGood s) (rings : RingsKept s.engine t.engine)
    (post : t.events.post = s.events.post) : RingsGood t := by
  obtain ⟨prodA, fetchA, prodB, fetchB, consComp, postComp, consEvent, postEvent⟩ := h
  constructor <;> simp only [rings.baseA, rings.baseB, rings.baseComp, rings.baseEvent, rings.prodA,
    rings.prodB, rings.consComp, rings.consEvent, rings.fetchA, rings.fetchB, rings.postComp, post] <;>
    assumption

/-- CREDIT TAP raises no event (R54). -/
@[simp] theorem takeCreditTap_events (id : CmdId) (f : CreditFields) (s : State) :
    (takeCreditTap id f s).events = s.events := by
  unfold takeCreditTap takeCredit
  split_ifs <;> simp only [emit_complete, emit_nil, withEngine_events] <;> rfl

theorem Handed.rings {id : CmdId} {s t : State} (h : Handed id s t) : RingsKept s.engine t.engine := by
  cases h with
  | refused status => exact refuse_rings _ _ _
  | edit e => exact joinEdit_rings _ _
  | cancel label => exact (breakFor_rings _ _).trans (cancelGroups_rings _ _ _)
  | read f => exact (breakFor_rings _ _).trans (takeRead_rings _ _ _)
  | fence => exact (breakFor_rings _ _).trans (takeFence_rings _ _ _)
  | link n g => exact onLink_rings _ _ _
  | credit f => exact takeCreditTap_rings _ _ _

theorem Handed.post {id : CmdId} {s t : State} (h : Handed id s t) : t.events.post = s.events.post := by
  cases h <;> simp

/-- The end of a read moves the fetch position of its ring on (R134). -/
theorem fetchEnded_ringsGood {s : State} (h : RingsGood s) (ring : CmdRing) :
    RingsGood (s.withEngine (s.engine.fetchEnded ring)) := by
  obtain ⟨prodA, fetchA, prodB, fetchB, consComp, postComp, consEvent, postEvent⟩ := h
  cases ring with
  | a => exact ⟨prodA, fitsRing_nextSlot fetchA, prodB, fetchB, consComp, postComp, consEvent, postEvent⟩
  | b => exact ⟨prodA, fetchA, prodB, fitsRing_nextSlot fetchB, consComp, postComp, consEvent, postEvent⟩

/-- An index below the ring's size is one of its slot numbers. -/
theorem fitsRing_of_lt {base : Word} {n i : Nat} (size : ringSize base = some n) (below : i < n) :
    fitsRing base i := by
  rw [fitsRing, size]
  exact below

theorem setProd_ringsGood {s : State} (h : RingsGood s) {ring : CmdRing} {i n : Nat}
    (size : ringSize (s.engine.baseOf ring) = some n) (below : i < n) :
    RingsGood (s.withEngine (s.engine.setProd ring i)) := by
  obtain ⟨prodA, fetchA, prodB, fetchB, consComp, postComp, consEvent, postEvent⟩ := h
  cases ring with
  | a => exact ⟨fitsRing_of_lt size below, fetchA, prodB, fetchB, consComp, postComp, consEvent, postEvent⟩
  | b => exact ⟨prodA, fetchA, fitsRing_of_lt size below, fetchB, consComp, postComp, consEvent, postEvent⟩

/-- A base register write puts its ring's index and position to 0 (R165). -/
theorem writeBase_ringsGood {s : State} (h : RingsGood s) (ring : Ring) (value : Word) :
    RingsGood (writeBase ring value s) := by
  obtain ⟨prodA, fetchA, prodB, fetchB, consComp, postComp, consEvent, postEvent⟩ := h
  have zero := fitsRing_zero value
  unfold writeBase
  split
  · cases ring with
    | ringA => exact ⟨zero, zero, prodB, fetchB, consComp, postComp, consEvent, postEvent⟩
    | ringB => exact ⟨prodA, fetchA, zero, zero, consComp, postComp, consEvent, postEvent⟩
    | completion => exact ⟨prodA, fetchA, prodB, fetchB, zero, zero, consEvent, postEvent⟩
    | event =>
      constructor <;> simp only [reconfigureEvents, withEvents_engine, withEvents_events,
        returnEventWrite_engine, withEngine_engine, RingEngine.setBase] <;> assumption
  · exact ⟨prodA, fetchA, prodB, fetchB, consComp, postComp, consEvent, postEvent⟩

theorem setEnable_rings (e : RingEngine) : RingsKept e e.setEnable := by
  unfold RingEngine.setEnable
  split
  · exact start_rings e
  all_goals constructor <;> rfl

@[simp] theorem startEvent_post (s : State) : (startEvent s).events.post = s.events.post := by
  unfold startEvent EventUnit.drain
  split
  · split <;> rfl
  · rfl

@[simp] theorem startMessage_post (s : State) : (startMessage s).events.post = s.events.post := by
  unfold startMessage serveMessage
  split
  · split <;> rfl
  · rfl

/-- Every engine with its host indices and hub positions at 0 has good ring indices. -/
theorem ringsGood_of_zero {s : State} (prodA : s.engine.prodA = 0) (fetchA : s.engine.fetchA = 0)
    (prodB : s.engine.prodB = 0) (fetchB : s.engine.fetchB = 0) (consComp : s.engine.consComp = 0)
    (postComp : s.engine.postComp = 0) (consEvent : s.engine.consEvent = 0)
    (postEvent : s.events.post = 0) : RingsGood s := by
  constructor <;> simp only [prodA, fetchA, prodB, fetchB, consComp, postComp, consEvent, postEvent] <;>
    exact fitsRing_zero _

theorem Effected.ringsGood {s t : State} (h : RingsGood s) (e : Effected s t) : RingsGood t := by
  cases e with
  | idle => exact h
  | link n f => exact h.of_kept (onLink_rings _ _ _) (onLink_post _ _ _)
  | fetchStart => exact h.of_kept (startFetch_rings s) (by simp)
  | fetched id slot u _ handed =>
    have taken := (fetchEnded_ringsGood h id.ring).of_kept handed.rings handed.post
    exact taken.of_kept (stopIfDue_rings _) (by simp)
  | halted cause => exact h.of_kept (halt_rings _ _) (by simp)
  | editRetried => exact h.of_kept (retryEdit_rings s) (by simp)
  | readTaken => exact h.of_kept (takeParkedRead_rings s) (by simp)
  | fenceReleased => exact h.of_kept (releaseFence_rings s) (by simp)
  | routeWritten r => exact h.of_kept (finishRead_rings _ _) (by simp)
  | writeStart n => exact h.of_kept (by rw [startWrite_engine]; exact .rfl) (by simp)
  | tapWritten n => exact h.of_kept (finishWrite_rings _ _) (by simp)
  | readStart n => exact h.of_kept (by rw [startTapRead_engine]; exact .rfl) (by simp)
  | tapRead n samples => exact h.of_kept .rfl rfl
  | completionStart => exact h.of_kept (startCompletion_rings s) (by simp)
  | completionPosted =>
    obtain ⟨prodA, fetchA, prodB, fetchB, consComp, postComp, consEvent, postEvent⟩ := h
    exact ⟨prodA, fetchA, prodB, fetchB, consComp, fitsRing_nextSlot postComp, consEvent, postEvent⟩
  | eventStart => exact h.of_kept (by rw [startEvent_engine]; exact .rfl) (by simp)
  | messageStart => exact h.of_kept (by rw [startMessage_engine]; exact .rfl) (by simp)
  | eventPosted w =>
    obtain ⟨prodA, fetchA, prodB, fetchB, consComp, postComp, consEvent, postEvent⟩ := h
    have moved : fitsRing s.engine.baseEvent (Machine.eventPosted w s).events.post :=
      fitsRing_nextSlot postEvent
    constructor <;> rw [eventPosted_engine] <;> assumption
  | enableSet n => exact RingsGood.of_kept (s := storeEnables n s) ⟨h.1, h.2, h.3, h.4, h.5, h.6, h.7, h.8⟩ (setEnable_rings _) rfl
  | enableClear n =>
    refine RingsGood.of_kept (s := (storeEnables n s).withEngine (storeEnables n s).engine.clearEnable)
      ⟨h.1, h.2, h.3, h.4, h.5, h.6, h.7, h.8⟩ (stopIfDue_rings _) (by simp)
  | stopEnd => exact h.of_kept (stopIfDue_rings s) (by simp)
  | enables n => exact ⟨h.1, h.2, h.3, h.4, h.5, h.6, h.7, h.8⟩
  | engineReset => exact ringsGood_of_zero rfl rfl rfl rfl rfl rfl rfl rfl
  | deviceReset => exact ringsGood_of_zero rfl rfl rfl rfl rfl rfl rfl rfl
  | pinLow => exact ringsGood_of_zero rfl rfl rfl rfl rfl rfl rfl rfl
  | base ring value => exact writeBase_ringsGood h ring value
  | prod ring i n size below => exact setProd_ringsGood h size below
  | compCons i n size accepted =>
    obtain ⟨prodA, fetchA, prodB, fetchB, consComp, postComp, consEvent, postEvent⟩ := h
    exact ⟨prodA, fetchA, prodB, fetchB, fitsRing_of_lt size (consumerAccepted_iff.1 accepted).1,
      postComp, consEvent, postEvent⟩
  | eventCons i n size accepted =>
    obtain ⟨prodA, fetchA, prodB, fetchB, consComp, postComp, consEvent, postEvent⟩ := h
    exact ⟨prodA, fetchA, prodB, fetchB, consComp, postComp,
      fitsRing_of_lt size (consumerAccepted_iff.1 accepted).1, postEvent⟩

theorem startTaps_post (s : State) : (startTaps s).events.post = s.events.post := by
  unfold startTaps
  split
  · rfl
  · obtain ⟨t, rfl, h | h⟩ := runTaps_cases s <;> rw [h] <;> simp

theorem startFrame_ringsGood {s : State} (h : RingsGood s) : RingsGood (startFrame s) :=
  h.of_kept (startFrame_rings s) (by simp [startFrame, startTaps_post])

/-- Settles O7: each effect keeps the bases and indices, or moves one index within its ring. -/
theorem stepsKeepRingIndices : Obligations.StepsKeepRingIndices := fun _ _ =>
  step_keeps_of_effected (fun _ _ h => ⟨h.1, h.2, h.3, h.4, h.5, h.6, h.7, h.8⟩)
    (ringsGood_of_zero rfl rfl rfl rfl rfl rfl rfl rfl)
    (ringsGood_of_zero rfl rfl rfl rfl rfl rfl rfl rfl)
    (fun _ _ => Effected.ringsGood) (fun _ => startFrame_ringsGood)

end Sys2Proof.Machine
end

section
/-! SUPPORT. What each engine state goes with (R161 to R163, R166, R167), kept by every step: a block's work leaves the
control side of the Ring Engine alone and starts no transfer while it is HALTED; the end of a stop and the halt are the
two places where the state changes by itself. -/

namespace Sys2Proof.Machine

/-! ### Work that leaves the control side alone -/

/-- Work that keeps the control side, the bases of the posting rings and, in HALTED, leaves every transfer off keeps
what each state goes with. -/
theorem EngineGood.of_control {s t : State} (h : EngineGood s) (control : ControlKept s.engine t.engine)
    (comp : t.engine.baseComp = s.engine.baseComp) (event : t.engine.baseEvent = s.engine.baseEvent)
    (off : s.engine.mode = .halted → TransfersOff s → TransfersOff t) : EngineGood t where
  cause := by rw [control.mode, control.cause]; exact h.cause
  halted mode := by rw [control.mode] at mode; exact off mode (h.halted mode)
  stopped mode := by rw [control.mode] at mode; rw [control.enable, control.fetch]; exact h.stopped mode
  running mode := by
    rw [control.mode] at mode; rw [control.enable, control.startRefused]; exact h.running mode
  stopping mode := by rw [control.mode] at mode; rw [control.fetch]; exact h.stopping mode
  configured mode := by
    rw [control.mode] at mode; rw [comp, event]; exact h.configured mode

theorem EngineGood.of_kept {s t : State} (h : EngineGood s) (control : ControlKept s.engine t.engine)
    (rings : RingsKept s.engine t.engine)
    (off : s.engine.mode = .halted → TransfersOff s → TransfersOff t) : EngineGood t :=
  h.of_control control rings.baseComp rings.baseEvent off

/-- A TransfersOff state stays one where the Ring Engine's transfers and queue, the event write, the slot and the taps
are as they were. -/
theorem TransfersOff.of_eq {s t : State} (h : TransfersOff s) (fetch : t.engine.fetch = s.engine.fetch)
    (queue : t.engine.postQueue = s.engine.postQueue)
    (completion : t.engine.compWrite = s.engine.compWrite) (event : t.events.write = s.events.write)
    (slot : t.core.slot = s.core.slot) (taps : t.taps = s.taps) : TransfersOff t :=
  ⟨fetch.trans h.fetch, queue.trans h.queue, completion.trans h.completion, event.trans h.event,
    slot.trans h.slot, taps ▸ h.taps⟩

/-- A write of an index, an enable or the frame number touches nothing that an engine state goes with. -/
theorem EngineGood.untouched {s t : State} (h : EngineGood s) (control : ControlKept s.engine t.engine)
    (comp : t.engine.baseComp = s.engine.baseComp) (event : t.engine.baseEvent = s.engine.baseEvent)
    (queue : t.engine.postQueue = s.engine.postQueue) (completion : t.engine.compWrite = s.engine.compWrite)
    (write : t.events.write = s.events.write) (slot : t.core.slot = s.core.slot) (taps : t.taps = s.taps) :
    EngineGood t :=
  h.of_control control comp event fun _ off => off.of_eq control.fetch queue completion write slot taps

theorem onLink_transfersOff {s : State} {n : LinkId} {f : Link → LinkStep}
    (mode : s.engine.mode = .halted) (h : TransfersOff s) : TransfersOff (s.onLink n f) :=
  h.of_eq (by simp) (by rw [onLink_engine, handed_postQueue_halted _ _ mode]) (by simp)
    (onLink_write_halted _ _ _ mode) (by simp) (by simp)

theorem onLink_engineGood {s : State} (h : EngineGood s) (n : LinkId) (f : Link → LinkStep) :
    EngineGood (s.onLink n f) :=
  h.of_kept (onLink_control _ _ _) (onLink_rings _ _ _) onLink_transfersOff

/-- Outside HALTED, work that keeps the control side keeps what each state goes with. -/
theorem EngineGood.of_live {s t : State} (h : EngineGood s) (control : ControlKept s.engine t.engine)
    (rings : RingsKept s.engine t.engine) (mode : s.engine.mode ≠ .halted) : EngineGood t :=
  h.of_kept control rings fun halted => absurd halted mode

/-! ### Steps that a halted engine does not take -/

section
variable {s : State} (mode : s.engine.mode = .halted)
include mode

theorem retryEdit_halted : retryEdit s = s := by
  unfold retryEdit
  split
  · exact if_neg (by simp [mode])
  · rfl

theorem takeParkedRead_halted : takeParkedRead s = s := by
  unfold takeParkedRead
  split
  · exact if_neg (by simp [mode])
  · rfl

theorem releaseFence_halted : releaseFence s = s := by
  unfold releaseFence
  split
  · exact if_neg (by simp [mode])
  · rfl

theorem releaseParked_halted : releaseParked s = s := by
  rw [releaseParked, retryEdit_halted mode, takeParkedRead_halted mode, releaseFence_halted mode]

theorem stopIfDue_halted : stopIfDue s = s := stopIfDue_waits (.inl (by simp [mode]))

theorem startFetch_halted : startFetch s = s := if_neg (by simp [RingEngine.canFetch, mode])

theorem startWrite_halted (n : TapId) : startWrite n s = s := if_neg (by simp [canWrite, mode])

theorem startTapRead_halted (n : TapId) : startTapRead n s = s := if_neg (by simp [canReadTap, mode])

theorem startCompletion_halted : startCompletion s = s := by
  unfold startCompletion
  split
  · rfl
  · exact if_neg (by simp [mode])

theorem startEvent_halted : startEvent s = s := if_neg (by simp [canStartEvent_halted mode])

theorem startMessage_halted : startMessage s = s := if_neg (by simp [canStartEvent_halted mode])

end

/-- What a halted engine does not do at all needs to be looked at outside HALTED only. -/
theorem EngineGood.of_idle_halted {s t : State} (h : EngineGood s) (idle : s.engine.mode = .halted → t = s)
    (control : ControlKept s.engine t.engine) (rings : RingsKept s.engine t.engine) : EngineGood t := by
  by_cases mode : s.engine.mode = .halted
  · rw [idle mode]; exact h
  · exact h.of_live control rings mode

/-! ### The end of a stop -/

/-- The invariant of an engine that has just been told to stop or whose last read has just ended: its STOPPING need
not have a fetch to wait for any more. -/
structure EngineStops (s : State) : Prop where
  cause : s.engine.mode = .halted ↔ s.engine.cause ≠ .none
  halted : s.engine.mode = .halted → TransfersOff s
  stopped : s.engine.mode = .stopped → s.engine.enable = false ∧ s.engine.fetch = none
  running : s.engine.mode = .running → s.engine.enable = true ∧ s.engine.startRefused = false
  configured : s.engine.mode = .running ∨ s.engine.mode = .stopping →
    (ringSize s.engine.baseComp).isSome ∧ (ringSize s.engine.baseEvent).isSome

theorem EngineGood.stops {s : State} (h : EngineGood s) : EngineStops s :=
  ⟨h.cause, h.halted, h.stopped, h.running, h.configured⟩

/-- No halt cause stands outside HALTED. -/
theorem cause_none {s : State} (cause : s.engine.mode = .halted ↔ s.engine.cause ≠ .none)
    (mode : s.engine.mode ≠ .halted) : s.engine.cause = .none :=
  not_not.1 fun known => mode (cause.2 known)

/-- The stop of an engine with both posting rings configured ends STOPPED with ENABLE clear, or RUNNING with it set. -/
theorem stopEnded_configured {e : RingEngine} (comp : (ringSize e.baseComp).isSome)
    (event : (ringSize e.baseEvent).isSome) :
    (e.stopEnded.mode = .stopped ∧ e.stopEnded.enable = false) ∨
      (e.stopEnded.mode = .running ∧ e.stopEnded.enable = true ∧ e.stopEnded.startRefused = false) := by
  unfold RingEngine.stopEnded RingEngine.start
  by_cases enable : e.enable = true <;> simp [enable, comp, event]

theorem stopEnded_cause (e : RingEngine) : e.stopEnded.cause = e.cause := by
  unfold RingEngine.stopEnded RingEngine.start
  simp only
  split_ifs <;> rfl

theorem stopEnded_fetch (e : RingEngine) : e.stopEnded.fetch = e.fetch := by
  unfold RingEngine.stopEnded RingEngine.start
  simp only
  split_ifs <;> rfl

/-- A stop that is due ends in one of the two states it can end in (R163). -/
theorem endStop_engineGood {s : State} (h : EngineStops s) (mode : s.engine.mode = .stopping)
    (fetch : s.engine.fetch = none) : EngineGood (endStop s) := by
  obtain ⟨e, control, ended⟩ := endStop_control s
  have rings : RingsKept s.engine (endStop s).engine := by
    have due : stopIfDue s = endStop s := if_pos (by simp [mode, fetch])
    exact due ▸ stopIfDue_rings s
  have configured := h.configured (.inr mode)
  have none : (endStop s).engine.cause = .none := by
    rw [ended, stopEnded_cause, control.cause]
    exact cause_none h.cause (by simp [mode])
  have noFetch : (endStop s).engine.fetch = Option.none := by
    rw [ended, stopEnded_fetch, control.fetch, fetch]
  have ends := stopEnded_configured (e := e)
    (by
      have kept : e.stopEnded.baseComp = e.baseComp := (stopEnded_rings e).baseComp
      rw [← kept, ← ended, rings.baseComp]; exact configured.1)
    (by
      have kept : e.stopEnded.baseEvent = e.baseEvent := (stopEnded_rings e).baseEvent
      rw [← kept, ← ended, rings.baseEvent]; exact configured.2)
  rw [← ended] at ends
  constructor
  case cause => rcases ends with ⟨m, _⟩ | ⟨m, _⟩ <;> simp [m, none]
  case halted => rcases ends with ⟨m, _⟩ | ⟨m, _⟩ <;> simp [m]
  case stopped => rcases ends with ⟨m, off⟩ | ⟨m, _⟩ <;> simp_all
  case running => rcases ends with ⟨m, _⟩ | ⟨m, on⟩ <;> simp_all
  case stopping => rcases ends with ⟨m, _⟩ | ⟨m, _⟩ <;> simp [m]
  case configured => rw [rings.baseComp, rings.baseEvent]; exact fun _ => configured

theorem stopIfDue_engineGood {s : State} (h : EngineStops s) : EngineGood (stopIfDue s) := by
  unfold stopIfDue
  split
  next due =>
    simp only [Bool.and_eq_true, beq_iff_eq, Option.isNone_iff_eq_none] at due
    exact endStop_engineGood h due.1 due.2
  next wait =>
    refine ⟨h.cause, h.halted, h.stopped, h.running, fun mode => ?_, h.configured⟩
    simpa [mode, Option.isSome_iff_ne_none] using wait

/-! ### A read that ends, the halt, and the enables -/

theorem Handed.control {id : CmdId} {s t : State} (h : Handed id s t) :
    ControlKept s.engine t.engine := by
  cases h with
  | refused status => exact refuse_control _ _ _
  | edit e => exact joinEdit_control _ _
  | cancel label => exact (breakFor_control _ _).trans (cancelGroups_control _ _ _)
  | read f => exact (breakFor_control _ _).trans (takeRead_control _ _ _)
  | fence => exact (breakFor_control _ _).trans (takeFence_control _ _ _)
  | link n g => exact onLink_control _ _ _
  | credit f => exact takeCreditTap_control _ _ _

theorem fetchEnded_mode (e : RingEngine) (ring : CmdRing) : (e.fetchEnded ring).mode = e.mode := by
  cases ring <;> rfl

/-- A command read to its end and handed: the engine was not HALTED, for a halted one has no read in flight. -/
theorem handed_engineStops {id : CmdId} {slot : Nat} {s t : State} (h : EngineGood s)
    (inFlight : s.engine.fetch = some (id.ring, slot))
    (handed : Handed id (s.withEngine (s.engine.fetchEnded id.ring)) t) : EngineStops t := by
  have control := handed.control
  have rings := handed.rings
  have mode : t.engine.mode = s.engine.mode := control.mode.trans (fetchEnded_mode _ _)
  have live : s.engine.mode ≠ .halted := fun halted => by
    rw [(h.halted halted).fetch] at inFlight; cases inFlight
  have going : s.engine.mode ≠ .stopped := fun stopped => by
    rw [(h.stopped stopped).2] at inFlight; cases inFlight
  constructor
  case cause => rw [mode, control.cause]; cases ring : id.ring <;> exact h.cause
  case halted => exact fun halted => absurd (mode ▸ halted) live
  case stopped => exact fun stopped => absurd (mode ▸ stopped) going
  case running =>
    rw [mode, control.enable, control.startRefused]; cases ring : id.ring <;> exact h.running
  case configured =>
    rw [mode, rings.baseComp, rings.baseEvent]; cases ring : id.ring <;> exact h.configured

theorem halt_engineGood {s : State} (h : EngineGood s) {cause : HaltCause} (known : cause ≠ .none) :
    EngineGood (halt cause s) := by
  by_cases mode : s.engine.mode = .halted
  · rw [halt_halted mode]; exact h
  · have halted : (halt cause s).engine.mode = .halted := halt_mode cause s
    have off : TransfersOff (halt cause s) := by
      rw [halt_eq mode]
      exact ⟨rfl, rfl, rfl, returnEventWrite_write s, rfl, fun n => by simp [Tap.abandon]⟩
    have named : (halt cause s).engine.cause = cause := by rw [halt_eq mode]; rfl
    refine ⟨by simp [named, known], fun _ => off, ?_, ?_, ?_, ?_⟩ <;> simp

/-- The start of an engine in STOPPED (R162). -/
theorem start_engineGood {s : State} (h : EngineGood s) (mode : s.engine.mode = .stopped) :
    EngineGood (s.withEngine s.engine.start) := by
  have none := cause_none h.cause (by simp [mode])
  have noFetch := (h.stopped mode).2
  unfold RingEngine.start
  split
  next both =>
    rw [Bool.and_eq_true] at both
    constructor <;> simp [none, both]
  · constructor <;> simp [mode, none, noFetch]

/-- ENABLE written as 1 (R162). -/
theorem setEnable_engineGood {s : State} (h : EngineGood s) :
    EngineGood (s.withEngine s.engine.setEnable) := by
  unfold RingEngine.setEnable
  split
  next mode => exact start_engineGood h mode
  next => exact h
  next mode =>
    refine ⟨h.cause, fun halted => ?_, fun stopped => ?_, fun running => ?_, h.stopping, h.configured⟩ <;>
      simp_all
  next mode =>
    refine ⟨h.cause, fun halted => ?_, fun stopped => ?_, fun running => ?_, h.stopping, h.configured⟩
    · exact (h.halted mode).of_eq rfl rfl rfl rfl rfl rfl
    all_goals simp_all

/-- ENABLE written as 0 (R163). -/
theorem clearEnable_engineStops {s : State} (h : EngineGood s) :
    EngineStops (s.withEngine s.engine.clearEnable) := by
  unfold RingEngine.clearEnable
  split
  next mode =>
    have none := cause_none h.cause (by simp [mode])
    constructor <;> simp [none, h.configured (.inl mode)]
  next mode =>
    refine ⟨h.cause, fun halted => (h.halted halted).of_eq rfl rfl rfl rfl rfl rfl,
      fun stopped => ⟨rfl, (h.stopped stopped).2⟩, fun running => absurd running mode, h.configured⟩

theorem storeEnables_engineGood {s : State} (h : EngineGood s) (e : Enables) :
    EngineGood (storeEnables e s) :=
  h.untouched ⟨rfl, rfl, rfl, rfl, rfl⟩ rfl rfl rfl rfl rfl rfl rfl

/-! ### Every effect -/

theorem startFetch_engineGood {s : State} (h : EngineGood s) : EngineGood (startFetch s) := by
  unfold startFetch
  split
  next can =>
    have running : s.engine.mode = .running := by
      simp only [RingEngine.canFetch, Bool.and_eq_true, beq_iff_eq] at can
      exact can.1.1
    split
    · exact h
    · refine ⟨h.cause, fun halted => ?_, fun stopped => ?_, h.running, fun _ => rfl, h.configured⟩ <;>
        simp_all [RingEngine.fetchStarted]
  · exact h

/-- A reset engine is in a good state. -/
theorem engineGood_of_reset {s : State} (mode : s.engine.mode = .stopped)
    (cause : s.engine.cause = .none) (enable : s.engine.enable = false) (fetch : s.engine.fetch = none) :
    EngineGood s := by
  constructor <;> simp [mode, cause, enable, fetch]

/-- A base register write is taken in STOPPED only (R165). -/
theorem writeBase_engineGood {s : State} (h : EngineGood s) (ring : Ring) (value : Word) :
    EngineGood (writeBase ring value s) := by
  unfold writeBase
  split
  next accepted =>
    have mode : s.engine.mode = .stopped := by
      simp only [baseAccepted, Bool.and_eq_true, beq_iff_eq] at accepted
      exact accepted.1.1
    have stopped := h.stopped mode
    have none := cause_none h.cause (by simp [mode])
    refine engineGood_of_reset ?_ ?_ ?_ ?_ <;> cases ring <;>
      simp [reconfigureEvents, RingEngine.setBase, mode, none, stopped.1, stopped.2]
  · exact h.untouched ⟨rfl, rfl, rfl, rfl, rfl⟩ rfl rfl rfl rfl rfl rfl rfl

theorem Effected.engineGood {s t : State} (h : EngineGood s) (e : Effected s t) : EngineGood t := by
  cases e with
  | idle => exact h
  | link n f => exact onLink_engineGood h n f
  | fetchStart => exact startFetch_engineGood h
  | fetched id slot u inFlight handed => exact stopIfDue_engineGood (handed_engineStops h inFlight handed)
  | halted cause known => exact halt_engineGood h known
  | editRetried => exact h.of_idle_halted retryEdit_halted (retryEdit_control s) (retryEdit_rings s)
  | readTaken =>
    exact h.of_idle_halted takeParkedRead_halted (takeParkedRead_control s) (takeParkedRead_rings s)
  | fenceReleased =>
    exact h.of_idle_halted releaseFence_halted (releaseFence_control s) (releaseFence_rings s)
  | routeWritten r slot =>
    exact h.of_kept (finishRead_control r s) (finishRead_rings r s) fun _ off => by
      rw [off.slot] at slot; cases slot
  | writeStart n =>
    exact h.of_idle_halted (fun mode => startWrite_halted mode n) (by rw [startWrite_engine]; exact .rfl)
      (by rw [startWrite_engine]; exact .rfl)
  | tapWritten n writing =>
    exact h.of_kept (finishWrite_control n s) (finishWrite_rings n s) fun _ off => by
      rw [(off.taps n).1] at writing; cases writing
  | readStart n =>
    exact h.of_idle_halted (fun mode => startTapRead_halted mode n)
      (by rw [startTapRead_engine]; exact .rfl) (by rw [startTapRead_engine]; exact .rfl)
  | tapRead n samples reading =>
    exact h.of_kept .rfl .rfl fun _ off => by rw [(off.taps n).2] at reading; cases reading
  | completionStart =>
    exact h.of_idle_halted startCompletion_halted (startCompletion_control s) (startCompletion_rings s)
  | completionPosted writing =>
    refine ⟨h.cause, fun halted => ?_, h.stopped, h.running, h.stopping, h.configured⟩
    rw [(h.halted halted).completion] at writing
    cases writing
  | eventStart =>
    exact h.of_idle_halted startEvent_halted (by rw [startEvent_engine]; exact .rfl)
      (by rw [startEvent_engine]; exact .rfl)
  | messageStart =>
    exact h.of_idle_halted startMessage_halted (by rw [startMessage_engine]; exact .rfl)
      (by rw [startMessage_engine]; exact .rfl)
  | eventPosted w writing =>
    exact h.of_kept (by rw [eventPosted_engine]; exact .rfl) (by rw [eventPosted_engine]; exact .rfl)
      fun _ off => by rw [off.event] at writing; cases writing
  | enableSet n => exact setEnable_engineGood (storeEnables_engineGood h n)
  | enableClear n => exact stopIfDue_engineGood (clearEnable_engineStops (storeEnables_engineGood h n))
  | stopEnd => exact stopIfDue_engineGood h.stops
  | enables n => exact storeEnables_engineGood h n
  | engineReset => exact engineGood_of_reset rfl rfl rfl rfl
  | deviceReset => exact engineGood_of_reset rfl rfl rfl rfl
  | pinLow => exact engineGood_of_reset rfl rfl rfl rfl
  | base ring value => exact writeBase_engineGood h ring value
  | prod ring i n =>
    cases ring <;> exact h.untouched ⟨rfl, rfl, rfl, rfl, rfl⟩ rfl rfl rfl rfl rfl rfl rfl
  | compCons i n =>
    exact h.untouched ⟨rfl, rfl, rfl, rfl, rfl⟩ rfl rfl rfl rfl rfl rfl rfl
  | eventCons i n =>
    exact h.untouched ⟨rfl, rfl, rfl, rfl, rfl⟩ rfl rfl rfl rfl rfl rfl rfl

/-! ### The frame -/

theorem startLinks_mode (s : State) : (startLinks s).engine.mode = s.engine.mode :=
  (eachLink_control _ s).mode

theorem startSchedule_control (s : State) : ControlKept s.engine (startSchedule s).engine := by
  unfold startSchedule
  split
  · exact .rfl
  · exact cutOver_control s

theorem startSchedule_rings (s : State) : RingsKept s.engine (startSchedule s).engine := by
  unfold startSchedule
  split
  · exact .rfl
  · exact cutOver_rings s

/-- The taps' frame, and the halt that may follow it. -/
theorem startTaps_engineGood {s : State} (h : EngineGood s) : EngineGood (startTaps s) := by
  by_cases mode : s.engine.mode = .halted
  · rw [startTaps_halted mode]; exact h
  · rw [startTaps_running mode]
    obtain ⟨t, rfl, same | halted⟩ := runTaps_cases s
    · rw [same]
      exact h.of_live (by simp only [emit_engine]; exact handed_control _ _)
        (by simp only [emit_engine]; exact handed_rings _ _) mode
    · rw [halted]
      exact halt_engineGood (h.of_live (by simp only [emit_engine]; exact handed_control _ _)
        (by simp only [emit_engine]; exact handed_rings _ _) mode) (by decide)

theorem framePass_engineGood {s : State} (h : EngineGood s) : EngineGood (framePass s) :=
  h.untouched .rfl rfl rfl rfl rfl rfl rfl rfl

theorem startLinks_engineGood {s : State} (h : EngineGood s) : EngineGood (startLinks s) := by
  unfold startLinks
  exact eachLink_keeps (P := EngineGood) (fun _ _ ht => onLink_engineGood ht _ _) h

theorem startFrame_engineGood {s : State} (h : EngineGood s) : EngineGood (startFrame s) := by
  have counted : EngineGood (advanceFrame s) := h.untouched .rfl rfl rfl rfl rfl rfl rfl rfl
  have edits : EngineGood (startSchedule (startLinks (advanceFrame s))) :=
    (startLinks_engineGood counted).of_idle_halted startSchedule_halted (startSchedule_control _)
      (startSchedule_rings _)
  unfold startFrame
  exact startTaps_engineGood (framePass_engineGood edits)

/-- Settles O8: the blocks' work keeps the control side, a read's end and ENABLE_CLEAR leave a stop that ends in the
same event, and the halt takes every transfer off. -/
theorem stepsKeepEngineState : Obligations.StepsKeepEngineState := fun _ _ =>
  step_keeps_of_effected
    (fun _ _ h => h.untouched .rfl rfl rfl rfl rfl rfl rfl rfl)
    (engineGood_of_reset rfl rfl rfl rfl) (engineGood_of_reset rfl rfl rfl rfl)
    (fun _ _ => Effected.engineGood) (fun _ => startFrame_engineGood)

end Sys2Proof.Machine
end

section
/-! SUPPORT. The invariants of the Link Units (chapters 4 to 6), of the pool (R4) and of the order of the schedule list
(R33, R36), kept by every step. -/

namespace Sys2Proof.Machine

/-! ### Link Units -/

/-- Every Link Unit is good. -/
def LinksGood (s : State) : Prop := ∀ n, LinkGood (s.links.get n)

theorem LinksGood.of_links {s t : State} (h : LinksGood s) (links : t.links = s.links) : LinksGood t := by
  unfold LinksGood
  rw [links]
  exact h

theorem LinksGood.onLink {s : State} (h : LinksGood s) {n : LinkId} {f : Link → LinkStep}
    (good : LinkGood (f (s.links.get n)).1) : LinksGood (s.onLink n f) := by
  intro m
  rw [onLink_links, Table.get_set]
  split
  · exact good
  · exact h m

theorem Handed.linksGood {id : CmdId} {s t : State} (h : LinksGood s) (e : Handed id s t) :
    LinksGood t := by
  cases e with
  | link n g own keeps => exact h.onLink (keeps _ (h n)).good
  | _ => exact h.of_links (by simp)

theorem resetEngine_linksGood {s : State} (h : LinksGood s) : LinksGood (resetEngine s) := by
  intro n
  show LinkGood ((s.links.map Link.engineReset).get n)
  rw [Table.get_map]
  exact (engineReset_link (h n)).1

theorem linksGood_of_reset {s : State} (links : s.links = Table.fill 8 Link.reset) : LinksGood s := by
  intro n
  rw [links, Table.get_fill]
  exact linkReset_good.1

@[simp] theorem writeBase_links (ring : Ring) (value : Word) (s : State) :
    (writeBase ring value s).links = s.links := by
  unfold writeBase
  split
  · cases ring <;> simp [reconfigureEvents]
  · rfl

/-- A message written to the host leaves its link's queue (R154). -/
theorem eventPosted_linksGood {s : State} (h : LinksGood s) (w : EventWrite) :
    LinksGood (eventPosted w s) := by
  cases w with
  | event r => exact h
  | message n m =>
    intro k
    show LinkGood ((s.links.set n _).get k)
    rw [Table.get_set]
    split
    · exact delivered_good (h n)
    · exact h k

theorem Effected.linksGood {s t : State} (h : LinksGood s) (e : Effected s t) : LinksGood t := by
  cases e with
  | link n f keeps => exact h.onLink (keeps _ (h n)).good
  | fetched id slot u _ handed =>
    have ended : LinksGood (s.withEngine (s.engine.fetchEnded id.ring)) := h
    exact (handed.linksGood ended).of_links (by simp)
  | eventPosted w => exact eventPosted_linksGood h w
  | enableClear n => exact h.of_links (stopIfDue_links _)
  | engineReset => exact resetEngine_linksGood h
  | deviceReset => exact linksGood_of_reset rfl
  | pinLow => exact linksGood_of_reset rfl
  | enableSet n => exact h
  | enables n => exact h
  | tapRead n samples => exact h
  | _ => exact h.of_links (by simp)

theorem startFrame_linksGood {s : State} (h : LinksGood s) : LinksGood (startFrame s) := by
  have started : LinksGood (startLinks (advanceFrame s)) := by
    unfold startLinks
    exact eachLink_keeps (P := LinksGood) (fun t n ht => ht.onLink (linkFrameStart_keeps (ht n)).good) h
  exact started.of_links (by simp [startFrame])

/-- Settles O9: every event of a Link Unit keeps it good, and the other blocks do not reach it. -/
theorem stepsKeepLinks : Obligations.StepsKeepLinks := fun _ _ =>
  step_keeps_of_effected (P := LinksGood) (fun _ _ h => h) (linksGood_of_reset rfl)
    (linksGood_of_reset rfl) (fun _ _ => Effected.linksGood) (fun _ => startFrame_linksGood)

/-! ### One cut-over -/

/-- A due group fails and only answers, or its working copy becomes the active state (R38, R39). -/
theorem cutGroup_cases (s : State) (g : Group) :
    (∃ cs, cs.length = g.members.length ∧ cutGroup s g = handAll cs s) ∨
      ∃ w, runMembers g.members s.work = .ok w ∧ cutGroup s g =
        settleClosing ((s.commit w).withClosing (s.closing ++ [⟨w.closed, doneCompletions g⟩])) := by
  unfold cutGroup
  split
  · exact .inl ⟨_, by simp, rfl⟩
  next w passed => exact .inr ⟨w, passed, rfl⟩

/-- What the cut-over of each group of the list keeps, the cut-overs of a frame keep. -/
theorem cutOver_keeps {P : State → Prop} {s : State}
    (cut : ∀ t, ∀ g ∈ s.sched.list, P t → P (cutGroup t g))
    (start : P (s.withSched { s.sched with list := s.sched.list.filter fun g => !(g.due == s.frame) })) :
    P (cutOver s) := by
  have groups : ∀ (due : List Group), (∀ g ∈ due, g ∈ s.sched.list) → ∀ t, P t →
      P (due.foldl cutGroup t) := by
    intro due
    induction due with
    | nil => exact fun _ _ h => h
    | cons g rest ih =>
      exact fun listed t h => ih (fun x hx => listed x (List.mem_cons_of_mem _ hx)) _
        (cut t g (listed g List.mem_cons_self) h)
  exact groups _ (fun g hg => List.mem_of_mem_filter hg) _ start

/-! ### The pool -/

theorem PoolGood.of_eq {c d : SwitchCore} (h : PoolGood c) (routes : d.routes = c.routes)
    (free : d.free = c.free) : PoolGood d := by
  unfold PoolGood
  rw [routes, free]
  exact h

theorem Handed.poolGood {id : CmdId} {s t : State} (h : PoolGood s.core) (e : Handed id s t) :
    PoolGood t.core := by
  cases e <;> exact h.of_eq (by simp) (by simp)

theorem resetPool_good : PoolGood SwitchCore.reset := by
  unfold PoolGood
  decide

@[simp] theorem writeBase_core (ring : Ring) (value : Word) (s : State) :
    (writeBase ring value s).core = s.core := by
  unfold writeBase
  split
  · cases ring <;> simp [reconfigureEvents]
  · rfl

theorem Effected.poolGood {s t : State} (h : PoolGood s.core) (e : Effected s t) : PoolGood t.core := by
  cases e with
  | fetched id slot u _ handed =>
    have ended : PoolGood (s.withEngine (s.engine.fetchEnded id.ring)).core := h
    exact (handed.poolGood ended).of_eq (by simp) (by simp)
  | enableClear n => exact h.of_eq (by rw [stopIfDue_routes]; rfl) (by rw [stopIfDue_free]; rfl)
  | engineReset => exact h
  | deviceReset => exact resetPool_good
  | pinLow => exact resetPool_good
  | enableSet n => exact h
  | enables n => exact h
  | tapRead n samples => exact h
  | _ => exact h.of_eq (by simp) (by simp)

theorem cutGroup_poolGood {s : State} (h : PoolGood s.core) (g : Group) : PoolGood (cutGroup s g).core := by
  obtain ⟨cs, _, failed⟩ | ⟨w, passed, cut⟩ := cutGroup_cases s g
  · rw [failed, handAll_eq]
    exact h
  · rw [cut, settleClosing_core]
    have active : s.work.poolGood := h
    exact runMembers_keeps active (fun _ _ _ _ hw => applyEdit_pool hw) passed

theorem startFrame_poolGood {s : State} (h : PoolGood s.core) : PoolGood (startFrame s).core := by
  have edits : PoolGood (startSchedule (startLinks (advanceFrame s))).core := by
    have links : PoolGood (startLinks (advanceFrame s)).core := h.of_eq (by simp) (by simp)
    unfold startSchedule
    split
    · exact links
    · exact cutOver_keeps (P := fun t => PoolGood t.core) (fun t g _ ht => cutGroup_poolGood ht g) links
  exact edits.of_eq (by simp [startFrame]) (by simp [startFrame])

/-- Settles O13: only a cut-over reaches routes and pool, and each edit keeps their balance. -/
theorem stepsKeepPoolCount : Obligations.StepsKeepPoolCount := fun _ _ =>
  step_keeps_of_effected (P := fun s => PoolGood s.core) (fun _ _ h => h) resetPool_good resetPool_good
    (fun _ _ => Effected.poolGood) (fun _ => startFrame_poolGood)

/-! ### The order of the schedule list -/

/-- Unless the engine is HALTED the list is in order (R36). -/
def ScheduleOrdered (s : State) : Prop := s.engine.mode ≠ .halted → OrderGood s.frame s.sched.list

/-- A list is in order where it was and the engine has not left HALTED. -/
theorem ScheduleOrdered.of_eq {s t : State} (h : ScheduleOrdered s)
    (mode : s.engine.mode = .halted → t.engine.mode = .halted) (frame : t.frame = s.frame)
    (list : t.sched.list = s.sched.list) : ScheduleOrdered t := by
  intro live
  rw [frame, list]
  exact h fun halted => live (mode halted)

/-- The same for work that keeps the control side. -/
theorem ScheduleOrdered.of_control {s t : State} (h : ScheduleOrdered s)
    (control : ControlKept s.engine t.engine) (frame : t.frame = s.frame)
    (list : t.sched.list = s.sched.list) : ScheduleOrdered t :=
  h.of_eq (fun halted => control.mode.trans halted) frame list

theorem orderGood_nil (now : Word) : OrderGood now [] := ⟨by simp, .nil⟩

theorem Handed.ordered {id : CmdId} {s t : State} (h : ScheduleOrdered s) (e : Handed id s t) :
    ScheduleOrdered t := by
  have control := e.control
  intro live
  have order := h (control.mode ▸ live)
  cases e with
  | edit e => rw [joinEdit_frame]; exact joinEdit_order order
  | cancel label =>
    have removed : (cancelGroups id label (breakFor id.ring s)).sched.list =
        s.sched.list.filter fun g => !(g.label == label) := by
      unfold cancelGroups
      simp only [handAll_eq, withEngine_sched, withSched_sched, breakFor_list]
    rw [cancelGroups_frame, breakFor_frame, removed]
    exact order_filter _ order
  | refused status => simpa [refuse, hand_eq, breakFor_list] using order
  | read f => simpa [breakFor_list] using order
  | fence => simpa [breakFor_list] using order
  | link n g => simpa using order
  | credit f => simpa using order

theorem stopIfDue_ordered {s : State} (h : ScheduleOrdered s) : ScheduleOrdered (stopIfDue s) := by
  intro live
  rw [stopIfDue_frame]
  refine stopIfDue_order (h fun halted => live ?_)
  rw [stopIfDue_halted halted, halted]

theorem retryEdit_ordered {s : State} (h : ScheduleOrdered s) : ScheduleOrdered (retryEdit s) := by
  intro live
  rw [retryEdit_frame]
  exact retryEdit_order (h ((retryEdit_control s).mode ▸ live))

theorem setEnable_halted {e : RingEngine} (mode : e.mode = .halted) : e.setEnable.mode = .halted := by
  simp [RingEngine.setEnable, mode]

@[simp] theorem writeBase_frame (ring : Ring) (value : Word) (s : State) :
    (writeBase ring value s).frame = s.frame := by
  unfold writeBase
  split
  · cases ring <;> simp [reconfigureEvents]
  · rfl

@[simp] theorem writeBase_sched (ring : Ring) (value : Word) (s : State) :
    (writeBase ring value s).sched = s.sched := by
  unfold writeBase
  split
  · cases ring <;> simp [reconfigureEvents]
  · rfl

theorem writeBase_control (ring : Ring) (value : Word) (s : State) :
    ControlKept s.engine (writeBase ring value s).engine := by
  unfold writeBase
  split
  · cases ring <;> simp only [reconfigureEvents, withEvents_engine, returnEventWrite_engine] <;>
      exact ⟨rfl, rfl, rfl, rfl, rfl⟩
  · exact ⟨rfl, rfl, rfl, rfl, rfl⟩

theorem Effected.ordered {s t : State} (h : ScheduleOrdered s) (e : Effected s t) :
    ScheduleOrdered t := by
  cases e with
  | idle => exact h
  | link n f => exact h.of_control (onLink_control _ _ _) (by simp) (by simp)
  | fetchStart =>
    exact h.of_eq (fun halted => by rw [startFetch_halted halted, halted]) (by simp) (by simp)
  | fetched id slot u _ handed =>
    have ended : ScheduleOrdered (s.withEngine (s.engine.fetchEnded id.ring)) :=
      h.of_eq (fun halted => (fetchEnded_mode _ _).trans halted) rfl rfl
    exact stopIfDue_ordered (handed.ordered ended)
  | halted cause => exact h.of_eq (fun _ => halt_mode _ _) (by simp) (by simp)
  | editRetried => exact retryEdit_ordered h
  | readTaken => exact h.of_control (takeParkedRead_control s) (by simp) (by simp)
  | fenceReleased => exact h.of_control (releaseFence_control s) (by simp) (by simp)
  | routeWritten r => exact h.of_control (finishRead_control _ _) (by simp) (by simp)
  | tapWritten n => exact h.of_control (finishWrite_control _ _) (by simp) (by simp)
  | completionStart => exact h.of_control (startCompletion_control s) (by simp) (by simp)
  | enableSet n => exact h.of_eq (fun halted => setEnable_halted halted) rfl rfl
  | enableClear n =>
    refine stopIfDue_ordered (h.of_eq (fun halted => ?_) rfl rfl)
    exact (if_neg (by simp [storeEnables, halted])).trans halted
  | stopEnd => exact stopIfDue_ordered h
  | engineReset => exact fun _ => orderGood_nil _
  | deviceReset => exact fun _ => orderGood_nil _
  | pinLow => exact fun _ => orderGood_nil _
  | base ring value => exact h.of_control (writeBase_control _ _ _) (by simp) (by simp)
  | prod ring i n => cases ring <;> exact h
  | tapRead n samples => exact h
  | completionPosted => exact h
  | enables n => exact h
  | compCons i n => exact h
  | eventCons i n => exact h
  | _ => exact h.of_eq (fun halted => by simp [halted]) (by simp) (by simp)

theorem startTaps_halts {s : State} (halted : s.engine.mode = .halted) :
    (startTaps s).engine.mode = .halted := by
  rw [startTaps_halted halted, halted]

/-- A frame start takes the groups that are due out of the list and brings the others one frame nearer (R37). -/
theorem startFrame_ordered {s : State} (h : ScheduleOrdered s) : ScheduleOrdered (startFrame s) := by
  intro live
  have mode : (startLinks (advanceFrame s)).engine.mode ≠ .halted := by
    intro halted
    refine live (startTaps_halts ?_)
    rw [framePass_engine, startSchedule_halted halted, halted]
  have order := h (by rw [startLinks_mode] at mode; exact mode)
  have list : (startFrame s).sched.list = s.sched.list.filter fun g => !(g.due == s.frame + 1) := by
    simp [startFrame, startSchedule_running mode]
  have frame : (startFrame s).frame = s.frame + 1 := by simp [startFrame]
  rw [list, frame]
  exact order_advance order

/-- Settles O12: acceptance inserts in order, cancelling removes, and a frame start removes what is due. -/
theorem stepsKeepScheduleOrder : Obligations.StepsKeepScheduleOrder := fun _ _ =>
  step_keeps_of_effected (P := ScheduleOrdered) (fun _ _ h => h) (fun _ => orderGood_nil _)
    (fun _ => orderGood_nil _) (fun _ _ => Effected.ordered) (fun _ => startFrame_ordered)

end Sys2Proof.Machine
end

section
/-! SUPPORT. The invariants of the schedule's places (R29, R34, R35, R141), of the tap contexts and of the closed taps that
wait for a write (chapter 3), kept by every step. -/

namespace Sys2Proof.Machine

/-! ### Places, the parked command, and the sizes of routes -/

/-- The schedule's places, the parked command and the sizes of routes, as they are kept together. -/
structure ScheduleGood (s : State) : Prop where
  places : PlacesGood s.sched
  parked : ParkedGood s
  sized : RoutesSized s

/-- The routes of the active table have 1 to 4 entries. -/
def TableSized (s : State) : Prop := ∀ n c r, (s.core.routes.get n).get c = some r → r.sized

theorem RoutesSized.sched {s : State} (h : RoutesSized s) : s.sched.sized := ⟨h.list, h.assembly⟩

/-- With nothing parked, what is parked fits. -/
theorem parkedGood_of_none {s : State} (none : s.engine.parked = none) : ParkedGood s :=
  ⟨fun _ _ => none, by simp [none], by simp [none]⟩

/-- With nothing parked only the schedule and the table count. -/
theorem ScheduleGood.of_unparked {s : State} (none : s.engine.parked = none) (places : PlacesGood s.sched)
    (sched : s.sched.sized) (table : TableSized s) : ScheduleGood s :=
  ⟨places, parkedGood_of_none none, table, sched.list, sched.assembly, by simp [none]⟩

/-- What leaves the schedule, the parked command and the table alone, and starts no fetch, keeps them. -/
theorem ScheduleGood.of_eq {s t : State} (h : ScheduleGood s) (sched : t.sched = s.sched)
    (parked : t.engine.parked = s.engine.parked) (routes : t.core.routes = s.core.routes)
    (fetch : t.engine.fetch = s.engine.fetch ∨ t.engine.fetch = none) : ScheduleGood t := by
  obtain ⟨places, ⟨alone, edit, others⟩, ⟨table, list, assembly, waiting⟩⟩ := h
  refine ⟨sched ▸ places, ⟨fun slot reading => ?_, ?_, ?_⟩, ⟨?_, ?_, ?_, ?_⟩⟩
  · rw [parked]
    rcases fetch with same | none
    · exact alone slot (same ▸ reading)
    · rw [none] at reading; cases reading
  · rw [parked, sched]; exact edit
  · rw [parked, sched]; exact others
  · rw [routes]; exact table
  · rw [sched]; exact list
  · rw [sched]; exact assembly
  · rw [parked]; exact waiting

theorem TableSized.of_routes {s t : State} (h : TableSized s) (routes : t.core.routes = s.core.routes) :
    TableSized t := by
  unfold TableSized
  rw [routes]
  exact h

/-- A command of ring A that breaks the open group (R30), with nothing parked before. -/
theorem breakFor_scheduleGood {s : State} (h : ScheduleGood s) (none : s.engine.parked = none) :
    ScheduleGood (breakFor .a s) :=
  .of_unparked (by rw [breakFor_parked, none]) (by rw [breakFor_sched_eq]; exact cleared_places h.places)
    (by rw [breakFor_sched_eq]; exact cleared_sized h.sized.sched)
    (TableSized.of_routes h.sized.table (by simp))

/-- A command other than an edit is parked behind a broken group (R19, R44). -/
theorem park_scheduleGood {s : State} (h : ScheduleGood s) (p : Parked) (other : ∀ e, p ≠ .edit e)
    (fetch : s.engine.fetch = none)
    (clear : s.sched.overflow = false ∧ s.sched.assembly = none) :
    ScheduleGood (s.withEngine { s.engine with parked := some p }) where
  places := h.places
  parked := by
    refine ⟨fun slot reading => ?_, fun e parked => ?_, fun _ _ _ => clear⟩
    · rw [withEngine_engine, fetch] at reading; cases reading
    · exact absurd (Option.some.inj parked) (other e)
  sized :=
    ⟨h.sized.table, h.sized.list, h.sized.assembly,
      fun e parked => absurd (Option.some.inj parked) (other e)⟩

section
variable {id : CmdId} {s : State} (h : ScheduleGood s) (fetch : s.engine.fetch = none)
  (alone : id.ring = .a → s.engine.parked = none)
include h fetch alone

omit fetch in
theorem refuse_scheduleGood (status : Status) : ScheduleGood (refuse status id s) := by
  have broken : ScheduleGood (breakFor id.ring s) := by
    cases ring : id.ring with
    | a => exact breakFor_scheduleGood h (alone ring)
    | b => exact h
  rw [refuse, hand_eq]
  exact broken.of_eq rfl rfl rfl (.inl rfl)

omit fetch alone in
/-- An edit opens or joins a group, closes it, fails with it, or is parked (R28, R29, R35). -/
theorem joinEdit_scheduleGood (e : Edit) (sized : ∀ op, e.op = some op → op.sized)
    (fetch : s.engine.fetch = none) (none : s.engine.parked = none) : ScheduleGood (joinEdit e s) := by
  have places : PlacesGood (joinEdit e s).sched := joinEdit_places h.places
  have sched : (joinEdit e s).sched.sized := joinEdit_sized h.sized.sched sized
  have table : TableSized (joinEdit e s) := TableSized.of_routes h.sized.table (by simp)
  obtain same | ⟨parked, kept, tail, short⟩ := joinEdit_parked e s
  · exact .of_unparked (same.trans none) places sched table
  · refine ⟨places, ⟨fun slot reading => ?_, fun e' h' => ?_, fun p h' other => ?_⟩,
      table, sched.list, sched.assembly, fun e' h' => ?_⟩
    · rw [(joinEdit_control e s).fetch, fetch] at reading; cases reading
    · rw [kept]; exact ⟨tail, short⟩
    · exact absurd (Option.some.inj (h'.symm.trans parked)) (other e)
    · obtain rfl : e' = e := by simpa using h'.symm.trans parked
      exact sized

theorem cancelGroups_scheduleGood (label : Half) :
    ScheduleGood (cancelGroups id label (breakFor id.ring s)) := by
  have kept (t : State) (ht : ScheduleGood t) (tail : t.engine.parked = none ∨ t.engine.fetch = none) :
      ScheduleGood (cancelGroups id label t) := by
    obtain ⟨places, ⟨_, edit, others⟩, ⟨table, list, assembly, waiting⟩⟩ := ht
    have sched : (cancelGroups id label t).sched =
        { t.sched with list := t.sched.list.filter fun g => !(g.label == label) } := by
      unfold cancelGroups
      simp only [handAll_eq, withEngine_sched, withSched_sched]
    refine ⟨sched ▸ filter_places _ places, ⟨fun slot reading => ?_, ?_, ?_⟩, ⟨?_, ?_, ?_, ?_⟩⟩
    · rw [(cancelGroups_control id label t).fetch] at reading
      rw [cancelGroups_parked]
      rcases tail with none | none
      · exact none
      · rw [none] at reading; cases reading
    · rw [sched, cancelGroups_parked]; exact edit
    · rw [sched, cancelGroups_parked]; exact others
    · rw [cancelGroups_core]; exact table
    · rw [sched]; exact fun g hg => list g (List.mem_of_mem_filter hg)
    · rw [sched]; exact assembly
    · rw [cancelGroups_parked]; exact waiting
  cases ring : id.ring with
  | a => exact kept _ (breakFor_scheduleGood h (alone ring)) (.inl (by simp [alone ring]))
  | b => exact kept s h (.inr fetch)

/-- A command handed to its block keeps the schedule (R28 to R30, R141). -/
theorem Handed.scheduleGood {t : State} (e : Handed id s t) : ScheduleGood t := by
  have broken (own : id.ring = .a) := breakFor_scheduleGood h (alone own)
  have reading : (breakFor .a s).engine.fetch = none := (breakFor_control .a s).fetch.trans fetch
  have cleared : (breakFor .a s).sched.overflow = false ∧ (breakFor .a s).sched.assembly = none := by
    rw [breakFor_sched_eq]; exact ⟨rfl, rfl⟩
  cases e with
  | refused status => exact refuse_scheduleGood h alone status
  | edit e own sized => exact joinEdit_scheduleGood h e sized fetch (alone own)
  | cancel label => exact cancelGroups_scheduleGood h fetch alone label
  | read f own =>
    unfold takeRead
    split
    · exact (broken own).of_eq (by simp) (by simp) (by simp) (.inl (readTaken_control _ _ _).fetch)
    · exact park_scheduleGood (broken own) _ (by simp) reading cleared
  | fence own =>
    have counted : ScheduleGood (uncount .a (breakFor .a s)) :=
      (broken own).of_eq rfl rfl rfl (.inl rfl)
    unfold takeFence
    simp only
    split
    · rw [post_eq]; exact counted.of_eq rfl rfl rfl (.inl rfl)
    · exact park_scheduleGood counted _ (by simp) reading cleared
  | link n g => exact h.of_eq (by simp) (by simp) (by simp) (.inl (onLink_control _ _ _).fetch)
  | credit f => exact h.of_eq (by simp) (by simp) (by simp) (.inl (takeCreditTap_control _ _ _).fetch)

end

theorem retryEdit_scheduleGood {s : State} (h : ScheduleGood s) : ScheduleGood (retryEdit s) := by
  unfold retryEdit
  split
  next e parked =>
    split
    next room =>
      rw [Bool.and_eq_true] at room
      obtain ⟨tail, short⟩ := h.parked.edit e parked
      have sched : (takeEdit e (unpark s)).sched.sized :=
        takeEdit_sized (s := unpark s) h.sized.sched (h.sized.parked e parked)
      exact .of_unparked (by rw [takeEdit_parked]; rfl)
        (takeEdit_places (s := unpark s) h.places room.2 short tail) sched
        (TableSized.of_routes h.sized.table (by rw [takeEdit_core]; rfl))
    next => exact h
  next => exact h

theorem unpark_scheduleGood {s : State} (h : ScheduleGood s) : ScheduleGood (unpark s) :=
  .of_unparked rfl h.places h.sized.sched h.sized.table

theorem takeParkedRead_scheduleGood {s : State} (h : ScheduleGood s) : ScheduleGood (takeParkedRead s) := by
  unfold takeParkedRead
  split
  · split
    · exact (unpark_scheduleGood h).of_eq (by simp) (by simp) (by simp) (.inl (readTaken_control _ _ _).fetch)
    · exact h
  · exact h

theorem releaseFence_scheduleGood {s : State} (h : ScheduleGood s) : ScheduleGood (releaseFence s) := by
  unfold releaseFence
  split
  · split
    · rw [post_eq]; exact (unpark_scheduleGood h).of_eq rfl rfl rfl (.inl rfl)
    · exact h
  · exact h

/-- The end of a stop leaves no group open and nothing parked (R163). -/
theorem stopIfDue_scheduleGood {s : State} (h : ScheduleGood s) : ScheduleGood (stopIfDue s) := by
  unfold stopIfDue
  split
  · have released := releaseParked_keeps (P := ScheduleGood) (fun _ => retryEdit_scheduleGood)
      (fun _ => takeParkedRead_scheduleGood) (fun _ => releaseFence_scheduleGood) h
    have sched : (endStop s).sched =
        { (releaseParked s).sched with assembly := none, overflow := false } := by
      show (abortParked (abortAssembly (releaseParked s))).sched = _
      rw [abortParked_sched, abortAssembly_sched_eq]
    have parked : (endStop s).engine.parked = none := by
      have ended (e : RingEngine) : e.stopEnded.parked = e.parked := by
        unfold RingEngine.stopEnded RingEngine.start
        simp only
        split_ifs <;> rfl
      exact (ended _).trans (abortParked_parked _)
    refine .of_unparked parked (sched ▸ cleared_places released.places)
      (sched ▸ cleared_sized released.sized.sched) (TableSized.of_routes released.sized.table ?_)
    show (abortParked (abortAssembly (releaseParked s))).core.routes = _
    rw [abortParked_core, abortAssembly_core]
  · exact h

theorem startFetch_scheduleGood {s : State} (h : ScheduleGood s) : ScheduleGood (startFetch s) := by
  obtain ⟨places, ⟨_, edit, others⟩, ⟨table, list, assembly, waiting⟩⟩ := id h
  unfold startFetch
  split
  · split
    · exact h
    next ring chosen =>
      refine ⟨places, ⟨fun slot reading => ?_, edit, others⟩, ⟨table, list, assembly, waiting⟩⟩
      obtain ⟨rfl, -⟩ : ring = .a ∧ _ := by
        simpa [RingEngine.fetchStarted] using Option.some.inj reading
      have eligible : s.engine.eligibleA = true := by
        unfold RingEngine.arbiter at chosen
        cases a : s.engine.eligibleA <;> cases b : s.engine.eligibleB <;> simp_all
      simp only [RingEngine.eligibleA, Bool.and_eq_true, Option.isNone_iff_eq_none] at eligible
      exact eligible.2
  · exact h

theorem fetchEnded_fetch (e : RingEngine) (ring : CmdRing) : (e.fetchEnded ring).fetch = none := by
  cases ring <;> rfl

theorem fetchEnded_parked (e : RingEngine) (ring : CmdRing) : (e.fetchEnded ring).parked = e.parked := by
  cases ring <;> rfl

theorem scheduleGood_of_reset {s : State} (sched : s.sched = Scheduler.reset)
    (parked : s.engine.parked = none) (table : TableSized s) : ScheduleGood s := by
  refine .of_unparked parked ?_ ?_ table
  · rw [sched]; exact ⟨by decide, by decide, by simp [Scheduler.reset], by simp [Scheduler.reset], fun _ => rfl⟩
  · rw [sched]; exact ⟨by simp [Scheduler.reset], by simp [Scheduler.reset]⟩

theorem tableSized_of_reset {s : State} (core : s.core = SwitchCore.reset) : TableSized s := by
  intro n c r
  rw [core]
  simp [SwitchCore.reset]

theorem setEnable_parked (e : RingEngine) : e.setEnable.parked = e.parked ∧ e.setEnable.fetch = e.fetch := by
  unfold RingEngine.setEnable RingEngine.start
  split
  · split <;> exact ⟨rfl, rfl⟩
  all_goals exact ⟨rfl, rfl⟩

theorem halt_fetch {cause : HaltCause} {s : State} :
    (halt cause s).engine.fetch = s.engine.fetch ∨ (halt cause s).engine.fetch = none := by
  by_cases halted : s.engine.mode = .halted
  · exact .inl (by rw [halt_halted halted])
  · exact .inr (by rw [halt_eq halted]; rfl)

theorem writeBase_parked (ring : Ring) (value : Word) (s : State) :
    (writeBase ring value s).engine.parked = s.engine.parked := by
  unfold writeBase
  split
  · cases ring <;> simp only [reconfigureEvents, withEvents_engine, returnEventWrite_engine] <;> rfl
  · rfl

theorem Effected.scheduleGood {s t : State} (h : ScheduleGood s) (e : Effected s t) : ScheduleGood t := by
  cases e with
  | idle => exact h
  | link n f => exact h.of_eq (by simp) (by simp) (by simp) (.inl (onLink_control _ _ _).fetch)
  | fetchStart => exact startFetch_scheduleGood h
  | fetched id slot u inFlight handed =>
    have ended : ScheduleGood (s.withEngine (s.engine.fetchEnded id.ring)) :=
      h.of_eq rfl (fetchEnded_parked _ _) rfl (.inr (fetchEnded_fetch _ _))
    refine stopIfDue_scheduleGood (handed.scheduleGood ended (fetchEnded_fetch _ _) fun ring => ?_)
    exact (fetchEnded_parked _ _).trans (h.parked.alone slot (ring ▸ inFlight))
  | halted cause => exact h.of_eq (by simp) (by simp) (by simp) halt_fetch
  | editRetried => exact retryEdit_scheduleGood h
  | readTaken => exact takeParkedRead_scheduleGood h
  | fenceReleased => exact releaseFence_scheduleGood h
  | routeWritten r => exact h.of_eq (by simp) (by simp) (by simp) (.inl (finishRead_control _ _).fetch)
  | tapWritten n => exact h.of_eq (by simp) (by simp) (by simp) (.inl (finishWrite_control _ _).fetch)
  | completionStart =>
    exact h.of_eq (by simp) (by simp) (by simp) (.inl (startCompletion_control s).fetch)
  | enableSet n => exact h.of_eq rfl (setEnable_parked _).1 rfl (.inl (setEnable_parked _).2)
  | enableClear n => exact stopIfDue_scheduleGood (h.of_eq rfl rfl rfl (.inl rfl))
  | stopEnd => exact stopIfDue_scheduleGood h
  | engineReset => exact scheduleGood_of_reset rfl rfl h.sized.table
  | deviceReset => exact scheduleGood_of_reset rfl rfl (tableSized_of_reset rfl)
  | pinLow => exact scheduleGood_of_reset rfl rfl (tableSized_of_reset rfl)
  | base ring value =>
    exact h.of_eq (by simp) (writeBase_parked _ _ _) (by simp) (.inl (writeBase_control _ _ _).fetch)
  | prod ring i n => cases ring <;> exact h.of_eq rfl rfl rfl (.inl rfl)
  | tapRead n samples => exact h.of_eq rfl rfl rfl (.inl rfl)
  | completionPosted => exact h.of_eq rfl rfl rfl (.inl rfl)
  | enables n => exact h.of_eq rfl rfl rfl (.inl rfl)
  | compCons i n => exact h.of_eq rfl rfl rfl (.inl rfl)
  | eventCons i n => exact h.of_eq rfl rfl rfl (.inl rfl)
  | _ => exact h.of_eq (by simp) (by simp) (by simp) (.inl (by simp))

/-- A cut-over sets routes of 1 to 4 entries, as its group's edits carry them (R24). -/
theorem cutGroup_tableSized {s : State} (h : TableSized s) {g : Group} (sized : ∀ m ∈ g.members, m.2.sized) :
    TableSized (cutGroup s g) := by
  obtain ⟨cs, _, failed⟩ | ⟨w, passed, cut⟩ := cutGroup_cases s g
  · rw [failed, handAll_eq]
    exact h
  · have active : s.work.sized := h
    have work : w.sized :=
      runMembers_keeps active (fun m hm _ _ hw he => applyEdit_sized hw (sized m hm) he) passed
    rw [cut]
    exact TableSized.of_routes (s := s.commit w) work (by rw [settleClosing_core]; rfl)

theorem startSchedule_scheduleGood {s : State} (h : ScheduleGood s) : ScheduleGood (startSchedule s) := by
  unfold startSchedule
  split
  · exact h
  · have table : TableSized (cutOver s) :=
      cutOver_keeps (P := TableSized) (fun t g hg ht => cutGroup_tableSized ht (h.sized.list g hg))
        h.sized.table
    obtain ⟨places, ⟨alone, edit, others⟩, ⟨_, list, assembly, waiting⟩⟩ := h
    have control := cutOver_control s
    constructor
    case places => rw [cutOver_sched]; exact filter_places _ places
    case parked =>
      constructor <;> simp only [control.fetch, cutOver_parked, cutOver_sched] <;> assumption
    case sized =>
      refine ⟨table, ?_, ?_, ?_⟩ <;> simp only [cutOver_parked, cutOver_sched]
      · exact fun g hg => list g (List.mem_of_mem_filter hg)
      · exact assembly
      · exact waiting

theorem startTaps_fetch (s : State) :
    (startTaps s).engine.fetch = s.engine.fetch ∨ (startTaps s).engine.fetch = none := by
  unfold startTaps
  split
  · exact .inl rfl
  · obtain ⟨t, rfl, same | halted⟩ := runTaps_cases s
    · rw [same]; exact .inl (by simp)
    · rw [halted]
      refine halt_fetch.imp (fun same => ?_) id
      rw [same]; simp

theorem startFrame_scheduleGood {s : State} (h : ScheduleGood s) : ScheduleGood (startFrame s) := by
  have links : ScheduleGood (startLinks (advanceFrame s)) :=
    h.of_eq (by simp) (by unfold startLinks; simp) (by simp)
      (.inl (by unfold startLinks; exact (eachLink_control _ _).fetch))
  have edits := startSchedule_scheduleGood links
  unfold startFrame
  exact edits.of_eq (by simp) (by simp) (by simp) (startTaps_fetch _)

/-- Settles O11: a fetched edit finds room, fails or is parked; a cut-over only takes groups out of the list. -/
theorem stepsKeepSchedulePlaces : Obligations.StepsKeepSchedulePlaces := by
  intro s t places parked sized next
  have kept : ScheduleGood t :=
    step_keeps_of_effected (P := ScheduleGood) (fun _ _ h => h.of_eq rfl rfl rfl (.inl rfl))
      (scheduleGood_of_reset rfl rfl (tableSized_of_reset rfl))
      (scheduleGood_of_reset rfl rfl (tableSized_of_reset rfl))
      (fun _ _ => Effected.scheduleGood) (fun _ => startFrame_scheduleGood) ⟨places, parked, sized⟩ next
  exact ⟨kept.places, kept.parked, kept.sized⟩

/-! ### Tap contexts -/

/-- Tap contexts are good, and every playout tap that a route names is open. -/
structure TapsGood (s : State) : Prop where
  taps : ∀ n, TapGood (s.taps.get n)
  routed : RoutedTapsOpen s

/-- Good tap contexts of the same use keep the routed taps open. -/
theorem TapsGood.of_use {s t : State} (h : TapsGood s) (good : ∀ n, TapGood (t.taps.get n))
    (use : ∀ n, (t.taps.get n).use = (s.taps.get n).use) (routes : t.core.routes = s.core.routes) :
    TapsGood t := by
  refine ⟨good, fun n c r place e entry k source => ?_⟩
  rw [routes] at place
  rw [Tap.plays, use k]
  exact h.routed n c r place e entry k source

theorem TapsGood.of_eq {s t : State} (h : TapsGood s) (taps : t.taps = s.taps)
    (routes : t.core.routes = s.core.routes) : TapsGood t :=
  h.of_use (fun n => taps ▸ h.taps n) (fun n => by rw [taps]) routes

/-- One tap context replaced by a good one of the same use. -/
theorem TapsGood.of_set {s t : State} (h : TapsGood s) {n : TapId} {tap : Tap}
    (taps : t.taps = s.taps.set n tap) (good : TapGood tap) (use : tap.use = (s.taps.get n).use)
    (routes : t.core.routes = s.core.routes) : TapsGood t := by
  refine h.of_use (fun m => ?_) (fun m => ?_) routes <;> rw [taps, Table.get_set] <;> split
  · exact good
  · exact h.taps m
  next same => rw [use, same]
  next => rfl

/-- A write in flight or ended is no part of what makes a tap context good (R49). -/
theorem TapGood.withWriting {t : Tap} (h : TapGood t) (writing : Bool) :
    TapGood { t with writing := writing } :=
  ⟨h.closed, h.empty, h.buffers, h.each, h.unspent, h.gap, h.collecting, h.runs, h.reading⟩

theorem startWrite_tapsGood {s : State} (h : TapsGood s) (n : TapId) : TapsGood (startWrite n s) := by
  unfold startWrite
  split
  · exact h.of_set rfl ((h.taps n).withWriting true) rfl rfl
  · exact h

theorem startTapRead_tapsGood {s : State} (h : TapsGood s) (n : TapId) : TapsGood (startTapRead n s) := by
  unfold startTapRead
  split
  · exact h.of_set rfl (startRead_good (h.taps n)) (startRead_same _).1 rfl
  · exact h

/-- A run written belongs to a closed tap or to the open one (R53). -/
theorem finishWrite_tapsGood {s : State} (h : TapsGood s) (n : TapId) : TapsGood (finishWrite n s) := by
  unfold finishWrite
  simp only
  split
  · refine h.of_set (tap := { s.taps.get n with writing := false }) ?_ ((h.taps n).withWriting false) rfl ?_
    · rw [settleClosing_taps, handAll_eq]; rfl
    · rw [settleClosing_core, handAll_eq]; rfl
  · rw [handAll_eq]
    exact h.of_set rfl (written_good (h.taps n)) rfl rfl

theorem takeCreditTap_taps (id : CmdId) (f : CreditFields) (s : State) :
    (takeCreditTap id f s).taps = s.taps.set f.tap (takeCredit id f (s.taps.get f.tap)).1 := by
  unfold takeCreditTap
  simp only [emit_taps]
  rfl

theorem Handed.tapsGood {id : CmdId} {s t : State} (h : TapsGood s) (e : Handed id s t) : TapsGood t := by
  cases e with
  | credit f =>
    have kept := takeCredit_keeps (id := id) (f := f) (h.taps f.tap)
    exact h.of_set (takeCreditTap_taps id f s) kept.good kept.use (by simp)
  | _ => exact h.of_eq (by simp) (by simp)

theorem halt_tapsGood {s : State} (h : TapsGood s) (cause : HaltCause) : TapsGood (halt cause s) := by
  by_cases halted : s.engine.mode = .halted
  · rw [halt_halted halted]; exact h
  · rw [halt_eq halted]
    refine h.of_use (fun n => ?_) (fun n => ?_) rfl <;> simp only [Table.get_map]
    · exact abandon_good (h.taps n)
    · rfl

theorem resetEngine_tapsGood {s : State} (h : TapsGood s) : TapsGood (resetEngine s) := by
  refine h.of_use (fun n => ?_) (fun n => ?_) rfl <;> simp only [resetEngine, Table.get_map]
  · exact (tapEngineReset_good (h.taps n)).1
  · exact (tapEngineReset_good (h.taps n)).2.1

theorem tapsGood_of_reset {s : State} (taps : s.taps = Table.fill 16 Tap.reset)
    (core : s.core = SwitchCore.reset) : TapsGood s := by
  refine ⟨fun n => ?_, fun n c r place => ?_⟩
  · rw [taps, Table.get_fill]; exact tapReset_good
  · rw [core] at place; simp [SwitchCore.reset] at place

@[simp] theorem writeBase_taps (ring : Ring) (value : Word) (s : State) :
    (writeBase ring value s).taps = s.taps := by
  unfold writeBase
  split
  · cases ring <;> simp [reconfigureEvents]
  · rfl

theorem Effected.tapsGood {s t : State} (h : TapsGood s) (e : Effected s t) : TapsGood t := by
  cases e with
  | fetched id slot u _ handed =>
    have ended : TapsGood (s.withEngine (s.engine.fetchEnded id.ring)) := h.of_eq rfl rfl
    exact (handed.tapsGood ended).of_eq (by simp) (by simp)
  | halted cause => exact halt_tapsGood h cause
  | writeStart n => exact startWrite_tapsGood h n
  | tapWritten n => exact finishWrite_tapsGood h n
  | readStart n => exact startTapRead_tapsGood h n
  | tapRead n samples reading =>
    exact h.of_set rfl (storeRun_good (h.taps n) reading) (storeRun_same _ _).1 rfl
  | enableClear n => exact h.of_eq (stopIfDue_taps _) (by rw [stopIfDue_routes]; rfl)
  | engineReset => exact resetEngine_tapsGood h
  | deviceReset => exact tapsGood_of_reset rfl rfl
  | pinLow => exact tapsGood_of_reset rfl rfl
  | enableSet n => exact h.of_eq rfl rfl
  | enables n => exact h.of_eq rfl rfl
  | _ => exact h.of_eq (by simp) (by simp)

/-- A cut-over opens and closes taps as its routes allow (R38). -/
theorem cutGroup_tapsGood {s : State} (h : TapsGood s) (g : Group) : TapsGood (cutGroup s g) := by
  obtain ⟨cs, _, failed⟩ | ⟨w, passed, cut⟩ := cutGroup_cases s g
  · rw [failed, handAll_eq]
    exact h.of_eq rfl rfl
  · have active : s.work.tapsGood := ⟨h.taps, h.routed⟩
    have work : w.tapsGood := runMembers_keeps active (fun _ _ _ _ hw he => applyEdit_taps hw he) passed
    have committed : TapsGood (s.commit w) := ⟨work.taps, work.routed⟩
    rw [cut]
    exact committed.of_eq (by rw [settleClosing_taps]; rfl) (by rw [settleClosing_core]; rfl)

theorem runTaps_tapsGood {s : State} (h : TapsGood s) : TapsGood (runTaps s) := by
  have frames : TapsGood (emit ((tapSteps s).flatMap fun p => p.1.2)
      (s.withTaps (Table.ofFn fun n =>
        (tapFrame n (givenSample s (s.taps.get n)) (s.taps.get n)).1.1))) := by
    refine h.of_use (fun n => ?_) (fun n => ?_) (by simp) <;>
      rw [emit_taps, withTaps_taps, Table.get_ofFn]
    · exact (tapFrame_keeps (h.taps n)).good
    · exact (tapFrame_keeps (h.taps n)).use
  obtain ⟨t, rfl, same | halted⟩ := runTaps_cases s
  · rw [same]; exact frames
  · rw [halted]; exact halt_tapsGood frames _

theorem startFrame_tapsGood {s : State} (h : TapsGood s) : TapsGood (startFrame s) := by
  have links : TapsGood (startLinks (advanceFrame s)) := h.of_eq (by simp) (by simp)
  have edits : TapsGood (startSchedule (startLinks (advanceFrame s))) := by
    unfold startSchedule
    split
    · exact links
    · exact cutOver_keeps (fun t g _ ht => cutGroup_tapsGood ht g) (links.of_eq rfl rfl)
  have pass : TapsGood (framePass (startSchedule (startLinks (advanceFrame s)))) :=
    edits.of_eq (framePass_taps _) (framePass_routes _)
  unfold startFrame startTaps
  split
  · exact pass
  · exact runTaps_tapsGood pass

/-! ### Closed taps that wait -/

/-- Each closed tap of a list waits for a write of its own, or for one of an earlier tap of its number: one of the list,
or one of the numbers `busy` before it (R52, log entry 20). -/
def WaitFrom (busy : List TapId) : List ClosedTap → Prop
  | [] => True
  | c :: rest => (c.runs ≠ [] ∨ c.tap ∈ busy) ∧ WaitFrom (c.tap :: busy) rest

/-- The first of the earlier closes of a number that waits has a run of its own. -/
theorem WaitFrom.waits {busy : List TapId} {taps : List ClosedTap} (h : WaitFrom busy taps)
    {before : List ClosedTap} {c : ClosedTap} {after : List ClosedTap} (place : taps = before ++ c :: after) :
    c.runs ≠ [] ∨ c.tap ∈ busy ∨ ∃ d ∈ before, d.tap = c.tap ∧ d.runs ≠ [] := by
  induction before generalizing busy taps with
  | nil =>
    subst place
    exact h.1.imp id .inl
  | cons x before ih =>
    subst place
    obtain own | earlier | ⟨d, listed, same, runs⟩ := ih h.2 rfl
    · exact .inl own
    · obtain same | earlier := List.mem_cons.1 earlier
      · exact .inr (h.1.symm.imp (same ▸ ·) fun runs => ⟨x, List.mem_cons_self, same.symm, runs⟩)
      · exact .inr (.inl earlier)
    · exact .inr (.inr ⟨d, List.mem_cons_of_mem _ listed, same, runs⟩)

/-- A pass over closed taps leaves those that wait (R52). -/
theorem settleClosedTaps_waits (busy : List TapId) (taps later : List ClosedTap)
    (h : WaitFrom (settleClosedTaps busy taps).2.2 later) :
    WaitFrom busy ((settleClosedTaps busy taps).1 ++ later) := by
  induction taps generalizing busy with
  | nil => exact h
  | cons c rest ih =>
    unfold settleClosedTaps at h ⊢
    split at h
    next ended => rw [if_pos ended]; exact ih busy h
    next waits =>
      rw [if_neg waits]
      refine ⟨?_, ih _ h⟩
      by_cases runs : c.runs = []
      · exact .inr (by simpa [runs] using waits)
      · exact .inl runs

theorem settleGroups_waits (busy : List TapId) (groups : List ClosingGroup) :
    (∀ g ∈ (settleGroups busy groups).1, g.taps ≠ []) ∧
      WaitFrom busy ((settleGroups busy groups).1.flatMap fun g => g.taps) := by
  induction groups generalizing busy with
  | nil => exact ⟨by simp [settleGroups], trivial⟩
  | cons g rest ih =>
    obtain ⟨filled, waits⟩ := ih (settleClosedTaps busy g.taps).2.2
    have settled := settleClosedTaps_waits busy g.taps _ waits
    unfold settleGroups
    simp only
    split
    next none =>
      rw [List.isEmpty_iff.1 none] at settled
      exact ⟨filled, settled⟩
    next some =>
      refine ⟨fun x listed => ?_, by simpa using settled⟩
      obtain rfl | listed := List.mem_cons.1 listed
      · simpa using some
      · exact filled x listed

/-- Once what has ended is settled, every closed tap of the list waits. -/
theorem settleClosing_waits (s : State) : ClosingWaits (settleClosing s).closing := by
  have closing : (settleClosing s).closing = (settleGroups [] s.closing).1 := by
    rw [settleClosing, handAll_eq]
    rfl
  obtain ⟨filled, waits⟩ := settleGroups_waits [] s.closing
  rw [closing]
  refine ⟨filled, fun before c after place => ?_⟩
  obtain own | none | earlier := waits.waits place
  · exact .inl own
  · cases none
  · exact .inr earlier

theorem finishWrite_waits {s : State} (h : ClosingWaits s.closing) (n : TapId) :
    ClosingWaits (finishWrite n s).closing := by
  unfold finishWrite
  simp only
  split
  · exact settleClosing_waits _
  · rw [handAll_eq]
    exact h

theorem cutGroup_waits {s : State} (h : ClosingWaits s.closing) (g : Group) :
    ClosingWaits (cutGroup s g).closing := by
  obtain ⟨cs, _, failed⟩ | ⟨w, _, cut⟩ := cutGroup_cases s g
  · rw [failed, handAll_eq]
    exact h
  · rw [cut]
    exact settleClosing_waits _

theorem closingWaits_nil : ClosingWaits [] := ⟨by simp, fun before c after place => by simp at place⟩

theorem Handed.closing {id : CmdId} {s t : State} (e : Handed id s t) : t.closing = s.closing := by
  cases e <;> simp

@[simp] theorem writeBase_closing (ring : Ring) (value : Word) (s : State) :
    (writeBase ring value s).closing = s.closing := by
  unfold writeBase
  split
  · cases ring <;> simp [reconfigureEvents]
  · rfl

theorem Effected.closingWaits {s t : State} (h : ClosingWaits s.closing) (e : Effected s t) :
    ClosingWaits t.closing := by
  cases e with
  | fetched id slot u _ handed => rw [stopIfDue_closing, handed.closing]; exact h
  | tapWritten n => exact finishWrite_waits h n
  | enableClear n => rw [stopIfDue_closing]; exact h
  | engineReset => exact closingWaits_nil
  | deviceReset => exact closingWaits_nil
  | pinLow => exact closingWaits_nil
  | enableSet n => exact h
  | enables n => exact h
  | tapRead n samples => exact h
  | _ => simpa using h

theorem startFrame_closingWaits {s : State} (h : ClosingWaits s.closing) :
    ClosingWaits (startFrame s).closing := by
  have edits : ClosingWaits (startSchedule (startLinks (advanceFrame s))).closing := by
    have links : ClosingWaits (startLinks (advanceFrame s)).closing := by simpa using h
    unfold startSchedule
    split
    · exact links
    · exact cutOver_keeps (P := fun t => ClosingWaits t.closing) (fun t g _ ht => cutGroup_waits ht g) links
  unfold startFrame
  simpa using edits

/-- Settles O10: the taps' own steps keep each context and its use, a cut-over checks what it opens and closes, and
every pass over the closed taps leaves those that wait. -/
theorem stepsKeepTaps : Obligations.StepsKeepTaps := by
  refine ⟨fun s t taps routed next => ?taps, fun s t waits next => ?closing⟩
  case taps =>
    have kept : TapsGood t :=
      step_keeps_of_effected (P := TapsGood) (fun _ _ h => h.of_eq rfl rfl) (tapsGood_of_reset rfl rfl)
        (tapsGood_of_reset rfl rfl) (fun _ _ => Effected.tapsGood) (fun _ => startFrame_tapsGood)
        ⟨taps, routed⟩ next
    exact ⟨kept.taps, kept.routed⟩
  case closing =>
    exact step_keeps_of_effected (P := fun s => ClosingWaits s.closing) (fun _ _ h => h) closingWaits_nil
      closingWaits_nil (fun _ _ => Effected.closingWaits) (fun _ => startFrame_closingWaits) waits next

end Sys2Proof.Machine
end

section
/-! SUPPORT. The completion credits (R136, R142): which operations leave the reservations alone, and that every effect
reserves, posts and owes in step; with it the whole invariant of the hub. -/

namespace Sys2Proof.Machine

/-! ### Operations that leave the reservations alone -/

section
variable (s : State)

@[simp] theorem acceptGroup_reserved (a : Assembly) :
    (acceptGroup a s).engine.reserved = s.engine.reserved := by
  unfold acceptGroup
  split
  · rw [handAll_eq]; rfl
  · split
    · rw [handAll_eq]; rfl
    · rfl

@[simp] theorem takeEdit_reserved (e : Edit) : (takeEdit e s).engine.reserved = s.engine.reserved := by
  unfold takeEdit
  split
  · rfl
  · rw [acceptGroup_reserved]; rfl

@[simp] theorem joinEdit_reserved (e : Edit) : (joinEdit e s).engine.reserved = s.engine.reserved := by
  unfold joinEdit
  split
  · rw [hand_eq]; rfl
  · split
    · split
      · rw [handAll_eq]; rfl
      · split
        · exact takeEdit_reserved s e
        · rfl
    · split
      · exact takeEdit_reserved s e
      · rfl

@[simp] theorem breakFor_reserved (ring : CmdRing) :
    (breakFor ring s).engine.reserved = s.engine.reserved := by
  unfold breakFor breakGroup
  split
  · split
    · rfl
    · rw [handAll_eq]; rfl
  · rfl

@[simp] theorem refuse_reserved (status : Status) (id : CmdId) :
    (refuse status id s).engine.reserved = s.engine.reserved := by
  rw [refuse, hand_eq]
  exact breakFor_reserved s id.ring

@[simp] theorem cancelGroups_reserved (id : CmdId) (label : Half) :
    (cancelGroups id label s).engine.reserved = s.engine.reserved := by
  unfold cancelGroups
  rw [handAll_eq]; rfl

@[simp] theorem takeFence_reserved (id : CmdId) (u : Unit) :
    (takeFence id u s).engine.reserved = s.engine.reserved := by
  unfold takeFence
  simp only
  split
  · rw [post_eq]; rfl
  · rfl

@[simp] theorem readTaken_reserved (id : CmdId) (f : ReadFields) :
    (readTaken id f s).engine.reserved = s.engine.reserved := by
  unfold readTaken
  split
  · rw [hand_eq]; rfl
  · rfl

@[simp] theorem takeRead_reserved (id : CmdId) (f : ReadFields) :
    (takeRead id f s).engine.reserved = s.engine.reserved := by
  unfold takeRead
  split
  · exact readTaken_reserved s id f
  · rfl

@[simp] theorem finishRead_reserved (r : ReadSlot) :
    (finishRead r s).engine.reserved = s.engine.reserved := by
  rw [finishRead, hand_eq]; rfl

@[simp] theorem retryEdit_reserved : (retryEdit s).engine.reserved = s.engine.reserved := by
  unfold retryEdit
  split
  · split
    · exact takeEdit_reserved (unpark s) _
    · rfl
  · rfl

@[simp] theorem takeParkedRead_reserved : (takeParkedRead s).engine.reserved = s.engine.reserved := by
  unfold takeParkedRead
  split
  · split
    · exact readTaken_reserved (unpark s) _ _
    · rfl
  · rfl

@[simp] theorem releaseFence_reserved : (releaseFence s).engine.reserved = s.engine.reserved := by
  unfold releaseFence
  split
  · split
    · rw [post_eq]; rfl
    · rfl
  · rfl

@[simp] theorem abortAssembly_reserved : (abortAssembly s).engine.reserved = s.engine.reserved := by
  unfold abortAssembly
  split
  · rfl
  · rw [handAll_eq]; rfl

@[simp] theorem abortParked_reserved : (abortParked s).engine.reserved = s.engine.reserved := by
  unfold abortParked
  split
  · rfl
  · rw [hand_eq]; rfl
  · rw [hand_eq]; rfl
  · rw [post_eq]; rfl

@[simp] theorem stopEnded_reserved (e : RingEngine) : e.stopEnded.reserved = e.reserved := by
  unfold RingEngine.stopEnded RingEngine.start
  simp only
  split_ifs <;> rfl

@[simp] theorem stopIfDue_reserved : (stopIfDue s).engine.reserved = s.engine.reserved := by
  unfold stopIfDue endStop releaseParked
  split <;> simp

@[simp] theorem settleClosing_reserved : (settleClosing s).engine.reserved = s.engine.reserved := by
  rw [settleClosing, handAll_eq]; rfl

@[simp] theorem finishWrite_reserved (n : TapId) :
    (finishWrite n s).engine.reserved = s.engine.reserved := by
  unfold finishWrite
  simp only
  split
  · rw [settleClosing_reserved, handAll_eq]; rfl
  · rw [handAll_eq]; rfl

@[simp] theorem takeCreditTap_reserved (id : CmdId) (f : CreditFields) :
    (takeCreditTap id f s).engine.reserved = s.engine.reserved := by
  unfold takeCreditTap
  simp only [emit_engine]; rfl

@[simp] theorem startCompletion_reserved : (startCompletion s).engine.reserved = s.engine.reserved := by
  unfold startCompletion
  split
  · rfl
  · split <;> rfl

@[simp] theorem onLink_reserved (n : LinkId) (f : Link → LinkStep) :
    (s.onLink n f).engine.reserved = s.engine.reserved := by
  rw [onLink_engine]; rfl

@[simp] theorem eachLink_reserved (f : LinkId → Link → LinkStep) :
    (eachLink f s).engine.reserved = s.engine.reserved :=
  foldl_same (fun t : State => t.engine.reserved) _ (fun t n => onLink_reserved t n (f n)) _ _

@[simp] theorem startLinks_reserved : (startLinks s).engine.reserved = s.engine.reserved :=
  eachLink_reserved s _

@[simp] theorem cutGroup_reserved (g : Group) : (cutGroup s g).engine.reserved = s.engine.reserved := by
  obtain ⟨cs, _, failed⟩ | ⟨w, _, cut⟩ := cutGroup_cases s g
  · rw [failed, handAll_eq]; rfl
  · rw [cut, settleClosing_reserved]; rfl

@[simp] theorem startSchedule_reserved : (startSchedule s).engine.reserved = s.engine.reserved := by
  unfold startSchedule
  split
  · rfl
  · exact foldl_same (fun t : State => t.engine.reserved) _ cutGroup_reserved _ _

end

/-! ### Credits and what is owed -/

/-- Posted completions see the completion ring's base and its two positions only. -/
theorem posted_of_rings {e f : RingEngine} (rings : RingsKept e f) : f.posted = e.posted := by
  unfold RingEngine.posted
  rw [rings.baseComp, rings.consComp, rings.postComp]

/-- Work that leaves the rings and the reservations alone and, outside HALTED, owes as many completions as before. -/
theorem CreditsGood.of_owed {s t : State} (h : CreditsGood s) (rings : RingsKept s.engine t.engine)
    (reserved : t.engine.reserved = s.engine.reserved)
    (owed : t.engine.mode ≠ .halted → s.engine.mode ≠ .halted ∧ t.owed = s.owed) : CreditsGood t where
  bound n size := by
    rw [posted_of_rings rings, reserved]
    exact h.bound n (rings.baseComp ▸ size)
  unconfigured size := reserved.trans (h.unconfigured (rings.baseComp ▸ size))
  owed live := by
    obtain ⟨before, same⟩ := owed live
    rw [reserved, same]
    exact h.owed before

/-- The same for work that keeps the control side. -/
theorem CreditsGood.of_control {s t : State} (h : CreditsGood s) (control : ControlKept s.engine t.engine)
    (rings : RingsKept s.engine t.engine) (reserved : t.engine.reserved = s.engine.reserved)
    (owed : s.engine.mode ≠ .halted → t.owed = s.owed) : CreditsGood t :=
  h.of_owed rings reserved fun live => ⟨control.mode ▸ live, owed (control.mode ▸ live)⟩

/-- Nothing posted, nothing reserved and nothing owed. -/
theorem creditsGood_of_zero {s : State} (cons : s.engine.consComp = 0) (post : s.engine.postComp = 0)
    (reserved : s.engine.reserved = 0) (owed : s.owed = 0) : CreditsGood s := by
  refine ⟨fun n size => ?_, fun _ => reserved, fun _ => reserved.trans owed.symm⟩
  have slots := (ringSize_bounds size).1
  have none : s.engine.posted = 0 := by
    rw [RingEngine.posted, size, cons, post]
    exact (ringDistance_zero (by omega) (by omega)).2 rfl
  omega

/-- What is owed sees the transfers in flight, the queue, the staging places, what is parked, the slot, buffers, closed
taps and links. -/
theorem owed_congr {s t : State} (fetch : t.engine.fetch = s.engine.fetch)
    (queue : t.engine.postQueue = s.engine.postQueue) (write : t.engine.compWrite = s.engine.compWrite)
    (parked : t.engine.parked = s.engine.parked) (sched : t.sched = s.sched)
    (slot : t.core.slot = s.core.slot) (taps : tapsOwe t.taps = tapsOwe s.taps)
    (closing : t.closing = s.closing) (links : linksOwe t.links = linksOwe s.links) :
    t.owed = s.owed := by
  rw [owed_parts, owed_parts, fetch, queue, write, parked, sched, slot, taps, closing, links]

/-! ### Reads -/

theorem startFetch_credits {s : State} (h : CreditsGood s) : CreditsGood (startFetch s) := by
  unfold startFetch
  split
  next can =>
    split
    · exact h
    next ring _ =>
      simp only [RingEngine.canFetch, Bool.and_eq_true, beq_iff_eq, Option.isNone_iff_eq_none] at can
      obtain ⟨⟨mode, none⟩, free⟩ := can
      obtain ⟨n, size⟩ : ∃ n, ringSize s.engine.baseComp = some n := by
        cases size : ringSize s.engine.baseComp with
        | none => simp [RingEngine.creditFree, size] at free
        | some n => exact ⟨n, rfl⟩
      have room : s.engine.posted + s.engine.reserved < n - 1 := by
        simpa [RingEngine.creditFree, size] using free
      refine ⟨fun m sized => ?_, fun unconfigured => ?_, fun _ => ?_⟩
      · obtain rfl : m = n := Option.some.inj (sized.symm.trans size)
        show s.engine.posted + (s.engine.reserved + 1) ≤ m - 1
        omega
      · exact absurd (unconfigured.symm.trans size) (by simp)
      · have before := h.owed (by rw [mode]; simp)
        rw [owed_parts, none] at before
        rw [owed_parts]
        simp only [withEngine_engine, RingEngine.fetchStarted, oneIf_some, oneIf_none, withEngine_sched,
          withEngine_core, withEngine_taps, withEngine_closing, withEngine_links] at before ⊢
        omega
  · exact h

/-- The end of a read leaves its command to be answered: one completion less is owed until it is handed. -/
theorem owed_fetchEnded {s : State} {ring : CmdRing} {slot : Nat}
    (inFlight : s.engine.fetch = some (ring, slot)) :
    (s.withEngine (s.engine.fetchEnded ring)).owed + 1 = s.owed := by
  rw [owed_parts, owed_parts, inFlight]
  cases ring <;> simp only [RingEngine.fetchEnded, withEngine_engine, oneIf_some, oneIf_none,
    withEngine_sched, withEngine_core, withEngine_taps, withEngine_closing, withEngine_links] <;> omega

/-- A command handed to its block is owed its completion there, or has it waiting to be posted. -/
theorem Handed.owed {id : CmdId} {s t : State} (live : s.engine.mode ≠ .halted)
    (alone : id.ring = .a → s.engine.parked = none) (links : LinksGood s) (taps : TapsGood s)
    (e : Handed id s t) : t.owed = s.owed + 1 := by
  have broken : (breakFor .a s).engine.mode ≠ .halted := by rw [breakFor_mode]; exact live
  have free (own : id.ring = .a) : (breakFor .a s).engine.parked = none := by
    rw [breakFor_parked]; exact alone own
  cases e with
  | refused status => exact owed_refuse live
  | edit e own => exact owed_joinEdit live (alone own)
  | cancel label =>
    rw [owed_cancelGroups (by rw [breakFor_mode]; exact live), owed_breakFor live]
  | read f own => rw [owed_takeRead broken (free own), owed_breakFor live]
  | fence own => rw [owed_takeFence broken (free own), owed_breakFor live]
  | link n g _ keeps => exact owed_onLink live (keeps _ (links n)).settles
  | credit f => exact owed_takeCreditTap live (taps.taps f.tap)

theorem Handed.reserved {id : CmdId} {s t : State} (e : Handed id s t) :
    t.engine.reserved = s.engine.reserved := by
  cases e <;> simp

/-! ### Posting, and the writes of the completion ring's registers -/

theorem startCompletion_credits {s : State} (h : CreditsGood s) : CreditsGood (startCompletion s) := by
  refine h.of_control (startCompletion_control s) (startCompletion_rings s) (by simp) fun live => ?_
  unfold startCompletion
  split
  next => rfl
  next c rest queue =>
    split
    next can =>
      simp only [Bool.and_eq_true, Option.isNone_iff_eq_none] at can
      rw [owed_parts, owed_parts, queue, can.2]
      simp only [withEngine_engine, oneIf_some, oneIf_none, List.length_cons, withEngine_sched,
        withEngine_core, withEngine_taps, withEngine_closing, withEngine_links]
      omega
    next => rfl

/-- A reservation becomes a posted completion (R136). -/
theorem completionPosted_credits {s : State} (h : CreditsGood s) (rings : RingsGood s)
    (live : s.engine.mode ≠ .halted) (writing : s.engine.compWrite.isSome = true) :
    CreditsGood (s.withEngine s.engine.completionPosted) := by
  obtain ⟨w, write⟩ := Option.isSome_iff_exists.1 writing
  have before := h.owed live
  rw [owed_parts, write, oneIf_some] at before
  refine ⟨fun n size => ?_, fun size => ?_, fun _ => ?_⟩
  · have size' : ringSize s.engine.baseComp = some n := size
    have bound := h.bound n size'
    have cons := rings.consComp
    have post := rings.postComp
    rw [fitsRing, size'] at cons post
    rw [RingEngine.posted, size'] at bound
    rw [RingEngine.posted, size]
    simp only [withEngine_engine, RingEngine.completionPosted] at bound ⊢
    rw [ringDistance_next size' cons post (by omega)]
    omega
  · show s.engine.reserved - 1 = 0
    rw [h.unconfigured size]
  · show s.engine.reserved - 1 = _
    rw [owed_parts]
    simp only [withEngine_engine, RingEngine.completionPosted, oneIf_none, withEngine_sched,
      withEngine_core, withEngine_taps, withEngine_closing, withEngine_links]
    omega

theorem compCons_credits {s : State} (h : CreditsGood s) (rings : RingsGood s) {i n : Nat}
    (size : ringSize s.engine.baseComp = some n)
    (accepted : consumerAccepted n s.engine.consComp s.engine.postComp i = true) :
    CreditsGood (s.withEngine { s.engine with consComp := i }) := by
  refine ⟨fun m sized => ?_, h.unconfigured, h.owed⟩
  obtain rfl : m = n := Option.some.inj (sized.symm.trans size)
  obtain ⟨below, within⟩ := consumerAccepted_iff.1 accepted
  have bound := h.bound m size
  have cons := rings.consComp
  have post := rings.postComp
  rw [fitsRing, size] at cons post
  rw [RingEngine.posted, size] at bound
  rw [RingEngine.posted, sized]
  simp only [withEngine_engine] at bound ⊢
  rw [ringDistance_consumed cons post below (by omega)]
  omega

/-- A base register is written with no completion reserved (R164, R165). -/
theorem writeBase_credits {s : State} (h : CreditsGood s) (ring : Ring) (value : Word) :
    CreditsGood (writeBase ring value s) := by
  have owed : (writeBase ring value s).owed = s.owed := by
    unfold writeBase
    split
    · cases ring <;> simp only [reconfigureEvents, owed_parts, withEvents_engine, withEvents_sched,
        withEvents_core, withEvents_taps, withEvents_closing, withEvents_links, returnEventWrite_engine,
        returnEventWrite_sched, returnEventWrite_core, returnEventWrite_taps, returnEventWrite_closing,
        returnEventWrite_links] <;> rfl
    · rfl
  have mode := (writeBase_control ring value s).mode
  have live (t : (writeBase ring value s).engine.mode ≠ .halted) := h.owed (mode ▸ t)
  unfold writeBase at owed live ⊢
  split
  next accepted =>
    rw [if_pos accepted] at owed live
    have zero : s.engine.reserved = 0 := by
      simp only [baseAccepted, quiet, Bool.and_eq_true, beq_iff_eq] at accepted
      exact accepted.1.2.1.1.2
    cases ring with
    | ringA => exact ⟨h.bound, h.unconfigured, h.owed⟩
    | ringB => exact ⟨h.bound, h.unconfigured, h.owed⟩
    | completion =>
      refine ⟨fun n size => ?_, fun _ => zero, h.owed⟩
      have slots := (ringSize_bounds size).1
      have none : ((s.engine.setBase .completion value).posted) = 0 := by
        have size' : ringSize (s.engine.setBase .completion value).baseComp = some n := size
        rw [RingEngine.posted, size']
        exact (ringDistance_zero (c := 0) (p := 0) (by omega) (by omega)).2 rfl
      show (s.engine.setBase .completion value).posted + s.engine.reserved ≤ n - 1
      omega
    | event =>
      refine ⟨fun n size => ?_, fun size => ?_, fun t => ?_⟩
      · simp only [reconfigureEvents, withEvents_engine, returnEventWrite_engine, withEngine_engine]
          at size ⊢
        exact h.bound n size
      · simp only [reconfigureEvents, withEvents_engine, returnEventWrite_engine, withEngine_engine]
          at size ⊢
        exact h.unconfigured size
      · rw [owed, ← live t]
        simp only [reconfigureEvents, withEvents_engine, returnEventWrite_engine, withEngine_engine]
        rfl
  · exact ⟨h.bound, h.unconfigured, h.owed⟩

/-! ### Taps, events and the halt -/

theorem tapsOwe_set {taps : Table 16 Tap} {n : TapId} {t : Tap}
    (same : t.buffers.length = (taps.get n).buffers.length) : tapsOwe (taps.set n t) = tapsOwe taps := by
  have sum := table_sum_set (fun t : Tap => t.buffers.length) taps n t
  simp only [same] at sum
  exact Nat.add_right_cancel sum

theorem linksOwe_set {links : Table 8 Link} {n : LinkId} {l : Link}
    (same : l.owes = (links.get n).owes) : linksOwe (links.set n l) = linksOwe links := by
  have sum := table_sum_set Link.owes links n l
  rw [same] at sum
  exact Nat.add_right_cancel sum

theorem owed_startWrite (n : TapId) (s : State) : (startWrite n s).owed = s.owed := by
  unfold startWrite
  split
  · exact owed_congr rfl rfl rfl rfl rfl rfl (tapsOwe_set rfl) rfl rfl
  · rfl

theorem owed_startTapRead (n : TapId) (s : State) : (startTapRead n s).owed = s.owed := by
  unfold startTapRead
  split
  · exact owed_congr rfl rfl rfl rfl rfl rfl (tapsOwe_set (by rw [(startRead_same _).2])) rfl rfl
  · rfl

theorem owed_eventPosted (w : EventWrite) (s : State) : (eventPosted w s).owed = s.owed := by
  cases w with
  | event r => rfl
  | message n m => exact owed_congr rfl rfl rfl rfl rfl rfl rfl rfl (linksOwe_set rfl)

/-- The halt keeps the reservations but that of an abandoned read (R135, R137). -/
theorem halt_credits {s : State} (h : CreditsGood s) (cause : HaltCause) : CreditsGood (halt cause s) := by
  by_cases halted : s.engine.mode = .halted
  · rw [halt_halted halted]; exact h
  · have rings := halt_rings cause s
    have fewer : (halt cause s).engine.reserved ≤ s.engine.reserved := by
      rw [halt_eq halted]
      simp only [RingEngine.halted]
      split <;> omega
    refine ⟨fun n size => ?_, fun size => ?_, fun live => absurd (halt_mode cause s) live⟩
    · have bound := h.bound n (rings.baseComp ▸ size)
      rw [posted_of_rings rings]
      omega
    · have none := h.unconfigured (rings.baseComp ▸ size)
      omega

/-! ### Resets -/

theorem tapsOwe_zero {taps : Table 16 Tap} (empty : ∀ n, (taps.get n).buffers = []) : tapsOwe taps = 0 :=
  (table_sum_congr _ (fun _ : Tap => 0) taps taps fun n => by rw [empty n]; rfl).trans (by simp)

theorem linksOwe_zero {links : Table 8 Link} (none : ∀ n, (links.get n).owes = 0) : linksOwe links = 0 :=
  (table_sum_congr _ (fun _ : Link => 0) links links none).trans (by simp)

theorem resetEngine_owed {s : State} (links : LinksGood s) (taps : TapsGood s) :
    (resetEngine s).owed = 0 := by
  have tapsEmpty : tapsOwe (resetEngine s).taps = 0 :=
    tapsOwe_zero fun n => by
      rw [resetEngine, Table.get_map]
      exact (tapEngineReset_good (taps.taps n)).2.2
  have linksClear : linksOwe (resetEngine s).links = 0 :=
    linksOwe_zero fun n => by
      rw [resetEngine, Table.get_map]
      exact (engineReset_link (links n)).2
  rw [owed_parts, tapsEmpty, linksClear]
  rfl

theorem reset_owed : State.reset.owed = 0 := by decide

/-! ### The whole invariant -/

theorem Good.schedule {s : State} (h : Good s) : ScheduleGood s := ⟨h.places, h.parked, h.sized⟩

theorem Good.tapContexts {s : State} (h : Good s) : TapsGood s := ⟨h.taps, h.routed⟩

/-- The parts of the invariant, as they are kept. -/
theorem good_of_parts {s : State} (rings : RingsGood s) (engine : EngineGood s) (schedule : ScheduleGood s)
    (order : ScheduleOrdered s) (pool : PoolGood s.core) (taps : TapsGood s) (links : LinksGood s)
    (credits : CreditsGood s) : Good s :=
  ⟨rings, engine, schedule.places, schedule.parked, order, pool, schedule.sized, taps.routed, taps.taps,
    links, credits⟩

theorem setEnable_credits {s : State} (h : CreditsGood s) :
    CreditsGood (s.withEngine s.engine.setEnable) := by
  have reserved : s.engine.setEnable.reserved = s.engine.reserved := by
    unfold RingEngine.setEnable RingEngine.start
    split
    · split <;> rfl
    all_goals rfl
  refine h.of_owed (setEnable_rings _) reserved fun live => ⟨fun halted => live (setEnable_halted halted), ?_⟩
  obtain ⟨parked, fetch⟩ := setEnable_parked s.engine
  refine owed_congr fetch ?_ ?_ parked rfl rfl rfl rfl rfl <;>
    · rw [withEngine_engine]
      unfold RingEngine.setEnable RingEngine.start
      split
      · split <;> rfl
      all_goals rfl

/-- The stop answers as many commands as it found open (R163). -/
theorem stopIfDue_credits {s : State} (h : CreditsGood s) : CreditsGood (stopIfDue s) :=
  h.of_owed (stopIfDue_rings s) (stopIfDue_reserved s) fun live =>
    ⟨fun halted => live (by rw [stopIfDue_halted halted, halted]), owed_stopIfDue s⟩

theorem storeEnables_credits {s : State} (h : CreditsGood s) (n : Enables) : CreditsGood (storeEnables n s) :=
  ⟨h.bound, h.unconfigured, h.owed⟩

/-- A read that ends brings its command to its block, and a stop that waited for it ends. -/
theorem fetched_credits {id : CmdId} {slot : Nat} {s t : State} (h : Good s)
    (inFlight : s.engine.fetch = some (id.ring, slot))
    (handed : Handed id (s.withEngine (s.engine.fetchEnded id.ring)) t) : CreditsGood (stopIfDue t) := by
  have live : s.engine.mode ≠ .halted := fun halted => by
    rw [(h.engine.halted halted).fetch] at inFlight; cases inFlight
  have ended : (s.withEngine (s.engine.fetchEnded id.ring)).engine.mode ≠ .halted := by
    rw [withEngine_engine, fetchEnded_mode]; exact live
  have owed : t.owed = s.owed := by
    rw [handed.owed ended
      (fun ring => (fetchEnded_parked _ _).trans (h.parked.alone slot (ring ▸ inFlight))) h.links
      (h.tapContexts.of_eq rfl rfl), owed_fetchEnded inFlight]
  have reserved : t.engine.reserved = s.engine.reserved :=
    handed.reserved.trans (by cases id.ring <;> rfl)
  have rings := handed.rings
  have posted : t.engine.posted = s.engine.posted :=
    (posted_of_rings rings).trans (by cases id.ring <;> rfl)
  have base : t.engine.baseComp = s.engine.baseComp :=
    rings.baseComp.trans (by cases id.ring <;> rfl)
  refine stopIfDue_credits ⟨fun n size => ?_, fun size => ?_, fun _ => ?_⟩
  · rw [posted, reserved]; exact h.credits.bound n (base ▸ size)
  · rw [reserved]; exact h.credits.unconfigured (base ▸ size)
  · rw [reserved, owed]; exact h.credits.owed live

/-- Every effect reserves, posts and owes in step. -/
theorem Effected.credits {s t : State} (h : Good s) (e : Effected s t) : CreditsGood t := by
  have credits := h.credits
  cases e with
  | idle => exact credits
  | link n f keeps =>
    exact credits.of_control (onLink_control _ _ _) (onLink_rings _ _ _) (by simp) fun live =>
      owed_onLink live (keeps _ (h.links n)).settles
  | fetchStart => exact startFetch_credits credits
  | fetched id slot u inFlight handed => exact fetched_credits h inFlight handed
  | halted cause => exact halt_credits credits cause
  | editRetried =>
    exact credits.of_control (retryEdit_control s) (retryEdit_rings s) (by simp) fun _ => owed_retryEdit s
  | readTaken =>
    exact credits.of_control (takeParkedRead_control s) (takeParkedRead_rings s) (by simp) fun _ =>
      owed_takeParkedRead s
  | fenceReleased =>
    exact credits.of_control (releaseFence_control s) (releaseFence_rings s) (by simp) fun _ =>
      owed_releaseFence s
  | routeWritten r slot =>
    exact credits.of_control (finishRead_control r s) (finishRead_rings r s) (by simp) fun live =>
      owed_finishRead live slot
  | writeStart n =>
    exact credits.of_control (by rw [startWrite_engine]; exact .rfl) (by rw [startWrite_engine]; exact .rfl)
      (by simp) fun _ => owed_startWrite n s
  | tapWritten n =>
    exact credits.of_control (finishWrite_control n s) (finishWrite_rings n s) (by simp) owed_finishWrite
  | readStart n =>
    exact credits.of_control (by rw [startTapRead_engine]; exact .rfl)
      (by rw [startTapRead_engine]; exact .rfl) (by simp) fun _ => owed_startTapRead n s
  | tapRead n samples =>
    exact credits.of_control .rfl .rfl rfl fun _ =>
      owed_congr rfl rfl rfl rfl rfl rfl (tapsOwe_set (storeRun_same _ _).2) rfl rfl
  | completionStart => exact startCompletion_credits credits
  | completionPosted writing =>
    refine completionPosted_credits credits h.rings (fun halted => ?_) writing
    rw [(h.engine.halted halted).completion] at writing
    cases writing
  | eventStart =>
    exact credits.of_control (by rw [startEvent_engine]; exact .rfl) (by rw [startEvent_engine]; exact .rfl)
      (by simp) fun _ => by rw [startEvent_eq]; rfl
  | messageStart =>
    exact credits.of_control (by rw [startMessage_engine]; exact .rfl)
      (by rw [startMessage_engine]; exact .rfl) (by simp) fun _ => by rw [startMessage_eq]; rfl
  | eventPosted w =>
    exact credits.of_control (by rw [eventPosted_engine]; exact .rfl)
      (by rw [eventPosted_engine]; exact .rfl) (by simp) fun _ => owed_eventPosted w s
  | enableSet n => exact setEnable_credits (storeEnables_credits credits n)
  | enableClear n =>
    refine stopIfDue_credits (CreditsGood.of_owed (s := storeEnables n s) (storeEnables_credits credits n)
      ⟨rfl, rfl, rfl, rfl, rfl, rfl, rfl, rfl, rfl, rfl, rfl, rfl, rfl, rfl, rfl⟩ rfl
      fun live => ⟨fun halted => live ?_, rfl⟩)
    exact (if_neg (by rw [halted]; simp)).trans halted
  | stopEnd => exact stopIfDue_credits credits
  | enables n => exact storeEnables_credits credits n
  | engineReset => exact creditsGood_of_zero rfl rfl rfl (resetEngine_owed h.links h.tapContexts)
  | deviceReset => exact creditsGood_of_zero rfl rfl rfl reset_owed
  | pinLow => exact creditsGood_of_zero rfl rfl rfl reset_owed
  | base ring value => exact writeBase_credits credits ring value
  | prod ring i n => cases ring <;> exact ⟨credits.bound, credits.unconfigured, credits.owed⟩
  | compCons i n size accepted => exact compCons_credits credits h.rings size accepted
  | eventCons i n => exact ⟨credits.bound, credits.unconfigured, credits.owed⟩

theorem Effected.good {s t : State} (h : Good s) (e : Effected s t) : Good t :=
  good_of_parts (e.ringsGood h.rings) (e.engineGood h.engine) (e.scheduleGood h.schedule)
    (e.ordered h.order) (e.poolGood h.pool) (e.tapsGood h.tapContexts) (e.linksGood h.links) (e.credits h)

/-! ### The frame -/

theorem eachLink_owed {f : LinkId → Link → LinkStep} (keeps : ∀ n l, LinkGood l → Keeps l 0 (f n l))
    {s : State} (live : s.engine.mode ≠ .halted) (links : LinksGood s) :
    (eachLink f s).owed = s.owed := by
  have kept : (eachLink f s).engine.mode ≠ .halted ∧ LinksGood (eachLink f s) ∧
      (eachLink f s).owed = s.owed :=
    eachLink_keeps (P := fun t => t.engine.mode ≠ .halted ∧ LinksGood t ∧ t.owed = s.owed)
      (fun t n ⟨mode, good, owed⟩ =>
        have link := keeps n _ (good n)
        ⟨by rw [(onLink_control t n (f n)).mode]; exact mode, good.onLink link.good,
          (owed_onLink mode link.settles).trans owed⟩)
      ⟨live, links, rfl⟩
  exact kept.2.2

/-- The groups that cut over in a frame take their commands out of the staging store and answer them. -/
theorem cutGroups_owed (due : List Group) {s : State} (live : s.engine.mode ≠ .halted) (taps : TapsGood s) :
    (due.foldl cutGroup s).owed = s.owed + groupsSize due := by
  induction due generalizing s with
  | nil => rfl
  | cons g rest ih =>
    have mode : (cutGroup s g).engine.mode ≠ .halted := by rw [(cutGroup_control s g).mode]; exact live
    rw [List.foldl_cons, ih mode (cutGroup_tapsGood taps g), owed_cutGroup live taps.taps taps.routed]
    simp only [groupsSize, List.map_cons, List.sum_cons]
    omega

theorem cutOver_owed {s : State} (live : s.engine.mode ≠ .halted) (taps : TapsGood s) :
    (cutOver s).owed = s.owed := by
  let due := s.sched.list.filter fun g => g.due == s.frame
  let later := s.sched.list.filter fun g => !(g.due == s.frame)
  have size : groupsSize due + groupsSize later = groupsSize s.sched.list := groupsSize_filter _ _
  have removed : (s.withSched { s.sched with list := later }).owed +
      (groupsSize s.sched.list + assemblySize s.sched.assembly) =
        s.owed + (groupsSize later + assemblySize s.sched.assembly) := owed_withSched s _
  have cut : (cutOver s).owed = (s.withSched { s.sched with list := later }).owed + groupsSize due :=
    cutGroups_owed due live (taps.of_eq rfl rfl)
  omega

theorem runTaps_credits {s : State} (h : CreditsGood s) (live : s.engine.mode ≠ .halted)
    (taps : TapsGood s) : CreditsGood (runTaps s) := by
  have frames : CreditsGood (emit ((tapSteps s).flatMap fun p => p.1.2)
      (s.withTaps (Table.ofFn fun n =>
        (tapFrame n (givenSample s (s.taps.get n)) (s.taps.get n)).1.1))) := by
    refine h.of_control ?_ ?_ ?_ fun _ => ?_
    · rw [emit_engine]; exact handed_control _ _
    · rw [emit_engine]; exact handed_rings _ _
    · rw [emit_engine]; rfl
    · have settle := tapSteps_settle s taps.taps
      rw [owed_emit (by exact live), owed_parts, owed_parts]
      simp only [withTaps_engine, withTaps_sched, withTaps_core, withTaps_taps, withTaps_closing,
        withTaps_links]
      omega
  obtain ⟨t, rfl, same | halted⟩ := runTaps_cases s
  · rw [same]; exact frames
  · rw [halted]; exact halt_credits frames _

theorem startLinks_credits {s : State} (h : CreditsGood s) (links : LinksGood s) :
    CreditsGood (startLinks s) := by
  refine h.of_control ?_ ?_ (startLinks_reserved s) fun live => ?_ <;> unfold startLinks
  · exact eachLink_control _ s
  · exact eachLink_rings _ s
  · exact eachLink_owed (fun _ _ => linkFrameStart_keeps) live links

theorem framePass_credits {s : State} (h : CreditsGood s) : CreditsGood (framePass s) :=
  ⟨h.bound, h.unconfigured, h.owed⟩

theorem startFrame_credits {s : State} (h : Good s) : CreditsGood (startFrame s) := by
  have counted : CreditsGood (advanceFrame s) := ⟨h.credits.bound, h.credits.unconfigured, h.credits.owed⟩
  have links : CreditsGood (startLinks (advanceFrame s)) := startLinks_credits counted h.links
  have contexts : TapsGood (startLinks (advanceFrame s)) := h.tapContexts.of_eq (by simp) (by simp)
  by_cases halted : (startLinks (advanceFrame s)).engine.mode = .halted
  · have idle : startFrame s = framePass (startLinks (advanceFrame s)) := by
      rw [startFrame, startSchedule_halted halted]
      exact startTaps_halted halted
    rw [idle]
    exact framePass_credits links
  · have edits : CreditsGood (cutOver (startLinks (advanceFrame s))) := by
      refine links.of_control (cutOver_control _) (cutOver_rings _) ?_ fun live => cutOver_owed live contexts
      rw [← startSchedule_running halted, startSchedule_reserved]
    have cutTaps : TapsGood (cutOver (startLinks (advanceFrame s))) :=
      cutOver_keeps (fun t g _ ht => cutGroup_tapsGood ht g) (contexts.of_eq rfl rfl)
    have live : (framePass (cutOver (startLinks (advanceFrame s)))).engine.mode ≠ .halted := by
      rw [framePass_engine, (cutOver_control _).mode]; exact halted
    rw [startFrame, startSchedule_running halted, startTaps_running live]
    exact runTaps_credits (framePass_credits edits) live
      (cutTaps.of_eq (framePass_taps _) (framePass_routes _))

theorem startFrame_good {s : State} (h : Good s) : Good (startFrame s) :=
  good_of_parts (startFrame_ringsGood h.rings) (startFrame_engineGood h.engine)
    (startFrame_scheduleGood h.schedule) (startFrame_ordered h.order) (startFrame_poolGood h.pool)
    (startFrame_tapsGood h.tapContexts) (startFrame_linksGood h.links) (startFrame_credits h)

/-- Every reset of the whole hub leaves it good, held by the pin or not. -/
theorem reset_good (held : Bool) : Good { State.reset with held := held } :=
  good_of_parts (ringsGood_of_zero rfl rfl rfl rfl rfl rfl rfl rfl) (engineGood_of_reset rfl rfl rfl rfl)
    (scheduleGood_of_reset rfl rfl (tableSized_of_reset rfl)) (fun _ => orderGood_nil _) resetPool_good
    (tapsGood_of_reset rfl rfl) (linksGood_of_reset rfl) (creditsGood_of_zero rfl rfl rfl reset_owed)

theorem withPending_good {s : State} (h : Good s) (q : List Instr) : Good (s.withPending q) := by
  obtain ⟨⟨a, b, c, d, e, f, g, i⟩, engine, places, ⟨alone, edit, others⟩, order, pool,
    ⟨table, list, assembly, waiting⟩, routed, taps, links, ⟨bound, unconfigured, owed⟩⟩ := h
  exact ⟨⟨a, b, c, d, e, f, g, i⟩, engine.untouched .rfl rfl rfl rfl rfl rfl rfl rfl, places,
    ⟨alone, edit, others⟩, order, pool, ⟨table, list, assembly, waiting⟩, routed, taps, links,
    ⟨bound, unconfigured, owed⟩⟩

/-- Settles O6. -/
theorem goodAtReset : Obligations.GoodAtReset := ⟨reset_good false, closingWaits_nil⟩

/-- Settles O15: the parts are kept one by one, the credits with the help of the others. -/
theorem stepsKeepTheHubGood : Obligations.StepsKeepTheHubGood := fun _ _ =>
  step_keeps_of_effected (P := Good) (fun _ q h => withPending_good h q) (reset_good true) (reset_good false)
    (fun _ _ => Effected.good) (fun _ => startFrame_good)

/-- Settles O14, a part of O15. -/
theorem stepsKeepCompletionCredits : Obligations.StepsKeepCompletionCredits := fun s t good next =>
  (stepsKeepTheHubGood s t good next).credits

end Sys2Proof.Machine
end

section
/-! SUPPORT. Forming groups and their acceptance (R28 to R35), insertion into the list (R33), CANCEL GROUP (R42), and the
edits and the group at cut-over (R37 to R40, R52), in the terms of the statements. -/

namespace Sys2Proof.Machine

/-! ### The outcome of a group that is closed (R31 to R33) -/

/-- Every bad command completes BAD_FIELD and every other GROUP_ABORTED (R31). -/
theorem badFieldCompletion_eq (m : CmdId × Option EditOp) :
    badFieldCompletion m = .plain m.1 (if m.2 = none then .badField else .groupAborted) 0 := by
  cases op : m.2 <;> simp [badFieldCompletion, op]

/-- TOO_FAR goes to the command at place 0 (R32). -/
theorem tooFarCompletions_eq (members : List (CmdId × Option EditOp)) :
    tooFarCompletions members = members.zipIdx.map fun m =>
      Completion.plain m.1.1 (if m.2 = 0 then .tooFar else .groupAborted) 0 := by
  cases members with
  | nil => rfl
  | cons first rest =>
    have later : (rest.zipIdx 1).map (fun m : (CmdId × Option EditOp) × Nat =>
        Completion.plain m.1.1 (if m.2 = 0 then Status.tooFar else .groupAborted) 0) =
        memberCompletions .groupAborted 0 rest := by
      calc
        _ = (rest.zipIdx 1).map fun m => Completion.plain m.1.1 .groupAborted 0 :=
          List.map_congr_left fun m listed => by
            have place := (List.mem_zipIdx listed).1
            rw [if_neg (by omega)]
        _ = ((rest.zipIdx 1).map Prod.fst).map fun m => Completion.plain m.1 .groupAborted 0 := by
          rw [List.map_map]; rfl
        _ = _ := by rw [List.zipIdx_map_fst]; rfl
    rw [List.zipIdx_cons, List.map_cons, later]
    rfl

section
variable {a : Assembly} {u : State}

theorem acceptGroup_bad (live : u.engine.mode ≠ .halted) (bad : ∃ m ∈ a.members, m.2 = none) :
    acceptGroup a u = u.answered (a.members.map fun m =>
      .plain m.1 (if m.2 = none then .badField else .groupAborted) 0) := by
  rw [acceptGroup, if_pos (anyBad_iff.2 bad), handAll_answered live]
  exact congrArg _ (List.map_congr_left fun m _ => badFieldCompletion_eq m)

variable (good : ∀ m ∈ a.members, m.2 ≠ none)
include good

theorem acceptGroup_timed : acceptGroup a u =
    match groupTiming u.frame a.scheduled a.due with
    | none => handAll (tooFarCompletions a.members) u
    | some (due, late) =>
      u.withSched { u.sched with
        list := insertGroup u.frame ⟨a.label, due, late, goodMembers a.members⟩ u.sched.list } :=
  if_neg fun bad => by
    obtain ⟨m, listed, none⟩ := anyBad_iff.1 bad
    exact good m listed none

theorem acceptGroup_tooFar (live : u.engine.mode ≠ .halted) (scheduled : a.scheduled = true)
    (far : 2 ^ 24 < (a.due - u.frame).toNat) (ahead : (a.due - u.frame).toNat < 2 ^ 31) :
    acceptGroup a u = u.answered (a.members.zipIdx.map fun m =>
      .plain m.1.1 (if m.2 = 0 then .tooFar else .groupAborted) 0) := by
  rw [acceptGroup_timed good, scheduled, groupTiming_tooFar far ahead]
  simp only
  rw [handAll_answered live, tooFarCompletions_eq]

theorem acceptGroup_ahead (scheduled : a.scheduled = true) (ahead : 1 ≤ (a.due - u.frame).toNat)
    (near : (a.due - u.frame).toNat ≤ 2 ^ 24) :
    acceptGroup a u = u.withSched { u.sched with
      list := insertGroup u.frame ⟨a.label, a.due, false, goodMembers a.members⟩ u.sched.list } := by
  rw [acceptGroup_timed good, scheduled, groupTiming_ahead ahead near]

/-- An immediate group, and a scheduled one that is due now or lies behind, is for the next frame (R32). -/
theorem acceptGroup_next
    (soon : a.scheduled = false ∨ a.due = u.frame ∨ 2 ^ 31 ≤ (a.due - u.frame).toNat) :
    acceptGroup a u = u.withSched { u.sched with
      list := insertGroup u.frame ⟨a.label, u.frame + 1, a.scheduled, goodMembers a.members⟩
        u.sched.list } := by
  rw [acceptGroup_timed good]
  cases scheduled : a.scheduled with
  | false => rw [groupTiming_unscheduled]
  | true =>
    have late : (a.due - u.frame).toNat = 0 ∨ 2 ^ 31 ≤ (a.due - u.frame).toNat := by
      obtain none | now | behind := soon
      · rw [scheduled] at none; cases none
      · exact .inl (by rw [now]; simp)
      · exact .inr behind
    rw [groupTiming_late late]

end

/-! ### Edits that join, close or overrun a group -/

theorem joinAssembly_eq (assembly : Option Assembly) (id : CmdId) (r : CommandRecord) (op : Option EditOp) :
    joinAssembly assembly ⟨id, recChain r, recScheduled r, recLabel r, recDue r, op⟩ =
      joinedGroup assembly id r op := by
  cases assembly <;> rfl

/-- With CHAIN set the group stays open (R28). -/
theorem takeEdit_chained {e : Edit} (chain : e.chain = true) (s : State) :
    takeEdit e s = s.withSched { s.sched with assembly := some (joinAssembly s.sched.assembly e) } := by
  rw [takeEdit, if_pos chain]

/-- With CHAIN clear it is accepted at once (R28). -/
theorem takeEdit_unchained {e : Edit} (chain : e.chain = false) (s : State) :
    takeEdit e s =
      acceptGroup (joinAssembly s.sched.assembly e) (s.withSched { s.sched with assembly := none }) := by
  rw [takeEdit, if_neg (by simp [chain])]

/-- An edit fetched with its places free is taken (R28, R35). -/
theorem edit_taken {i : Instr} {r : CommandRecord} {op : Option EditOp} {s : State} {slot : Nat}
    (read : ReadInFlight s .a slot) (row : editOf i = some (r, op)) (tail : s.sched.overflow = false)
    (staging : s.sched.staged < 64) (place : s.sched.assembly = none → s.sched.places < 8)
    (short : ∀ a, s.sched.assembly = some a → a.members.length < 16) :
    exec i s = .next (stopIfDue (takeEdit
      ⟨⟨recTag r, .a, slot⟩, recChain r, recScheduled r, recLabel r, recDue r, op⟩ (s.readEnded .a))) := by
  rw [edit_joins read row, joinEdit_room (s := s.readEnded .a) tail (roomForEdit_of staging place) short]

/-- Settles O22: the edit is taken with CHAIN set. -/
theorem chainedEditStaysInTheGroup : Obligations.ChainedEditStaysInTheGroup := by
  intro s slot i r op read row chain tail staging place short
  rw [edit_taken read row tail staging place short, takeEdit_chained chain, joinAssembly_eq]
  rfl

/-- Settles O23: the edit is taken with CHAIN clear, and its group has one of the four outcomes. -/
theorem unchainedEditClosesTheGroup : Obligations.UnchainedEditClosesTheGroup := by
  intro s slot i r op a read row chain tail staging place short group
  obtain ⟨u, rest⟩ : ∃ u, u = (s.readEnded .a).withSched { s.sched with assembly := none } := ⟨_, rfl⟩
  have closes : exec i s = .next (stopIfDue (acceptGroup a u)) := by
    rw [edit_taken read row tail staging place short, takeEdit_unchained chain, group, joinAssembly_eq, rest]
    rfl
  have live : u.engine.mode ≠ .halted := rest ▸ read.readEnded_running
  have frame : u.frame = s.frame := by rw [rest]; rfl
  rw [closes]
  refine ⟨fun bad => ?_, fun good scheduled far ahead => ?_, fun good scheduled ahead near => ?_,
    fun good soon => ?_⟩
  · rw [acceptGroup_bad live bad, rest]; rfl
  · rw [acceptGroup_tooFar good live scheduled (frame ▸ far) (frame ▸ ahead), rest]; rfl
  · rw [acceptGroup_ahead good scheduled (frame ▸ ahead) (frame ▸ near), rest]; rfl
  · rw [acceptGroup_next good (frame ▸ soon), rest]; rfl

/-- Settles O24: the overflow tail and the seventeenth command, from the branches of `joinEdit`. -/
theorem overlongGroupFails : Obligations.OverlongGroupFails := by
  intro s slot i r op read row
  have live (d : Scheduler) : ((s.readEnded .a).withSched d).engine.mode ≠ .halted := read.readEnded_running
  rw [edit_joins read row]
  refine ⟨fun tail => ?_, fun a tail group full => ?_⟩
  · have overflow : (s.readEnded .a).sched.overflow = true := tail
    rw [joinEdit, if_pos overflow, hand_answered (live _)]
    rfl
  · have closed : ¬ (s.readEnded .a).sched.overflow = true := by simp [State.readEnded, tail]
    have assembly : (s.readEnded .a).sched.assembly = some a := group
    rw [joinEdit, if_neg closed, assembly]
    simp only
    rw [if_pos ((groupFull_iff a).2 full), handAll_answered (live _)]
    rfl

/-! ### The parked edit -/

theorem retryEdit_taken {s : State} {e : Edit} (live : s.engine.mode ≠ .halted)
    (parked : s.engine.parked = some (.edit e)) (room : s.sched.roomForEdit = true) :
    retryEdit s = takeEdit e (unpark s) := by
  rw [retryEdit, parked]
  exact if_pos (by simp [live, room])

theorem retryEdit_waits {s : State} (full : s.sched.roomForEdit = false) : retryEdit s = s := by
  unfold retryEdit
  split
  · exact if_neg (by simp [full])
  · rfl

/-- Settles O25: the edit is parked, retried with CHAIN set or clear, or waits. -/
theorem editWithoutPlaceIsParked : Obligations.EditWithoutPlaceIsParked := by
  refine ⟨fun s slot i r op read row tail short full => ?parked,
    fun s e running live parked chain staging place => ?chained,
    fun s u e a running live parked chain staging place group rest => ?closed,
    fun s e running parked full => ?waits⟩
  case parked =>
    rw [edit_joins read row, joinEdit_noRoom (s := s.readEnded .a) tail (noRoomForEdit_of full) short]
    rfl
  case chained =>
    rw [exec_effect rfl running]
    show Host.Outcome.next (retryEdit s) = _
    rw [retryEdit_taken live parked (roomForEdit_of staging place), takeEdit_chained chain]
    cases assembly : s.sched.assembly <;> simp only [unpark, State.withEngine, State.withSched, assembly] <;> rfl
  case closed =>
    have closes : exec .parkedEditRetry s = .next (acceptGroup a u) := by
      rw [exec_effect rfl running]
      show Host.Outcome.next (retryEdit s) = _
      rw [retryEdit_taken live parked (roomForEdit_of staging place), takeEdit_unchained chain, group, rest]
      cases assembly : s.sched.assembly <;> simp only [unpark, State.withEngine, State.withSched, assembly] <;>
        rfl
    have alive : u.engine.mode ≠ .halted := rest ▸ live
    have frame : u.frame = s.frame := by rw [rest]
    rw [closes]
    refine ⟨fun bad => ?_, fun good scheduled far ahead => ?_, fun good scheduled ahead near => ?_,
      fun good soon => ?_⟩
    · rw [acceptGroup_bad alive bad]
    · rw [acceptGroup_tooFar good alive scheduled (frame ▸ far) (frame ▸ ahead)]
    · rw [acceptGroup_ahead good scheduled (frame ▸ ahead) (frame ▸ near), rest]; rfl
    · rw [acceptGroup_next good (frame ▸ soon), rest]; rfl
  case waits =>
    rw [exec_effect rfl running]
    exact congrArg _ (retryEdit_waits (noRoomForEdit_of full))

/-! ### Insertion -/

/-- In a list in order the groups at a smaller or the same distance stand first. -/
theorem insertGroup_splits {now : Word} {g : Group} {list : List Group} (order : OrderGood now list) :
    ∃ before after, list = before ++ after ∧ insertGroup now g list = before ++ g :: after ∧
      (∀ h ∈ before, frameDistance now h.due ≤ frameDistance now g.due) ∧
      ∀ h ∈ after, frameDistance now g.due < frameDistance now h.due := by
  let near := fun h : Group => decide (frameDistance now h.due ≤ frameDistance now g.due)
  refine ⟨list.takeWhile near, list.dropWhile near, List.takeWhile_append_dropWhile.symm, rfl,
    fun h listed => by simpa [near] using List.mem_takeWhile_imp listed, fun h listed => ?_⟩
  have sorted : (list.dropWhile near).Pairwise fun g h => frameDistance now g.due ≤ frameDistance now h.due :=
    order.sorted.sublist (List.dropWhile_sublist _)
  cases later : list.dropWhile near with
  | nil => rw [later] at listed; cases listed
  | cons first rest =>
    have beyond : frameDistance now g.due < frameDistance now first.due := by
      have stop := List.head_dropWhile_not (p := near) (l := list) (by simp [later])
      simpa [later, near] using stop
    rw [later] at listed sorted
    obtain rfl | inRest := List.mem_cons.1 listed
    · exact beyond
    · exact Nat.lt_of_lt_of_le beyond ((List.pairwise_cons.1 sorted).1 h inRest)

/-- Settles O26. -/
theorem insertionKeepsOrder : Obligations.InsertionKeepsOrder := fun _ _ _ order ahead near =>
  ⟨order_insert order ⟨ahead, near⟩, insertGroup_splits order⟩

/-! ### CANCEL GROUP -/

/-- Settles O29: the record is read, an open group of ring A is broken, and the list is filtered by the label. -/
theorem cancelGroupRemovesItsLabel : Obligations.CancelGroupRemovesItsLabel := by
  intro s ring slot r label read fields
  have live : ((s.readEnded ring).broken ring).engine.mode ≠ .halted := by
    rw [broken_mode]; exact read.readEnded_running
  have list : ((s.readEnded ring).broken ring).sched.list = s.sched.list := by cases ring <;> rfl
  rw [exec_effect rfl read.running]
  show Host.Outcome.next (takeFetch r (fetchedCancel (parseCancel r)) s) = _
  rw [takeFetch_inFlight read, fields]
  simp only [fetchedCancel]
  rw [breakFor_broken read.readEnded_running, cancelGroups, list]
  simp only
  rw [handAll_answered (by exact live)]
  cases removed : s.sched.list.filter fun g => g.label == label <;> rfl

/-! ### Each edit at cut-over -/

/-- A source is usable unless it names a playout tap that is not open as PLAYOUT (R38). -/
theorem sourceUsable_iff (taps : Table 16 Tap) (source : Source) :
    sourceUsable taps source = true ↔ ∀ t, source = .playout t → (taps.get t).plays = true := by
  cases source <;> simp [sourceUsable]

theorem applySetRoute_conflict {w : Work} {n : LinkId} {c : Channel} {createOnly : Bool} {r : Route}
    (only : createOnly = true) (held : w.place n c ≠ none) :
    applySetRoute n c createOnly r w = .error .conflict := by
  rw [applySetRoute]
  exact if_pos (by simp [only, Option.isSome_iff_ne_none, held])

/-- Past CONFLICT the pool is checked, then the sources (R38). -/
theorem applySetRoute_free {w : Work} {n : LinkId} {c : Channel} {createOnly : Bool} {r : Route}
    (free : createOnly = true → w.place n c = none) :
    applySetRoute n c createOnly r w =
      if w.free + entriesHeld (w.place n c) < r.entries.length then .error .poolFull
      else if r.entries.all fun e => sourceUsable w.taps e.source then
        .ok { w.setPlace n c (some r) with
          free := w.free + entriesHeld (w.place n c) - r.entries.length }
      else .error .badSource := by
  rw [applySetRoute]
  refine if_neg fun conflict => ?_
  rw [Bool.and_eq_true] at conflict
  rw [free conflict.1] at conflict
  exact absurd conflict.2 (by simp)

/-- Settles O27, edit by edit. -/
theorem editsAreCheckedAtCutOver : Obligations.EditsAreCheckedAtCutOver := by
  refine ⟨fun w n c createOnly r => ⟨applySetRoute_conflict, fun free full => ?poolFull,
      fun free room bad => ?badSource, fun free room usable => ?set⟩,
    fun w n c => ⟨fun none => ?clearNone, fun r place => ?clear⟩,
    fun w n c muted => ⟨fun none => ?muteNone, fun r place => ?mute⟩,
    fun w k use => ⟨fun opened => ?busy, fun closed => ?opens⟩,
    fun w k => ⟨fun closed => ?notOpen, fun opened named => ?inUse, fun opened free => ?closes⟩⟩
  case poolFull => exact (applySetRoute_free free).trans (if_pos full)
  case badSource =>
    refine (applySetRoute_free free).trans ((if_neg (by omega)).trans (if_neg fun all => ?_))
    obtain ⟨e, listed, t, source, shut⟩ := bad
    have usable := (sourceUsable_iff _ _).1 (List.all_eq_true.1 all e listed) t source
    rw [shut] at usable
    cases usable
  case set =>
    refine (applySetRoute_free free).trans ((if_neg (by omega)).trans (if_pos ?_))
    exact List.all_eq_true.2 fun e listed => (sourceUsable_iff _ _).2 (usable e listed)
  case clearNone => simp [applyEdit, applyClearRoute, none]
  case clear => simp [applyEdit, applyClearRoute, place, Work.setPlace]
  case muteNone => simp [applyEdit, applyMuteRoute, none]
  case mute => simp [applyEdit, applyMuteRoute, place, Work.setPlace]
  case busy => exact if_neg opened
  case opens => exact if_pos closed
  case notOpen => exact if_pos closed
  case inUse => exact (if_neg opened).trans (if_pos named)
  case closes => exact (if_neg opened).trans (if_neg (by simp [free]))

end Sys2Proof.Machine
end

section
/-! SUPPORT. The cut-over of a group (R37 to R40, R52) in the terms of the statements, and the start of a frame in a
hub that runs and in one that is HALTED (R6, R7, R36, R65, R171). -/

namespace Sys2Proof.Machine

/-! ### A group one of whose commands fails -/

/-- The commands before the first that fails run, and its place and code are answered (R38). -/
theorem runMembers_error {before after : List (CmdId × EditOp)} {m : CmdId × EditOp} {v w : Work}
    {status : Status} (ran : runMembers before v = .ok w) (fails : applyEdit m.2 w = .error status) :
    runMembers (before ++ m :: after) v = .error (before.length, status) := by
  induction before generalizing v with
  | nil =>
    obtain rfl : v = w := by simpa [runMembers] using ran
    simp [runMembers, fails]
  | cons k rest ih =>
    rw [List.cons_append, runMembers]
    rw [runMembers] at ran
    cases applied : applyEdit k.2 v with
    | error code => simp [applied] at ran
    | ok x =>
      rw [applied] at ran
      simp only at ran ⊢
      cases later : runMembers rest x with
      | error code => simp [later] at ran
      | ok y =>
        rw [later] at ran
        rw [ih (later.trans ran)]
        rfl

/-- The command at the place completes with its code and the others GROUP_ABORTED (R39, R40). -/
theorem failedCompletions_append (due : Word) (status : Status) (before : List (CmdId × EditOp))
    (m : CmdId × EditOp) (after : List (CmdId × EditOp)) :
    failedCompletions due status before.length (before ++ m :: after) =
      before.map (fun k => Completion.plain k.1 .groupAborted due) ++
        Completion.plain m.1 status due ::
          after.map fun k => Completion.plain k.1 .groupAborted due := by
  induction before with
  | nil => rfl
  | cons k rest ih => rw [List.cons_append, List.length_cons, failedCompletions, ih]; rfl

/-! ### The taps that a group closes -/

/-- The taps that a group has closed so far: a tap number has runs to write at its first close only, since a tap opened
again by the same group is empty (R51, R52). -/
structure Work.ClosesOnce (w : Work) : Prop where
  emptied : ∀ c ∈ w.closed, (w.taps.get c.tap).runs = []
  first : w.closed.Pairwise fun c d => c.tap = d.tap → d.runs = []

theorem Work.ClosesOnce.of_taps {v w : Work} (h : v.ClosesOnce) {n : TapId} {t : Tap}
    (taps : w.taps = v.taps.set n t) (empty : t.runs = []) (closed : w.closed = v.closed) : w.ClosesOnce := by
  refine ⟨fun c listed => ?_, closed ▸ h.first⟩
  rw [taps, Table.get_set]
  split
  · exact empty
  · exact h.emptied c (closed ▸ listed)

theorem applyCloseTap_closesOnce {n : TapId} {v w : Work} (h : v.ClosesOnce)
    (applied : applyCloseTap n v = .ok w) : w.ClosesOnce := by
  unfold applyCloseTap at applied
  split at applied
  · cases applied
  split at applied
  · cases applied
  obtain rfl := Except.ok.inj applied
  refine ⟨fun c listed => ?_, List.pairwise_append.2 ⟨h.first, List.pairwise_singleton _ _, ?_⟩⟩
  · simp only
    rw [Table.get_set]
    split
    · rfl
    next other =>
      obtain old | new := List.mem_append.1 listed
      · exact h.emptied c old
      · obtain rfl := List.mem_singleton.1 new
        exact absurd rfl other
  · intro c old d new same
    obtain rfl := List.mem_singleton.1 new
    have runs := h.emptied c old
    rw [same] at runs
    simp only [closedRecord] at runs ⊢
    rw [runs, ite_self]

theorem applyEdit_closesOnce {op : EditOp} {v w : Work} (h : v.ClosesOnce)
    (applied : applyEdit op v = .ok w) : w.ClosesOnce := by
  cases op with
  | setRoute n c createOnly r =>
    unfold applyEdit applySetRoute at applied
    simp only at applied
    split_ifs at applied
    obtain rfl := Except.ok.inj applied
    exact ⟨h.emptied, h.first⟩
  | clearRoute n c =>
    unfold applyEdit applyClearRoute at applied
    simp only at applied
    split at applied
    · cases applied
    · obtain rfl := Except.ok.inj applied
      exact ⟨h.emptied, h.first⟩
  | muteRoute n c muted =>
    unfold applyEdit applyMuteRoute at applied
    simp only at applied
    split at applied
    · cases applied
    · obtain rfl := Except.ok.inj applied
      exact ⟨h.emptied, h.first⟩
  | openTap n use =>
    unfold applyEdit applyOpenTap at applied
    simp only at applied
    split_ifs at applied
    obtain rfl := Except.ok.inj applied
    exact h.of_taps rfl rfl rfl
  | closeTap n => exact applyCloseTap_closesOnce h applied

theorem runMembers_closesOnce {members : List (CmdId × EditOp)} {s : State} {w : Work}
    (passed : runMembers members s.work = .ok w) : w.ClosesOnce :=
  runMembers_keeps (P := Work.ClosesOnce) ⟨by simp [State.work], .nil⟩
    (fun _ _ _ _ h applied => applyEdit_closesOnce h applied) passed

/-! ### Settling a group that has just cut over -/

/-- Closed taps that wait stay in the list, and hand nothing. -/
theorem settleClosedTaps_of_waits {busy : List TapId} {taps later : List ClosedTap}
    (h : WaitFrom busy (taps ++ later)) :
    settleClosedTaps busy taps = (taps, [], (taps.map ClosedTap.tap).reverse ++ busy) ∧
      WaitFrom ((taps.map ClosedTap.tap).reverse ++ busy) later := by
  induction taps generalizing busy with
  | nil => exact ⟨rfl, h⟩
  | cons c rest ih =>
    obtain ⟨waits, others⟩ := h
    have open' : ¬ (c.runs.isEmpty && !busy.contains c.tap) = true := by
      rcases waits with runs | listed
      · simp [runs]
      · simp [listed]
    obtain ⟨settled, after⟩ := ih others
    rw [settleClosedTaps, if_neg open', settled]
    refine ⟨by simp, by simpa using after⟩

/-- Groups all of whose taps wait stay, and the pass goes on with their numbers busy. -/
theorem settleGroups_append {busy : List TapId} {groups later : List ClosingGroup}
    (filled : ∀ h ∈ groups, h.taps ≠ []) (waits : WaitFrom busy (groups.flatMap fun h => h.taps)) :
    settleGroups busy (groups ++ later) =
      (groups ++ (settleGroups (((groups.flatMap fun h => h.taps).map ClosedTap.tap).reverse ++ busy) later).1,
        (settleGroups (((groups.flatMap fun h => h.taps).map ClosedTap.tap).reverse ++ busy) later).2) := by
  induction groups generalizing busy with
  | nil => simp
  | cons h rest ih =>
    rw [List.flatMap_cons] at waits
    obtain ⟨settled, after⟩ := settleClosedTaps_of_waits waits
    have tail := ih (fun x listed => filled x (List.mem_cons_of_mem _ listed)) after
    have some : ¬ h.taps.isEmpty = true := by simpa using filled h List.mem_cons_self
    rw [List.cons_append, settleGroups, settled]
    simp only
    rw [tail, if_neg some]
    simp [List.flatMap_cons]

/-- A list every tap of which waits, read from its start. -/
theorem waitFrom_of_split {busy : List TapId} {taps : List ClosedTap}
    (h : ∀ before c after, taps = before ++ c :: after →
      c.runs ≠ [] ∨ c.tap ∈ busy ∨ ∃ d ∈ before, d.tap = c.tap ∧ d.runs ≠ []) : WaitFrom busy taps := by
  induction taps generalizing busy with
  | nil => trivial
  | cons c rest ih =>
    refine ⟨?_, ih fun before d after place => ?_⟩
    · obtain own | old | ⟨d, none, -⟩ := h [] c rest rfl
      · exact .inl own
      · exact .inr old
      · cases none
    · obtain own | old | ⟨e, listed, same, runs⟩ := h (c :: before) d after (by rw [place]; rfl)
      · exact .inl own
      · exact .inr (.inl (List.mem_cons_of_mem _ old))
      · obtain rfl | listed := List.mem_cons.1 listed
        · exact .inr (.inl (same ▸ List.mem_cons_self))
        · exact .inr (.inr ⟨e, listed, same, runs⟩)

theorem ClosingWaits.waitFrom {groups : List ClosingGroup} (h : ClosingWaits groups) :
    WaitFrom [] (groups.flatMap fun g => g.taps) :=
  waitFrom_of_split fun before c after place => (h.2 before c after place).imp id .inr

/-- Of taps closed at most once with runs, those stay that have runs to write, or whose number has: among the numbers
`busy`, or among themselves (R52, log entry 20). -/
theorem settleClosedTaps_filter {busy : List TapId} {taps : List ClosedTap}
    (first : taps.Pairwise fun c d => c.tap = d.tap → d.runs = []) (waits : ClosedTap → Bool)
    (means : ∀ c ∈ taps, waits c = true ↔ c.tap ∈ busy ∨ ∃ d ∈ taps, d.tap = c.tap ∧ d.runs ≠ []) :
    (settleClosedTaps busy taps).1 = taps.filter waits ∧
      (settleClosedTaps busy taps).2.1 = (taps.filter fun c => !waits c).flatMap closedCompletions := by
  induction taps generalizing busy with
  | nil => exact ⟨rfl, rfl⟩
  | cons c rest ih =>
    obtain ⟨later, others⟩ := List.pairwise_cons.1 first
    have mine := means c List.mem_cons_self
    have own : waits c = true ↔ ¬ (c.runs.isEmpty && !busy.contains c.tap) = true := by
      rw [mine]
      constructor
      · rintro (listed | ⟨d, listed, same, runs⟩)
        · simp [listed]
        · obtain rfl | listed := List.mem_cons.1 listed
          · simp [runs]
          · exact absurd (later d listed same.symm) runs
      · intro open'
        by_cases runs : c.runs = []
        · exact .inl (by simpa [runs] using open')
        · exact .inr ⟨c, List.mem_cons_self, rfl, runs⟩
    by_cases ends : (c.runs.isEmpty && !busy.contains c.tap) = true
    · have goes : waits c = false := Bool.eq_false_iff.2 fun stays => own.1 stays ends
      obtain ⟨empty, free⟩ : c.runs = [] ∧ c.tap ∉ busy := by simpa using ends
      obtain ⟨kept, handed⟩ := ih (busy := busy) others fun d listed => by
        rw [means d (List.mem_cons_of_mem _ listed)]
        simp [empty]
      rw [settleClosedTaps, if_pos ends]
      simp only
      rw [kept, handed]
      simp [goes]
    · have stays : waits c = true := own.2 ends
      obtain ⟨kept, handed⟩ := ih (busy := c.tap :: busy) others fun d listed => by
        rw [means d (List.mem_cons_of_mem _ listed)]
        obtain old | ⟨e, waiting, same, runs⟩ := mine.1 stays
        · by_cases tap : d.tap = c.tap <;> simp [tap, old, eq_comm]
        · obtain rfl | waiting := List.mem_cons.1 waiting
          · by_cases tap : d.tap = e.tap <;> simp [tap, runs, eq_comm]
          · exact absurd (later e waiting same.symm) runs
      rw [settleClosedTaps, if_neg ends]
      simp only
      rw [kept, handed]
      simp [stays]

/-- Whether a closed tap of a group waits, as the list of closed taps stood before (R52, log entry 20). -/
def closeWaits (groups : List ClosingGroup) (closed : List ClosedTap) (c : ClosedTap) : Bool :=
  decide ((∃ h ∈ groups, ∃ d ∈ h.taps, d.tap = c.tap) ∨ ∃ d ∈ closed, d.tap = c.tap ∧ d.runs ≠ [])

/-- A group that has just cut over, behind a list all of whose taps wait: its taps that wait stay, and where none does
its own completions are handed after the buffers (R39, R52). -/
theorem settleGroups_new {groups : List ClosingGroup} (list : ClosingWaits groups) {closed : List ClosedTap}
    (first : closed.Pairwise fun c d => c.tap = d.tap → d.runs = []) (dones : List Completion) :
    settleGroups [] (groups ++ [⟨closed, dones⟩]) =
      (groups ++ (if closed.filter (closeWaits groups closed) = [] then []
          else [⟨closed.filter (closeWaits groups closed), dones⟩]),
        ((closed.filter fun c => !closeWaits groups closed c).flatMap closedCompletions) ++
          if closed.filter (closeWaits groups closed) = [] then dones else []) := by
  obtain ⟨kept, handed⟩ := settleClosedTaps_filter first
    (busy := ((groups.flatMap fun h => h.taps).map ClosedTap.tap).reverse ++ [])
    (closeWaits groups closed) fun c _ => by
      simp only [closeWaits, decide_eq_true_eq, List.append_nil, List.mem_reverse, List.mem_map,
        List.mem_flatMap]
      refine or_congr_left ⟨?_, ?_⟩
      · rintro ⟨h, earlier, d, listed, same⟩
        exact ⟨d, ⟨h, earlier, listed⟩, same⟩
      · rintro ⟨d, ⟨h, earlier, listed⟩, same⟩
        exact ⟨h, earlier, d, listed, same⟩
  rw [settleGroups_append list.1 list.waitFrom, settleGroups]
  simp only
  rw [kept, handed]
  by_cases none : closed.filter (closeWaits groups closed) = []
  · rw [if_pos (List.isEmpty_iff.2 none), if_pos none, if_pos none]
    simp [settleGroups]
  · rw [if_neg (by simpa using none), if_neg none, if_neg none]
    simp [settleGroups]

/-- A group that passes: its working copy becomes the active state, and what has ended is handed (R39). -/
theorem cutGroup_passed {s : State} {g : Group} {w : Work} (live : s.engine.mode ≠ .halted)
    (list : ClosingWaits s.closing) (passed : runMembers g.members s.work = .ok w) :
    cutGroup s g = ((s.commit w).withClosing (s.closing ++
        (if w.closed.filter (closeWaits s.closing w.closed) = [] then []
          else [⟨w.closed.filter (closeWaits s.closing w.closed), doneCompletions g⟩]))).answered
      (((w.closed.filter fun c => !closeWaits s.closing w.closed c).flatMap closedCompletions) ++
        if w.closed.filter (closeWaits s.closing w.closed) = [] then doneCompletions g else []) := by
  rw [cutGroup, passed]
  simp only
  rw [settleClosing]
  simp only [withClosing_closing]
  rw [settleGroups_new list (runMembers_closesOnce passed).first, handAll_answered (by exact live)]
  rfl

theorem cutGroup_failed {s : State} {g : Group} (live : s.engine.mode ≠ .halted)
    {before after : List (CmdId × EditOp)} {m : CmdId × EditOp} {w : Work} {status : Status}
    (members : g.members = before ++ m :: after) (ran : runMembers before s.work = .ok w)
    (fails : applyEdit m.2 w = .error status) :
    cutGroup s g = s.answered
      (before.map (fun k => Completion.plain k.1 .groupAborted g.due) ++
        Completion.plain m.1 status g.due ::
          after.map fun k => Completion.plain k.1 .groupAborted g.due) := by
  rw [cutGroup, members, runMembers_error ran fails]
  simp only
  rw [failedCompletions_append, handAll_answered live]

/-- The cut-overs of a frame: the groups due leave the list and are taken in its order (R36, R37). -/
theorem cutOver_eq (u : State) : cutOver u =
    (u.sched.list.filter fun (g : Group) => decide (g.due = u.frame)).foldl cutGroup
      { u with sched := { u.sched with
        list := u.sched.list.filter fun (g : Group) => decide (g.due ≠ u.frame) } } := by
  have later : (fun g : Group => !(g.due == u.frame)) = fun g => decide (g.due ≠ u.frame) := by
    funext g
    rw [decide_not]
    rfl
  rw [cutOver]
  simp only
  rw [later]
  rfl

/-! ### The start of a frame -/

theorem exec_frameStart {s : State} (running : s.held = false) :
    exec .frameStart s = .next (startFrame (catchUp s)) := exec_effect rfl running

/-- Settles O28: which groups a frame start takes, and the two outcomes of each. -/
theorem cutOverIsAllOrNothing : Obligations.CutOverIsAllOrNothing := by
  refine ⟨fun s u v running state live groups => ?frame,
    fun s g live before m after w status members ran fails => cutGroup_failed live members ran fails,
    fun s g w live list passed => ?passed⟩
  case frame =>
    have now : u.frame = s.frame + 1 := by rw [state]; simp
    have cut : startSchedule u = v := by rw [startSchedule_running live, cutOver_eq, groups, now]
    have sched : v.sched = { u.sched with
        list := u.sched.list.filter fun (g : Group) => decide (g.due ≠ s.frame + 1) } := by
      rw [groups]
      exact foldl_same State.sched _ cutGroup_sched _ _
    refine ⟨cut, _, exec_frameStart running, ?_, ?_, ?_, ?_⟩ <;> rw [startFrame, ← state, cut]
    · simp
    · simp
    · simp
    · simpa using sched
  case passed => exact cutGroup_passed live list passed

/-- All 96 downstream samples are the frame pass's over the links, routes and supplies it reads (R7). -/
theorem framePass_down (u : State) (n : LinkId) (c : Channel) :
    ((framePass u).core.down.get n).get c = mixPlace u.links (tapSupplies u) ((u.core.routes.get n).get c) := by
  simp [framePass, mixAll]

theorem tapSupplies_eq (u : State) : tapSupplies u =
    Table.ofFn fun k => if u.engine.mode = .halted then 0 else supplyOf (u.taps.get k) :=
  Table.ext_get fun k => by simp [tapSupplies]

/-- Settles O20: the frame pass runs on what the links and the cut-over have left, and no part of a frame start reaches
what the host has written. -/
theorem frameStartRunsTheFramePass : Obligations.FrameStartRunsTheFramePass := by
  intro s u running state
  have rings : RingsKept s.engine (startFrame (catchUp s)).engine :=
    (catchUp_rings s).trans (startFrame_rings _)
  have frame : startFrame (catchUp s) = startTaps (framePass u) := by rw [startFrame, state]
  refine ⟨_, exec_frameStart running, ?_, ?_, ?_, ?_, ?_, ?_, fun n c => ?_, rings.cie, rings.eie, rings.hie,
    rings.baseA, rings.baseB, rings.baseComp, rings.baseEvent, rings.prodA, rings.prodB, rings.consComp,
    rings.consEvent, rings.cfgIgnored⟩
  · simp [startFrame]
  · simp [startFrame, running]
  · rw [startFrame_pending, catchUp_pending]
  · simp [frame]
  · simp [frame]
  · simp [frame]
  · rw [frame, startTaps_down, framePass_down, tapSupplies_eq]

/-! ### A frame in HALTED -/

/-- Of the steps still due a halted engine leaves the link's own (R36, R65). -/
theorem catchUp_halted {s : State} (halted : s.engine.mode = .halted) :
    catchUp s = eachLink (fun n => examineLoop n s.frame) (eachLink expireAnyDue s) := by
  have mode : (eachLink (fun n => examineLoop n s.frame) (eachLink expireAnyDue s)).engine.mode = .halted :=
    ((eachLink_control _ _).mode.trans (eachLink_control _ _).mode).trans halted
  have transfers (t : State) (h : t.engine.mode = .halted) : eachTap startTapTransfers t = t := by
    refine foldl_keeps (Q := fun u => u = t) (fun u n same => ?_) _ rfl
    rw [startTapTransfers, same, startWrite_halted h, startTapRead_halted h]
  unfold catchUp
  simp only [eachLink_frame]
  rw [releaseParked_halted mode, stopIfDue_halted mode, startFetch_halted mode, transfers _ mode,
    startCompletion_halted mode, startEvent_halted mode, startMessage_halted mode]

theorem startFrame_halted {s : State} (halted : s.engine.mode = .halted) :
    startFrame s = framePass (startLinks (advanceFrame s)) := by
  have mode : (startLinks (advanceFrame s)).engine.mode = .halted := (startLinks_mode _).trans halted
  rw [startFrame, startSchedule_halted mode]
  exact startTaps_halted mode

/-- With every transfer off no host write is in flight. -/
theorem TransfersOff.hostWrites {s : State} (off : TransfersOff s) : s.hostWrites = [] := by
  have taps (n : TapId) : tapWrite s n = [] := by
    rw [tapWrite, if_neg (by rw [(off.taps n).1]; decide)]
  simp [State.hostWrites, completionWrite, off.completion, eventWrite, off.event, routeWrite, off.slot, taps]

/-- Settles O21: of the blocks only the links and the frame pass take the frame, the playout taps silent. -/
theorem haltedFrameStartFreezesEditsAndTaps : Obligations.HaltedFrameStartFreezesEditsAndTaps := by
  intro s running good halted
  have control : ControlKept s.engine (catchUp s).engine := by
    rw [catchUp_halted halted]
    exact (eachLink_control _ _).trans (eachLink_control _ _)
  have due : (catchUp s).engine.mode = .halted := control.mode.trans halted
  have mode : (startLinks (advanceFrame (catchUp s))).engine.mode = .halted := by
    rw [startLinks_mode, advanceFrame_engine, due]
  have after : EngineGood (startFrame (catchUp s)) :=
    startFrame_engineGood (catchUp_keeps (fun _ _ => Effected.engineGood) good)
  have frame := startFrame_halted due
  have reserved : (catchUp s).engine.reserved = s.engine.reserved := by
    rw [catchUp_halted halted, eachLink_reserved, eachLink_reserved]
  have haltedAfter : (startFrame (catchUp s)).engine.mode = .halted := by rw [frame, framePass_engine, mode]
  have caught : catchUp s = eachLink (fun n => examineLoop n s.frame) (eachLink expireAnyDue s) :=
    catchUp_halted halted
  refine ⟨_, exec_frameStart running, by simp [startFrame], haltedAfter, ?cause, ?sched, ?taps, ?closing,
    ?routes, ?free, ?slot, ?parked, ?reserved, (after.halted haltedAfter).hostWrites, fun n c => ?down⟩ <;>
    rw [frame]
  case cause =>
    rw [framePass_engine, startLinks, (eachLink_control _ _).cause, advanceFrame_engine, control.cause]
  case sched => simp [caught]
  case taps => simp [caught]
  case closing => simp
  case routes => simp
  case free => simp
  case slot => simp [caught]
  case parked => simp [caught, startLinks]
  case reserved => rw [framePass_engine, startLinks_reserved, advanceFrame_engine, reserved]
  case down =>
    have silent : tapSupplies (startLinks (advanceFrame (catchUp s))) = Table.fill 16 0 :=
      Table.ext_get fun k => by simp [tapSupplies_eq, mode]
    rw [framePass_down, silent, framePass_links, framePass_routes]

end Sys2Proof.Machine
end

section
/-! SUPPORT. Fetch in the terms of the statements: the start of a fetch (R133, R134), what a record is refused for
(R138, R139), READ ROUTE and its record (R19, R20, 10.4), and FENCE (R44). -/

namespace Sys2Proof.Machine

/-! ### The start of a fetch (R133, R134) -/

section
variable {e : RingEngine}

theorem eligibleA_iff : e.eligibleA = true ↔
    ringSize e.baseA ≠ none ∧ e.prodA ≠ e.fetchA ∧ e.parked = none := by
  simp [RingEngine.eligibleA, Option.isSome_iff_ne_none, and_assoc]

theorem eligibleB_iff : e.eligibleB = true ↔ ringSize e.baseB ≠ none ∧ e.prodB ≠ e.fetchB := by
  simp [RingEngine.eligibleB, Option.isSome_iff_ne_none]

/-- A configured completion ring has a free credit while fewer than its slots less one are taken (R136). -/
theorem creditFree_iff {n : Nat} (size : ringSize e.baseComp = some n) : e.creditFree = true ↔
    ringDistance n e.consComp e.postComp + e.reserved < n - 1 := by
  simp [RingEngine.creditFree, RingEngine.posted, size]

theorem canFetch_iff : e.canFetch = true ↔ e.mode = .running ∧ e.fetch = none ∧ e.creditFree = true := by
  simp [RingEngine.canFetch, and_assoc]

/-- The arbiter takes the preferred ring of two, and the eligible one of one (R134). -/
theorem arbiter_eq : e.arbiter =
    if e.eligibleA then if e.eligibleB then some e.prefer else some .a
    else if e.eligibleB then some .b else none := by
  unfold RingEngine.arbiter
  cases e.eligibleA <;> cases e.eligibleB <;> rfl

end

theorem startFetch_starts {s : State} {ring : CmdRing} (can : s.engine.canFetch = true)
    (choice : s.engine.arbiter = some ring) :
    startFetch s = s.withEngine (s.engine.fetchStarted ring) := by
  rw [startFetch, if_pos can, choice]

theorem startFetch_waits {s : State} (h : s.engine.canFetch = false ∨ s.engine.arbiter = none) :
    startFetch s = s := by
  unfold startFetch
  split
  case isTrue can => rw [h.resolve_left (by simp [can])]
  case isFalse => rfl

/-- Settles O30: the conditions of R133 are `canFetch` and the two eligibilities, and the arbiter picks the ring. -/
theorem fetchStartReservesACredit : Obligations.FetchStartReservesACredit := by
  intro s n running size e eligibleA eligibleB credit start
  have hA : e.eligibleA = true ↔ eligibleA := eligibleA_iff
  have hB : e.eligibleB = true ↔ eligibleB := eligibleB_iff
  have hcan : e.canFetch = true ↔ e.mode = .running ∧ e.fetch = none ∧ credit := by
    rw [canFetch_iff, creditFree_iff size]
  have starts (ring : CmdRing) (can : e.canFetch = true) (choice : e.arbiter = some ring) :
      start ring (e.position ring) := by
    show exec .fetchStart s = _
    rw [exec_effect rfl running, effectOf, startFetch_starts can choice]
    rfl
  refine ⟨fun mode idle free => ?_, fun blocked => ?_⟩
  · have can : e.canFetch = true := hcan.2 ⟨mode, idle, free⟩
    refine ⟨fun a b => starts .a can ?_, fun b a => starts .b can ?_, fun a b prefer => starts .a can ?_,
      fun a b prefer => starts .b can ?_⟩
    · rw [arbiter_eq, if_pos (hA.2 a), if_neg (mt hB.1 b)]
    · rw [arbiter_eq, if_neg (mt hA.1 a), if_pos (hB.2 b)]
    · rw [arbiter_eq, if_pos (hA.2 a), if_pos (hB.2 b), prefer]
    · rw [arbiter_eq, if_pos (hA.2 a), if_pos (hB.2 b), prefer]
  · rw [exec_effect rfl running, effectOf, startFetch_waits]
    by_cases can : e.canFetch = true
    · obtain ⟨mode, idle, free⟩ := hcan.1 can
      obtain notRunning | reading | noCredit | ⟨a, b⟩ := blocked
      · exact absurd mode notRunning
      · exact absurd idle reading
      · exact absurd free noCredit
      · exact .inr (by rw [arbiter_eq, if_neg (mt hA.1 a), if_neg (mt hB.1 b)])
    · exact .inl (by simpa using can)

/-! ### What a record is refused for (R138, R139) -/

/-- How fetch checks a command that is not an edit: the ring it belongs to, where it belongs to one, and then its
fields. -/
structure Checked (own : Option CmdRing) (good : Bool) (take : CmdId → State → State) : Prop where
  wrong : ∀ id s, (∃ ring, own = some ring ∧ ring ≠ id.ring) → take id s = refuse .wrongRing id s
  bad : ∀ id s, good = false → own = none ∨ own = some id.ring → take id s = refuse .badField id s

theorem fetchedPlain_checked {α : Type} (own : CmdRing) (fields : Option α)
    (take : CmdId → α → State → State) : Checked (some own) fields.isSome (fetchedPlain own fields take) where
  wrong id s other := by
    obtain ⟨ring, ⟨⟩, apart⟩ := other
    exact if_neg (Ne.symm apart)
  bad id s unread here := by
    have none : fields = none := Option.isSome_eq_false_iff.1 unread |> Option.isNone_iff_eq_none.1
    have ring : id.ring = own := by simpa [eq_comm] using here
    unfold fetchedPlain
    rw [if_pos ring, none]

theorem fetchedCancel_checked (fields : Option Half) :
    Checked none fields.isSome (fetchedCancel fields) where
  wrong id s other := by
    obtain ⟨ring, ⟨⟩, _⟩ := other
  bad id s unread _ := by
    have none : fields = none := Option.isSome_eq_false_iff.1 unread |> Option.isNone_iff_eq_none.1
    unfold fetchedCancel
    rw [none]

/-- The row of a command that is not an edit ends its read and checks it. -/
theorem plainOf_effect {i : Instr} {r : CommandRecord} {own : Option CmdRing} {good : Bool}
    (row : plainOf i = some (r, own, good)) : i.wellFormed = true ∧ ∃ take, Checked own good take ∧
      ∀ s, effectOf i s = takeFetch r take s := by
  cases i <;> cases row
  case cancelGroup => exact ⟨rfl, _, fetchedCancel_checked _, fun s => rfl⟩
  all_goals exact ⟨rfl, _, fetchedPlain_checked _ _ _, fun s => rfl⟩

section
variable {s : State} {ring : CmdRing} {slot : Nat} {i : Instr} {r : CommandRecord}
  (read : ReadInFlight s ring slot)
include read

/-- A command of a row that its check refuses is answered with that status (R138). -/
theorem exec_refused {take : CmdId → State → State} {status : Status} (row : i.wellFormed = true)
    (effect : effectOf i s = takeFetch r take s)
    (refused : take ⟨recTag r, ring, slot⟩ (s.readEnded ring) =
      refuse status ⟨recTag r, ring, slot⟩ (s.readEnded ring)) :
    exec i s = .next (stopIfDue (((s.readEnded ring).broken ring).answered
      [.plain ⟨recTag r, ring, slot⟩ status 0])) := by
  rw [exec_effect row read.running, effect, takeFetch_inFlight read, refused,
    refuse_answered read.readEnded_running]

theorem exec_badKind {kind : Byte} (unknown : commandOfKind kind = none) :
    exec (.badKind kind r) s = .next (stopIfDue (((s.readEnded ring).broken ring).answered
      [.plain ⟨recTag r, ring, slot⟩ .badKind 0])) :=
  exec_refused read (by simp [Instr.wellFormed, kindUnknown, unknown]) rfl rfl

variable {own : Option CmdRing} {good : Bool} (row : plainOf i = some (r, own, good))
include row

theorem exec_plain_wrongRing (other : ∃ o, own = some o ∧ o ≠ ring) :
    exec i s = .next (stopIfDue (((s.readEnded ring).broken ring).answered
      [.plain ⟨recTag r, ring, slot⟩ .wrongRing 0])) := by
  obtain ⟨wellFormed, take, checked, effect⟩ := plainOf_effect row
  exact exec_refused read wellFormed (effect s) (checked.wrong _ _ other)

theorem exec_plain_badField (bad : good = false) (here : own = none ∨ own = some ring) :
    exec i s = .next (stopIfDue (((s.readEnded ring).broken ring).answered
      [.plain ⟨recTag r, ring, slot⟩ .badField 0])) := by
  obtain ⟨wellFormed, take, checked, effect⟩ := plainOf_effect row
  exact exec_refused read wellFormed (effect s) (checked.bad _ _ bad here)

end

/-- An edit is not a command of ring B (R27, R138). -/
theorem exec_edit_wrongRing {s : State} {slot : Nat} {i : Instr} {r : CommandRecord} {op : Option EditOp}
    (read : ReadInFlight s .b slot) (row : editOf i = some (r, op)) :
    exec i s = .next (stopIfDue ((s.readEnded .b).answered
      [.plain ⟨recTag r, .b, slot⟩ .wrongRing 0])) := by
  obtain ⟨wellFormed, effect⟩ := editOf_effect (s := s) row
  exact exec_refused read wellFormed effect rfl

/-! ### The codes of 10.6 -/

/-- The kind codes that 10.6 lists, with their commands. -/
theorem commandOfKind_eq_none_iff (kind : Byte) : commandOfKind kind = none ↔
    kind ∉ ([0x01, 0x02, 0x03, 0x04, 0x05, 0x08, 0x09, 0x0A, 0x10, 0x11, 0x12, 0x13, 0x14, 0x15,
      0x18] : List Byte) := by
  have codes : ∀ kind : Byte, (commandOfKind kind).isNone = true ↔
      kind ∉ ([0x01, 0x02, 0x03, 0x04, 0x05, 0x08, 0x09, 0x0A, 0x10, 0x11, 0x12, 0x13, 0x14, 0x15,
        0x18] : List Byte) := by decide +kernel
  rw [← codes, Option.isNone_iff_eq_none]

theorem commandOfRecord_wellFormed (bytes : Table 64 Byte) : (commandOfRecord bytes).wellFormed = true := by
  cases known : commandOfKind (bytes.get 0) with
  | none =>
    rw [commandOfRecord_unknown known]
    simp [Instr.wellFormed, kindUnknown, known]
  | some command =>
    rw [commandOfRecord_known known]
    exact commandOfKind_wellFormed known _

/-- A record whose kind byte is this code of 10.6 is this command. -/
theorem commandOfRecord_of_kind {bytes : Table 64 Byte} {kind : Byte} {command : CommandRecord → Instr}
    (byte : bytes.get 0 = kind) (listed : commandOfKind kind = some command) :
    commandOfRecord bytes = command ⟨Table.ofFn fun i => bytes.get i.succ⟩ :=
  commandOfRecord_known (by rw [byte, listed])

/-- Settles O31: fetch checks the kind, the ring and the fields in this order, and each code of 10.6 names its row. -/
theorem recordsAreCheckedAtFetch : Obligations.RecordsAreCheckedAtFetch := by
  refine ⟨fun s ring slot kind r read unknown => exec_badKind read unknown,
    fun s slot i r op read row => exec_edit_wrongRing read row,
    fun s ring own slot i r good read row other => exec_plain_wrongRing read row ⟨own, rfl, other⟩,
    fun s ring own slot i r read row here => exec_plain_badField read row rfl here,
    commandOfKind_eq_none_iff,
    fun bytes => ⟨commandOfRecord_wellFormed bytes, ⟨Table.ofFn fun i => bytes.get i.succ⟩,
      fun k later => recByte_tail bytes later, ?_⟩⟩
  refine ⟨?_, ?_, ?_, ?_, ?_, ?_, ?_, ?_, ?_, ?_, ?_, ?_, ?_, ?_, ?_, commandOfRecord_unknown⟩
  all_goals exact fun byte => commandOfRecord_of_kind byte rfl

/-! ### READ ROUTE (R19, R20) -/

/-- The READ ROUTE finds no route (R20). -/
theorem readTaken_empty {id : CmdId} {f : ReadFields} {s : State} (live : s.engine.mode ≠ .halted)
    (empty : (s.core.routes.get f.link).get f.channel = none) :
    readTaken id f s = s.answered [.plain id .noRoute 0] := by
  unfold readTaken
  rw [empty]
  exact hand_answered live _

theorem readTaken_route {id : CmdId} {f : ReadFields} {s : State} {route : Route}
    (held : (s.core.routes.get f.link).get f.channel = some route) :
    readTaken id f s =
      s.withCore { s.core with slot := some ⟨id, f.address, f.link, f.channel, route⟩ } := by
  unfold readTaken
  rw [held]

theorem takeRead_emptySlot {id : CmdId} {f : ReadFields} {s : State} (free : s.core.slot = none) :
    takeRead id f s = readTaken id f s := by
  rw [takeRead, if_pos (by simp [free])]

theorem takeRead_occupied {id : CmdId} {f : ReadFields} {s : State} (occupied : s.core.slot ≠ none) :
    takeRead id f s =
      s.withEngine { s.engine with parked := some (.readRoute id f.link f.channel f.address) } := by
  rw [takeRead, if_neg (by simpa using occupied)]

@[simp] theorem broken_core (s : State) (ring : CmdRing) : (s.broken ring).core = s.core := by
  cases ring <;> rfl

/-- With good fields in ring A the command reaches the Switch Core (R19). -/
theorem exec_readRoute_taken {s : State} {slot : Nat} {r : CommandRecord} {f : ReadFields}
    (read : ReadInFlight s .a slot) (fields : parseReadRoute r = some f) :
    exec (.readRoute r) s =
      .next (stopIfDue (takeRead ⟨recTag r, .a, slot⟩ f ((s.readEnded .a).broken .a))) := by
  rw [exec_effect rfl read.running, effectOf, takeFetch_inFlight read,
    fetchedPlain_taken read.readEnded_running fields]

section
variable {s : State} {id : CmdId} {n : LinkId} {c : Channel} {address : Word}
  (parked : s.engine.parked = some (.readRoute id n c address))
include parked

theorem takeParkedRead_waits (occupied : s.core.slot ≠ none) : takeParkedRead s = s := by
  rw [takeParkedRead, parked]
  exact if_neg (by simpa using fun _ => occupied)

theorem takeParkedRead_taken (live : s.engine.mode ≠ .halted) (free : s.core.slot = none) :
    takeParkedRead s = readTaken id ⟨n, c, address⟩ (unpark s) := by
  rw [takeParkedRead, parked]
  exact if_pos (by simp [live, free])

end

theorem finishRead_answered {s : State} {r : ReadSlot} (live : s.engine.mode ≠ .halted) :
    finishRead r s = (s.withCore { s.core with slot := none }).answered
      [.plain r.id .done (BitVec.ofNat 32 r.route.entries.length)] :=
  hand_answered (s := s.withCore { s.core with slot := none }) live _

/-! ### The route record (10.2, 10.4) -/

theorem length_entryBytes (e : SourceEntry) : (entryBytes e).length = 8 := by
  unfold entryBytes
  cases e.source <;> cases e.gate <;> rfl

/-- The 8 bytes of a source entry as the statement writes them. -/
theorem entryBytes_eq (e : SourceEntry) : entryBytes e =
    (match e.source with
      | .inbound n c => [0, BitVec.ofNat 8 n.val, BitVec.ofNat 8 c.val]
      | .playout t => [1, BitVec.ofNat 8 t.val, 0]) ++ [BitVec.ofNat 8 e.step.val] ++
    (match e.gate with
      | none => [0, 0]
      | some g => [if g.sense = .pressed then 0x81 else 0x82,
          BitVec.ofNat 8 (g.link.val + 16 * g.key.val)]) ++ [0, 0] := by
  obtain ⟨source, step, gate⟩ := e
  cases source <;> cases gate with
  | none => rfl
  | some g =>
    obtain ⟨link, key, sense⟩ := g
    cases sense <;> rfl

theorem length_flatMap_entryBytes (entries : List SourceEntry) :
    (entries.flatMap entryBytes).length = 8 * entries.length := by
  induction entries with
  | nil => rfl
  | cons e entries ih =>
    rw [List.flatMap_cons, List.length_append, length_entryBytes, ih, List.length_cons]
    omega

/-- Entry `i` stands in bytes 8 i to 8 i + 7. -/
theorem flatMap_entryBytes_place {entries : List SourceEntry} {i : Nat} {e : SourceEntry}
    (place : entries[i]? = some e) (rest : List Byte) :
    ((entries.flatMap entryBytes ++ rest).drop (8 * i)).take 8 = entryBytes e := by
  induction entries generalizing i with
  | nil => cases place
  | cons head entries ih =>
    rw [List.flatMap_cons, List.append_assoc]
    cases i with
    | zero =>
      cases place
      rw [Nat.mul_zero, List.drop_zero, ← length_entryBytes e, List.take_left]
    | succ i =>
      have skip : 8 * (i + 1) = (entryBytes head).length + 8 * i := by rw [length_entryBytes]; omega
      rw [skip, List.drop_length_add_append]
      exact ih place

/-- The first 8 bytes of a route record: the destination, the muted field and the count. -/
def routeHead (n : LinkId) (c : Channel) (r : Route) : List Byte :=
  [codeByte n.val, codeByte c.val, codeByte (boolBit r.muted 0), codeByte r.entries.length, 0, 0, 0, 0]

theorem routeRecordBytes_eq (n : LinkId) (c : Channel) (r : Route) : routeRecordBytes n c r =
    routeHead n c r ++ (r.entries.flatMap entryBytes ++ zeroBytes (40 - (8 + 8 * r.entries.length))) := by
  have length : (routeHead n c r ++ r.entries.flatMap entryBytes).length = 8 + 8 * r.entries.length := by
    rw [List.length_append, length_flatMap_entryBytes]; rfl
  rw [← List.append_assoc, ← length]
  rfl

theorem byteAt_zeroBytes (n k : Nat) : byteAt (zeroBytes n) k = 0 := by
  rw [byteAt, zeroBytes, List.getD_eq_getElem?_getD, List.getElem?_replicate]
  split <;> rfl

theorem length_routeRecordBytes {n : LinkId} {c : Channel} {r : Route} (sized : r.sized) :
    (routeRecordBytes n c r).length = 40 := by
  have atMost : r.entries.length ≤ 4 := sized.2
  rw [routeRecordBytes_eq, List.length_append, List.length_append, length_flatMap_entryBytes, zeroBytes,
    List.length_replicate]
  show 8 + _ = _
  omega

/-- The bytes past the entries are zero. -/
theorem byteAt_routeRecordBytes_zero {n : LinkId} {c : Channel} {r : Route} {k : Nat}
    (past : 8 + 8 * r.entries.length ≤ k) : byteAt (routeRecordBytes n c r) k = 0 := by
  have front : (routeHead n c r ++ r.entries.flatMap entryBytes).length ≤ k := by
    rw [List.length_append, length_flatMap_entryBytes]
    exact past
  rw [routeRecordBytes_eq, ← List.append_assoc, byteAt, List.getD_append_right _ _ _ _ front]
  exact byteAt_zeroBytes _ _

/-- Settles O32: the slot decides between the answer, the slot and the parked command, and the record is the head,
the entries of 8 bytes each and zeros. -/
theorem readRouteUsesTheSlot : Obligations.ReadRouteUsesTheSlot := by
  refine ⟨fun s slot r f read fields => ?atFetch, fun s id n c address running live parked => ?parked,
    fun s r running live held => ?written, fun s r held sized => ?record⟩
  case atFetch =>
    have live : ((s.readEnded .a).broken .a).engine.mode ≠ .halted := by
      rw [broken_mode]; exact read.readEnded_running
    rw [exec_readRoute_taken read fields]
    refine ⟨fun free empty => ?_, fun route free held => ?_, fun occupied => ?_⟩
    · rw [takeRead_emptySlot (s := (s.readEnded .a).broken .a) free, readTaken_empty live empty]
    · rw [takeRead_emptySlot (s := (s.readEnded .a).broken .a) free,
        readTaken_route (s := (s.readEnded .a).broken .a) held]
      rfl
    · rw [takeRead_occupied (s := (s.readEnded .a).broken .a) occupied]
      rfl
  case parked =>
    rw [exec_effect rfl running, effectOf]
    refine ⟨fun occupied => ?_, fun free empty => ?_, fun route free held => ?_⟩
    · rw [takeParkedRead_waits parked occupied]
    · rw [takeParkedRead_taken parked live free, readTaken_empty (f := ⟨n, c, address⟩) (s := unpark s) live empty]
      rfl
    · rw [takeParkedRead_taken parked live free, readTaken_route (f := ⟨n, c, address⟩) (s := unpark s) held]
      rfl
  case written =>
    rw [exec_effect rfl running, effectOf, routeWritten, held]
    simp only
    rw [finishRead_answered live]
    rfl
  case record =>
    refine ⟨routeRecordBytes r.link r.channel r.route, by rw [routeWrite, held],
      length_routeRecordBytes sized, ?_, fun i e place => ?_, fun k past => byteAt_routeRecordBytes_zero past⟩
    · rw [routeRecordBytes_eq]
      cases muted : r.route.muted <;> simp [routeHead, muted, boolBit, codeByte]
    · have head : 8 + 8 * i = (routeHead r.link r.channel r.route).length + 8 * i := rfl
      rw [routeRecordBytes_eq, head, List.drop_length_add_append, flatMap_entryBytes_place place]
      exact entryBytes_eq e

/-! ### FENCE (R44) -/

section
variable {id : CmdId} {s : State}

/-- Nothing earlier is outstanding: the FENCE completes at once. -/
theorem takeFence_released (live : s.engine.mode ≠ .halted) (last : s.engine.outstanding ≤ 1) :
    takeFence id () s = { s with
      engine := { s.engine with
        outstanding := 0
        postQueue := s.engine.postQueue ++ [.plain id .done 0] } } := by
  have zero : s.engine.outstanding - 1 = 0 := by omega
  have count : (uncount .a s).engine.outstanding = 0 := zero
  rw [takeFence, if_pos count, post_running (s := uncount .a s) live]
  simp only [uncount, withEngine_engine, zero]
  rfl

theorem takeFence_parked (earlier : 1 < s.engine.outstanding) :
    takeFence id () s = { s with
      engine := { s.engine with
        outstanding := s.engine.outstanding - 1
        parked := some (.fence id) } } := by
  have pos : (uncount .a s).engine.outstanding ≠ 0 := by
    show s.engine.outstanding - 1 ≠ 0
    omega
  rw [takeFence, if_neg pos]
  rfl

end

/-- Settles O33: the FENCE takes itself off the count and waits for 0. -/
theorem fenceWaitsForEarlierCommands : Obligations.FenceWaitsForEarlierCommands := by
  refine ⟨fun s u slot r read fields ended => ?atFetch, fun s id running live parked => ?parked⟩
  case atFetch =>
    have live : u.engine.mode ≠ .halted := by
      rw [ended, broken_mode]; exact read.readEnded_running
    rw [exec_effect rfl read.running, effectOf, takeFetch_inFlight read,
      fetchedPlain_taken read.readEnded_running fields, ← ended]
    exact ⟨fun last => by rw [takeFence_released live last], fun earlier => by rw [takeFence_parked earlier]⟩
  case parked =>
    rw [exec_effect rfl running, effectOf, releaseFence, parked]
    refine ⟨fun zero => ?_, fun outstanding => ?_⟩
    · simp only
      rw [if_pos (by simp [live, zero]), post_running (s := unpark s) live]
      rfl
    · simp only
      rw [if_neg (by simp [outstanding])]

end Sys2Proof.Machine
end

section
/-! SUPPORT. Posting in the terms of the statements: completions (R136, R143, R144), the pending set and the event
writes (R150 to R155), and the bytes of the records (10.3, 10.4). -/

namespace Sys2Proof.Machine

/-! ### Byte order (R172) -/

theorem le16_bytes16 (h : Half) : le16 (h.extractLsb' 0 8) (h.extractLsb' 8 8) = h :=
  lineBytes16_join h

theorem le32_bytes32 (w : Word) :
    le32 (w.extractLsb' 0 8) (w.extractLsb' 8 8) (w.extractLsb' 16 8) (w.extractLsb' 24 8) = w := by
  have high : w.extractLsb' 24 8 ++ w.extractLsb' 16 8 = w.extractLsb' 16 16 :=
    BitVec.extractLsb'_append_extractLsb'_eq_extractLsb' rfl
  have upper : w.extractLsb' 16 16 ++ w.extractLsb' 8 8 = w.extractLsb' 8 24 :=
    BitVec.extractLsb'_append_extractLsb'_eq_extractLsb' rfl
  calc le32 (w.extractLsb' 0 8) (w.extractLsb' 8 8) (w.extractLsb' 16 8) (w.extractLsb' 24 8)
      = w.extractLsb' 8 24 ++ w.extractLsb' 0 8 := by rw [le32, high, upper]
    _ = w.extractLsb' 0 32 := BitVec.extractLsb'_append_extractLsb'_eq_extractLsb' rfl
    _ = w := BitVec.extractLsb'_eq_self

/-! ### Completions (R136, R144) -/

theorem startCompletion_oldest {s : State} {c : Completion} {rest : List Completion}
    (live : s.engine.mode ≠ .halted) (idle : s.engine.compWrite = none)
    (queue : s.engine.postQueue = c :: rest) :
    startCompletion s =
      s.withEngine { s.engine with postQueue := rest, compWrite := some (c, s.frame) } := by
  unfold startCompletion
  rw [queue]
  exact if_pos (by simp [live, idle])

theorem completionWritten_ok {s : State} (writing : s.engine.compWrite.isSome = true) :
    completionWritten .ok s = s.withEngine s.engine.completionPosted :=
  if_pos writing

/-- Byte 7 of a completion record: its ring and whether it is late. -/
theorem completionFlags_eq (c : Completion) :
    codeByte ((match c.id.ring with | .a => 0 | .b => 1) + boolBit c.late 1) =
      BitVec.ofNat 8 ((if c.id.ring = .b then 1 else 0) + if c.late then 2 else 0) := by
  cases c.id.ring <;> cases c.late <;> rfl

/-- Settles O34: the oldest completion becomes the write in flight, and the bytes are the fields in their places. -/
theorem completionsArePostedInOrder : Obligations.CompletionsArePostedInOrder := by
  refine ⟨fun s c rest running live idle queue => ?_, fun s w running writing => ?_,
    fun s c f writing => ⟨completionBytes c f, ?_, rfl, le32_bytes32 c.id.tag, le16_bytes16 _, rfl,
      completionFlags_eq c, le32_bytes32 f, le32_bytes32 c.result⟩, fun _ _ _ _ => ⟨rfl, rfl⟩, by decide⟩
  · rw [exec_effect rfl running, effectOf, startCompletion_oldest live idle queue]
    rfl
  · rw [exec_effect rfl running, effectOf, completionWritten_ok (by simp [writing])]
    rfl
  · rw [completionWrite, writing]

/-! ### The pending set (R150, R151, R155) -/

theorem items_all_iff {n : Nat} {α : Type} {t : Table n α} {p : α → Bool} :
    t.items.all p = true ↔ ∀ i, p (t.get i) = true := by
  rw [List.all_eq_true]
  refine ⟨fun all i => all _ (table_get_mem t i), fun all a listed => ?_⟩
  obtain ⟨i, bound, rfl⟩ := List.getElem_of_mem listed
  exact all ⟨i, t.size_eq ▸ bound⟩

theorem quietSet_iff {u : EventUnit} : u.quietSet = true ↔ ∀ i, u.set.get i = none := by
  rw [EventUnit.quietSet, items_all_iff]
  simp only [Option.isNone_iff_eq_none]

section
variable {s : State}

theorem eventSlotFree_iff : eventSlotFree s = true ↔ ∃ n, ringSize s.engine.baseEvent = some n ∧
    ringDistance n s.engine.consEvent s.events.post < n - 1 := by
  unfold eventSlotFree
  cases ringSize s.engine.baseEvent <;> simp

theorem canStartEvent_iff : canStartEvent s = true ↔
    (∃ n, ringSize s.engine.baseEvent = some n ∧
      ringDistance n s.engine.consEvent s.events.post < n - 1) ∧
    s.engine.mode ≠ .halted ∧ s.events.write = none := by
  simp [canStartEvent, eventSlotFree_iff, and_assoc]

theorem raise_direct {b : EventBody} (start : canStartEvent s = true) (quiet : s.events.quietSet = true) :
    raise b s = s.withEvents { s.events with write := some (.event ⟨b, s.frame, 1⟩) } :=
  if_pos (by simp [start, quiet])

/-- An event joins the pending set where it cannot be posted directly (R151). -/
theorem raise_held_back {b : EventBody} (back : canStartEvent s = false ∨ s.events.quietSet = false) :
    raise b s = s.withEvents { s.events with
      set := s.events.set.set b.source (some (joinEntry (s.events.set.get b.source) ⟨b, s.frame, 1⟩)) } :=
  if_neg (by simpa using fun start => back.resolve_left (by simp [start]))

theorem joinEntry_eq (entry : Option EventRecord) (r : EventRecord) :
    joinEntry entry r = (match entry with | none => r | some earlier => earlier.merge r) := by
  cases entry <;> rfl

end

/-- Settles O36: an event is posted directly exactly where a write can start and the set is empty. -/
theorem eventsArePostedOrHeld : Obligations.EventsArePostedOrHeld := by
  refine ⟨fun s b n size room live idle none => ?direct, fun s b back => ?joins, fun s r writing => ?returned,
    fun s n m writing => ?message⟩
  case direct =>
    rw [raise_direct (canStartEvent_iff.2 ⟨⟨n, size, room⟩, live, idle⟩) (quietSet_iff.2 none)]
    rfl
  case joins =>
    rw [raise_held_back ?_, joinEntry_eq]
    · rfl
    · by_contra both
      simp only [not_or, Bool.not_eq_false] at both
      obtain ⟨⟨n, size, room⟩, live, idle⟩ := canStartEvent_iff.1 both.1
      have none := quietSet_iff.1 both.2
      obtain unconfigured | ⟨m, size', full⟩ | halted | writing | ⟨i, held⟩ := back
      · rw [size] at unconfigured; cases unconfigured
      · rw [size] at size'; cases size'
        omega
      · exact live halted
      · exact writing idle
      · exact held (none i)
  case returned =>
    rw [returnEventWrite, writing]
    rfl
  case message =>
    rw [returnEventWrite, writing]
    rfl

/-! ### Event and message writes (R150, R153, R154) -/

/-- The first index that meets a test. -/
theorem find?_finRange {n : Nat} {p : Fin n → Bool} {i : Fin n} (meets : p i = true)
    (first : ∀ j, j < i → p j = false) : (List.finRange n).find? p = some i := by
  rw [List.find?_eq_some_iff_getElem]
  refine ⟨meets, i.val, by simp, by simp, fun j before => ?_⟩
  have earlier : p ⟨j, before.trans i.isLt⟩ = false := first _ before
  simpa using earlier

theorem drain_first {u : EventUnit} {i : Fin 40} {r : EventRecord} (held : u.set.get i = some r)
    (first : ∀ j, j < i → u.set.get j = none) :
    u.drain = { u with write := some (.event r), set := u.set.set i none } := by
  have choice : u.first = some i :=
    find?_finRange (by simp [held]) fun j before => by simp [first j before]
  rw [EventUnit.drain, choice]
  simp [held]

/-- The links are examined from the pointer on, and round (R154). -/
theorem messageLink_first {links : Table 8 Link} {pointer : LinkId} {k : Fin 8}
    (waits : (links.get (pointer + k)).inQueue ≠ [])
    (first : ∀ j, j < k → (links.get (pointer + j)).inQueue = []) :
    messageLink links pointer = some (pointer + k) := by
  have choice : (List.finRange 8).find? ((fun n => !(links.get n).inQueue.isEmpty) ∘ fun i => pointer + i) =
      some k :=
    find?_finRange (by simpa using waits) fun j before => by simp [first j before]
  rw [messageLink, messageOrder, List.find?_map, choice]
  rfl

/-! ### The bytes of event records (10.4) -/

theorem length_recordHead (kind who count : Nat) (frame : Word) :
    (recordHead kind who count frame).length = 8 := rfl

/-- A record of 64 bytes: the head, the fields of its kind, zeros. -/
theorem padTo_recordHead (kind who count : Nat) (frame : Word) (fields : List Byte) :
    padTo 64 (recordHead kind who count frame ++ fields) =
      recordHead kind who count frame ++ fields ++ List.replicate (56 - fields.length) 0 := by
  have zeros : 64 - (recordHead kind who count frame ++ fields).length = 56 - fields.length := by
    rw [List.length_append, length_recordHead]
    omega
  rw [padTo, zeros, zeroBytes]

theorem messageRecordBytes_eq (n : LinkId) (m : InMessage) : messageRecordBytes n m =
    recordHead 3 n.val 1 m.frame ++ [BitVec.ofNat 8 m.bytes.length] ++ List.replicate 11 0 ++ m.bytes ++
      List.replicate (44 - m.bytes.length) 0 := by
  have front : padTo 20 (eventHeader 3 n.val 1 m.frame ++ [codeByte m.bytes.length]) =
      recordHead 3 n.val 1 m.frame ++ ([BitVec.ofNat 8 m.bytes.length] ++ List.replicate 11 0) := rfl
  have zeros : 56 - ([BitVec.ofNat 8 m.bytes.length] ++ List.replicate 11 0 ++ m.bytes).length =
      44 - m.bytes.length := by
    rw [List.length_append, List.length_append, List.length_replicate, List.length_singleton]
    omega
  rw [messageRecordBytes, front, List.append_assoc, padTo_recordHead, zeros]
  simp only [List.append_assoc]

section
variable {s : State} (running : s.held = false)
include running

theorem exec_eventWriteEnd {w : EventWrite} (writing : s.events.write = some w) :
    exec (.eventWriteEnd .ok) s = .next (eventPosted w s) := by
  rw [exec_effect rfl running, effectOf, eventWritten, writing]

variable (can : canStartEvent s = true)
include can

theorem exec_eventWriteStart {i : Fin 40} {r : EventRecord} (held : s.events.set.get i = some r)
    (first : ∀ j, j < i → s.events.set.get j = none) :
    exec .eventWriteStart s = .next (s.withEvents { s.events with
      write := some (.event r), set := s.events.set.set i none }) := by
  rw [exec_effect rfl running, effectOf, startEvent, if_pos can, drain_first held first]

theorem exec_messageEvent {k : Fin 8} {m : InMessage} {rest : List InMessage}
    (none : ∀ i, s.events.set.get i = none) (waits : (s.links.get (s.events.pointer + k)).inQueue = m :: rest)
    (first : ∀ j, j < k → (s.links.get (s.events.pointer + j)).inQueue = []) :
    exec .messageEvent s = .next (s.withEvents { s.events with
      write := some (.message (s.events.pointer + k) m), pointer := s.events.pointer + k + 1 }) := by
  rw [exec_effect rfl running, effectOf, startMessage, if_pos (by simp [can, quietSet_iff.2 none]),
    serveMessage, messageLink_first (by simp [waits]) first]
  simp only [waits]
  rfl

end

/-- Settles O37: the first pending source, and then the first waiting link from the pointer, is written, and its
record is the head, the fields and zeros. -/
theorem eventWritesDrainInOrder : Obligations.EventWritesDrainInOrder := by
  refine ⟨fun s n i r running size room live idle held first => ?_,
    fun s n k m rest running size room live idle none waits first => ?_,
    fun s r running writing => ?_, fun s n m running writing => ?_, fun s w writing => ⟨?_, ?_, ?_, ?_, ?_, ?_⟩,
    by decide, rfl, by decide, by decide⟩
  · rw [exec_eventWriteStart running (canStartEvent_iff.2 ⟨⟨n, size, room⟩, live, idle⟩) held first]
    rfl
  · rw [exec_messageEvent running (canStartEvent_iff.2 ⟨⟨n, size, room⟩, live, idle⟩) none waits first]
    rfl
  · rw [exec_eventWriteEnd running writing]
    rfl
  · rw [exec_eventWriteEnd running writing]
    rfl
  · rw [eventWrite, writing]
  · rintro n m rfl -
    exact messageRecordBytes_eq n m
  · rintro n old new why f k rfl
    exact padTo_recordHead 1 n.val k f [codeByte old.code, codeByte new.code, codeByte why.code]
  · rintro n field mask f k rfl
    rw [List.append_assoc]
    exact padTo_recordHead 2 n.val k f (lowFirst field ++ lowFirst mask)
  · rintro n kind f k rfl
    cases kind with
    | badLength => exact padTo_recordHead 4 n.val k f [codeByte MessageErrorKind.badLength.code]
    | tooLong => exact padTo_recordHead 4 n.val k f [codeByte MessageErrorKind.tooLong.code]
  · rintro t f k rfl
    have head := padTo_recordHead 5 t.val k f []
    rw [List.append_nil] at head
    exact head

end Sys2Proof.Machine
end

section
/-! SUPPORT. What one frame does to a tap (R58 to R62), in the terms of the statement. -/

namespace Sys2Proof.Machine

/-! ### The buffer whose sample moves -/

/-- What `updateFirst` puts in place depends on the member found alone. -/
theorem updateFirst_of_same {α : Type} {p : α → Bool} {f g : α → α} {l : List α} {a : α}
    (found : l.find? p = some a) (same : f a = g a) : updateFirst p f l = updateFirst p g l := by
  induction l with
  | nil => rfl
  | cons x l ih =>
    by_cases meets : p x = true
    · rw [List.find?_cons_of_pos meets] at found
      cases found
      rw [updateFirst, updateFirst, if_pos meets, if_pos meets, same]
    · rw [List.find?_cons_of_neg meets] at found
      rw [updateFirst, updateFirst, if_neg meets, if_neg meets, ih found]

/-- A second change of the first member that meets the test, which it still meets. -/
theorem updateFirst_again {α : Type} {p : α → Bool} {f g : α → α} {l : List α}
    (still : ∀ a, p a = true → p (f a) = true) :
    updateFirst p g (updateFirst p f l) = updateFirst p (fun a => g (f a)) l := by
  induction l with
  | nil => rfl
  | cons x l ih =>
    by_cases meets : p x = true
    · rw [updateFirst, updateFirst, if_pos meets, if_pos meets, updateFirst, if_pos (still x meets)]
    · rw [updateFirst, updateFirst, if_neg meets, if_neg meets, updateFirst, if_neg meets, ih]

/-- The buffer once one of its samples has moved (R59): its first takes the gap count. -/
def Buffer.moved (gap : Nat) (b : Buffer) : Buffer :=
  { b with
    position := b.position + 1
    gapResult := if b.position = 0 then some gap else b.gapResult }

section
variable {n : TapId} {t : Tap}

theorem starveIfEmpty_stays (unspent : ∃ c ∈ t.buffers, c.position < c.length) :
    starveIfEmpty n t = (t, []) := by
  rw [starveIfEmpty, if_pos (by simpa [Buffer.unspent] using unspent)]

theorem starveIfEmpty_starves (spent : ∀ c ∈ t.buffers, c.length ≤ c.position) :
    starveIfEmpty n t = ({ t with state := .starved }, [.event (.tapStarved n)]) := by
  rw [starveIfEmpty, if_neg (by simpa [Buffer.unspent] using spent)]

end

section
variable {n : TapId} {t : Tap} {b : Buffer} (current : t.current = some b)
include current

theorem advance_takeGap : advance (takeGap t b) = { t with
    gap := if b.position = 0 then 0 else t.gap
    buffers := updateFirst Buffer.unspent (fun _ => b.moved t.gap) t.buffers } := by
  by_cases first : b.position = 0
  · have moved : updateFirst Buffer.unspent (fun x => { x with position := x.position + 1 })
        (updateFirst Buffer.unspent (fun x => { x with gapResult := some t.gap }) t.buffers) =
        updateFirst Buffer.unspent (fun _ => b.moved t.gap) t.buffers := by
      refine (updateFirst_again ?_).trans (updateFirst_of_same current ?_)
      · exact fun _ unspent => unspent
      · simp [Buffer.moved, first]
    rw [takeGap, if_pos first, advance, if_pos first, moved]
  · have moved : updateFirst Buffer.unspent (fun x => { x with position := x.position + 1 }) t.buffers =
        updateFirst Buffer.unspent (fun _ => b.moved t.gap) t.buffers :=
      updateFirst_of_same current (by simp [Buffer.moved, first])
    rw [takeGap, if_neg first, advance, if_neg first, moved]

/-- The tap once a sample of its current buffer has moved. -/
theorem moveSample_more (more : b.position + 1 < b.length) : moveSample n b t =
    ({ t with
      gap := if b.position = 0 then 0 else t.gap
      buffers := updateFirst Buffer.unspent (fun _ => b.moved t.gap) t.buffers }, []) := by
  rw [moveSample, advance_takeGap current, if_neg (by omega)]

theorem moveSample_captured (last : b.position + 1 = b.length) (captures : t.plays = false) :
    moveSample n b t = starveIfEmpty n { t with
      gap := if b.position = 0 then 0 else t.gap
      buffers := updateFirst Buffer.unspent (fun _ => b.moved t.gap) t.buffers } := by
  rw [moveSample, advance_takeGap current, if_pos last, if_neg (by simp [captures])]

/-- A playout buffer that is spent completes and leaves the list (R60). -/
theorem moveSample_played (last : b.position + 1 = b.length) (plays : t.plays = true) :
    moveSample n b t =
      (let p := starveIfEmpty n { t with
        gap := if b.position = 0 then 0 else t.gap
        buffers := (updateFirst Buffer.unspent (fun _ => b.moved t.gap) t.buffers).filter Buffer.unspent }
      (p.1, .complete (doneBuffer (b.moved t.gap)) :: p.2)) := by
  rw [moveSample, advance_takeGap current, if_pos last, if_pos plays]
  rfl

theorem moveSample_played_left (last : b.position + 1 = b.length) (plays : t.plays = true)
    (left : (updateFirst Buffer.unspent (fun _ => b.moved t.gap) t.buffers).filter Buffer.unspent ≠ []) :
    moveSample n b t = ({ t with
        gap := if b.position = 0 then 0 else t.gap
        buffers := (updateFirst Buffer.unspent (fun _ => b.moved t.gap) t.buffers).filter Buffer.unspent },
      [.complete (doneBuffer (b.moved t.gap))]) := by
  obtain ⟨c, listed⟩ := List.exists_mem_of_ne_nil _ left
  have unspent : c.position < c.length := by simpa [Buffer.unspent] using (List.mem_filter.1 listed).2
  rw [moveSample_played current last plays, starveIfEmpty_stays ⟨c, listed, unspent⟩]

theorem moveSample_played_none (last : b.position + 1 = b.length) (plays : t.plays = true)
    (none : (updateFirst Buffer.unspent (fun _ => b.moved t.gap) t.buffers).filter Buffer.unspent = []) :
    moveSample n b t = ({ t with
        state := .starved
        gap := if b.position = 0 then 0 else t.gap
        buffers := (updateFirst Buffer.unspent (fun _ => b.moved t.gap) t.buffers).filter Buffer.unspent },
      [.complete (doneBuffer (b.moved t.gap)), .event (.tapStarved n)]) := by
  rw [moveSample_played current last plays, none, starveIfEmpty_starves (by simp)]

end

/-- Where the current buffer is spent, the unspent ones stay. -/
theorem leaves_unspent {b : Buffer} (last : b.position + 1 = b.length) :
    (fun c : Buffer => decide (b.position + 1 < b.length) || decide (c.position < c.length)) =
      Buffer.unspent := by
  funext c
  simp [last, Buffer.unspent]

/-! ### A frame of an open tap -/

section
variable {n : TapId} {x : Sample} {t : Tap} (isOpen : t.state ≠ .closed)
include isOpen

/-- A tap without a usable buffer counts a gap frame (R58). -/
theorem tapFrame_gap (none : t.current = none ∨
      ∃ b, t.current = some b ∧ t.plays = true ∧ b.transferred = 0) :
    tapFrame n x t = (({ t with gap := min 65535 (t.gap + 1) }, []), false) := by
  unfold tapFrame
  rw [if_neg isOpen]
  obtain none | ⟨b, current, plays, unread⟩ := none
  · rw [none]
    rfl
  · rw [current]
    exact if_pos (by simp [usable, plays, unread])

variable {b : Buffer} (current : t.current = some b)
include current

theorem tapFrame_usable (ready : usable t b = true) : tapFrame n x t =
    if transferLate t b then ((takeGap (runTap t) b, []), true)
    else if t.plays then
      (moveSample n b { runTap t with runs := dropTakenRun b.position t.runs }, false)
    else (moveSample n b (placeSample b x (runTap t)), false) := by
  unfold tapFrame
  rw [if_neg isOpen, current]
  exact if_neg (by simp [ready])

theorem tapFrame_captures (captures : t.plays = false) (room : t.runs.length < 2) :
    tapFrame n x t = (moveSample n b (placeSample b x (runTap t)), false) := by
  rw [tapFrame_usable isOpen current (by simp [usable, captures]),
    if_neg (by simpa [transferLate, captures] using room), if_neg (by simp [captures])]

theorem tapFrame_plays (plays : t.plays = true) (arrived : b.position < b.transferred) :
    tapFrame n x t =
      (moveSample n b { runTap t with runs := dropTakenRun b.position t.runs }, false) := by
  have read : 0 < b.transferred := by omega
  rw [tapFrame_usable isOpen current (by simp [usable, read]),
    if_neg (by simp [transferLate, plays, sampleArrived, arrived]), if_pos plays]

/-- A late transfer moves no sample (log entry 9). -/
theorem tapFrame_late (late : (t.plays = false ∧ 2 ≤ t.runs.length) ∨
      (t.plays = true ∧ 0 < b.transferred ∧ b.transferred ≤ b.position)) :
    tapFrame n x t = ((takeGap (runTap t) b, []), true) := by
  obtain ⟨captures, full⟩ | ⟨plays, read, behind⟩ := late
  · rw [tapFrame_usable isOpen current (by simp [usable, captures]),
      if_pos (by simpa [transferLate, captures] using full)]
  · rw [tapFrame_usable isOpen current (by simp [usable, read]),
      if_pos (by simpa [transferLate, plays, sampleArrived] using behind)]

end

theorem takeGap_eq (t : Tap) (b : Buffer) : takeGap t b = { t with
    gap := if b.position = 0 then 0 else t.gap
    buffers := if b.position = 0 then
        updateFirst Buffer.unspent (fun c => { c with gapResult := some t.gap }) t.buffers
      else t.buffers } := by
  by_cases first : b.position = 0
  · rw [takeGap, if_pos first, if_pos first, if_pos first]
  · rw [takeGap, if_neg first, if_neg first, if_neg first]

/-- The eighth sample of a capture tap completes a run, for the buffer's next 16 bytes (R61). -/
theorem placeSample_eq (b : Buffer) (x : Sample) (t : Tap) : placeSample b x t = { t with
    collecting := if t.collecting.length = 7 then [] else t.collecting ++ [x]
    runs := if t.collecting.length = 7 then
        t.runs ++ [⟨b.address + BitVec.ofNat 32 (2 * (b.position - 7)), t.collecting ++ [x]⟩]
      else t.runs } := by
  have eighth : (t.collecting ++ [x]).length = 8 ↔ t.collecting.length = 7 := by simp
  have start : b.position + 1 - 8 = b.position - 7 := by omega
  by_cases full : t.collecting.length = 7
  · rw [placeSample, if_pos (eighth.2 full), if_pos full, if_pos full, start]
  · rw [placeSample, if_neg (mt eighth.1 full), if_neg full, if_neg full]

theorem supplyOf_zero {t : Tap} (plays : t.plays = true) (none : t.current = none ∨
    ∃ b, t.current = some b ∧ (b.transferred = 0 ∨ b.transferred ≤ b.position)) : supplyOf t = 0 := by
  unfold supplyOf
  rw [if_pos plays]
  obtain none | ⟨b, current, unread | behind⟩ := none
  · rw [none]
  · rw [current]
    exact if_neg (by simp [usable, plays, unread])
  · rw [current]
    exact if_neg (by simpa [sampleArrived] using fun _ => behind)

theorem supplyOf_arrived {t : Tap} {b : Buffer} (plays : t.plays = true) (current : t.current = some b)
    (arrived : b.position < b.transferred) :
    supplyOf t = ((t.runs.head?.map Run.samples).getD []).getD (b.position % 8) 0 := by
  have read : 0 < b.transferred := by omega
  have stored : supplyOf t = storedSample t b := by
    unfold supplyOf
    rw [if_pos plays, current]
    exact if_pos (by simp [usable, sampleArrived, read, arrived])
  rw [stored, storedSample]
  cases t.runs <;> rfl

/-! ### The sixteen taps in one frame -/

/-- The taps take the frame from one state; a late transfer then halts the engine (log entry 9). -/
theorem runTaps_eq {v : State} {took : TapId → (Tap × List Effect) × Bool}
    (each : ∀ k, took k = tapFrame k (givenSample v (v.taps.get k)) (v.taps.get k)) : runTaps v =
      let after := emit ((List.finRange 16).flatMap fun k => (took k).1.2)
        (v.withTaps (Table.ofFn fun k => (took k).1.1))
      if (List.finRange 16).any fun k => (took k).2 then halt .tapError after else after := by
  obtain rfl := funext each
  simp only [runTaps, tapSteps, List.flatMap_map, List.any_map]
  rfl

theorem tapSupplies_running {u : State} (live : u.engine.mode ≠ .halted) :
    tapSupplies u = u.taps.map supplyOf := by
  simp only [tapSupplies, if_neg live]

/-- Settles O39: the branches of `tapFrame` are the statement's cases, and FRAME_START takes the sixteen steps. -/
theorem tapsMoveOneSampleAFrame : Obligations.TapsMoveOneSampleAFrame := by
  refine ⟨fun n x t closed => if_pos closed, fun n x t isOpen none => tapFrame_gap isOpen none, ?captured, ?played,
    ?late, fun t plays none => supplyOf_zero plays none, ?frame⟩
  case captured =>
    rintro n x t u b moved isOpen current captures room rfl rfl
    rw [tapFrame_captures isOpen current captures room, placeSample_eq]
    refine ⟨fun more => ?_, fun last unspent => ?_, fun last spent => ?_⟩
    · rw [moveSample_more (t := { runTap t with collecting := _, runs := _ }) current more]
      rfl
    · rw [moveSample_captured (t := { runTap t with collecting := _, runs := _ }) current last captures]
      exact congrArg (·, false) (starveIfEmpty_stays unspent)
    · rw [moveSample_captured (t := { runTap t with collecting := _, runs := _ }) current last captures]
      exact congrArg (·, false) (starveIfEmpty_starves spent)
  case played =>
    rintro n x t u b moved isOpen current plays arrived rfl rfl done
    rw [tapFrame_plays isOpen current plays arrived]
    refine ⟨supplyOf_arrived plays current arrived, fun more => ?_, fun last left => ?_, fun last none => ?_⟩
    · rw [moveSample_more (t := { runTap t with runs := _ }) current more]
      have all (l : List Buffer) :
          l.filter (fun c => b.position + 1 < b.length || decide (c.position < c.length)) = l :=
        List.filter_eq_self.2 fun c _ => by simp [more]
      rw [all]
      rfl
    · rw [leaves_unspent last] at left ⊢
      rw [moveSample_played_left (t := { runTap t with runs := _ }) current last plays left]
      rfl
    · rw [leaves_unspent last] at none ⊢
      rw [moveSample_played_none (t := { runTap t with runs := _ }) current last plays none]
      rfl
  case late =>
    intro n x t b isOpen current late
    rw [tapFrame_late isOpen current late, takeGap_eq]
    rfl
  case frame =>
    intro s u v given took running hu live hv hgiven htook after
    have pass : v = framePass u := by
      rw [hv, framePass, tapSupplies_running live]
      rfl
    have each : ∀ k, took k = tapFrame k (givenSample v (v.taps.get k)) (v.taps.get k) := by
      intro k
      rw [htook, hgiven, hv]
      rfl
    have vlive : v.engine.mode ≠ .halted := by rw [pass, framePass_engine]; exact live
    have effect : exec .frameStart s = .next (runTaps v) := by
      rw [exec_effect rfl running]
      show Host.Outcome.next (startFrame (catchUp s)) = _
      rw [startFrame, ← hu, ← pass, startTaps_running vlive]
    rw [effect, runTaps_eq each]
    refine ⟨fun none => ?_, fun ⟨k, late⟩ => ?_⟩
    · have no : ((List.finRange 16).any fun k => (took k).2) = false := by simp [none]
      simp only [no]
      rfl
    · have some : ((List.finRange 16).any fun k => (took k).2) = true := by simpa using ⟨k, late⟩
      simp only [some, if_pos]
      rw [halt_eq_haltedBy (by simpa using vlive)]
      rfl

end Sys2Proof.Machine
end

section
/-! SUPPORT. The host transfers of a tap's runs (R61, R62), the return of closed taps' buffers (R52, R53), and bus
errors (R166), in the terms of the statements. -/

namespace Sys2Proof.Machine

/-! ### Closed taps that wait, taken apart -/

/-- Only the numbers of the taps that follow matter of those that are busy. -/
theorem WaitFrom.of_busy {busy busy' : List TapId} {taps : List ClosedTap} (h : WaitFrom busy taps)
    (sub : ∀ c ∈ taps, c.tap ∈ busy → c.tap ∈ busy') : WaitFrom busy' taps := by
  induction taps generalizing busy busy' with
  | nil => trivial
  | cons c rest ih =>
    refine ⟨h.1.imp id (sub c List.mem_cons_self), ih h.2 fun d listed old => ?_⟩
    obtain same | old := List.mem_cons.1 old
    · exact same ▸ List.mem_cons_self
    · exact List.mem_cons_of_mem _ (sub d (List.mem_cons_of_mem _ listed) old)

theorem waitFrom_append {busy : List TapId} {taps later : List ClosedTap} :
    WaitFrom busy (taps ++ later) ↔
      WaitFrom busy taps ∧ WaitFrom ((taps.map ClosedTap.tap).reverse ++ busy) later := by
  induction taps generalizing busy with
  | nil => simp [WaitFrom]
  | cons c rest ih => simp [WaitFrom, ih, and_assoc]

/-- A list of groups all of whose taps wait is settled. -/
theorem settleGroups_of_waits {busy : List TapId} {groups : List ClosingGroup}
    (filled : ∀ g ∈ groups, g.taps ≠ []) (waits : WaitFrom busy (groups.flatMap fun g => g.taps)) :
    settleGroups busy groups = (groups, []) := by
  have settled := settleGroups_append (later := []) filled waits
  simpa [settleGroups] using settled

/-- A tap without runs behind taps that wait, whose number is not busy, returns its buffers (R52). -/
theorem settleClosedTaps_ended {busy : List TapId} {first last : List ClosedTap} {c : ClosedTap}
    (waits : WaitFrom busy first) (ended : c.runs = []) (free : c.tap ∉ busy)
    (none : ∀ d ∈ first, d.tap ≠ c.tap)
    (others : WaitFrom ((first.map ClosedTap.tap).reverse ++ busy) last) :
    settleClosedTaps busy (first ++ c :: last) = (first ++ last, closedCompletions c,
      (last.map ClosedTap.tap).reverse ++ ((first.map ClosedTap.tap).reverse ++ busy)) := by
  induction first generalizing busy with
  | nil =>
    have goes : (c.runs.isEmpty && !busy.contains c.tap) = true := by simp [ended, free]
    have kept := (settleClosedTaps_of_waits (later := []) (by simpa using others)).1
    rw [List.nil_append, settleClosedTaps, if_pos goes, kept]
    simp
  | cons d rest ih =>
    obtain ⟨mine, rest_waits⟩ := waits
    have stays : ¬ (d.runs.isEmpty && !busy.contains d.tap) = true := by
      rcases mine with runs | listed
      · simp [runs]
      · simp [listed]
    have apart : c.tap ≠ d.tap := (none d List.mem_cons_self).symm
    have tail := ih (busy := d.tap :: busy) rest_waits (by simp [apart, free])
      (fun e listed => none e (List.mem_cons_of_mem _ listed)) (by simpa using others)
    rw [List.cons_append, settleClosedTaps, if_neg stays, tail]
    simp

/-! ### Runs of this number among the closed taps -/

theorem writeClosedTap_none {n : TapId} {taps : List ClosedTap}
    (no : ∀ c ∈ taps, c.tap = n → c.runs = []) : writeClosedTap n taps = none := by
  induction taps with
  | nil => rfl
  | cons c rest ih =>
    have tail := ih fun d listed => no d (List.mem_cons_of_mem _ listed)
    unfold writeClosedTap
    split
    case h_1 run runs some =>
      have apart : c.tap ≠ n := fun same => by
        rw [no c List.mem_cons_self same] at some
        cases some
      rw [if_neg apart, tail]
      rfl
    case h_2 => rw [tail]; rfl

theorem writeClosed_none {n : TapId} {groups : List ClosingGroup}
    (no : ∀ g ∈ groups, ∀ c ∈ g.taps, c.tap = n → c.runs = []) : writeClosed n groups = none := by
  induction groups with
  | nil => rfl
  | cons g rest ih =>
    rw [writeClosed, writeClosedTap_none (no g List.mem_cons_self),
      ih fun h listed => no h (List.mem_cons_of_mem _ listed)]
    rfl

/-- The first tap of this number with a run is the one written. -/
theorem writeClosedTap_first {n : TapId} {first last : List ClosedTap} {c : ClosedTap} {run : Run}
    {runs : List Run} (apart : ∀ d ∈ first, d.tap ≠ n) (same : c.tap = n) (some : c.runs = run :: runs) :
    writeClosedTap n (first ++ c :: last) =
      .some (first ++ { c with runs := runs, buffers := (noteWritten c.buffers).1 } :: last,
        (noteWritten c.buffers).2) := by
  induction first with
  | nil =>
    rw [List.nil_append, writeClosedTap, some]
    exact if_pos same
  | cons d rest ih =>
    have tail := ih fun e listed => apart e (List.mem_cons_of_mem _ listed)
    rw [List.cons_append]
    unfold writeClosedTap
    split
    case h_1 => rw [if_neg (apart d List.mem_cons_self), tail]; rfl
    case h_2 => rw [tail]; rfl

theorem writeClosed_first {n : TapId} {before after : List ClosingGroup} {g : ClosingGroup}
    {p : List ClosedTap × List Completion} (apart : ∀ h ∈ before, ∀ c ∈ h.taps, c.tap ≠ n)
    (some : writeClosedTap n g.taps = .some p) :
    writeClosed n (before ++ g :: after) = .some (before ++ { g with taps := p.1 } :: after, p.2) := by
  induction before with
  | nil => rw [List.nil_append, writeClosed, some]; rfl
  | cons h rest ih =>
    rw [List.cons_append, writeClosed,
      writeClosedTap_none fun c listed same => absurd same (apart h List.mem_cons_self c listed),
      ih fun x listed => apart x (List.mem_cons_of_mem _ listed)]
    rfl

/-! ### A run of the oldest buffer is written (R61) -/

theorem noteWritten_oldest {b : Buffer} (open' : b.transferred < b.length) (rest : List Buffer) :
    noteWritten (b :: rest) =
      (if b.transferred + 8 = b.length then rest
        else { b with transferred := b.transferred + 8 } :: rest,
      if b.transferred + 8 = b.length then
          [Completion.plain b.id .done (BitVec.ofNat 32 (b.gapResult.getD 0))]
        else []) := by
  rw [noteWritten, if_pos (by simpa [Buffer.untransferred] using open')]
  by_cases full : b.transferred + 8 = b.length
  · rw [if_pos full, if_pos full, if_pos full]
    rfl
  · rw [if_neg full, if_neg full, if_neg full]

theorem answered_answered (s : State) (cs ds : List Completion) :
    (s.answered cs).answered ds = s.answered (cs ++ ds) := by
  simp [State.answered, ringACount, Nat.sub_sub]

theorem answered_nil (s : State) : s.answered [] = s := by
  simp [State.answered, ringACount]

section
variable {s : State} {k : TapId}

theorem finishWrite_open (live : s.engine.mode ≠ .halted)
    (no : ∀ g ∈ s.closing, ∀ c ∈ g.taps, c.tap = k → c.runs = []) :
    finishWrite k s = (s.setTap k { s.taps.get k with
      writing := false
      runs := (s.taps.get k).runs.drop 1
      buffers := (noteWritten (s.taps.get k).buffers).1 }).answered
        (noteWritten (s.taps.get k).buffers).2 := by
  rw [finishWrite, writeClosed_none no]
  exact handAll_answered (by exact live) _

/-- A run of a closed tap is written, and what has ended is settled (R52). -/
theorem finishWrite_closed {groups : List ClosingGroup} {cs : List Completion}
    (live : s.engine.mode ≠ .halted) (some : writeClosed k s.closing = .some (groups, cs)) :
    finishWrite k s =
      ((s.setTap k { s.taps.get k with writing := false }).withClosing (settleGroups [] groups).1).answered
        (cs ++ (settleGroups [] groups).2) := by
  rw [finishWrite, some]
  simp only
  rw [handAll_answered (by exact live), settleClosing]
  show handAll (settleGroups [] groups).2 _ = _
  rw [handAll_answered (by exact live), ← answered_answered]
  rfl

theorem exec_tapWriteEnd (running : s.held = false) (writing : (s.taps.get k).writing = true) :
    exec (.tapWriteEnd k .ok) s = .next (finishWrite k s) := by
  rw [exec_effect rfl running, effectOf, tapWritten, if_pos writing]

end

/-! ### A run of a closed tap is written (R52, R53, log entry 20) -/

section
variable {before after : List ClosingGroup} {first last : List ClosedTap} {c c' : ClosedTap}
  {dones : List Completion}

theorem flatMap_taps_split : ((before ++ ⟨first ++ c :: last, dones⟩ :: after).flatMap fun g => g.taps) =
    ((before.flatMap fun g => g.taps) ++ first) ++ c :: (last ++ after.flatMap fun g => g.taps) := by
  simp

variable (waits : ClosingWaits (before ++ ⟨first ++ c :: last, dones⟩ :: after)) (same : c'.tap = c.tap)
include waits same

/-- A tap with runs left waits on. -/
theorem settleGroups_written (runs : c'.runs ≠ []) :
    settleGroups [] (before ++ ⟨first ++ c' :: last, dones⟩ :: after) =
      (before ++ ⟨first ++ c' :: last, dones⟩ :: after, []) := by
  have list := waits.waitFrom
  rw [flatMap_taps_split, waitFrom_append] at list
  obtain ⟨earlier, -, later⟩ := list
  refine settleGroups_of_waits (fun g listed => ?_) ?_
  · obtain listed | rfl | listed : g ∈ before ∨ g = _ ∨ g ∈ after := by simpa using listed
    · exact waits.1 g (by simp [listed])
    · simp
    · exact waits.1 g (by simp [listed])
  · rw [flatMap_taps_split, waitFrom_append]
    exact ⟨earlier, .inl runs, same ▸ later⟩

/-- The last run of a closed tap, with no other close of its number: it returns its buffers, and its group its own
completions where none of its taps is left. -/
theorem settleGroups_ended (ended : c'.runs = []) (old : ∀ g ∈ before, ∀ d ∈ g.taps, d.tap ≠ c'.tap)
    (old' : ∀ d ∈ first, d.tap ≠ c'.tap) (new : ∀ g ∈ after, ∀ d ∈ g.taps, d.tap ≠ c'.tap)
    (new' : ∀ d ∈ last, d.tap ≠ c'.tap) :
    settleGroups [] (before ++ ⟨first ++ c' :: last, dones⟩ :: after) =
      if first ++ last = [] then (before ++ after, closedCompletions c' ++ dones)
      else (before ++ ⟨first ++ last, dones⟩ :: after, closedCompletions c') := by
  have list := waits.waitFrom
  rw [flatMap_taps_split, waitFrom_append, waitFrom_append] at list
  obtain ⟨⟨earlier, group⟩, -, later⟩ := list
  have others := later.of_busy (busy' := (first.map ClosedTap.tap).reverse ++
      (((before.flatMap fun g => g.taps).map ClosedTap.tap).reverse ++ [])) fun d listed busy => by
    obtain mine | busy := List.mem_cons.1 busy
    · obtain listed | listed := List.mem_append.1 listed
      · exact absurd (mine.trans same.symm) (new' d listed)
      · obtain ⟨g, member, listed⟩ := List.mem_flatMap.1 listed
        exact absurd (mine.trans same.symm) (new g member d listed)
    · simpa [or_comm, or_assoc] using busy
  rw [waitFrom_append] at others
  have free : c'.tap ∉ ((before.flatMap fun g => g.taps).map ClosedTap.tap).reverse ++ [] := by
    intro busy
    obtain ⟨d, ⟨g, member, listed⟩, tap⟩ : ∃ d, (∃ g ∈ before, d ∈ g.taps) ∧ d.tap = c'.tap := by
      simpa using busy
    exact old g member d listed tap
  rw [settleGroups_append (fun g listed => waits.1 g (by simp [listed])) earlier, settleGroups,
    settleClosedTaps_ended group ended free old' others.1]
  simp only
  rw [settleGroups_of_waits (fun g listed => waits.1 g (by simp [listed])) others.2]
  by_cases none : first ++ last = []
  · rw [if_pos (List.isEmpty_iff.2 none), if_pos none]
    simp
  · rw [if_neg (by simpa using none), if_neg none]
    simp

end

/-! ### Reads of a playout tap (R62) -/

theorem find?_untransferred {before rest : List Buffer} {b : Buffer}
    (full : ∀ c ∈ before, c.length ≤ c.transferred) (open' : b.transferred < b.length) :
    (before ++ b :: rest).find? Buffer.untransferred = some b := by
  have none : before.find? Buffer.untransferred = none :=
    List.find?_eq_none.2 fun c listed => by simpa [Buffer.untransferred] using full c listed
  rw [List.find?_append, none, List.find?_cons_of_pos (by simpa [Buffer.untransferred] using open')]
  rfl

theorem noteTransferred_first {before rest : List Buffer} {b : Buffer}
    (full : ∀ c ∈ before, c.length ≤ c.transferred) (open' : b.transferred < b.length) :
    noteTransferred (before ++ b :: rest) =
      before ++ { b with transferred := b.transferred + 8 } :: rest := by
  induction before with
  | nil => exact if_pos (by simpa [Buffer.untransferred] using open')
  | cons c before ih =>
    have tail := ih fun d listed => full d (List.mem_cons_of_mem _ listed)
    have skip : ¬ c.untransferred = true := by
      simpa [Buffer.untransferred] using full c List.mem_cons_self
    rw [noteTransferred] at tail
    rw [List.cons_append, noteTransferred, updateFirst, if_neg skip, tail]
    rfl

theorem exec_playoutReadStart {s : State} {k : TapId} (running : s.held = false)
    (can : canReadTap s k = true) : exec (.playoutReadStart k) s =
      .next (s.setTap k { s.taps.get k with reading := true }) := by
  have tap : canRead (s.taps.get k) = true := (Bool.and_eq_true_iff.1 can).2
  rw [exec_effect rfl running, effectOf, startTapRead, if_pos can, startRead, if_pos tap]

/-- Settles O40: a write ends at the oldest run of its number, with the settling pass where a closed tap's it was,
and a read at the oldest buffer not yet read. -/
theorem tapTransfersMoveRuns : Obligations.TapTransfersMoveRuns := by
  refine ⟨fun s k running live idle some => ?starts, fun s k running blocked => ?waits,
    fun s k run runs b rest running live no writing captures runs' buffers open' => ?written,
    fun s k before after first last run runs b rest dones running live writing list closing apart apart' open' => ?closed,
    fun s k running live plays idle room more => ?reads,
    fun s k bytes before b rest running reading buffers full open' => ?read⟩
  case starts =>
    rw [exec_effect rfl running, effectOf, startWrite, if_pos (by simp [canWrite, live, idle, some])]
    rfl
  case waits =>
    have not : ¬ canWrite s k = true := by
      obtain halted | writing | none := blocked
      · simp [canWrite, halted]
      · simp [canWrite, writing]
      · simp [canWrite, none]
    rw [exec_effect rfl running, effectOf, startWrite, if_neg not]
  case written =>
    rw [exec_tapWriteEnd running writing, finishWrite_open live no, buffers, noteWritten_oldest open', runs']
    refine ⟨fun more => ?_, fun last => ?_⟩
    · rw [if_neg more, if_neg more, answered_nil]
      rfl
    · rw [if_pos last, if_pos last]
      rfl
  case closed =>
    intro ended full left spent closed
    rw [closing] at list
    have note : noteWritten (b :: rest) = (left, spent) := noteWritten_oldest open' rest
    have some : writeClosed k s.closing =
        .some (before ++ ⟨first ++ ⟨k, false, runs, left⟩ :: last, dones⟩ :: after, spent) := by
      rw [closing, writeClosed_first apart (writeClosedTap_first apart' rfl rfl), note]
    rw [exec_tapWriteEnd running writing, finishWrite_closed live some]
    refine ⟨fun more => ?_, fun none new new' => ⟨fun left' => ?_, fun none' => ?_⟩⟩
    · rw [settleGroups_written (c' := ⟨k, false, runs, left⟩) list rfl more, List.append_nil]
      rfl
    · rw [settleGroups_ended (c' := ⟨k, false, runs, left⟩) list rfl none apart apart' new new', if_neg left']
      rfl
    · rw [settleGroups_ended (c' := ⟨k, false, runs, left⟩) list rfl none apart apart' new new', if_pos none',
        ← List.append_assoc]
      rfl
  case reads =>
    obtain ⟨b, listed, open'⟩ := more
    have can : canReadTap s k = true := by
      simp only [canReadTap, canRead, Tap.plays, plays, idle, Bool.and_eq_true, decide_eq_true_eq,
        List.any_eq_true, Buffer.untransferred]
      exact ⟨by simpa using live, ⟨⟨by simp, room⟩, b, listed, open'⟩⟩
    rw [exec_playoutReadStart running can]
    rfl
  case read =>
    have address : readAddress (s.taps.get k) = b.address + BitVec.ofNat 32 (2 * b.transferred) := by
      rw [readAddress, buffers, find?_untransferred full open']
    refine ⟨address, ?_⟩
    rw [exec_effect rfl running, effectOf, tapRead, if_pos reading]
    simp only
    rw [storeRun, address, buffers, noteTransferred_first full open']
    rfl

/-! ### Bus errors (R166) -/

/-- Settles O41: every row that ends a transfer halts on a bus error, where its transfer is in flight. -/
theorem busErrorsHaltTheEngine : Obligations.BusErrorsHaltTheEngine := by
  intro s running live
  refine ⟨fun reading => ?_, fun writing => ?_, fun writing => ?_, fun held => ?_, fun k writing => ?_,
    fun k reading => ?_⟩
  · exact (exec_halt running rfl (by rw [effectOf, if_pos (Option.isSome_iff_ne_none.2 reading)])).1 live
  · exact (exec_halt running rfl (by
      rw [effectOf, completionWritten, if_pos (Option.isSome_iff_ne_none.2 writing)])).1 live
  · obtain ⟨w, some⟩ := Option.ne_none_iff_exists'.1 writing
    exact (exec_halt running rfl (by rw [effectOf, eventWritten, some])).1 live
  · obtain ⟨r, some⟩ := Option.ne_none_iff_exists'.1 held
    exact (exec_halt running rfl (by rw [effectOf, routeWritten, some])).1 live
  · exact (exec_halt running rfl (by rw [effectOf, tapWritten, if_pos writing])).1 live
  · exact (exec_halt running rfl (by rw [effectOf, tapRead, if_pos reading])).1 live

end Sys2Proof.Machine
end

section
/-! SUPPORT. Engine control in the terms of the statements: CONTROL writes (R162, R163), the end of a stop (R45, R46,
R163) and the base registers (R164, R165). -/

namespace Sys2Proof.Machine

/-! ### ENABLE found set in STOPPED (R162) -/

/-- The completion and the event ring are configured. -/
def RingEngine.canPost (e : RingEngine) : Prop := ringSize e.baseComp ≠ none ∧ ringSize e.baseEvent ≠ none

theorem start_configured {e : RingEngine} (configured : e.canPost) :
    e.start = { e with mode := .running, enable := true, startRefused := false } :=
  if_pos (by simpa [Option.isSome_iff_ne_none, RingEngine.canPost] using configured)

theorem start_refused {e : RingEngine} (unconfigured : ¬ e.canPost) :
    e.start = { e with enable := false, startRefused := true } :=
  if_neg (by simpa [Option.isSome_iff_ne_none, RingEngine.canPost] using unconfigured)

theorem exec_enableSet {s : State} (n : Enables) (running : s.held = false) :
    exec (.enableSet n) s = .next (s.withEngine (storeEnables n s).engine.setEnable) :=
  exec_effect rfl running

/-- Settles O42: the four engine states are the branches of `setEnable`. -/
theorem enableSetStartsTheEngine : Obligations.EnableSetStartsTheEngine := by
  intro s n running configured stored
  rw [exec_enableSet n running]
  have set : (storeEnables n s).engine.setEnable = stored.setEnable := rfl
  rw [set]
  refine ⟨fun mode can => ?_, fun mode cannot => ?_, fun mode => ?_, fun mode => ?_⟩
  · have start : stored.setEnable = stored.start := by
      unfold RingEngine.setEnable
      rw [show stored.mode = .stopped from mode]
    rw [start, start_configured (e := stored) can]
    rfl
  · have start : stored.setEnable = stored.start := by
      unfold RingEngine.setEnable
      rw [show stored.mode = .stopped from mode]
    rw [start, start_refused (e := stored) cannot]
    rfl
  · have same : stored.setEnable = stored := by
      unfold RingEngine.setEnable
      rw [show stored.mode = .running from mode]
    rw [same]
    rfl
  · have set : stored.setEnable = { stored with enable := true } := by
      unfold RingEngine.setEnable
      obtain mode | mode := mode
      · rw [show stored.mode = .stopping from mode]
      · rw [show stored.mode = .halted from mode]
    rw [set]
    rfl

/-! ### ENABLE written as 0 (R163) -/

theorem stopIfDue_ends {s : State} (stopping : s.engine.mode = .stopping) (idle : s.engine.fetch = none) :
    stopIfDue s = endStop s :=
  if_pos (by simp [stopping, idle])

/-- With ENABLE clear a stop that ends leaves the engine STOPPED. -/
theorem endStop_stopped {s : State} (clear : s.engine.enable = false) :
    (endStop s).engine.mode = .stopped ∧ (endStop s).engine.enable = false := by
  obtain ⟨e, kept, engine⟩ := endStop_control s
  have enable : e.enable = false := kept.enable.trans clear
  rw [engine, RingEngine.stopEnded]
  simp [enable]

/-- A write that nothing stores changes nothing (R159). -/
theorem exec_unstored {s : State} {offset value : Word} (unstored : offset ∉ storedOffsets) :
    exec (.unstoredRegisterWrite offset value) s = .next s := by
  have wellFormed : (Instr.unstoredRegisterWrite offset value).wellFormed = true := by
    simpa [Instr.wellFormed, offsetUnstored] using unstored
  cases held : s.held with
  | false => rw [exec_effect wellFormed held]; rfl
  | true => exact exec_held wellFormed held (by simp) (by simp)

/-- Settles O43: ENABLE_CLEAR is `stopIfDue` of the cleared engine, and the other writes store enables or nothing. -/
theorem otherControlWritesAreStored : Obligations.OtherControlWritesAreStored := by
  refine ⟨fun s n running => ?cleared, fun s n running => exec_effect rfl running,
    fun s offset value unstored => exec_unstored unstored, fun s offset value stored => ?_⟩
  case cleared =>
    intro t
    refine ⟨exec_effect rfl running, fun mode idle => ?_, fun waits => stopIfDue_waits ?_⟩
    · have stopping : t.engine.mode = .stopping := if_pos mode
      rw [stopIfDue_ends stopping idle]
      exact endStop_stopped rfl
    · obtain reading | ⟨notRunning, notStopping⟩ := waits
      · exact .inr (Option.isSome_iff_ne_none.2 reading)
      · refine .inl fun stopping => notStopping ?_
        rwa [show t.engine.mode = s.engine.mode from if_neg notRunning] at stopping
  · exact exec_illFormed (by simpa [Instr.wellFormed, offsetUnstored] using stored)

/-! ### The end of a stop (R163) -/

/-- With nothing parked there is nothing to release. -/
theorem releaseParked_none {s : State} (none : s.engine.parked = none) : releaseParked s = s := by
  have edit : retryEdit s = s := by rw [retryEdit, none]
  have read : takeParkedRead s = s := by rw [takeParkedRead, none]
  rw [releaseParked, edit, read, releaseFence, none]

section
variable {s : State} {e : Edit} {id : CmdId} {n : LinkId} {c : Channel} {address : Word}

theorem releaseParked_edit_waits (parked : s.engine.parked = some (.edit e))
    (full : s.sched.roomForEdit = false) : releaseParked s = s := by
  have read : takeParkedRead s = s := by rw [takeParkedRead, parked]
  rw [releaseParked, retryEdit_waits full, read, releaseFence, parked]

theorem releaseParked_read (parked : s.engine.parked = some (.readRoute id n c address)) :
    releaseParked s = releaseFence (takeParkedRead s) := by
  rw [releaseParked, retryEdit, parked]

theorem releaseParked_read_waits (parked : s.engine.parked = some (.readRoute id n c address))
    (occupied : s.core.slot ≠ none) : releaseParked s = s := by
  rw [releaseParked_read parked, takeParkedRead_waits parked occupied, releaseFence, parked]

theorem releaseParked_fence (parked : s.engine.parked = some (.fence id)) :
    releaseParked s = releaseFence s := by
  have read : takeParkedRead s = s := by rw [takeParkedRead, parked]
  rw [releaseParked, retryEdit, parked]
  simp only
  rw [read]

theorem releaseFence_waits (parked : s.engine.parked = some (.fence id))
    (earlier : s.engine.outstanding ≠ 0) : releaseFence s = s := by
  rw [releaseFence, parked]
  exact if_neg (by simp [earlier])

theorem releaseFence_done (live : s.engine.mode ≠ .halted) (parked : s.engine.parked = some (.fence id))
    (zero : s.engine.outstanding = 0) : releaseFence s = post (.plain id .done 0) (unpark s) := by
  rw [releaseFence, parked]
  exact if_pos (by simp [live, zero])

end

/-- The completions of an open group that a stop aborts (R46). -/
def abortedCompletions (assembly : Option Assembly) : List Completion :=
  match assembly with
  | none => []
  | some a => a.members.map fun m => .plain m.1 .aborted 0

theorem abortAssembly_alone {s : State} (alone : s.sched.assembly = none) :
    abortAssembly s = s.withSched { s.sched with overflow := false } := by
  rw [abortAssembly, alone]

theorem abortAssembly_answered {s : State} (live : s.engine.mode ≠ .halted) :
    abortAssembly s = ({ s with sched := { s.sched with assembly := none, overflow := false } }).answered
      (abortedCompletions s.sched.assembly) := by
  unfold abortAssembly
  cases group : s.sched.assembly with
  | none =>
    rw [abortedCompletions, answered_nil]
    simp only [State.withSched, ← group]
  | some a => exact handAll_answered (by exact live) _

theorem unpark_none {s : State} (none : s.engine.parked = none) : unpark s = s := by
  unfold unpark State.withEngine
  rw [← none]

/-- A parked edit or READ ROUTE that a stop finds is aborted (R46). -/
theorem abortParked_answered {s : State} {cs : List Completion} (live : s.engine.mode ≠ .halted)
    (parked : (s.engine.parked = none ∧ cs = []) ∨
      (∃ e, s.engine.parked = some (.edit e) ∧ cs = [.plain e.id .aborted 0]) ∨
      ∃ id n c a, s.engine.parked = some (.readRoute id n c a) ∧ cs = [.plain id .aborted 0]) :
    abortParked s = (unpark s).answered cs := by
  obtain ⟨none, rfl⟩ | ⟨e, parked, rfl⟩ | ⟨id, n, c, a, parked, rfl⟩ := parked
  · rw [answered_nil, unpark_none none, abortParked, none]
  · rw [abortParked, parked]
    exact hand_answered (s := unpark s) live _
  · rw [abortParked, parked]
    exact hand_answered (s := unpark s) live _

/-- How a stop ends once what was open has been answered: the engine stops, or takes an ENABLE found set. -/
theorem stopEndsAs_of_open {s u : State} (running : s.held = false) (stopping : s.engine.mode = .stopping)
    (idle : s.engine.fetch = none) (answered : abortParked (abortAssembly (releaseParked s)) = u) :
    StopEndsAs s u := by
  have control : ControlKept s.engine u.engine := answered ▸
    ((releaseParked_control s).trans (abortAssembly_control _)).trans (abortParked_control _)
  have rings : RingsKept s.engine u.engine := answered ▸
    ((releaseParked_rings s).trans (abortAssembly_rings _)).trans (abortParked_rings _)
  have configured : u.engine.canPost ↔ s.engine.canPost := by
    rw [RingEngine.canPost, RingEngine.canPost, rings.baseComp, rings.baseEvent]
  have ends : exec .stopEnd s = .next (u.withEngine u.engine.stopEnded) := by
    rw [exec_effect rfl running, effectOf, stopIfDue_ends stopping idle, endStop, answered]
  have started (set : s.engine.enable = true) :
      u.engine.stopEnded = ({ u.engine with mode := .stopped } : RingEngine).start :=
    if_pos (control.enable.trans set)
  refine ⟨fun clear => ?_, fun set can => ?_, fun set cannot => ?_⟩
  · have stopped : u.engine.stopEnded = { u.engine with mode := .stopped } :=
      if_neg (by simp [control.enable.trans clear])
    rw [ends, stopped]
    rfl
  · rw [ends, started set, start_configured (e := { u.engine with mode := .stopped }) (configured.2 can)]
    simp only [State.withEngine, control.enable.trans set]
  · rw [ends, started set, start_refused (e := { u.engine with mode := .stopped }) (mt configured.1 cannot)]
    rfl

/-- A stop that ends in two steps, the first being the row of what is parked. -/
theorem stopEnd_of_released {s t : State} {row : Instr} (running : s.held = false)
    (stopping : s.engine.mode = .stopping) (idle : s.engine.fetch = none) (wellFormed : row.wellFormed = true)
    (effect : effectOf row s = t) (released : releaseParked s = t) (empty : t.engine.parked = none) :
    ∃ t, exec row s = .next t ∧ t.held = false ∧ t.engine.mode = .stopping ∧ t.engine.fetch = none ∧
      t.engine.parked = none ∧ exec .stopEnd s = exec .stopEnd t := by
  have control : ControlKept s.engine t.engine := released ▸ releaseParked_control s
  have held : t.held = false := by rw [← released]; simpa [releaseParked] using running
  have stopping' : t.engine.mode = .stopping := control.mode.trans stopping
  have idle' : t.engine.fetch = none := control.fetch.trans idle
  refine ⟨t, by rw [exec_effect wellFormed running, effect], held, stopping', idle', empty, ?_⟩
  rw [exec_effect rfl running, exec_effect rfl held, effectOf, effectOf, stopIfDue_ends stopping idle,
    stopIfDue_ends stopping' idle', endStop, endStop, released, releaseParked_none empty]

theorem roomForEdit_iff (d : Scheduler) :
    d.roomForEdit = true ↔ d.staged < 64 ∧ (d.assembly = none → d.places < 8) := by
  constructor
  · intro room
    by_contra not
    rw [noRoomForEdit_of (by by_cases full : 64 ≤ d.staged <;> simp_all)] at room
    cases room
  · exact fun ⟨staging, place⟩ => roomForEdit_of staging place

/-- Settles O44: what can proceed goes first, then the open group and the parked command are aborted, and the engine
stops or starts anew. -/
theorem stopEndAbortsWhatIsOpen : Obligations.StopEndAbortsWhatIsOpen := by
  refine ⟨fun s running => exec_effect rfl running,
    fun s waits => stopIfDue_waits (waits.imp id Option.isSome_iff_ne_none.2),
    fun s stays => Option.isSome_iff_ne_none.1 (stopIfDue_stopping stays),
    fun s parked running stopping idle cases => ?blocked, fun s id running stopping idle parked alone => ?fence,
    fun s running stopping idle row => ?proceeds, roomForEdit_iff⟩
  case blocked =>
    intro aborted
    have live : s.engine.mode ≠ .halted := by simp [stopping]
    refine stopEndsAs_of_open running stopping idle ?_
    have waits : releaseParked s = s := by
      obtain ⟨none, -⟩ | ⟨e, held, full, -⟩ | ⟨id, n, c, a, held, occupied, -⟩ := cases
      · exact releaseParked_none none
      · exact releaseParked_edit_waits held full
      · exact releaseParked_read_waits held occupied
    rw [waits, abortAssembly_answered live, abortParked_answered (cs := parked) (by exact live)]
    · exact answered_answered (unpark { s with sched := { s.sched with assembly := none, overflow := false } })
        (abortedCompletions s.sched.assembly) parked
    · exact cases.imp id (Or.imp (fun ⟨e, held, _, cs⟩ => ⟨e, held, cs⟩)
        fun ⟨id, n, c, a, held, _, cs⟩ => ⟨id, n, c, a, held, cs⟩)
  case fence =>
    have live : s.engine.mode ≠ .halted := by simp [stopping]
    refine stopEndsAs_of_open running stopping idle ?_
    rw [releaseParked_fence parked]
    by_cases zero : s.engine.outstanding = 0
    · rw [releaseFence_done live parked zero, post_running (s := unpark s) live, if_pos zero,
        abortAssembly_alone (by exact alone)]
      rfl
    · rw [releaseFence_waits parked zero, if_neg zero, abortAssembly_alone alone, abortParked]
      simp only [withSched_engine, parked]
      rw [post_running (s := unpark _) (by exact live)]
      rfl
  case proceeds =>
    have live : s.engine.mode ≠ .halted := by simp [stopping]
    rintro (⟨⟨e, parked⟩, room, rfl⟩ | ⟨⟨id, n, c, a, parked⟩, free, rfl⟩ | ⟨⟨id, parked⟩, zero, rfl⟩)
    · have empty : (retryEdit s).engine.parked = none := by
        rw [retryEdit_taken live parked room, takeEdit_parked]
        rfl
      have read : takeParkedRead (retryEdit s) = retryEdit s := by rw [takeParkedRead, empty]
      have released : releaseParked s = retryEdit s := by rw [releaseParked, read, releaseFence, empty]
      exact stopEnd_of_released (row := .parkedEditRetry) running stopping idle rfl rfl released empty
    · have empty : (takeParkedRead s).engine.parked = none := by
        rw [takeParkedRead_taken parked live free, readTaken_parked]
        rfl
      have released : releaseParked s = takeParkedRead s := by
        rw [releaseParked_read parked, releaseFence, empty]
      exact stopEnd_of_released (row := .parkedReadRouteTaken) running stopping idle rfl rfl released empty
    · have empty : (releaseFence s).engine.parked = none := by
        rw [releaseFence_done live parked zero, post_running (s := unpark s) live]
        rfl
      exact stopEnd_of_released (row := .fenceRelease) running stopping idle rfl rfl
        (releaseParked_fence parked) empty

/-! ### Base registers (R164, R165) -/

theorem quiet_iff (s : State) : quiet s = true ↔
    s.sched.list = [] ∧ s.sched.assembly = none ∧ s.engine.parked = none ∧ s.engine.reserved = 0 ∧
    (∀ k, (s.taps.get k).buffers = []) ∧
    ∀ n, (s.links.get n).op = none ∧ ∀ m ∈ (s.links.get n).outQueue, m.owed = none := by
  simp only [quiet, Bool.and_eq_true, items_all_iff]
  simp only [Link.owesNothing, Bool.and_eq_true, List.isEmpty_iff, Option.isNone_iff_eq_none, beq_iff_eq,
    List.all_eq_true, and_assoc]

/-- The ring lies below the top of the address space, or is left unconfigured. -/
theorem ringFits_iff {ring : Ring} {v : Word} : ringFits ring v = true ↔
    ∀ n, ringSize v = some n → ringAddress v + n * slotBytes ring ≤ 2 ^ 32 := by
  unfold ringFits
  cases ringSize v <;> simp

theorem baseAccepted_iff {ring : Ring} {v : Word} {s : State} : baseAccepted ring v s = true ↔
    (s.engine.mode = .stopped ∧ quiet s = true) ∧
      ∀ n, ringSize v = some n → ringAddress v + n * slotBytes ring ≤ 2 ^ 32 := by
  simp only [baseAccepted, Bool.and_eq_true, beq_iff_eq, ringFits_iff]

theorem slotBytes_eq (ring : Ring) : slotBytes ring = if ring = .completion then 16 else 64 := by
  cases ring <;> rfl

section
variable {s : State} {ring : Ring} {v : Word} (running : s.held = false)
include running

theorem exec_baseWrite_accepted (accepted : baseAccepted ring v s = true) :
    exec (.ringBaseWrite ring v) s =
      .next (reconfigureEvents ring (s.withEngine (s.engine.setBase ring v))) := by
  rw [exec_effect rfl running, effectOf, writeBase, if_pos accepted]

theorem exec_baseWrite_ignored (refused : ¬ baseAccepted ring v s = true) :
    exec (.ringBaseWrite ring v) s = .next (s.withEngine { s.engine with cfgIgnored := true }) := by
  rw [exec_effect rfl running, effectOf, writeBase, if_neg refused]

end

/-- An abandoned event write does not depend on the Ring Engine. -/
theorem returnEventWrite_withEngine (s : State) (e : RingEngine) :
    (returnEventWrite (s.withEngine e)).events = (returnEventWrite s).events := by
  unfold returnEventWrite
  simp only [withEngine_events]
  split <;> rfl

/-- Settles O45: a base write is accepted exactly where the engine is STOPPED and QUIET and the ring fits. -/
theorem ringBaseWritesConfigure : Obligations.RingBaseWritesConfigure := by
  refine ⟨quiet_iff, fun s v running => ?_⟩
  intro fits ok
  refine ⟨fun may fit => ?_, fun may fit => ?_, fun may fit => ?_, fun may fit => ?_, fun ring refused => ?_⟩
  · exact exec_baseWrite_accepted running (baseAccepted_iff.2 ⟨may, fit⟩)
  · exact exec_baseWrite_accepted running (baseAccepted_iff.2 ⟨may, fit⟩)
  · exact exec_baseWrite_accepted running (baseAccepted_iff.2 ⟨may, fit⟩)
  · rw [exec_baseWrite_accepted running (baseAccepted_iff.2 ⟨may, fit⟩), reconfigureEvents,
      returnEventWrite_withEngine, returnEventWrite_eq]
    rfl
  · refine exec_baseWrite_ignored running fun accepted => ?_
    obtain ⟨may, fit⟩ := baseAccepted_iff.1 accepted
    rw [slotBytes_eq] at fit
    obtain cannot | large := refused
    · exact cannot may
    · exact large fit

end Sys2Proof.Machine
end

section
/-! SUPPORT. A change of session state as one record and one list (R102), and the changes that the statements spell:
into rest, into a session, between the states of a session. -/

namespace Sys2Proof.Machine

/-! ### The five steps at once (R102) -/

theorem channelChange_of_chan {old new : SessionState} {l l' : Link} (chan : l'.chan = l.chan)
    (queue : l'.outQueue = l.outQueue) :
    (channelChange old new l').1.chan = (channelChange old new l).1.chan ∧
      (channelChange old new l').2 = (channelChange old new l).2 := by
  cases new <;> simp only [channelChange, chan, queue, and_self]
  case active => split <;> exact ⟨by simp [chan], rfl⟩
  case loop => split <;> exact ⟨by simp [chan], rfl⟩

/-- The KEYS event of a key table that takes a field (R110, R111). -/
def keysTaken (n : LinkId) (field : Half) (l : Link) : List Effect :=
  if l.reportKeys = true ∧ l.keyTable ≠ field then [.event (.keys n field (l.keyTable ^^^ field))] else []

theorem setKeyTable_eq (n : LinkId) (field : Half) (l : Link) :
    setKeyTable n field l = ({ l with keyTable := field }, keysTaken n field l) := by
  by_cases same : field = l.keyTable
  · subst same
    simp [setKeyTable, keysTaken]
  · by_cases report : l.reportKeys = true <;> simp [setKeyTable, keysTaken, same, Ne.symm same, report]

/-- The taken key field after the second step (R90). -/
def Link.keysAfter (l : Link) (new : SessionState) : Half :=
  if clearsOn l.state new l.inService then 0 else l.takenKeys

theorem changeState_eq (n : LinkId) (c : Change) (l : Link) : changeState n c l =
    ({ l with
      state := c.target
      loopLock := c.lock
      side := c.side
      faultReason := faultOf c.reason
      timer := timerOf c.target c.lock l.callLength
      op := c.op
      takenWord := if clearsOn l.state c.target l.inService then none else l.takenWord
      candWord := if clearsOn l.state c.target l.inService then none else l.candWord
      takenKeys := l.keysAfter c.target
      candKeys := if clearsOn l.state c.target l.inService then none else l.candKeys
      framer := if sendsIn c.target then .sending else .atRest
      block := if sendsIn c.target then l.block else none
      loopFrame := if c.target = .loop then l.loopFrame else none
      detector := if c.target = .listen then .armed else .off
      inbound :=
        if resetsAligner l.state c.target && l.aligner.frameAlign == .locked then Table.fill 12 0
        else l.inbound
      aligner :=
        { (if resetsAligner l.state c.target then Aligner.reset else l.aligner) with
          input := inputOf c.target }
      keyTable := if followsKeys c.target then l.keysAfter c.target else 0
      reportKeys := if c.target = .off ∨ c.target = .fault then false else l.reportKeys
      lamps := if c.target = .off then 0 else l.lamps
      chan := (channelChange l.state c.target l).1.chan
      outQueue := if c.target = .closing ∨ c.target = .fault ∨ c.target = .off then [] else l.outQueue },
    keysTaken n (if followsKeys c.target then l.keysAfter c.target else 0) l ++
      (channelChange l.state c.target l).2 ++ c.completions ++
      [.event (.linkState n l.view ⟨c.target, c.lock⟩ c.reason)]) := by
  have chan := channelChange_of_chan (old := l.state) (new := c.target)
    (l := l) (l' := { l.changed c with keyTable := if followsKeys c.target then (l.changed c).takenKeys else 0 })
    rfl rfl
  apply Prod.ext
  · rw [changeState_link, chan.1]
    rfl
  · have link : (changeState n c l).1.view = ⟨c.target, c.lock⟩ := by
      rw [Link.view, changeState_state, changeState_loopLock]
    have effects : (channelChange l.state c.target
        (setKeyTable n (if followsKeys c.target then (l.changed c).takenKeys else 0) (l.changed c)).1).2 =
        (channelChange l.state c.target l).2 := by
      rw [setKeyTable_eq]
      exact chan.2
    show (setKeyTable n _ (l.changed c)).2 ++ (channelChange l.state c.target
      (setKeyTable n (if followsKeys c.target then (l.changed c).takenKeys else 0) (l.changed c)).1).2 ++
      c.completions ++ [.event (.linkState n l.view (changeState n c l).1.view c.reason)] = _
    rw [link, effects, setKeyTable_eq]
    rfl

/-! ### Into OFF and FAULT -/

theorem finishOp_eq (l : Link) (status : Status) (result : Nat) :
    finishOp l status result = opCompletion l status (BitVec.ofNat 32 result) := rfl

theorem opCompletion_none {l : Link} (none : l.op = none) (status : Status) (result : Word) :
    opCompletion l status result = [] := by
  rw [opCompletion, none]

theorem keysTaken_zero (n : LinkId) (l : Link) : keysTaken n 0 l = keysReleased n l := by
  have same : l.keyTable ^^^ (0 : Half) = l.keyTable := BitVec.xor_zero
  rw [keysTaken, same]
  rfl

/-- The filters are clear after a change that clears them where they are not clear already (R90). -/
structure Link.Clears (l : Link) (new : SessionState) : Prop where
  takenWord : (if clearsOn l.state new l.inService then none else l.takenWord) = none
  candWord : (if clearsOn l.state new l.inService then none else l.candWord) = none
  takenKeys : l.keysAfter new = 0
  candKeys : (if clearsOn l.state new l.inService then none else l.candKeys) = none

theorem Link.Clears.of_reset {l : Link} {new : SessionState} (filters : l.inService = false → l.filtersClear)
    (resets : resetsAligner l.state new = true) : l.Clears new := by
  cases service : l.inService with
  | true =>
    have clears : clearsOn l.state new l.inService = true := by simp [clearsOn, resets, service]
    constructor <;> simp [Link.keysAfter, clears]
  | false =>
    obtain ⟨takenWord, candWord, takenKeys, candKeys⟩ := filters service
    constructor <;> simp [Link.keysAfter, takenWord, candWord, takenKeys, candKeys]

/-- A session that ends (R71, R75, R90, R110, R126). -/
theorem changeState_atRest {n : LinkId} {l : Link} {target : SessionState} {reason : ChangeReason}
    {completions : List Effect} (filters : l.inService = false → l.filtersClear)
    (rest : target = .off ∨ target = .fault) :
    changeState n ⟨target, false, none, reason, none, completions⟩ l =
      (l.atRest target (faultOf reason), handedOn n l completions ⟨target, false⟩ reason) := by
  have resets : resetsAligner l.state target = true := by obtain rfl | rfl := rest <;> rfl
  obtain ⟨takenWord, candWord, takenKeys, candKeys⟩ := Link.Clears.of_reset filters resets
  rw [changeState_eq]
  dsimp only
  rw [takenWord, candWord, takenKeys, candKeys, ite_self, keysTaken_zero, resets]
  obtain rfl | rfl := rest
  · simp [Link.atRest, sendsIn, timerOf, inputOf, channelChange, handedOn, Link.view, Aligner.reset]
  · simp [Link.atRest, sendsIn, timerOf, inputOf, channelChange, handedOn, Link.view, Aligner.reset]

/-! ### Between the states of a session -/

/-- A link in a session on the line: it sends, and is neither in LOOP nor in FAULT. -/
structure InSession (l : Link) : Prop where
  sends : sendsIn l.state = true
  line : l.state ≠ .loop
  lock : l.loopLock = false
  reason : l.faultReason = .none
  framer : l.framer = .sending
  detector : l.detector = .off
  input : l.aligner.input = .line

theorem SessionGood.inSession {l : Link} (h : SessionGood l) (sends : sendsIn l.state = true)
    (line : l.state ≠ .loop) : InSession l where
  sends := sends
  line := line
  lock := by
    by_contra locked
    exact line (h.lock (by simpa using locked))
  reason := by
    by_contra known
    rw [h.reason.1 known] at sends
    cases sends
  framer := by rw [h.framer, if_pos sends]
  detector := by
    rw [h.detector, if_neg]
    intro listens
    rw [listens] at sends
    cases sends
  input := by rw [h.input, inputOf, if_neg line]

/-- A change between the states of a session keeps the line side as it is (R71, R75, R90). -/
theorem changeState_inSession {n : LinkId} {l : Link} {target : SessionState} {side : Option ClosingSide}
    {reason : ChangeReason} {op : Option LinkOp} {completions : List Effect} (h : InSession l)
    (goal : target = .training ∨ target = .active ∨ target = .degraded ∨ target = .closing)
    (plain : faultOf reason = .none) :
    changeState n ⟨target, false, side, reason, op, completions⟩ l =
      ({ l with
        state := target
        side := side
        timer := timerOf target false l.callLength
        op := op
        loopFrame := none
        keyTable := if target = .active then l.takenKeys else 0
        chan := (channelChange l.state target l).1.chan
        outQueue := if target = .closing then [] else l.outQueue },
      keysTaken n (if target = .active then l.takenKeys else 0) l ++ (channelChange l.state target l).2 ++
        completions ++ [.event (.linkState n ⟨l.state, false⟩ ⟨target, false⟩ reason)]) := by
  obtain ⟨sends, line, lock, noFault, framer, detector, input⟩ := h
  have resets : resetsAligner l.state target = false := by
    obtain rfl | rfl | rfl | rfl := goal <;> simp [resetsAligner, sendsIn, entersLoop]
  have clears : clearsOn l.state target l.inService = false := by
    obtain rfl | rfl | rfl | rfl := goal <;> simp [clearsOn, resets, entersLoop]
  rw [changeState_eq]
  simp only [Link.keysAfter, resets, clears, plain]
  obtain rfl | rfl | rfl | rfl := goal <;>
    simp [sendsIn, inputOf, followsKeys, lock, noFault, framer, detector, ← input, Link.view]

/-! ### Out of rest -/

/-- A link whose session has not begun: in OFF, LISTEN or FAULT. -/
structure Resting (l : Link) : Prop where
  state : l.state = .off ∨ l.state = .listen ∨ l.state = .fault
  lock : l.loopLock = false
  side : l.side = none
  timer : l.timer = none
  op : l.op = none
  filters : l.filtersClear
  framer : l.framer = .atRest
  aligner : l.aligner = Aligner.reset
  keyTable : l.keyTable = 0

theorem SessionGood.resting {l : Link} (h : SessionGood l)
    (state : l.state = .off ∨ l.state = .listen ∨ l.state = .fault) : Resting l := by
  have silent : sendsIn l.state = false := by obtain s | s | s := state <;> rw [s] <;> rfl
  have aligner := h.heldFrame silent
  have follows : followsKeys l.state = false := by obtain s | s | s := state <;> rw [s] <;> rfl
  have idle : timerKindOf l.state l.loopLock = none := by obtain s | s | s := state <;> rw [s] <;> rfl
  refine ⟨state, ?_, ?_, ?_, op_none h.op ?_, h.filters ?_, ?_, aligner, ?_⟩
  · by_contra locked
    rw [h.lock (by simpa using locked)] at state
    simp at state
  · by_contra sided
    rw [h.side.1 (Option.isSome_iff_ne_none.2 sided)] at state
    simp at state
  · have none := h.timer
    rw [idle, Option.map_eq_none_iff] at none
    exact none
  · obtain s | s | s := state <;> simp [s]
  · rw [Link.inService, aligner]
    rfl
  · rw [h.framer, silent]
    rfl
  · rw [h.keys, follows]
    rfl

section
variable {n : LinkId} {l : Link} (h : Resting l) {op : Option LinkOp} {reason : ChangeReason}
  {completions : List Effect} (plain : faultOf reason = .none)
include h plain

/-- A call begins (R71, R75, R92, R94, R103). -/
theorem changeState_calling : changeState n ⟨.calling, false, none, reason, op, completions⟩ l =
    ({ l with
      state := .calling
      faultReason := .none
      timer := some (.call, l.callLength)
      op := op
      framer := .sending
      loopFrame := none
      detector := .off },
    completions ++ [.event (.linkState n ⟨l.state, false⟩ ⟨.calling, false⟩ reason)]) := by
  obtain ⟨-, lock, side, timer, -, ⟨takenWord, candWord, takenKeys, candKeys⟩, framer, aligner, keyTable⟩ := h
  rw [changeState_eq]
  simp only [Link.keysAfter, plain, takenWord, candWord, takenKeys, candKeys, ite_self, aligner]
  simp [sendsIn, timerOf, inputOf, channelChange, Link.view, Aligner.reset, keysTaken, lock, side, keyTable]

/-- A link listens (R71, R85, R103). -/
theorem changeState_listen : changeState n ⟨.listen, false, none, reason, op, completions⟩ l =
    ({ l with
      state := .listen
      faultReason := .none
      op := op
      block := none
      loopFrame := none
      detector := .armed },
    completions ++ [.event (.linkState n ⟨l.state, false⟩ ⟨.listen, false⟩ reason)]) := by
  obtain ⟨-, lock, side, timer, -, ⟨takenWord, candWord, takenKeys, candKeys⟩, framer, aligner, keyTable⟩ := h
  rw [changeState_eq]
  simp only [Link.keysAfter, plain, takenWord, candWord, takenKeys, candKeys, ite_self, aligner]
  simp [sendsIn, timerOf, inputOf, channelChange, Link.view, Aligner.reset, keysTaken, lock, side, keyTable,
    timer, framer]

/-- The loop is entered (R74, R75, R101, R104, R114). -/
theorem changeState_loop : changeState n ⟨.loop, false, none, reason, op, completions⟩ l =
    ({ l with
      state := .loop
      faultReason := .none
      timer := some (.loop, 16)
      op := op
      framer := .sending
      detector := .off
      aligner := { Aligner.reset with input := .loopback }
      chan := l.chan.restart },
    completions ++ [.event (.linkState n ⟨l.state, false⟩ ⟨.loop, false⟩ reason)]) := by
  obtain ⟨state, lock, side, timer, -, ⟨takenWord, candWord, takenKeys, candKeys⟩, framer, aligner, keyTable⟩ := h
  have enters : l.state ≠ .loop := by obtain s | s | s := state <;> simp [s]
  rw [changeState_eq]
  simp only [Link.keysAfter, plain, takenWord, candWord, takenKeys, candKeys, ite_self, aligner]
  simp [sendsIn, timerOf, inputOf, channelChange, enters, Link.view, Aligner.reset, keysTaken, lock, side,
    keyTable, resetsAligner, entersLoop]

end

end Sys2Proof.Machine
end

section
/-! SUPPORT. The link commands (R103 to R106, R112, R116), line activity, the supervision timers, the message limits
and taken words (R88, R94 to R102), in the terms of the statements. -/

namespace Sys2Proof.Machine

/-! ### A link command as its read ends -/

/-- A command of ring B with good fields reaches its owner. -/
theorem exec_ringB {s : State} {slot : Nat} {i : Instr} {r : CommandRecord} {α : Type} {fields : Option α}
    {f : α} (take : CmdId → α → State → State) (read : ReadInFlight s .b slot) (row : i.wellFormed = true)
    (effect : effectOf i s = takeFetch r (fetchedPlain .b fields take) s) (good : fields = some f) :
    exec i s = .next (stopIfDue (take ⟨recTag r, .b, slot⟩ f (s.readEnded .b))) := by
  rw [exec_effect row read.running, effect, takeFetch_inFlight read,
    fetchedPlain_taken read.readEnded_running good]
  rfl

/-- A Link Unit that changes and answers. -/
theorem onLink_answered {s : State} {n : LinkId} {f : Link → LinkStep} {l : Link} {c : Completion}
    (live : s.engine.mode ≠ .halted) (h : f (s.links.get n) = (l, [.complete c])) :
    s.onLink n f = ({ s with links := s.links.set n l }).answered [c] := by
  rw [onLink_of h]
  exact hand_answered (s := { s with links := s.links.set n l }) live c

/-- A Link Unit that only answers. -/
theorem onLink_refused {s : State} {n : LinkId} {f : Link → LinkStep} {c : Completion}
    (live : s.engine.mode ≠ .halted) (h : f (s.links.get n) = (s.links.get n, [.complete c])) :
    s.onLink n f = s.answered [c] := by
  rw [onLink_answered live h, Table.set_get_self]

/-! ### START LINK, LOOP LINK, STOP LINK -/

section
variable {n : LinkId} {id : CmdId} {f : StartFields} {l : Link}

theorem takeStart_call (h : LinkGood l) (mode : f.mode = .call)
    (rest : l.state = .off ∨ l.state = .listen ∨ l.state = .fault) :
    takeStart n id f l = ({ l with
        state := .calling
        faultReason := .none
        callLength := callLengthOf f.timer
        reportKeys := f.report
        timer := some (.call, callLengthOf f.timer)
        op := some ⟨.start, id⟩
        framer := .sending
        loopFrame := none
        detector := .off },
      [.event (.linkState n ⟨l.state, false⟩ ⟨.calling, false⟩ .hostStart)]) := by
  obtain ⟨-, lock, side, timer, op, filters, framer, aligner, keyTable⟩ := h.session.resting rest
  have resting : Resting { l with callLength := callLengthOf f.timer, reportKeys := f.report } :=
    ⟨rest, lock, side, timer, op, filters, framer, aligner, keyTable⟩
  unfold takeStart
  simp only [mode]
  rw [if_pos (by tauto), changeState_calling resting rfl]
  rfl

theorem takeStart_answer (h : LinkGood l) (mode : f.mode = .answer)
    (rest : l.state = .off ∨ l.state = .fault) :
    takeStart n id f l = ({ l with
        state := .listen
        faultReason := .none
        callLength := callLengthOf f.timer
        reportKeys := f.report
        block := none
        loopFrame := none
        detector := .armed },
      [.complete (.plain id .done 0),
        .event (.linkState n ⟨l.state, false⟩ ⟨.listen, false⟩ .hostStart)]) := by
  obtain ⟨state, lock, side, timer, op, filters, framer, aligner, keyTable⟩ :=
    h.session.resting (rest.imp_right .inr)
  have resting : Resting { l with callLength := callLengthOf f.timer, reportKeys := f.report } :=
    ⟨state, lock, side, timer, op, filters, framer, aligner, keyTable⟩
  unfold takeStart
  simp only [mode]
  rw [if_pos rest, changeState_listen resting rfl, op]
  rfl

theorem takeStart_busy (other : (f.mode = .call ∧ l.state ≠ .off ∧ l.state ≠ .listen ∧ l.state ≠ .fault) ∨
      (f.mode = .answer ∧ l.state ≠ .off ∧ l.state ≠ .fault)) :
    takeStart n id f l = busy id l := by
  unfold takeStart
  obtain ⟨mode, notOff, notListen, notFault⟩ | ⟨mode, notOff, notFault⟩ := other
  · simp only [mode]
    exact if_neg (by tauto)
  · simp only [mode]
    exact if_neg (by tauto)

end

/-- Settles O54: the mode and the state decide between the call, listening and BUSY. -/
theorem startLinkCallsOrListens : Obligations.StartLinkCallsOrListens := by
  intro s slot r f read fields n l id length good
  have taken : exec (.startLink r) s =
      .next (stopIfDue ((s.readEnded .b).onLink n (takeStart n id f))) :=
    exec_ringB takeStartLink read rfl rfl fields
  rw [taken]
  refine ⟨fun mode rest => ?_, fun mode rest => ?_, fun other => ?_⟩
  · rw [onLink_of (s := s.readEnded .b) (takeStart_call (l := l) good mode rest)]
    rfl
  · rw [onLink_of (s := s.readEnded .b) (takeStart_answer (l := l) good mode rest)]
    rfl
  · rw [onLink_refused read.readEnded_running (takeStart_busy (l := l) other)]
    rfl

/-- Settles O55: LOOP is entered from rest, and is BUSY elsewhere. -/
theorem loopLinkEntersTheLoop : Obligations.LoopLinkEntersTheLoop := by
  intro s slot r f read fields n l id good
  have taken : exec (.loopLink r) s =
      .next (stopIfDue ((s.readEnded .b).onLink n (takeLoop n id f.report))) :=
    exec_ringB takeLoopLink read rfl rfl fields
  rw [taken]
  refine ⟨fun rest => ?_, fun notOff notFault => ?_⟩
  · obtain ⟨state, lock, side, timer, op, filters, framer, aligner, keyTable⟩ :=
      good.session.resting (rest.imp_right .inr)
    have resting : Resting { l with reportKeys := f.report } :=
      ⟨state, lock, side, timer, op, filters, framer, aligner, keyTable⟩
    have detector : l.detector = .off := by
      rw [good.session.detector, if_neg (by obtain s | s := rest <;> simp [s])]
    have loops : takeLoop n id f.report l = ({ l with
          state := .loop
          faultReason := .none
          reportKeys := f.report
          timer := some (.loop, 16)
          op := some ⟨.loop, id⟩
          framer := .sending
          aligner := { Aligner.reset with input := .loopback }
          chan := l.chan.restart },
        [.event (.linkState n ⟨l.state, false⟩ ⟨.loop, false⟩ .hostLoop)]) := by
      rw [takeLoop, if_pos rest, changeState_loop resting rfl]
      simp [detector]
    rw [onLink_of (s := s.readEnded .b) loops]
    rfl
  · have busy : takeLoop n id f.report l = busy id l := if_neg (by tauto)
    rw [onLink_refused read.readEnded_running busy]
    rfl

section
variable {n : LinkId} {id : CmdId} {l : Link} (h : LinkGood l)
include h

/-- A session that STOP LINK ends at once (R105). -/
theorem takeStop_ends
    (state : l.state = .listen ∨ l.state = .fault ∨ l.state = .calling ∨ l.state = .loop) :
    takeStop n id l = (l.atRest .off .none,
      handedOn n l (opCompletion l .aborted 0 ++ [.complete (.plain id .done 0)]) ⟨.off, false⟩ .hostStop) := by
  have rest {completions : List Effect} := changeState_atRest (n := n) (reason := .hostStop)
    (completions := completions) h.session.filters (target := .off) (.inl rfl)
  unfold takeStop
  obtain s | s | s | s := state
  · rw [opCompletion_none (h.session.resting (.inr (.inl s))).op]
    simp only [s]
    exact rest
  · rw [opCompletion_none (h.session.resting (.inr (.inr s))).op]
    simp only [s]
    exact rest
  · simp only [s]
    exact rest
  · simp only [s]
    exact rest

/-- A session that STOP LINK takes to CLOSING (R105). -/
theorem takeStop_closes (state : l.state = .training ∨ l.state = .active ∨ l.state = .degraded) :
    takeStop n id l = ({ l with
        state := .closing
        side := some .hub
        timer := some (.close, 16)
        op := some ⟨.stop, id⟩
        loopFrame := none
        keyTable := 0
        chan := { l.chan with assembly := [], discarding := false }
        outQueue := [] },
      handedOn n l (opCompletion l .aborted 0) ⟨.closing, false⟩ .hostStop) := by
  have session : InSession l := h.session.inSession
    (by obtain s | s | s := state <;> rw [s] <;> rfl) (by obtain s | s | s := state <;> simp [s])
  have change : takeStop n id l =
      changeState n ⟨.closing, false, some .hub, .hostStop, some ⟨.stop, id⟩, finishOp l .aborted 0⟩ l := by
    unfold takeStop
    obtain s | s | s := state <;> simp only [s]
  rw [change, changeState_inSession session (by simp) rfl]
  simp only [reduceCtorEq, if_false, keysTaken_zero, finishOp_eq, channelChange, handedOn, session.lock]
  rfl

end

/-- Settles O56: STOP LINK ends a session, closes it, or finds it ended or closing. -/
theorem stopLinkEndsTheSession : Obligations.StopLinkEndsTheSession := by
  intro s slot r n read fields l id good
  have taken : exec (.stopLink r) s = .next (stopIfDue ((s.readEnded .b).onLink n (takeStop n id))) :=
    exec_ringB takeStopLink read rfl rfl fields
  rw [taken]
  refine ⟨fun off => ?_, fun state => ?_, fun state => ?_, fun closing => ?_⟩
  · have done : takeStop n id l = (l, [.complete (.plain id .done 0)]) := by
      unfold takeStop
      rw [off]
      rfl
    rw [onLink_refused read.readEnded_running done]
  · rw [onLink_of (s := s.readEnded .b) (takeStop_ends (l := l) good state)]
    rfl
  · rw [onLink_of (s := s.readEnded .b) (takeStop_closes (l := l) good state)]
    rfl
  · have busy : takeStop n id l = (l, [.complete (.plain id .busy 6)]) := by
      unfold takeStop
      simp [closing, busy, reply, Link.view, SessionView.code, SessionState.code]
    rw [onLink_refused read.readEnded_running busy]

/-! ### QUERY LINK, SET LAMPS, SEND MESSAGE -/

theorem SessionView.code_lt (v : SessionView) : v.code < 16 := by
  unfold SessionView.code
  split
  · omega
  · cases v.state <;> decide

theorem FaultReason.code_lt (why : FaultReason) : why.code < 8 := by cases why <;> decide

theorem lampsAfter_getLsbD (lamps mask value : Half) {k : Nat} (inside : k < 16) :
    (lampsAfter lamps mask value).getLsbD k = if mask.getLsbD k then value.getLsbD k else lamps.getLsbD k := by
  rw [lampsAfter]
  simp only [BitVec.getLsbD_or, BitVec.getLsbD_and, BitVec.getLsbD_not, inside]
  cases mask.getLsbD k <;> simp

/-- The fields of the report in their places (10.3). -/
theorem linkReport_fields (l : Link) :
    let report : Word := BitVec.ofNat 32 (linkReport l)
    report.extractLsb' 0 16 = l.takenKeys ∧
    (report.extractLsb' 16 4).toNat = SessionView.code ⟨l.state, l.loopLock⟩ ∧
    (report.extractLsb' 20 3).toNat = l.faultReason.code ∧ report.getLsbD 23 = false ∧
    report.getLsbD 24 = decide (l.aligner.frameAlign = .locked) ∧
    report.getLsbD 25 = decide (l.aligner.superAlign = .sfLocked) ∧
    report.getLsbD 26 = l.loopLock ∧ report.extractLsb' 27 5 = 0 := by
  intro report
  have keys : l.takenKeys.toNat < 2 ^ 16 := l.takenKeys.isLt
  have code : l.view.code < 16 := SessionView.code_lt _
  have why : l.faultReason.code < 8 := FaultReason.code_lt _
  have flag (b : Bool) (p : Nat) : boolBit b p = 2 ^ p * b.toNat := by cases b <;> simp [boolBit]
  have locked := Bool.toNat_lt (l.aligner.frameAlign == .locked)
  have superLocked := Bool.toNat_lt (l.aligner.superAlign == .sfLocked)
  have loopLocked := Bool.toNat_lt l.loopLock
  have value : linkReport l = l.takenKeys.toNat + 2 ^ 16 * l.view.code + 2 ^ 20 * l.faultReason.code
      + 2 ^ 24 * (l.aligner.frameAlign == .locked).toNat
      + 2 ^ 25 * (l.aligner.superAlign == .sfLocked).toNat + 2 ^ 26 * l.loopLock.toNat := by
    rw [linkReport, flag, flag, flag]
  have bit (p : Nat) (inside : p < 32) (b : Bool) (place : linkReport l / 2 ^ p % 2 = b.toNat) :
      report.getLsbD p = b := by
    rw [BitVec.getLsbD_ofNat, Nat.testBit_eq_decide_div_mod_eq, place]
    cases b <;> simp [inside]
  refine ⟨?_, ?_, ?_, bit 23 (by omega) false ?_, ?_, ?_, bit 26 (by omega) _ ?_, ?_⟩
  · apply BitVec.eq_of_toNat_eq
    simp only [report, BitVec.extractLsb'_toNat, BitVec.toNat_ofNat, Nat.shiftRight_eq_div_pow]
    omega
  · simp only [report, BitVec.extractLsb'_toNat, BitVec.toNat_ofNat, Nat.shiftRight_eq_div_pow]
    show _ = l.view.code
    omega
  · simp only [report, BitVec.extractLsb'_toNat, BitVec.toNat_ofNat, Nat.shiftRight_eq_div_pow]
    omega
  · rw [value, Bool.toNat_false]
    omega
  · rw [bit 24 (by omega) (l.aligner.frameAlign == .locked) (by omega)]
    rfl
  · rw [bit 25 (by omega) (l.aligner.superAlign == .sfLocked) (by omega)]
    rfl
  · omega
  · have zero : (0 : BitVec 5).toNat = 0 := rfl
    apply BitVec.eq_of_toNat_eq
    simp only [report, BitVec.extractLsb'_toNat, BitVec.toNat_ofNat, Nat.shiftRight_eq_div_pow, zero]
    omega

/-- Settles O57: the three commands change at most the lamps or the queue of their link, and answer. -/
theorem queryLampsAndMessagesAreTaken : Obligations.QueryLampsAndMessagesAreTaken := by
  refine ⟨⟨fun s slot r n read fields => ?query, by decide, fun s slot r f read fields => ?lamps⟩,
    fun s slot r f read fields => ?message⟩
  case query =>
    refine ⟨BitVec.ofNat 32 (linkReport (s.links.get n)), ?_, linkReport_fields (s.links.get n)⟩
    have taken : exec (.queryLink r) s =
        .next (stopIfDue ((s.readEnded .b).onLink n (takeQuery ⟨recTag r, .b, slot⟩))) :=
      exec_ringB takeQueryLink read rfl rfl fields
    rw [taken, onLink_refused (s := s.readEnded .b) (f := takeQuery ⟨recTag r, .b, slot⟩)
      read.readEnded_running rfl]
    rfl
  case lamps =>
    let l := s.links.get f.link
    have taken : exec (.setLamps r) s =
        .next (stopIfDue ((s.readEnded .b).onLink f.link (takeLamps ⟨recTag r, .b, slot⟩ f.mask f.value))) :=
      exec_ringB takeSetLamps read rfl rfl fields
    refine ⟨lampsAfter l.lamps f.mask f.value, ?_, fun k inside => lampsAfter_getLsbD _ _ _ inside⟩
    rw [taken, onLink_answered (s := s.readEnded .b) (f := takeLamps ⟨recTag r, .b, slot⟩ f.mask f.value)
      read.readEnded_running rfl]
    rfl
  case message =>
    intro l id speaks
    have taken : exec (.sendMessage r) s =
        .next (stopIfDue ((s.readEnded .b).onLink f.link (takeMessage id f.bytes))) :=
      exec_ringB takeSendMessage read rfl rfl fields
    rw [taken]
    refine ⟨fun may room => ?_, fun may full => ?_, fun cannot => ?_⟩
    · have queued : takeMessage id f.bytes l = ({ l with outQueue := l.outQueue ++ [⟨some id, f.bytes⟩] }, []) := by
        rw [takeMessage, if_pos may, if_pos room]
      rw [onLink_quiet (s := s.readEnded .b) queued]
      rfl
    · have refused : takeMessage id f.bytes l = (l, [.complete (.plain id .queueFull 0)]) := by
        rw [takeMessage, if_pos may, if_neg (Nat.not_lt.2 full)]
        rfl
      rw [onLink_refused read.readEnded_running refused]
    · have refused : takeMessage id f.bytes l = (l, [.complete (.plain id .linkDown 0)]) := by
        rw [takeMessage, if_neg cannot]
        rfl
      rw [onLink_refused read.readEnded_running refused]

/-! ### Line activity and the supervision timers (R85, R92, R94) -/

/-- Settles O58: the detector is armed in LISTEN alone. -/
theorem lineActivityStartsACall : Obligations.LineActivityStartsACall := by
  intro s n running l good
  rw [exec_effect rfl running]
  refine ⟨fun listens => ?_, fun other => ?_⟩
  · have armed : l.detector = .armed := by rw [good.session.detector, if_pos listens]
    have call : lineActivity n l = ({ l with
          state := .calling
          timer := some (.call, l.callLength)
          framer := .sending
          loopFrame := none
          detector := .off },
        [.event (.linkState n ⟨.listen, false⟩ ⟨.calling, false⟩ .activity)]) := by
      have noFault : l.faultReason = .none := by
        by_contra known
        have fault := good.session.reason.1 known
        rw [listens] at fault
        cases fault
      rw [lineActivity, if_pos armed, Change.keep,
        changeState_calling (good.session.resting (.inr (.inl listens))) rfl, listens, noFault]
      rfl
    exact congrArg Host.Outcome.next (onLink_of (l := _) call)
  · have quiet : lineActivity n l = (l, []) := by
      rw [lineActivity, if_neg]
      rw [good.session.detector, if_neg other]
      simp
    exact congrArg Host.Outcome.next (onLink_same quiet)

/-- The row of a supervision timer. -/
def timerRow (n : LinkId) : TimerKind → Instr
  | .call => .callTimerExpires n
  | .train => .trainTimerExpires n
  | .hold => .holdTimerExpires n
  | .close => .closeTimerExpires n
  | .loop => .loopTimerExpires n

theorem exec_timerRow {s : State} {n : LinkId} (running : s.held = false) (kind : TimerKind) :
    exec (timerRow n kind) s = .next (s.onLink n (expireIfDue n kind)) := by
  cases kind <;> exact exec_effect rfl running

theorem expireIfDue_due {n : LinkId} {kind : TimerKind} {l : Link} (due : l.timer = some (kind, 0)) :
    expireIfDue n kind l = expire n kind l :=
  if_pos (by simp [timerDue, due])

theorem expireIfDue_waits {n : LinkId} {kind : TimerKind} {l : Link} (waits : l.timer ≠ some (kind, 0)) :
    expireIfDue n kind l = (l, []) :=
  if_neg (by simpa [timerDue] using waits)

/-- A session that fails (R100). -/
theorem enterFault_eq {n : LinkId} {why : FaultReason} {status : Status} {l : Link} (h : LinkGood l) :
    enterFault n why status l = (l.atRest .fault why,
      handedOn n l (opCompletion l status 0) ⟨.fault, false⟩ (.fault why)) :=
  changeState_atRest h.session.filters (.inr rfl)

/-- A session with no operation pending that fails. -/
theorem changeState_fails {n : LinkId} {why : FaultReason} {l : Link} (h : LinkGood l) (op : l.op = none) :
    changeState n (.keep l .fault (.fault why)) l = (l.atRest .fault why,
      handedOn n l [] ⟨.fault, false⟩ (.fault why)) := by
  rw [Change.keep, op]
  exact changeState_atRest h.session.filters (.inr rfl)

theorem op_none_of_timer {l : Link} {k : Nat} (h : LinkGood l) (hold : l.timer = some (.hold, k)) :
    l.op = none := by
  have kind := h.session.timer
  rw [hold] at kind
  have degraded : l.state = .degraded := by
    unfold timerKindOf at kind
    cases state : l.state <;> rw [state] at kind <;> simp_all
  exact op_none h.session.op (by simp [degraded])

/-- Settles O59: each timer's row is its expiry where it is due, and nothing elsewhere. -/
theorem supervisionTimersExpire : Obligations.SupervisionTimersExpire := by
  refine ⟨fun s n running => ?_, fun s n running => ?_⟩
  · intro l failed good
    have due {kind : TimerKind} {p : LinkStep} (now : l.timer = some (kind, 0)) (expires : expire n kind l = p) :
        exec (timerRow n kind) s = .next (emit p.2 { s with links := s.links.set n p.1 }) := by
      rw [exec_timerRow running, onLink_of (by rw [expireIfDue_due now, expires])]
    refine ⟨fun now => due now (enterFault_eq good), fun now => due now (enterFault_eq good), fun now => ?_,
      fun now => due now (changeState_atRest good.session.filters (.inl rfl)),
      fun now => due now (enterFault_eq good)⟩
    have op := op_none_of_timer good now
    refine ⟨op, ?_⟩
    have expires := due now (changeState_fails good op)
    rwa [← opCompletion_none op .done 0] at expires
  · intro l
    have waits {kind : TimerKind} (later : l.timer ≠ some (kind, 0)) : exec (timerRow n kind) s = .next s := by
      rw [exec_timerRow running, onLink_same (expireIfDue_waits later)]
    exact ⟨waits, waits, waits, waits, waits⟩

/-! ### The message limits (R117, R119) -/

section
variable {l : Link} {m : OutMessage} {rest : List OutMessage} (queue : l.outQueue = m :: rest)
include queue

theorem failOldest_eq (status : Status) : failOldest status l =
    ({ l with outQueue := rest, chan := l.chan.nextMessage },
      settleMessage m status (11 * l.chan.segIndex)) := by
  rw [failOldest, dropOldest, queue]

theorem retryDue_iff : retryDue l = true ↔ 16 ≤ l.chan.retry := by simp [retryDue, queue]

theorem notReadyDue_iff : notReadyDue l = true ↔ l.chan.peerRdy = false ∧ 256 ≤ l.chan.notReady + 1 := by
  have limit : Config.notReadyLimit = 256 := rfl
  simp [notReadyDue, queue, limit]

end

/-- Settles O60: the limits are the two failures of settling, where the next frame start settles. -/
theorem messageLimitsFailTheOldest : Obligations.MessageLimitsFailTheOldest := by
  intro s n m rest running l failed state start queue
  have settles : settlesNext s.frame l = true := by
    rw [settlesNext, start]
    simpa using state
  have retry : exec (.retryLimit n) s = .next (s.onLink n (retryLimitIfDue s.frame)) := exec_effect rfl running
  have notReady : exec (.notReadyLimit n) s = .next (s.onLink n (notReadyLimitIfDue s.frame)) :=
    exec_effect rfl running
  rw [retry, notReady]
  refine ⟨fun limit => ?_, fun below => ?_, fun below silent limit => ?_, fun waits => ?_⟩
  · have fails : retryLimitIfDue s.frame l = ({ l with outQueue := rest, chan := l.chan.nextMessage },
        settleMessage m .noAck (11 * l.chan.segIndex)) := by
      rw [retryLimitIfDue, if_pos settles, settleRetry, if_pos ((retryDue_iff queue).2 limit), failOldest_eq queue]
    rw [onLink_of (l := _) fails]
    rfl
  · have keeps : retryLimitIfDue s.frame l = (l, []) := by
      rw [retryLimitIfDue, if_pos settles, settleRetry, if_neg (mt (retryDue_iff queue).1 (by omega))]
    rw [onLink_same keeps]
  · have retryLater : retryDue l = false := Bool.eq_false_iff.2 (mt (retryDue_iff queue).1 (by omega))
    have fails : notReadyLimitIfDue s.frame l = ({ l with outQueue := rest, chan := l.chan.nextMessage },
        settleMessage m .notReady (11 * l.chan.segIndex)) := by
      rw [notReadyLimitIfDue, if_pos (by simp [settles, retryLater]), settleNotReady,
        if_pos ((notReadyDue_iff queue).2 ⟨silent, limit⟩), failOldest_eq queue]
    rw [onLink_of (l := _) fails]
    rfl
  · have notDue : ¬ notReadyDue l = true := by
      rw [notReadyDue_iff queue]
      rintro ⟨silent, limit⟩
      obtain ready | below := waits
      · rw [silent] at ready; cases ready
      · omega
    have keeps : notReadyLimitIfDue s.frame l = (l, []) := by
      rw [notReadyLimitIfDue, settleNotReady, if_neg notDue, ite_self]
    rw [onLink_same keeps]

end Sys2Proof.Machine
end

section
/-! SUPPORT. What a taken word does to a session (R88, R95 to R102, R126). -/

namespace Sys2Proof.Machine

section
variable {n : LinkId} {w : LinkWord} {l : Link}

/-! ### Words in each state -/

/-- The closing side is CLOSING's alone. -/
theorem SessionGood.noSide (h : SessionGood l) (other : l.state ≠ .closing) : l.side = none := by
  by_contra sided
  exact other (h.side.1 (Option.isSome_iff_ne_none.2 sided))

theorem wordTaken_answered (h : LinkGood l) (state : l.state = .calling) (word : w = .hello ∨ w = .wake) :
    wordTaken n w l = ({ l with state := .training, timer := some (.train, 50), loopFrame := none },
      [.event (.linkState n ⟨l.state, false⟩ ⟨.training, false⟩ .answered)]) := by
  have session := h.session.inSession (by rw [state]; rfl) (by simp [state])
  have table : l.keyTable = 0 := by rw [h.session.keys, state]; rfl
  have side : l.side = none := h.session.noSide (by simp [state])
  have change : wordTaken n w l = changeState n (.keep l .training .answered) l := by
    unfold wordTaken
    rw [state]
    obtain rfl | rfl := word <;> rfl
  rw [change, Change.keep, changeState_inSession session (.inl rfl) rfl]
  simp [timerOf, channelChange, keysTaken, table, side]

/-- The keys pressed at entry into ACTIVE, where the key table was released before (R109 to R111). -/
theorem keysTaken_pressed (table : l.keyTable = 0) : keysTaken n l.takenKeys l =
    if l.reportKeys = true ∧ l.takenKeys ≠ 0 then [.event (.keys n l.takenKeys l.takenKeys)] else [] := by
  have all : (0 : Half) ^^^ l.takenKeys = l.takenKeys := BitVec.zero_xor
  rw [keysTaken, table, all]
  simp only [ne_comm (a := (0 : Half))]

theorem wordTaken_engaged (h : LinkGood l) (state : l.state = .training) :
    wordTaken n .run l = ({ l with
        state := .active
        timer := none
        op := none
        loopFrame := none
        keyTable := l.takenKeys
        chan := { MessageChannel.reset with sentRdy := l.chan.sentRdy } },
      (if l.reportKeys = true ∧ l.takenKeys ≠ 0 then [.event (.keys n l.takenKeys l.takenKeys)] else []) ++
        opCompletion l .done 0 ++ [.event (.linkState n ⟨l.state, false⟩ ⟨.active, false⟩ .engaged)]) := by
  have session := h.session.inSession (by rw [state]; rfl) (by simp [state])
  have table : l.keyTable = 0 := by rw [h.session.keys, state]; rfl
  have side : l.side = none := h.session.noSide (by simp [state])
  have change : wordTaken n .run l = changeState n (.ending l .active .engaged .done 0) l := by
    unfold wordTaken
    rw [state]
  rw [change, Change.ending, changeState_inSession session (by simp) rfl]
  simp only [if_pos, keysTaken_pressed table, channelChange, state, finishOp_eq]
  simp [timerOf, MessageChannel.restart, side]

theorem wordTaken_recovered (h : LinkGood l) (state : l.state = .degraded) :
    wordTaken n .run l = ({ l with
        state := .active
        timer := none
        loopFrame := none
        keyTable := l.takenKeys },
      (if l.reportKeys = true ∧ l.takenKeys ≠ 0 then [.event (.keys n l.takenKeys l.takenKeys)] else []) ++
        [.event (.linkState n ⟨l.state, false⟩ ⟨.active, false⟩ .recovered)]) := by
  have session := h.session.inSession (by rw [state]; rfl) (by simp [state])
  have table : l.keyTable = 0 := by rw [h.session.keys, state]; rfl
  have side : l.side = none := h.session.noSide (by simp [state])
  have change : wordTaken n .run l = changeState n (.keep l .active .recovered) l := by
    unfold wordTaken
    rw [state]
  rw [change, Change.keep, changeState_inSession session (by simp) rfl]
  simp only [if_pos, keysTaken_pressed table, channelChange, state]
  simp [timerOf, side]

theorem wordTaken_released (h : LinkGood l) (state : l.state = .active) :
    wordTaken n .release l = ({ l with
        state := .closing
        side := some .station
        timer := some (.close, 16)
        loopFrame := none
        keyTable := 0
        chan := { l.chan with assembly := [], discarding := false }
        outQueue := [] },
      handedOn n l [] ⟨.closing, false⟩ .stationRelease) := by
  have session := h.session.inSession (by rw [state]; rfl) (by simp [state])
  have change : wordTaken n .release l =
      changeState n ⟨.closing, false, some .station, .stationRelease, l.op, []⟩ l := by
    unfold wordTaken
    rw [state]
  rw [change, changeState_inSession session (by simp) rfl]
  simp only [reduceCtorEq, if_false, keysTaken_zero, channelChange, handedOn, session.lock]
  rfl

/-- A word that the state does not answer. -/
theorem wordTaken_ignored (ignored : (l.state = .calling ∧ w ≠ .hello ∧ w ≠ .wake) ∨
      (l.state = .training ∧ w ≠ .run ∧ w ≠ .release) ∨ (l.state = .active ∧ w = .run) ∨
      (l.state = .closing ∧ (l.side ≠ some .hub ∨ w ≠ .done)) ∨
      l.state = .off ∨ l.state = .listen ∨ l.state = .fault ∨ l.state = .loop) :
    wordTaken n w l = (l, []) := by
  unfold wordTaken
  obtain ⟨s, no, no'⟩ | ⟨s, no, no'⟩ | ⟨s, rfl⟩ | ⟨s, no⟩ | s | s | s | s := ignored <;> simp only [s]
  case inl => cases w <;> simp_all
  case inr.inl => cases w <;> simp_all
  case inr.inr.inr.inl => exact if_neg (by tauto)

/-- A word that a session does not expect ends it in FAULT (R97, R98, R100). -/
theorem wordTaken_fails {why : FaultReason} (h : LinkGood l)
    (unexpected : (l.state = .active ∧ w = .fault ∧ why = .station) ∨
      (l.state = .active ∧ (w = .wake ∨ w = .hello ∨ w = .engage ∨ w = .done) ∧ why = .protocol) ∨
      (l.state = .degraded ∧ w ≠ .run ∧ why = .protocol)) :
    l.op = none ∧ wordTaken n w l = (l.atRest .fault why,
      handedOn n l (opCompletion l .done 0) ⟨.fault, false⟩ (.fault why)) := by
  have op : l.op = none := op_none h.session.op (by
    obtain ⟨s, -⟩ | ⟨s, -⟩ | ⟨s, -⟩ := unexpected <;> simp [s])
  have change : wordTaken n w l = changeState n (.keep l .fault (.fault why)) l := by
    unfold wordTaken
    obtain ⟨s, rfl, rfl⟩ | ⟨s, word, rfl⟩ | ⟨s, word, rfl⟩ := unexpected
    · rw [s]
    · rw [s]
      obtain rfl | rfl | rfl | rfl := word <;> rfl
    · rw [s]
      cases w with
      | run => exact absurd rfl word
      | _ => rfl
  refine ⟨op, ?_⟩
  rw [change, changeState_fails h op, opCompletion_none op]

theorem wordTaken_refused (h : LinkGood l) (state : l.state = .training) :
    wordTaken n .release l = (l.atRest .fault .refused,
      handedOn n l (opCompletion l .refused 0) ⟨.fault, false⟩ (.fault .refused)) := by
  have change : wordTaken n .release l = enterFault n .refused .refused l := by
    unfold wordTaken
    rw [state]
  rw [change, enterFault_eq h]

theorem wordTaken_confirmed (h : LinkGood l) (state : l.state = .closing) (side : l.side = some .hub) :
    wordTaken n .done l = (l.atRest .off .none,
      handedOn n l (opCompletion l .done 1) ⟨.off, false⟩ .confirmed) := by
  have change : wordTaken n .done l = changeState n (.ending l .off .confirmed .done 1) l := by
    unfold wordTaken
    rw [state]
    exact if_pos ⟨side, rfl⟩
  rw [change]
  exact changeState_atRest h.session.filters (.inl rfl)

/-! ### The word filter (R88) -/

theorem filterWord_takes (held : l.candWord = some (some w)) (new : l.takenWord ≠ some w) :
    filterWord n (some w) l = wordTaken n w { l with candWord := some (some w), takenWord := some w } :=
  if_pos ⟨held, new⟩

theorem filterWord_waits {word : Option LinkWord}
    (waits : word = none ∨ l.candWord ≠ some word ∨ l.takenWord = word) :
    filterWord n word l = ({ l with candWord := some word }, []) := by
  cases word with
  | none => rfl
  | some w =>
    obtain none | first | taken := waits
    · cases none
    · exact if_neg fun both => first both.1
    · exact if_neg fun both => both.2 taken

end

/-- Settles O52: the filter takes a word seen twice, and each state answers the words it expects. -/
theorem takenWordsMoveTheSession : Obligations.TakenWordsMoveTheSession := by
  refine ⟨fun n word l => ⟨?_, filterWord_waits⟩, fun k => rfl, fun k m rest => rfl, ?_⟩
  · rintro w rfl held new
    exact filterWord_takes held new
  intro n w l h r moved pressed failed
  refine ⟨wordTaken_answered h, fun state no no' => wordTaken_ignored (.inl ⟨state, no, no'⟩), ?_, ?_,
    fun state no no' => wordTaken_ignored (.inr (.inl ⟨state, no, no'⟩)),
    fun state run => wordTaken_ignored (.inr (.inr (.inl ⟨state, run⟩))), ?_,
    fun state word => wordTaken_fails h (.inl ⟨state, word, rfl⟩),
    fun state word => wordTaken_fails h (.inr (.inl ⟨state, word, rfl⟩)), ?_,
    fun state word => wordTaken_fails h (.inr (.inr ⟨state, word, rfl⟩)), ?_,
    fun state no => wordTaken_ignored (.inr (.inr (.inr (.inl ⟨state, no⟩)))),
    fun rest => wordTaken_ignored (.inr (.inr (.inr (.inr rest))))⟩
  · rintro state rfl
    exact wordTaken_engaged h state
  · rintro state rfl
    exact wordTaken_refused h state
  · rintro state rfl
    exact wordTaken_released h state
  · rintro state rfl
    exact wordTaken_recovered h state
  · rintro state side rfl
    exact wordTaken_confirmed h state side

end Sys2Proof.Machine
end

section
/-! SUPPORT. The aligner (R75 to R83): a frame examined in LOCKED in the terms of the statements, markers, hunting and
confirming. -/

namespace Sys2Proof.Machine

/-! ### The link that examines (R74) -/

theorem Examines.sameBut {l l' : Link} {f g : LineFrame} (h : Examines l f g l') :
    ∃ looped, l' = { l with loopFrame := looped } := by
  obtain ⟨-, ⟨-, -, rfl⟩ | ⟨-, -, rfl⟩⟩ := h
  · exact ⟨l'.loopFrame, rfl⟩
  · exact ⟨none, rfl⟩

theorem exec_upstream {s : State} {n : LinkId} {f g : LineFrame} {l' : Link} (running : s.held = false)
    (examines : Examines (s.links.get n) f g l') (found : (s.links.get n).aligner.frameAlign ≠ .hunt) {p : LinkStep}
    (step : examineFrame n s.frame g l' = p) :
    exec (.upstreamFrame n f) s = .next (emit p.2 { s with links := s.links.set n p.1 }) := by
  have effect : exec (.upstreamFrame n f) s = .next (s.onLink n (lineFrame n s.frame f)) :=
    exec_effect rfl running
  rw [effect, onLink_of (by rw [lineFrame_examines examines n s.frame found, step])]

/-! ### Hunting (R77) -/

theorem huntStep_finds {a : Aligner} {bits : Byte} (hunts : a.frameAlign = .hunt)
    (marker : bits = 0x2D ∨ bits = 0xD2) :
    huntStep bits a = { a with frameAlign := .confirm, confirm := 0 } :=
  if_pos ⟨hunts, marker⟩

theorem huntStep_none {a : Aligner} {bits : Byte}
    (none : a.frameAlign ≠ .hunt ∨ (bits ≠ 0x2D ∧ bits ≠ 0xD2)) : huntStep bits a = a :=
  if_neg fun found => none.elim (· found.1) fun no => found.2.elim no.1 no.2

section
variable {l : Link} {bits : Byte}

theorem lineCandidate_line (sends : sendsIn l.state = true) (input : l.aligner.input = .line) :
    lineCandidate bits l = ({ l with aligner := huntStep bits l.aligner }, []) := by
  rw [lineCandidate, alignerRuns, sends]
  simp [input]

theorem lineCandidate_loop {f : LineFrame} (sends : sendsIn l.state = true)
    (input : l.aligner.input = .loopback) (looped : l.loopFrame = some f) (hunts : l.aligner.frameAlign = .hunt) :
    lineCandidate bits l =
      ({ l with aligner := huntStep (frameMarker f) l.aligner, loopFrame := none }, []) := by
  rw [lineCandidate, alignerRuns, sends]
  simp [input, looped, hunts]

theorem lineCandidate_none (none : sendsIn l.state = false ∨ l.aligner.frameAlign ≠ .hunt) :
    lineCandidate bits l = (l, []) := by
  unfold lineCandidate alignerRuns
  obtain rest | found := none
  · simp [rest]
  · rw [huntStep_none (.inl found)]
    split
    · rfl
    · cases l.aligner.input with
      | line => rfl
      | loopback => simp only; split <;> rfl

theorem lineFrame_none {n : LinkId} {frame : Word} {f : LineFrame}
    (none : sendsIn l.state = false ∨ l.aligner.frameAlign = .hunt) : lineFrame n frame f l = (l, []) := by
  unfold lineFrame alignerRuns
  obtain rest | hunts := none
  · simp [rest]
  · cases l.aligner.input <;> cases l.loopFrame <;> simp [examineFrame, hunts]

end

/-! ### Confirming (R78) -/

theorem examineConfirm_eq {f : LineFrame} {a : Aligner} : examineConfirm f a =
    if frameGood f then
      if a.confirm + 1 = 2 then { a with frameAlign := .locked, confirm := 2, score := 0 }
      else { a with confirm := a.confirm + 1 }
    else { a with frameAlign := .hunt } := by
  unfold examineConfirm
  have frames : Config.confirmFrames = 2 := rfl
  rw [frames]
  split
  · split
    next last => rw [last]
    next => rfl
  · rfl

/-! ### A frame examined in LOCKED (R79 to R83) -/

/-- The link once a frame has been read in LOCKED, before any loss of lock is taken. -/
def Link.reading (f : LineFrame) (l : Link) : Link :=
  { l with
    inbound := if frameGood f then frameBearer f else l.inbound
    aligner := examined f l.aligner }

theorem scoreAfter_eq (good : Bool) (score : Nat) :
    scoreAfter good score = if good then score - 1 else score + 4 := rfl

/-- What follows an entry into service is what follows without one, on the link that the entry has left. -/
theorem examineLocked_of {n : LinkId} {frame : Word} {f : LineFrame} {l : Link} {p : LinkStep}
    (entry : (if l.aligner.superAlign == .search && (l.reading f).inService then
      enterService n (l.reading f) else (l.reading f, [])) = p) :
    examineLocked n frame f l = followedBy p (afterExamined n frame) := by
  rw [← entry]
  rfl

section
variable {n : LinkId} {frame : Word} {l : Link}

theorem afterExamined_lost (score : 16 ≤ l.aligner.score) : afterExamined n frame l = loseLock n l :=
  if_pos score

theorem afterExamined_missed (score : l.aligner.score < 16) (locked : l.aligner.superAlign = .sfLocked)
    (misses : 2 ≤ l.aligner.misses) : afterExamined n frame l = loseSuper n l := by
  have low : ¬ Config.errorLimit ≤ l.aligner.score := Nat.not_le.2 score
  rw [afterExamined, if_neg low, if_pos ⟨locked, misses⟩]

theorem afterExamined_serves (score : l.aligner.score < 16) (misses : l.aligner.misses < 2)
    (service : l.inService = true) : afterExamined n frame l = finishBlock n frame l := by
  have low : ¬ Config.errorLimit ≤ l.aligner.score := Nat.not_le.2 score
  have few : ¬ (l.aligner.superAlign = .sfLocked ∧ Config.missLimit ≤ l.aligner.misses) :=
    fun both => absurd both.2 (Nat.not_le.2 misses)
  rw [afterExamined, if_neg low, if_neg few, if_pos service]

theorem afterExamined_searches (score : l.aligner.score < 16) (search : l.aligner.superAlign = .search) :
    afterExamined n frame l = (l, []) := by
  have low : ¬ Config.errorLimit ≤ l.aligner.score := Nat.not_le.2 score
  rw [afterExamined, if_neg low, if_neg (by simp [search]), if_neg (by simp [Link.inService, search])]

theorem finishBlock_open {p : Fin 16} (phase : l.aligner.phase = some p)
    (open' : p ≠ 15 ∨ l.aligner.upBlock = none) : finishBlock n frame l = (l, []) := by
  unfold finishBlock
  rw [phase]
  cases block : l.aligner.upBlock with
  | none => rfl
  | some b => exact if_neg (open'.resolve_right (by simp [block]))

theorem finishBlock_complete {b : UpBlock} (phase : l.aligner.phase = some 15)
    (block : l.aligner.upBlock = some b) : finishBlock n frame l =
      takeBlock n frame b { l with aligner := { l.aligner with upBlock := none } } := by
  unfold finishBlock
  rw [phase, block]
  exact if_pos rfl

end

/-! ### Markers in SEARCH (R80) -/

section
variable {f : LineFrame} {a : Aligner}

/-- The frame stands where the next marker B is expected. -/
def Aligner.atPlace (a : Aligner) : Prop := 0 < a.markers ∧ a.sinceMarker + 1 = 16

theorem frameIsB_iff : frameIsB f = true ↔ frameMarker f = 0xD2 := by
  simp [frameIsB, Config.markerB]

theorem searchStep_place {isB : Bool} (place : a.atPlace) : searchStep isB a =
    if isB then
      if a.markers + 1 = 3 then
        { a with superAlign := .sfLocked, markers := 3, sinceMarker := 0, misses := 0, phase := some 0 }
      else { a with markers := a.markers + 1, sinceMarker := 0 }
    else { a with markers := 0, sinceMarker := 0 } := by
  have test : (decide (0 < a.markers) && a.sinceMarker + 1 == Config.superframe) = true := by
    simpa [Aligner.atPlace, Config.superframe] using place
  simp only [searchStep, test, if_true]

theorem searchStep_apart {isB : Bool} (apart : ¬ a.atPlace) : searchStep isB a =
    if isB then { a with markers := 1, sinceMarker := 0 }
    else { a with sinceMarker := if 0 < a.markers then a.sinceMarker + 1 else a.sinceMarker } := by
  have test : (decide (0 < a.markers) && a.sinceMarker + 1 == Config.superframe) = false := by
    simpa [Aligner.atPlace, Config.superframe] using apart
  simp only [searchStep, test]
  by_cases some : 0 < a.markers <;> simp [some]

theorem superStep_search {isB : Bool} (search : a.superAlign = .search) : superStep isB a = searchStep isB a := by
  rw [superStep, search]

/-- A frame that is not the third marker in its place keeps the aligner in SEARCH. -/
theorem examined_counts {markers since : Nat} (search : a.superAlign = .search)
    (counts : (frameMarker f = 0xD2 ∧ a.atPlace ∧ a.markers + 1 < 3 ∧ markers = a.markers + 1 ∧ since = 0) ∨
      (frameMarker f = 0xD2 ∧ ¬ a.atPlace ∧ markers = 1 ∧ since = 0) ∨
      (frameMarker f ≠ 0xD2 ∧ a.atPlace ∧ markers = 0 ∧ since = 0) ∨
      (frameMarker f ≠ 0xD2 ∧ ¬ a.atPlace ∧ markers = a.markers ∧
        since = if 0 < a.markers then a.sinceMarker + 1 else a.sinceMarker)) :
    examined f a = { a with
      score := if frameGood f then a.score - 1 else a.score + 4
      markers := markers
      sinceMarker := since
      upBlock := none } := by
  have step : superStep (frameIsB f) a = { a with markers := markers, sinceMarker := since } := by
    rw [superStep_search search]
    obtain ⟨isB, place, few, rfl, rfl⟩ | ⟨isB, apart, rfl, rfl⟩ | ⟨notB, place, rfl, rfl⟩ | ⟨notB, apart, rfl, rfl⟩ :=
      counts
    · rw [searchStep_place place, if_pos (frameIsB_iff.2 isB), if_neg (by omega)]
    · rw [searchStep_apart apart, if_pos (frameIsB_iff.2 isB)]
    · rw [searchStep_place place, if_neg (mt frameIsB_iff.1 notB)]
    · rw [searchStep_apart apart, if_neg (mt frameIsB_iff.1 notB)]
  rw [examined, step]
  simp [search, scoreAfter_eq]

/-- The third marker in its place enters SF_LOCKED at phase 0 and begins a block (R82, R83). -/
theorem examined_enters (search : a.superAlign = .search) (isB : frameMarker f = 0xD2) (place : a.atPlace)
    (third : a.markers + 1 = 3) : examined f a = { a with
      score := if frameGood f then a.score - 1 else a.score + 4
      superAlign := .sfLocked
      markers := 3
      sinceMarker := 0
      misses := 0
      phase := some 0
      upBlock := some ⟨[f.bytes.get 25], !frameGood f⟩ } := by
  have step : superStep (frameIsB f) a = { a with
      superAlign := .sfLocked, markers := 3, sinceMarker := 0, misses := 0, phase := some 0 } := by
    rw [superStep_search search, searchStep_place place, if_pos (frameIsB_iff.2 isB), if_pos third]
  rw [examined, step]
  simp [search, scoreAfter_eq, collect, frameHouse_eq_get]

end

/-! ### In and out of service (R82, R90, R91) -/

theorem clearFilters_clear {l : Link} (clear : l.filtersClear) : clearFilters l = l := by
  obtain ⟨takenWord, candWord, takenKeys, candKeys⟩ := clear
  unfold clearFilters
  rw [← takenWord, ← candWord, ← takenKeys, ← candKeys]

/-- What a session that is over does not depend on. -/
theorem atRest_congr {l x : Link} {state : SessionState} {why : FaultReason} (call : x.callLength = l.callLength)
    (line : x.lineOut = l.lineOut) (lamps : x.lamps = l.lamps) (chan : x.chan = l.chan)
    (queue : x.inQueue = l.inQueue)
    (inbound : (if x.aligner.frameAlign = .locked then Table.fill 12 0 else x.inbound) =
      if l.aligner.frameAlign = .locked then Table.fill 12 0 else l.inbound) :
    x.atRest state why = l.atRest state why := by
  simp only [Link.atRest, call, line, lamps, chan, queue, inbound]

/-- A link in LOOP that has no loop lock yet. -/
structure InLoop (l : Link) : Prop where
  state : l.state = .loop
  unlocked : l.loopLock = false
  side : l.side = none
  reason : l.faultReason = .none
  framer : l.framer = .sending
  detector : l.detector = .off
  input : l.aligner.input = .loopback
  keyTable : l.keyTable = l.takenKeys

theorem SessionGood.inLoop {l : Link} (h : SessionGood l) (loops : l.state = .loop) (out : l.inService = false) :
    InLoop l where
  state := loops
  unlocked := (h.loopService loops).trans out
  side := h.noSide (by simp [loops])
  reason := by
    by_contra known
    have fault := h.reason.1 known
    rw [loops] at fault
    cases fault
  framer := by rw [h.framer, loops]; rfl
  detector := by rw [h.detector, if_neg (by simp [loops])]
  input := by rw [h.input, loops]; rfl
  keyTable := by rw [h.keys, loops]; rfl

section
variable {n : LinkId} {l : Link}

theorem leaveService_other (notActive : l.state ≠ .active) (notLocked : ¬ (l.state = .loop ∧ l.loopLock = true)) :
    leaveService n l = (clearFilters l, []) := by
  have active : ¬ (clearFilters l).state = .active := notActive
  have locked : ¬ ((clearFilters l).state = .loop ∧ (clearFilters l).loopLock = true) := notLocked
  rw [leaveService, if_neg active, if_neg locked]

/-- An ACTIVE link whose upstream leaves service is DEGRADED (R97, R110, R125). -/
theorem leaveService_active (session : InSession l) (active : l.state = .active) (side : l.side = none) :
    leaveService n l = ({ clearFilters l with
        state := .degraded
        timer := some (.hold, 32)
        loopFrame := none
        keyTable := 0
        chan := l.chan.pause },
      keysReleased n l ++ [.event (.linkState n ⟨.active, false⟩ ⟨.degraded, false⟩ .serviceLost)]) := by
  obtain ⟨sends, line, lock, noFault, framer, detector, input⟩ := session
  have session' : InSession (clearFilters l) := ⟨sends, line, lock, noFault, framer, detector, input⟩
  have active' : (clearFilters l).state = .active := active
  rw [leaveService, if_pos active', Change.keep, changeState_inSession session' (by simp) rfl]
  simp only [reduceCtorEq, if_false, keysTaken_zero, channelChange, active', List.append_nil]
  have noSide : (clearFilters l).side = none := side
  simp only [← noSide]
  rfl

/-- A LOOP with loop lock whose upstream leaves service fails (R91, R101). -/
theorem leaveService_loop (loops : l.state = .loop) (lock : l.loopLock = true) (op : l.op = none) :
    leaveService n l = (l.atRest .fault .loopFail, handedOn n l [] ⟨.fault, false⟩ (.fault .loopFail)) := by
  have notActive : ¬ (clearFilters l).state = .active := by
    rw [show (clearFilters l).state = .loop from loops]
    simp
  have locked : (clearFilters l).state = .loop ∧ (clearFilters l).loopLock = true := ⟨loops, lock⟩
  have none : (clearFilters l).op = none := op
  rw [leaveService, if_neg notActive, if_pos locked, Change.keep, none]
  exact changeState_atRest (l := clearFilters l) (fun _ => ⟨rfl, rfl, rfl, rfl⟩) (.inr rfl)

/-- The upstream of a LOOP enters service: loop lock is set (R91, R101). -/
theorem enterService_loop (h : InLoop l) : enterService n l =
    ({ l with loopLock := true, timer := none, op := none },
      opCompletion l .done 0 ++ [.event (.linkState n ⟨.loop, false⟩ ⟨.loop, true⟩ .loopLock)]) := by
  obtain ⟨loops, unlocked, side, noFault, framer, detector, input, keyTable⟩ := h
  have resets : resetsAligner l.state .loop = false := by rw [loops]; rfl
  have clears : clearsOn l.state .loop l.inService = false := by
    rw [clearsOn, resets, loops]
    rfl
  have table : l.keysAfter .loop = l.keyTable := by
    rw [Link.keysAfter, clears, keyTable]
    rfl
  rw [enterService, if_pos ⟨loops, unlocked⟩, changeState_eq]
  simp only [table, resets, clears]
  simp [sendsIn, timerOf, inputOf, followsKeys, faultOf, channelChange, Link.view, keysTaken, finishOp_eq, loops,
    unlocked, side, noFault, framer, detector, keyTable, ← input]

end

theorem dropLock_examined (f : LineFrame) (a : Aligner) : dropLock (examined f a) = a.lost := by
  obtain ⟨input, -, confirm, -⟩ := examined_frame f a
  simp only [dropLock, dropSuper, Aligner.lost, input, confirm]

end Sys2Proof.Machine
end

section
/-! SUPPORT. A frame examined in LOCKED and SEARCH (R79 to R82), and the statement about the aligner settled from
it. -/

namespace Sys2Proof.Machine

/-! ### Entry into service, and loss of frame lock -/

theorem inService_of_search {l : Link} (search : l.aligner.superAlign = .search) : l.inService = false := by
  simp [Link.inService, search]

section
variable {n : LinkId} {l : Link} {f : LineFrame} {a : Aligner} (reads : l.aligner = examined f a)
include reads

/-- A loss of frame lock out of service silences the inbound registers (R12, R79). -/
theorem loseLock_out (out : l.inService = false) :
    loseLock n l = ({ l with inbound := Table.fill 12 0, aligner := a.lost }, []) := by
  rw [loseLock, if_neg (by simp [out]), reads, dropLock_examined]

theorem loseLock_served (service : l.inService = true) :
    loseLock n l = leaveService n { l with inbound := Table.fill 12 0, aligner := a.lost } := by
  rw [loseLock, if_pos service, reads, dropLock_examined]

end

section
variable {n : LinkId} {frame : Word} {f : LineFrame} {l : Link}

/-- A frame that does not enter service, in SEARCH. -/
theorem examineLocked_searches (stays : (examined f l.aligner).superAlign = .search) :
    examineLocked n frame f l = afterExamined n frame (l.reading f) := by
  have out : (l.reading f).inService = false := inService_of_search stays
  rw [examineLocked_of (p := (l.reading f, [])) (by simp [out])]
  rfl

/-- A frame that enters service, where the session does not act on it. -/
theorem examineLocked_enters (search : l.aligner.superAlign = .search)
    (service : (l.reading f).inService = true) (notLoop : l.state ≠ .loop) :
    examineLocked n frame f l = afterExamined n frame (l.reading f) := by
  have idle : enterService n (l.reading f) = (l.reading f, []) := if_neg fun both => notLoop both.1
  rw [examineLocked_of (p := (l.reading f, [])) (by simp [search, service, idle])]
  rfl

/-- A frame that enters service and sets loop lock (R91). -/
theorem examineLocked_loops (h : InLoop l) (search : l.aligner.superAlign = .search)
    (service : (l.reading f).inService = true) (input : (examined f l.aligner).input = l.aligner.input) :
    examineLocked n frame f l = followedBy
      ({ l.reading f with loopLock := true, timer := none, op := none },
        opCompletion l .done 0 ++ [.event (.linkState n ⟨.loop, false⟩ ⟨.loop, true⟩ .loopLock)])
      (afterExamined n frame) := by
  obtain ⟨loops, unlocked, side, noFault, framer, detector, loopback, keyTable⟩ := h
  have reads : InLoop (l.reading f) :=
    ⟨loops, unlocked, side, noFault, framer, detector, input.trans loopback, keyTable⟩
  have entry := enterService_loop (n := n) reads
  refine examineLocked_of ?_
  rw [if_pos (by simp [search, service])]
  exact entry

end

/-- The score after a frame of this link, as the statements write it. -/
def Link.scored (f : LineFrame) (l : Link) : Nat :=
  if frameGood f then l.aligner.score - 1 else l.aligner.score + 4

/-- The frame is the third marker B in its place. -/
def Aligner.third (f : LineFrame) (a : Aligner) : Prop := frameMarker f = 0xD2 ∧ a.atPlace ∧ a.markers + 1 = 3

/-- The link once it has entered service: SF_LOCKED at phase 0, with the first byte of a block. -/
def Link.served (f : LineFrame) (l : Link) : Link :=
  { l with
    inbound := if frameGood f then frameBearer f else l.inbound
    aligner := { l.aligner with
      score := l.scored f
      superAlign := .sfLocked
      markers := 3
      sinceMarker := 0
      misses := 0
      phase := some 0
      upBlock := some ⟨[f.bytes.get 25], !frameGood f⟩ } }

section
variable {n : LinkId} {frame : Word} {f : LineFrame} {l : Link} (h : LinkGood l)
  (search : l.aligner.superAlign = .search)
include search

theorem reading_served (third : l.aligner.third f) : l.reading f = l.served f := by
  obtain ⟨isB, place, goal⟩ := third
  rw [Link.reading, examined_enters search isB place goal]
  rfl

/-- A frame that only counts. -/
theorem examineLocked_counts {markers since : Nat} (reads : examined f l.aligner = { l.aligner with
      score := l.scored f, markers := markers, sinceMarker := since, upBlock := none })
    (score : l.scored f < 16) : examineLocked n frame f l = (l.reading f, []) := by
  have stays : (examined f l.aligner).superAlign = .search := by rw [reads]; exact search
  rw [examineLocked_searches stays, afterExamined_searches (by exact score) (by exact stays)]

section
variable (locked : l.aligner.frameAlign = .locked)
include locked

theorem reading_inService (third : l.aligner.third f) : (l.reading f).inService = true := by
  rw [reading_served search third, Link.served, Link.inService]
  simp [locked]

/-- An entry into service that no session takes up (R82, R91). -/
theorem examineLocked_serves (third : l.aligner.third f) (score : l.scored f < 16) (notLoop : l.state ≠ .loop) :
    examineLocked n frame f l = (l.served f, []) := by
  rw [examineLocked_enters search (reading_inService search locked third) notLoop, reading_served search third,
    afterExamined_serves (by exact score) (by simp [Link.served]) (by
      rw [← reading_served search third]; exact reading_inService search locked third),
    finishBlock_open (p := 0) (by rfl) (.inl (by decide))]

end

include h

theorem examined_stays (other : ¬ l.aligner.third f) : ∃ markers since, examined f l.aligner = { l.aligner with
    score := l.scored f, markers := markers, sinceMarker := since, upBlock := none } := by
  have few : l.aligner.markers < 3 := h.aligner.unlocked search
  by_cases isB : frameMarker f = 0xD2 <;> by_cases place : l.aligner.atPlace
  · have more : l.aligner.markers + 1 < 3 := by
      have apart : l.aligner.markers + 1 ≠ 3 := fun goal => other ⟨isB, place, goal⟩
      omega
    exact ⟨_, _, examined_counts search (.inl ⟨isB, place, more, rfl, rfl⟩)⟩
  · exact ⟨_, _, examined_counts search (.inr (.inl ⟨isB, place, rfl, rfl⟩))⟩
  · exact ⟨_, _, examined_counts search (.inr (.inr (.inl ⟨isB, place, rfl, rfl⟩)))⟩
  · exact ⟨_, _, examined_counts search (.inr (.inr (.inr ⟨isB, place, rfl, rfl⟩)))⟩

variable (locked : l.aligner.frameAlign = .locked)
include locked

/-- The error score reaches its limit, and no loop lock is set in the same frame (R79). -/
theorem examineLocked_lost (score : 16 ≤ l.scored f) (other : l.state = .loop → ¬ l.aligner.third f) :
    examineLocked n frame f l = ({ l with inbound := Table.fill 12 0, aligner := l.aligner.lost }, []) := by
  by_cases third : l.aligner.third f
  · have notLoop : l.state ≠ .loop := fun loops => other loops third
    have notActive : l.state ≠ .active := fun active => by
      have service := h.session.service active
      rw [inService_of_search search] at service
      cases service
    have service := reading_inService search locked third
    have clear : Link.filtersClear { l with inbound := Table.fill 12 0, aligner := l.aligner.lost } :=
      h.session.filters (inService_of_search search)
    rw [examineLocked_enters search service notLoop, afterExamined_lost (by exact score),
      loseLock_served (f := f) (a := l.aligner) rfl service,
      leaveService_other (by exact notActive) (by exact fun both => notLoop both.1)]
    exact congrArg (·, []) (clearFilters_clear clear)
  · obtain ⟨markers, since, reads⟩ := examined_stays h search third
    have stays : (examined f l.aligner).superAlign = .search := by rw [reads]; exact search
    rw [examineLocked_searches stays, afterExamined_lost (by exact score),
      loseLock_out (f := f) (a := l.aligner) rfl (inService_of_search stays)]
    rfl

variable (loops : l.state = .loop) (third : l.aligner.third f)
include loops third

theorem examineLocked_locks : examineLocked n frame f l = followedBy
    ({ l.served f with loopLock := true, timer := none, op := none },
      opCompletion l .done 0 ++ [.event (.linkState n ⟨.loop, false⟩ ⟨.loop, true⟩ .loopLock)])
    (afterExamined n frame) := by
  obtain ⟨input, -⟩ := examined_frame f l.aligner
  rw [examineLocked_loops (h.session.inLoop loops (inService_of_search search)) search
    (reading_inService search locked third) input, reading_served search third]

/-- Loop lock is set (R91, R101). -/
theorem examineLocked_loopLock (score : l.scored f < 16) : examineLocked n frame f l =
    ({ l.served f with loopLock := true, timer := none, op := none },
      opCompletion l .done 0 ++ [.event (.linkState n ⟨.loop, false⟩ ⟨.loop, true⟩ .loopLock)]) := by
  have service : (l.served f).inService = true := by
    rw [← reading_served search third]; exact reading_inService search locked third
  rw [examineLocked_locks h search locked loops third, followedBy,
    afterExamined_serves (by exact score) (by simp [Link.served]) (by exact service),
    finishBlock_open (p := 0) (by rfl) (.inl (by decide)), List.append_nil]

/-- Loop lock is set, and the same frame takes the link to FAULT (R79, R82, R101). -/
theorem examineLocked_loopFails (score : 16 ≤ l.scored f) : examineLocked n frame f l =
    (l.atRest .fault .loopFail,
      opCompletion l .done 0 ++ [.event (.linkState n ⟨.loop, false⟩ ⟨.loop, true⟩ .loopLock)] ++
        (abandonQueue l.chan.segIndex l.outQueue ++
          [.event (.linkState n ⟨.loop, true⟩ ⟨.fault, false⟩ (.fault .loopFail))])) := by
  have inLoop := h.session.inLoop loops (inService_of_search search)
  have released : l.keyTable = 0 :=
    inLoop.keyTable.trans (h.session.filters (inService_of_search search)).2.2.1
  have service : (l.served f).inService = true := by
    rw [← reading_served search third]; exact reading_inService search locked third
  have reads : (l.served f).aligner = examined f l.aligner := by
    rw [← reading_served search third]; rfl
  rw [examineLocked_locks h search locked loops third, followedBy, afterExamined_lost (by exact score),
    loseLock_served (f := f) (a := l.aligner) (by exact reads) (by exact service),
    leaveService_loop (by exact loops) rfl rfl]
  dsimp only
  refine Prod.ext (atRest_congr rfl rfl rfl rfl rfl ?_) ?_
  · rw [if_pos locked]
    simp [Aligner.lost]
  · simp [handedOn, keysReleased, Link.served, released, loops]

end

/-- Settles O49: hunting and confirming are the aligner's own steps, and a frame in SEARCH counts, enters or loses
lock. -/
theorem alignerHuntsAndConfirms : Obligations.AlignerHuntsAndConfirms := by
  refine ⟨fun s n bits running => ?marker, fun s n f running => ?quiet, fun s n f g l' running => ?confirm,
    fun s n f g l' running => ?search⟩
  case marker =>
    intro l
    have effect : exec (.candidateMarker n bits) s = .next (s.onLink n (lineCandidate bits)) :=
      exec_effect rfl running
    rw [effect]
    refine ⟨fun sends input hunts marker => ?_, fun sends input notA notB => ?_,
      fun f sends input hunts looped marker => ?_, fun none => ?_⟩
    · rw [onLink_quiet (l := _) (by rw [lineCandidate_line sends input, huntStep_finds hunts marker])]
    · rw [onLink_same (by rw [lineCandidate_line sends input, huntStep_none (.inr ⟨notA, notB⟩)])]
    · rw [onLink_quiet (l := _) (by
        rw [lineCandidate_loop sends input looped hunts, huntStep_finds hunts marker])]
    · rw [onLink_same (lineCandidate_none none)]
  case quiet =>
    intro l none
    have effect : exec (.upstreamFrame n f) s = .next (s.onLink n (lineFrame n s.frame f)) :=
      exec_effect rfl running
    rw [effect, onLink_same (lineFrame_none none)]
  case confirm =>
    intro l examines confirm
    have found : l.aligner.frameAlign ≠ .hunt := by simp [confirm]
    obtain ⟨looped, rfl⟩ := examines.sameBut
    have step : examineFrame n s.frame g { l with loopFrame := looped } =
        ({ l with loopFrame := looped, aligner := examineConfirm g l.aligner }, []) := by
      unfold examineFrame
      simp only [confirm]
    have run := exec_upstream running examines found step
    rw [run, examineConfirm_eq]
    refine ⟨fun good last => ?_, fun good more => ?_, fun bad => ?_⟩
    · rw [if_pos good, if_pos last]
      rfl
    · rw [if_pos good, if_neg more]
      rfl
    · rw [if_neg (by simp [bad])]
      rfl
  case search =>
    intro l a good examines locked search isB place score inbound counted served entered
    have found : a.frameAlign ≠ .hunt := by simp [locked]
    obtain ⟨looped, rfl⟩ := examines.sameBut
    let x : Link := { l with loopFrame := looped }
    have good' : LinkGood x := good.withLine l.block l.lineOut looped
    have run {p : LinkStep} (step : examineLocked n s.frame g x = p) :
        exec (.upstreamFrame n f) s = .next (emit p.2 { s with links := s.links.set n p.1 }) := by
      refine exec_upstream running examines found ?_
      unfold examineFrame
      rw [show x.aligner.frameAlign = .locked from locked]
      exact step
    refine ⟨fun low => ?_, fun high => ?_⟩
    · have counts {markers since : Nat} (reads : examined g a = { a with
          score := x.scored g, markers := markers, sinceMarker := since, upBlock := none }) :
          counted markers since := by
        have ran := run (examineLocked_counts (l := x) search reads low)
        rw [Link.reading, show examined g x.aligner = _ from reads] at ran
        exact ran
      refine ⟨fun b p few => counts (examined_counts search (.inl ⟨b, p, few, rfl, rfl⟩)),
        fun b p => counts (examined_counts search (.inr (.inl ⟨b, p, rfl, rfl⟩))),
        fun b p => counts (examined_counts search (.inr (.inr (.inl ⟨b, p, rfl, rfl⟩)))),
        fun b p => counts (examined_counts search (.inr (.inr (.inr ⟨b, p, rfl, rfl⟩)))),
        fun b p goal notLoop => ?_, fun b p goal loops => ?_⟩
      · exact run (examineLocked_serves (l := x) search locked ⟨b, p, goal⟩ low notLoop)
      · exact run (examineLocked_loopLock good' search locked loops ⟨b, p, goal⟩ low)
    · refine ⟨fun other => ?_, fun loops b p goal => ?_⟩
      · exact run (examineLocked_lost good' search locked high fun loops ⟨b, p, goal⟩ => other loops b p goal)
      · have ran := run (examineLocked_loopFails good' search locked loops ⟨b, p, goal⟩ high)
        rw [← List.append_assoc] at ran
        exact ran

end Sys2Proof.Machine
end

section
/-! SUPPORT. A frame examined in service (R79 to R83), the block it completes (R84, R88, R89) and the message header it
carries (R118 to R123), in the terms of the statements. -/

namespace Sys2Proof.Machine

/-! ### A frame examined in LOCKED and SF_LOCKED (R81, R83) -/

/-- The frame of this phase has the wrong marker (R81). -/
def missOf (f : LineFrame) (q : Fin 16) : Bool :=
  if q = 0 then frameMarker f != 0xD2 else frameMarker f == 0xD2

theorem isMiss_eq (f : LineFrame) (q : Fin 16) : isMiss (frameIsB f) q = missOf f q := rfl

theorem superStep_locked {isB : Bool} {a : Aligner} (sf : a.superAlign = .sfLocked) :
    superStep isB a = lockedStep isB a := by
  rw [superStep, sf]

section
variable {f : LineFrame} {a : Aligner} {p q : Fin 16} {score misses : Nat} {miss : Bool}
  (sf : a.superAlign = .sfLocked) (phase : a.phase = some p) (next : q = p + 1)
  (hscore : score = if frameGood f then a.score - 1 else a.score + 4) (hmiss : miss = missOf f q)
  (hmisses : misses = if miss then a.misses + 1 else if q = 0 then 0 else a.misses)
include sf phase next hscore hmiss hmisses

theorem examined_moves : examined f a = { a with
    score := score
    misses := misses
    phase := some q
    upBlock :=
      if q = 0 then some ⟨[f.bytes.get 25], !frameGood f || miss⟩
      else a.upBlock.map fun b => ⟨b.bytes ++ [f.bytes.get 25], b.damaged || (!frameGood f || miss)⟩ } := by
  have place : nextPhase a = q := by rw [nextPhase, phase, next]
  have step : superStep (frameIsB f) a = { a with phase := some q, misses := misses } := by
    rw [superStep_locked sf]
    simp only [lockedStep, place, isMiss_eq, ← hmiss, ← hmisses]
  rw [examined, step, place, isMiss_eq, ← hmiss, scoreAfter_eq, ← hscore]
  simp only [sf, collect, frameHouse_eq_get]
  by_cases first : q = 0
  · simp [first]
  · cases a.upBlock <;> simp [first]

end

/-- In service an examined frame leaves what `afterExamined` makes of it. -/
theorem examineLocked_served {n : LinkId} {frame : Word} {f : LineFrame} {l : Link}
    (sf : l.aligner.superAlign = .sfLocked) :
    examineLocked n frame f l = afterExamined n frame (l.reading f) := by
  rw [examineLocked_of (p := (l.reading f, [])) (by simp [sf])]
  rfl

/-! ### The word of a block (R84) -/

theorem linkWordOf_eq_some_iff (b0 b1 : Byte) (w : LinkWord) :
    linkWordOf b0 b1 = some w ↔ b0 = w.code ∧ b1 = ~~~b0 := by
  unfold linkWordOf
  constructor
  · intro found
    split at found
    next inverse =>
      have code := List.find?_some found
      exact ⟨(beq_iff_eq.1 code).symm, inverse⟩
    next => cases found
  · rintro ⟨rfl, rfl⟩
    rw [if_pos rfl]
    cases w <;> rfl

/-! ### A complete block (R83, R88, R89) -/

theorem inService_iff (l : Link) : l.inService = true ↔
    l.aligner.frameAlign = .locked ∧ l.aligner.superAlign = .sfLocked := by
  simp [Link.inService]

theorem takeBlock_damaged (n : LinkId) (frame : Word) (bytes : List Byte) (l : Link) :
    takeBlock n frame ⟨bytes, true⟩ l = (l, []) := rfl

theorem takeBlock_bytes {n : LinkId} {frame : Word} {b0 b1 k0 k1 header : Byte} {segment : List Byte} {l : Link}
    (length : segment.length = 11) :
    takeBlock n frame ⟨[b0, b1, k0, k1, header] ++ segment, false⟩ l =
      followedBy
        (followedBy (filterWord n (linkWordOf b0 b1) l) fun l1 =>
          if l1.inService then filterKeys n (k0 ++ k1) l1 else (l1, []))
        fun l2 => if followsKeys l2.state then readHeader n frame header segment l2 else (l2, []) := by
  have all : segment.take 11 = segment := List.take_of_length_le length.le
  have block : takeBlock n frame ⟨[b0, b1, k0, k1, header] ++ segment, false⟩ l =
      followedBy
        (followedBy (filterWord n (linkWordOf b0 b1) l) fun l1 =>
          if l1.inService then filterKeys n (k0 ++ k1) l1 else (l1, []))
        fun l2 => if followsKeys l2.state then readHeader n frame header (segment.take 11) l2 else (l2, []) := rfl
  rw [block, all]

/-! ### The key filter (R89, R109) -/

section
variable {n : LinkId} {field : Half} {l : Link}

theorem filterKeys_waits (waits : l.candKeys ≠ some field ∨ l.takenKeys = field) :
    filterKeys n field l = ({ l with candKeys := some field }, []) :=
  if_neg fun both => waits.elim (· both.1) both.2

theorem filterKeys_takes (held : l.candKeys = some field) (new : l.takenKeys ≠ field) :
    filterKeys n field l =
      if followsKeys l.state then
        setKeyTable n field { l with candKeys := some field, takenKeys := field }
      else ({ l with candKeys := some field, takenKeys := field }, []) :=
  if_pos ⟨held, new⟩

end

/-! ### The message header (R118 to R123) -/

section
variable {ack : Bool} {l : Link}

theorem readAck_none (none : l.outQueue = [] ∨ l.chan.retry = 0 ∨ ack ≠ l.chan.sendSeq) :
    readAck ack l = (l, []) := by
  unfold readAck
  cases queue : l.outQueue with
  | nil => rfl
  | cons m rest =>
    refine if_neg fun ⟨carried, same⟩ => ?_
    obtain empty | idle | other := none
    · rw [queue] at empty; cases empty
    · omega
    · exact other same

variable {m : OutMessage} {rest : List OutMessage} (queue : l.outQueue = m :: rest) (carried : 0 < l.chan.retry)
  (same : ack = l.chan.sendSeq)
include queue

theorem atLastSegment_iff : atLastSegment l = true ↔ l.chan.segIndex + 1 = (m.bytes.length + 10) / 11 := by
  rw [atLastSegment, queue]
  simp [segmentCount]

include carried same

theorem readAck_more (more : ¬ l.chan.segIndex + 1 = (m.bytes.length + 10) / 11) :
    readAck ack l = ({ l with chan := { l.chan with
      segIndex := l.chan.segIndex + 1
      sendSeq := !l.chan.sendSeq
      retry := 0
      notReady := 0 } }, []) := by
  rw [readAck, queue]
  simp only
  rw [if_pos ⟨carried, same⟩, if_neg (mt (atLastSegment_iff queue).1 more)]

theorem readAck_last (last : l.chan.segIndex + 1 = (m.bytes.length + 10) / 11) :
    readAck ack l = ({ l with outQueue := rest, chan := l.chan.nextMessage },
      settleMessage m .done m.bytes.length) := by
  rw [readAck, queue]
  simp only
  rw [if_pos ⟨carried, same⟩, if_pos ((atLastSegment_iff queue).2 last), dropOldest, queue]

end

section
variable {n : LinkId} {frame : Word} {header : Byte} {segment : List Byte} {l : Link}

theorem readInbound_empty (none : header.toNat % 16 = 0) : readInbound n frame header segment l = (l, []) :=
  if_pos none

theorem readInbound_long (long : 12 ≤ header.toNat % 16) :
    readInbound n frame header segment l = (l, [.event (.messageError n .badLength)]) := by
  have some : ¬ headerLen header = 0 := by rw [headerLen]; omega
  have limit : Config.segmentMax < headerLen header := long
  rw [readInbound, if_neg some, if_pos limit]

theorem segmentAccepted_iff : segmentAccepted l (headerSeq header) (headerEnd header) = true ↔
    l.chan.lastSeq ≠ some (header.getLsbD 7) ∧ l.chan.sentRdy = true ∧
      (header.getLsbD 5 = true → l.chan.discarding = false → l.inQueue.length < 4) := by
  simp only [segmentAccepted, headerSeq, headerEnd, Config.inLimit, Bool.and_eq_true, bne_iff_ne, ne_eq,
    Bool.not_eq_true', Bool.and_eq_false_imp, decide_eq_false_iff_not, not_le, and_assoc, and_imp]

variable (some : 1 ≤ header.toNat % 16) (short : header.toNat % 16 ≤ 11)
include some short

theorem readInbound_segment : readInbound n frame header segment l =
    if segmentAccepted l (headerSeq header) (headerEnd header) then
      takeSegment n frame (header.getLsbD 7) (header.getLsbD 5) (segment.take (header.toNat % 16)) l
    else (l, []) := by
  have some' : ¬ headerLen header = 0 := by rw [headerLen]; omega
  have short' : ¬ Config.segmentMax < headerLen header := Nat.not_lt.2 short
  rw [readInbound, if_neg some', if_neg short']
  rfl

end

section
variable {n : LinkId} {frame : Word} {seq last : Bool} {segment : List Byte} {l : Link}

theorem takeSegment_discards (discards : l.chan.discarding = true) :
    takeSegment n frame seq last segment l =
      ({ l with chan := { l.chan with lastSeq := some seq, discarding := !last } }, []) :=
  if_pos discards

variable (keeps : l.chan.discarding = false)
include keeps

theorem takeSegment_tooLong (long : 44 < l.chan.assembly.length + segment.length) :
    takeSegment n frame seq last segment l =
      ({ l with chan := { l.chan with lastSeq := some seq, assembly := [], discarding := !last } },
        [.event (.messageError n .tooLong)]) := by
  rw [takeSegment, if_neg (by simp [keeps])]
  exact if_pos long

theorem takeSegment_last (fits : l.chan.assembly.length + segment.length ≤ 44) (ends : last = true) :
    takeSegment n frame seq last segment l =
      ({ l with
        chan := { l.chan with lastSeq := some seq, assembly := [] }
        inQueue := l.inQueue ++ [⟨l.chan.assembly ++ segment, frame⟩] }, []) := by
  rw [takeSegment, if_neg (by simp [keeps])]
  refine (if_neg (Nat.not_lt.2 fits)).trans ?_
  rw [if_pos ends]

theorem takeSegment_more (fits : l.chan.assembly.length + segment.length ≤ 44) (more : ¬ last = true) :
    takeSegment n frame seq last segment l =
      ({ l with chan := { l.chan with lastSeq := some seq, assembly := l.chan.assembly ++ segment } }, []) := by
  rw [takeSegment, if_neg (by simp [keeps])]
  refine (if_neg (Nat.not_lt.2 fits)).trans ?_
  rw [if_neg more]

end

theorem followsKeys_eq_true_iff (state : SessionState) :
    followsKeys state = true ↔ state = .active ∨ state = .loop := by
  simp [followsKeys]

/-- Settles O50: the frame moves the phase and the block; a complete block goes through the two filters and the
message header. -/
theorem upstreamFrameCarriesBearerAndHousekeeping : Obligations.UpstreamFrameCarriesBearerAndHousekeeping := by
  refine ⟨fun s n f g l' p q score misses miss running => ?frame, takeBlock_damaged,
    fun n frame word b0 b1 k0 k1 header segment l length hword => ?block, linkWordOf_eq_some_iff, by decide,
    fun n field l => ?keys, fun n frame header segment l => rfl,
    fun ack l => ⟨readAck_none, fun m rest queue carried same => ?_⟩,
    fun n frame header segment l => ?inbound⟩
  case frame =>
    intro l a examines locked sf phase next hscore low hmiss hmisses few damage carried
    have found : a.frameAlign ≠ .hunt := by simp [locked]
    obtain ⟨looped, rfl⟩ := examines.sameBut
    let x : Link := { l with loopFrame := looped }
    have moves := examined_moves sf phase next hscore hmiss hmisses
    have reads : x.reading g = carried (if q = 0 then some ⟨[g.bytes.get 25], damage⟩
        else a.upBlock.map fun b => ⟨b.bytes ++ [g.bytes.get 25], b.damaged || damage⟩) := by
      rw [Link.reading, show examined g x.aligner = _ from moves]
    have service : (x.reading g).inService = true := by
      rw [inService_iff, reads]
      exact ⟨locked, sf⟩
    have run {r : LinkStep} (step : finishBlock n s.frame (x.reading g) = r) :
        exec (.upstreamFrame n f) s = .next (emit r.2 { s with links := s.links.set n r.1 }) := by
      refine exec_upstream running examines found ?_
      unfold examineFrame
      rw [show ({ l with loopFrame := looped } : Link).aligner.frameAlign = .locked from locked]
      simp only
      rw [examineLocked_served (l := x) sf, afterExamined_serves (by rw [reads]; exact low)
        (by rw [reads]; exact few) service, step]
    refine ⟨fun open' => ?_, fun last b block => ?_⟩
    · have step : finishBlock n s.frame (x.reading g) = (x.reading g, []) := by
        refine finishBlock_open (p := q) (by rw [reads]) ?_
        obtain notLast | none := open'
        · exact .inl notLast
        · refine or_iff_not_imp_left.2 fun last => ?_
          have notFirst : q ≠ 0 := by rw [not_not.1 last]; decide
          rw [reads, if_neg notFirst, none]
          rfl
      rw [run step, reads]
      rfl
    · intro r
      have notFirst : q ≠ 0 := by rw [last]; decide
      have step : finishBlock n s.frame (x.reading g) = r := by
        rw [finishBlock_complete (b := ⟨b.bytes ++ [g.bytes.get 25], b.damaged || damage⟩)
          (by rw [reads]; exact congrArg some last) (by rw [reads, if_neg notFirst, block]; rfl), reads]
      exact run step
  case block =>
    intro p' q' r'
    have keys : (if p'.1.inService then filterKeys n (k0 ++ k1) p'.1 else (p'.1, [])) = q' := by
      simp only [inService_iff, q']
    have read : (if followsKeys q'.1.state then readHeader n frame header segment q'.1 else (q'.1, [])) = r' := by
      simp only [followsKeys_eq_true_iff, r']
    rw [takeBlock_bytes length, ← hword, ← read, ← keys]
    rfl
  case keys =>
    intro seen taken follows
    refine ⟨filterKeys_waits, fun held new => ⟨fun same => ?_, fun may other => ?_⟩⟩
    · rw [filterKeys_takes held new]
      obtain no | same := same
      · exact if_neg (mt (followsKeys_eq_true_iff _).1 no)
      · by_cases may : followsKeys l.state = true
        · rw [if_pos may]
          exact if_pos same.symm
        · rw [if_neg may]
    · rw [filterKeys_takes held new, if_pos ((followsKeys_eq_true_iff _).2 may), setKeyTable_eq, keysTaken]
      simp [other, taken, seen]
  case inbound =>
    intro len seq last part c accepted
    refine ⟨readInbound_empty, readInbound_long, fun some short length => ?_⟩
    have partLength : part.length = len := by
      rw [List.length_take, length]
      omega
    have take (may : accepted) : readInbound n frame header segment l =
        takeSegment n frame seq (header.getLsbD 5) part l := by
      rw [readInbound_segment some short, if_pos (segmentAccepted_iff.2 may)]
    refine ⟨fun cannot => ?_, fun may discards => ?_, fun may keeps long => ?_, fun may keeps fits ends => ?_,
      fun may keeps fits more => ?_⟩
    · rw [readInbound_segment some short, if_neg (mt segmentAccepted_iff.1 cannot)]
    · rw [take may, takeSegment_discards discards]
    · rw [take may, takeSegment_tooLong keeps (by rw [partLength]; exact long)]
    · rw [take may, takeSegment_last keeps (by rw [partLength]; exact fits) ends]
    · rw [take may, takeSegment_more keeps (by rw [partLength]; exact fits) more]
  · intro last
    exact ⟨readAck_more queue carried same, readAck_last queue carried same⟩

end Sys2Proof.Machine
end

section
/-! SUPPORT. Departures from service (R79, R81, R82, R90, R91, R97, R101), in the terms of the statement. -/

namespace Sys2Proof.Machine

/-- A second miss in a row: the aligner searches anew (R81). -/
theorem dropSuper_examined {f : LineFrame} {a : Aligner} {p q : Fin 16} {score misses : Nat} {miss : Bool}
    (sf : a.superAlign = .sfLocked) (phase : a.phase = some p) (next : q = p + 1)
    (hscore : score = if frameGood f then a.score - 1 else a.score + 4) (hmiss : miss = missOf f q)
    (hmisses : misses = if miss then a.misses + 1 else if q = 0 then 0 else a.misses) :
    dropSuper (examined f a) = { a with
      score := score
      superAlign := .search
      markers := 0
      sinceMarker := 0
      misses := misses
      phase := none
      upBlock := none } := by
  rw [examined_moves sf phase next hscore hmiss hmisses]
  rfl

/-- The link that has left service, before the session acts on it. -/
def Link.departed (l : Link) (inbound : Table 12 Sample) (a : Aligner) : Link :=
  { l with inbound := inbound, aligner := a }

/-- The frame that takes a link out of service hands it to the session controller, with what the loss of lock has left of
the inbound registers and the aligner. -/
theorem examineLocked_departs {n : LinkId} {frame : Word} {f : LineFrame} {l : Link} {p q : Fin 16}
    {score misses : Nat} {miss : Bool} {inbound : Table 12 Sample} {a' : Aligner}
    (locked : l.aligner.frameAlign = .locked) (sf : l.aligner.superAlign = .sfLocked)
    (phase : l.aligner.phase = some p) (next : q = p + 1)
    (hscore : score = if frameGood f then l.aligner.score - 1 else l.aligner.score + 4) (hmiss : miss = missOf f q)
    (hmisses : misses = if miss then l.aligner.misses + 1 else if q = 0 then 0 else l.aligner.misses)
    (lost : (16 ≤ score ∧ inbound = Table.fill 12 0 ∧ a' = l.aligner.lost) ∨
      (score < 16 ∧ 2 ≤ misses ∧ inbound = (if frameGood f then frameBearer f else l.inbound) ∧
        a' = { l.aligner with
          score := score
          superAlign := .search
          markers := 0
          sinceMarker := 0
          misses := misses
          phase := none
          upBlock := none })) :
    examineLocked n frame f l = leaveService n (l.departed inbound a') := by
  have moves := examined_moves sf phase next hscore hmiss hmisses
  have reads : (l.reading f).aligner = examined f l.aligner := rfl
  rw [examineLocked_served sf]
  obtain ⟨high, rfl, rfl⟩ | ⟨low, missed, rfl, rfl⟩ := lost
  · have service : (l.reading f).inService = true := by
      rw [inService_iff, reads, moves]
      exact ⟨locked, sf⟩
    rw [afterExamined_lost (by rw [reads, moves]; exact high), loseLock_served reads service]
    rfl
  · rw [afterExamined_missed (by rw [reads, moves]; exact low) (by rw [reads, moves]; exact sf)
      (by rw [reads, moves]; exact missed), loseSuper, reads,
      dropSuper_examined sf phase next hscore hmiss hmisses]
    rfl

section
variable {n : LinkId} {l : Link} (h : LinkGood l) {inbound : Table 12 Sample} {a : Aligner}
include h

theorem leaveService_active_good (input : a.input = l.aligner.input) (active : l.state = .active) :
    leaveService n (l.departed inbound a) =
    ({ clearFilters (l.departed inbound a) with
      state := .degraded
      timer := some (.hold, 32)
      loopFrame := none
      keyTable := 0
      chan := l.chan.pause },
    keysReleased n l ++ [.event (.linkState n ⟨.active, false⟩ ⟨.degraded, false⟩ .serviceLost)]) := by
  obtain ⟨sends, line, lock, noFault, framer, detector, input'⟩ :=
    h.session.inSession (by rw [active]; rfl) (by simp [active])
  have session : InSession (l.departed inbound a) :=
    ⟨sends, line, lock, noFault, framer, detector, input.trans input'⟩
  exact leaveService_active session active (h.session.noSide (by simp [active]))

theorem leaveService_loop_good (loops : l.state = .loop) (service : l.inService = true)
    (silent : (if a.frameAlign = .locked then Table.fill 12 0 else inbound) = Table.fill 12 0) :
    leaveService n (l.departed inbound a) =
      (l.atRest .fault .loopFail, handedOn n l [] ⟨.fault, false⟩ (.fault .loopFail)) := by
  have lock : l.loopLock = true := (h.session.loopService loops).trans service
  have op : l.op = none := op_none h.session.op (by simp [loops, lock])
  have locked : l.aligner.frameAlign = .locked := ((inService_iff l).1 service).1
  have same : (l.departed inbound a).atRest .fault .loopFail = l.atRest .fault .loopFail :=
    atRest_congr rfl rfl rfl rfl rfl (by rw [if_pos locked]; exact silent)
  rw [leaveService_loop (by exact loops) (by exact lock) (by exact op), same]
  rfl

end

theorem exec_upstream_locked {s : State} {n : LinkId} {f g : LineFrame} {l' : Link} {p : LinkStep}
    (running : s.held = false) (examines : Examines (s.links.get n) f g l')
    (locked : (s.links.get n).aligner.frameAlign = .locked) (step : examineLocked n s.frame g l' = p) :
    exec (.upstreamFrame n f) s = .next (emit p.2 { s with links := s.links.set n p.1 }) := by
  refine exec_upstream running examines (by simp [locked]) ?_
  obtain ⟨looped, rfl⟩ := examines.sameBut
  unfold examineFrame
  rw [show ({ s.links.get n with loopFrame := looped } : Link).aligner.frameAlign = .locked from locked]
  exact step

/-- An ACTIVE link receives its line and is in service. -/
theorem LinkGood.active {l : Link} (h : LinkGood l) (active : l.state = .active) (f : LineFrame) :
    Examines l f f l ∧ l.aligner.frameAlign = .locked ∧ l.aligner.superAlign = .sfLocked ∧
      ∃ p, l.aligner.phase = some p := by
  obtain ⟨locked, sf⟩ := (inService_iff l).1 (h.session.service active)
  have input : l.aligner.input = .line := by rw [h.session.input, active]; rfl
  have phase := h.aligner.phase
  rw [sf] at phase
  exact ⟨⟨by rw [active]; rfl, .inl ⟨input, rfl, rfl⟩⟩, locked, sf, Option.isSome_iff_exists.1 phase⟩

/-- Settles O51: a loss of frame lock and a second miss leave service alike, and the session state decides. -/
theorem lossOfLockDegradesASession : Obligations.LossOfLockDegradesASession := by
  refine ⟨fun s n f running => ?active, fun a => rfl,
    fun s n f g l' p q score misses miss inbound a' running => ?departs⟩
  case active =>
    intro l good active bad high
    obtain ⟨examines, locked, sf, p, phase⟩ := good.active active f
    have step : examineLocked n s.frame f l = leaveService n (l.departed (Table.fill 12 0) l.aligner.lost) :=
      examineLocked_departs (misses := _) locked sf phase rfl rfl rfl rfl
        (.inl ⟨by rw [if_neg (by simp [bad])]; omega, rfl, rfl⟩)
    exact exec_upstream_locked running examines locked
      (step.trans (leaveService_active_good good (by rfl) active))
  case departs =>
    intro l a good examines locked sf phase next hscore hmiss hmisses lost left
    have input : a'.input = a.input := by obtain ⟨-, -, rfl⟩ | ⟨-, -, -, rfl⟩ := lost <;> rfl
    have silent : (if a'.frameAlign = .locked then Table.fill 12 0 else inbound) = Table.fill 12 0 := by
      obtain ⟨-, rfl, -⟩ | ⟨-, -, -, rfl⟩ := lost
      · exact ite_self _
      · exact if_pos locked
    have service : l.inService = true := (inService_iff l).2 ⟨locked, sf⟩
    obtain ⟨looped, rfl⟩ := examines.sameBut
    let x : Link := { l with loopFrame := looped }
    have good' : LinkGood x := good.withLine l.block l.lineOut looped
    have step : examineLocked n s.frame g x = leaveService n (x.departed inbound a') :=
      examineLocked_departs locked sf phase next hscore hmiss hmisses lost
    refine ⟨fun notActive notLoop => ?_, fun active => ?_, fun loops => ?_⟩
    · have departs : leaveService n (x.departed inbound a') = (clearFilters (x.departed inbound a'), []) :=
        leaveService_other notActive fun both => notLoop both.1
      exact exec_upstream_locked running examines locked (step.trans departs)
    · exact exec_upstream_locked running examines locked
        (step.trans (leaveService_active_good good' input active))
    · exact exec_upstream_locked running examines locked
        (step.trans (leaveService_loop_good good' loops service silent))

end Sys2Proof.Machine
end

section
/-! SUPPORT. What a frame start does at a link (R70 to R74, R92, R115, R117): settling the oldest message, the block
and the frame it sends, and the eight links of the hub. -/

namespace Sys2Proof.Machine

/-! ### Bytes of a block (R72, 10.7) -/

theorem makeBlock_items {word : LinkWord} {lamps : Half} {header : Byte} {segment : List Byte}
    (fits : segment.length ≤ 11) : (makeBlock word lamps header segment).items =
      [word.code, ~~~word.code, lamps.extractLsb' 8 8, lamps.extractLsb' 0 8, header] ++ segment ++
        List.replicate (11 - segment.length) 0 := by
  have items : (makeBlock word lamps header segment).items =
      [word.code, ~~~word.code] ++ lineBytes16 lamps ++ [header] ++ padTo 11 segment := by
    refine Table.ofList_items ?_
    simp [lineBytes16, padTo, zeroBytes, fits]
  rw [items]
  simp [lineBytes16, padTo, zeroBytes]

/-- The fields of a header byte in their places. -/
theorem makeHeader_fields (seq ack last rdy : Bool) {len : Nat} (short : len < 16) :
    let h := makeHeader seq ack last rdy len
    h.getLsbD 7 = seq ∧ h.getLsbD 6 = ack ∧ h.getLsbD 5 = last ∧ h.getLsbD 4 = rdy ∧ h.toNat % 16 = len := by
  intro h
  have flag (b : Bool) (p : Nat) : boolBit b p = 2 ^ p * b.toNat := by cases b <;> simp [boolBit]
  have value : h = BitVec.ofNat 8
      (2 ^ 7 * seq.toNat + 2 ^ 6 * ack.toNat + 2 ^ 5 * last.toNat + 2 ^ 4 * rdy.toNat + len) := by
    simp only [h, makeHeader, flag, codeByte]
  have := Bool.toNat_lt seq
  have := Bool.toNat_lt ack
  have := Bool.toNat_lt last
  have := Bool.toNat_lt rdy
  have bit (p : Nat) (inside : p < 8) (b : Bool) (place :
      (2 ^ 7 * seq.toNat + 2 ^ 6 * ack.toNat + 2 ^ 5 * last.toNat + 2 ^ 4 * rdy.toNat + len) / 2 ^ p % 2 =
        b.toNat) : h.getLsbD p = b := by
    rw [value, BitVec.getLsbD_ofNat, Nat.testBit_eq_decide_div_mod_eq, place]
    cases b <;> simp [inside]
  refine ⟨bit 7 (by omega) seq ?_, bit 6 (by omega) ack ?_, bit 5 (by omega) last ?_, bit 4 (by omega) rdy ?_, ?_⟩
  · omega
  · omega
  · omega
  · omega
  · rw [value, BitVec.toNat_ofNat]
    omega

/-! ### The oldest message (R117) -/

section
variable {l : Link}

theorem settleOldest_none (none : l.outQueue = []) : settleOldest l = (l, []) := by
  have retry : settleRetry l = (l, []) := if_neg (by simp [retryDue, none])
  have notReady : settleNotReady l = (l, []) := if_neg (by simp [notReadyDue, none])
  have count : settleCount l = l := if_pos (by simp [none])
  rw [settleOldest, retry, followedBy, notReady, count]
  rfl

variable {o : OutMessage} {rest : List OutMessage} (queue : l.outQueue = o :: rest)
include queue

theorem settleCount_ready (ready : l.chan.peerRdy = true) :
    settleCount l = { l with chan := { l.chan with notReady := 0, retry := l.chan.retry + 1 } } := by
  rw [settleCount, if_neg (by simp [queue]), if_pos ready]

theorem settleCount_waits (waits : l.chan.peerRdy = false) :
    settleCount l = { l with chan := { l.chan with notReady := l.chan.notReady + 1 } } := by
  rw [settleCount, if_neg (by simp [queue]), if_neg (by simp [waits])]

section
variable (below : l.chan.retry < 16)
include below

theorem settleRetry_keeps_oldest : settleRetry l = (l, []) :=
  if_neg (mt (retryDue_iff queue).1 (by omega))

/-- No limit is reached: the message is counted. -/
theorem settleOldest_counts (below' : l.chan.peerRdy = true ∨ l.chan.notReady + 1 < 256) :
    settleOldest l = (settleCount l, []) := by
  have notReady : settleNotReady l = (l, []) := if_neg (by
    rw [notReadyDue_iff queue]
    rintro ⟨silent, limit⟩
    obtain ready | few := below'
    · rw [silent] at ready; cases ready
    · omega)
  rw [settleOldest, settleRetry_keeps_oldest queue below, followedBy, notReady]
  rfl

theorem settleOldest_notReady (silent : l.chan.peerRdy = false) (limit : 256 ≤ l.chan.notReady + 1) :
    settleOldest l = (settleCount { l with outQueue := rest, chan := l.chan.nextMessage },
      settleMessage o .notReady (11 * l.chan.segIndex)) := by
  have notReady : settleNotReady l = ({ l with outQueue := rest, chan := l.chan.nextMessage },
      settleMessage o .notReady (11 * l.chan.segIndex)) := by
    rw [settleNotReady, if_pos ((notReadyDue_iff queue).2 ⟨silent, limit⟩), failOldest_eq queue]
  rw [settleOldest, settleRetry_keeps_oldest queue below, followedBy, notReady]
  rfl

end

theorem settleOldest_noAck (limit : 16 ≤ l.chan.retry) :
    settleOldest l = (settleCount { l with outQueue := rest, chan := l.chan.nextMessage },
      settleMessage o .noAck (11 * l.chan.segIndex)) := by
  have retry : settleRetry l = ({ l with outQueue := rest, chan := l.chan.nextMessage },
      settleMessage o .noAck (11 * l.chan.segIndex)) := by
    rw [settleRetry, if_pos ((retryDue_iff queue).2 limit), failOldest_eq queue]
  have notReady : settleNotReady { l with outQueue := rest, chan := l.chan.nextMessage } =
      ({ l with outQueue := rest, chan := l.chan.nextMessage }, []) :=
    if_neg (by simp [notReadyDue, MessageChannel.nextMessage, Config.notReadyLimit])
  rw [settleOldest, retry, followedBy, notReady, List.append_nil]

end

/-- The message that is then the oldest is counted, where there is one. -/
theorem settleCount_next_ready {l : Link} {rest : List OutMessage} (ready : l.chan.peerRdy = true) :
    settleCount { l with outQueue := rest, chan := l.chan.nextMessage } = { l with
      outQueue := rest
      chan := { l.chan with
        sendSeq := !l.chan.sendSeq, segIndex := 0, retry := if rest = [] then 0 else 1, notReady := 0 } } := by
  cases rest with
  | nil => rfl
  | cons o rest => exact (settleCount_ready (l := { l with outQueue := o :: rest, chan := _ }) rfl ready)

theorem settleCount_next_waits {l : Link} {rest : List OutMessage} (waits : l.chan.peerRdy = false) :
    settleCount { l with outQueue := rest, chan := l.chan.nextMessage } = { l with
      outQueue := rest
      chan := { l.chan with
        sendSeq := !l.chan.sendSeq, segIndex := 0, retry := 0, notReady := if rest = [] then 0 else 1 } } := by
  cases rest with
  | nil => rfl
  | cons o rest => exact (settleCount_waits (l := { l with outQueue := o :: rest, chan := _ }) rfl waits)

/-- Settling reaches the queue and the channel of the link, nothing else. -/
theorem settleOldest_link (l : Link) :
    ∃ queue chan, (settleOldest l).1 = { l with outQueue := queue, chan := chan } := by
  have drops (due : Bool) (status : Status) (l : Link) :
      ∃ queue chan, (if due then failOldest status l else (l, [])).1 =
        { l with outQueue := queue, chan := chan } := by
    cases due with
    | false => exact ⟨_, _, rfl⟩
    | true =>
      cases queue : l.outQueue with
      | nil => exact ⟨_, _, by rw [if_pos rfl, failOldest, dropOldest, queue]⟩
      | cons o rest => exact ⟨_, _, by rw [if_pos rfl, failOldest_eq queue]⟩
  have counts (l : Link) : ∃ chan, settleCount l = { l with chan := chan } := by
    unfold settleCount
    split
    · exact ⟨_, rfl⟩
    · split <;> exact ⟨_, rfl⟩
  obtain ⟨queue, chan, retry⟩ := drops (retryDue l) .noAck l
  obtain ⟨queue', chan', notReady⟩ := drops (notReadyDue (settleRetry l).1) .notReady (settleRetry l).1
  obtain ⟨chan'', count⟩ := counts (settleNotReady (settleRetry l).1).1
  refine ⟨queue', chan'', ?_⟩
  show settleCount (settleNotReady (settleRetry l).1).1 = _
  rw [count, show (settleNotReady (settleRetry l).1).1 = _ from notReady, show (settleRetry l).1 = _ from retry]

/-! ### The frame of a frame start (R68, R70 to R74) -/

/-- The frame goes on the line, or in LOOP into the internal loop (R74). -/
def Link.withFrame (l : Link) (state : SessionState) (f : Option LineFrame) : Link :=
  if state = .loop then { l with lineOut := none, loopFrame := f }
  else { l with lineOut := f, loopFrame := none }

theorem Link.withFrame_line {l : Link} {state : SessionState} (line : state ≠ .loop) (idle : l.loopFrame = none)
    (f : Option LineFrame) : l.withFrame state f = { l with lineOut := f } := by
  rw [Link.withFrame, if_neg line, ← idle]

/-- The frame of a bearer and a block, with the silence of a state that carries none (R73). -/
def frameOfBlock (state : SessionState) (marker : Byte) (down : Table 12 Sample) (b : Table 16 Byte)
    (phase : Fin 16) : LineFrame :=
  makeFrame marker
    (if state = .active ∨ state = .degraded ∨ state = .loop then down else Table.fill 12 0) (b.get phase)

section
variable {frame : Word} {down : Table 12 Sample} {l : Link} {b : Table 16 Byte}

theorem frameOfBlock_line {state : SessionState} {marker : Byte} {phase : Fin 16} (line : state ≠ .loop) :
    frameOfBlock state marker down b phase = makeFrame marker
      (if state = .active ∨ state = .degraded then down else Table.fill 12 0) (b.get phase) := by
  have speaks : (state = .active ∨ state = .degraded ∨ state = .loop) ↔ state = .active ∨ state = .degraded := by
    simp [line]
  rw [frameOfBlock, if_congr speaks rfl rfl]

theorem bearerOf_eq : bearerOf l down =
    if l.state = .active ∨ l.state = .degraded ∨ l.state = .loop then down else Table.fill 12 0 := by
  have speaks : channelSpeaks l.state = true ↔ l.state = .active ∨ l.state = .degraded ∨ l.state = .loop := by
    simp [channelSpeaks, or_assoc]
  exact if_congr speaks rfl rfl

theorem frameToSend_none {phase : Fin 16} (idle : l.framer = .atRest ∨ l.block = none) :
    frameToSend l phase down = none := by
  obtain rest | empty := idle
  · exact if_neg (by simp [rest])
  · rw [frameToSend, empty]
    exact ite_self _

theorem frameToSend_block {phase : Fin 16} (sending : l.framer = .sending) (block : l.block = some b) :
    frameToSend l phase down =
      some (frameOfBlock l.state (phaseMarker phase.val) down b phase) := by
  rw [frameToSend, if_pos sending, block, Option.map_some, bearerOf_eq, frameOfBlock]

/-! #### Within a superframe -/

theorem linkFrameStart_within (within : phaseOf frame ≠ 0) :
    linkFrameStart frame down l = (l.withFrame l.state (frameToSend l (phaseOf frame) down), []) := by
  unfold linkFrameStart
  rw [if_neg within]
  rfl

theorem linkFrameStart_none (within : phaseOf frame ≠ 0) (idle : l.framer = .atRest ∨ l.block = none) :
    linkFrameStart frame down l = (l.withFrame l.state none, []) := by
  rw [linkFrameStart_within within, frameToSend_none idle]

theorem linkFrameStart_block (within : phaseOf frame ≠ 0) (sending : l.framer = .sending)
    (block : l.block = some b) : linkFrameStart frame down l =
      (l.withFrame l.state (some (frameOfBlock l.state 0x2D down b (phaseOf frame))), []) := by
  have marker : phaseMarker (phaseOf frame).val = 0x2D :=
    if_neg fun zero => within (Fin.ext zero)
  rw [linkFrameStart_within within, frameToSend_block sending block, marker]

/-! #### At a superframe start -/

section
variable (start : phaseOf frame = 0)
include start

theorem linkFrameStart_start {m : Link} {es : List Effect} (begins : superframeStart l = (m, es)) :
    linkFrameStart frame down l = (m.withFrame m.state (frameToSend m (phaseOf frame) down), es) := by
  unfold linkFrameStart
  rw [if_pos start, begins]
  rfl

theorem linkFrameStart_rests (rest : l.framer = .atRest) :
    linkFrameStart frame down l = ((countTimer l).withFrame l.state none, []) := by
  have counted : superframeStart l = (countTimer l, []) :=
    if_neg (by rw [show (countTimer l).framer = l.framer from rfl, rest]; simp)
  refine (linkFrameStart_start start counted).trans ?_
  rw [frameToSend_none (l := countTimer l) (.inl rest)]
  exact rfl

/-- A link as its framer forms a block and sends the block's first frame. -/
def Link.formed (m : Link) (state : SessionState) (down : Table 12 Sample) (phase : Fin 16) (word : LinkWord)
    (header : Byte) (segment : List Byte) (rdy : Bool) : Link :=
  let b := makeBlock word m.lamps header segment
  { m with block := some b, chan := { m.chan with sentRdy := rdy } }.withFrame state
    (some (frameOfBlock state 0xD2 down b phase))

theorem linkFrameStart_forms (sending : l.framer = .sending) {m : Link} {es : List Effect}
    (settles : settleForBlock (countTimer l) = (m, es)) (framer : m.framer = l.framer)
    (state : m.state = l.state)
    {word : LinkWord} {header : Byte} {segment : List Byte} {rdy : Bool}
    (forms : formBlock m = { m with
      block := some (makeBlock word m.lamps header segment), chan := { m.chan with sentRdy := rdy } }) :
    linkFrameStart frame down l = (m.formed l.state down (phaseOf frame) word header segment rdy, es) := by
  have block : superframeStart l = (formBlock m, es) := by
    show (if (countTimer l).framer = .sending then
      (formBlock (settleForBlock (countTimer l)).1, (settleForBlock (countTimer l)).2) else _) = _
    rw [if_pos (show (countTimer l).framer = .sending from sending), settles]
  have marker : phaseMarker (phaseOf frame).val = 0xD2 := by rw [start]; rfl
  rw [linkFrameStart_start start block, forms, frameToSend_block (by exact framer.trans sending) (by rfl), marker,
    ← state]
  rfl

/-- A session without a message channel sends its word and an empty block. -/
theorem linkFrameStart_word (sending : l.framer = .sending) {word : LinkWord}
    (session : (l.state = .calling ∧ word = .wake) ∨ (l.state = .training ∧ word = .engage) ∨
      (l.state = .closing ∧ word = if l.side = some .station then .done else .release)) :
    linkFrameStart frame down l = ((countTimer l).formed l.state down (phaseOf frame) word 0 [] false, []) := by
  have silent : channelSpeaks l.state = false ∧ ¬ (l.state = .active ∨ l.state = .loop) ∧
      blockWord l = word := by
    obtain ⟨state, rfl⟩ | ⟨state, rfl⟩ | ⟨state, rfl⟩ := session <;> simp [channelSpeaks, blockWord, state]
  obtain ⟨mute, settled, rfl⟩ := silent
  refine linkFrameStart_forms start sending (if_neg settled) rfl rfl ?_
  exact if_neg (by rw [show (countTimer l).state = l.state from rfl, mute]; simp)

theorem linkFrameStart_degraded (sending : l.framer = .sending) (state : l.state = .degraded) :
    linkFrameStart frame down l = ((countTimer l).formed l.state down (phaseOf frame) .run
      (makeHeader l.chan.sendSeq (l.chan.lastSeq.getD true) false (decide (l.inQueue.length < 4)) 0) []
      (decide (l.inQueue.length < 4)), []) := by
  have same : (countTimer l).state = .degraded := state
  refine linkFrameStart_forms start sending (if_neg (by simp [same])) rfl rfl ?_
  rw [formBlock, if_pos (by rw [same]; rfl), if_pos same, blockWord, same]
  rfl

omit start in
/-- The block of a session with messages (R72, R115). -/
theorem formBlock_speaks (speaks : channelSpeaks l.state = true) (whole : l.state ≠ .degraded) :
    formBlock l = { l with
      block := some (makeBlock (blockWord l) l.lamps (channelHeader l (carriedSegment l)) (carriedSegment l))
      chan := { l.chan with sentRdy := decide (l.inQueue.length < 4) } } := by
  unfold formBlock
  rw [if_pos speaks, if_neg whole]

theorem linkFrameStart_carries (sending : l.framer = .sending) (state : l.state = .active ∨ l.state = .loop)
    {m : Link} (settled : (settleOldest (countTimer l)).1 = m) {segment : List Byte}
    (carried : carriedSegment m = segment) : linkFrameStart frame down l = (m.formed l.state down (phaseOf frame) .run
      (makeHeader m.chan.sendSeq (m.chan.lastSeq.getD true) (!segment.isEmpty && atLastSegment m)
        (decide (l.inQueue.length < 4)) segment.length) segment
      (decide (l.inQueue.length < 4)), (settleOldest (countTimer l)).2) := by
  obtain ⟨queue, chan, same⟩ := settleOldest_link (countTimer l)
  have link : m = { countTimer l with outQueue := queue, chan := chan } := settled.symm.trans same
  have states : m.state = l.state := by rw [link]; rfl
  have waiting : m.inQueue = l.inQueue := by rw [link]; rfl
  have framer : m.framer = l.framer := by rw [link]; rfl
  have speaks : channelSpeaks m.state = true ∧ m.state ≠ .degraded ∧ blockWord m = .run := by
    rw [blockWord, states]
    obtain state | state := state <;> simp [state, channelSpeaks]
  obtain ⟨speaks, notDegraded, word⟩ := speaks
  have settles : settleForBlock (countTimer l) = (m, (settleOldest (countTimer l)).2) := by
    rw [← settled]
    exact if_pos state
  subst carried
  refine linkFrameStart_forms start sending settles framer states ?_
  rw [formBlock_speaks speaks notDegraded, word, ← waiting]
  rfl

end
end

theorem carriedSegment_empty {m : Link} (silent : m.outQueue = [] ∨ m.chan.peerRdy = false) :
    carriedSegment m = [] := by
  cases queue : m.outQueue with
  | nil => rw [carriedSegment, queue]
  | cons o rest =>
    have waits : m.chan.peerRdy = false := silent.resolve_left (by simp [queue])
    simp [carriedSegment, queue, waits]

theorem carriedSegment_ready {m : Link} {o : OutMessage} {rest : List OutMessage}
    (queue : m.outQueue = o :: rest) (ready : m.chan.peerRdy = true) :
    carriedSegment m = (o.bytes.drop (11 * m.chan.segIndex)).take 11 := by
  rw [carriedSegment, queue]
  exact if_pos ready

theorem atLast_iff {m : Link} {o : OutMessage} {rest : List OutMessage} (queue : m.outQueue = o :: rest)
    (segment : List Byte) : (!segment.isEmpty && atLastSegment m) =
      decide (segment ≠ [] ∧ m.chan.segIndex + 1 = (o.bytes.length + 10) / 11) := by
  rw [Bool.eq_iff_iff, Bool.and_eq_true, atLastSegment_iff queue, decide_eq_true_iff]
  simp

section
variable {frame : Word} {down : Table 12 Sample} {l : Link} {q : LinkStep} (start : phaseOf frame = 0)
  (sending : l.framer = .sending) (state : l.state = .active ∨ l.state = .loop)
  (settled : settleOldest (countTimer l) = q)
include start sending state settled

/-- The block carries no segment (R115, R117). -/
theorem linkFrameStart_empty (silent : q.1.outQueue = [] ∨ q.1.chan.peerRdy = false) :
    linkFrameStart frame down l = (q.1.formed l.state down (phaseOf frame) .run
      (makeHeader q.1.chan.sendSeq (q.1.chan.lastSeq.getD true) false (decide (l.inQueue.length < 4)) 0) []
      (decide (l.inQueue.length < 4)), q.2) := by
  rw [← settled] at silent ⊢
  have begins := linkFrameStart_carries (down := down) start sending state rfl (carriedSegment_empty silent)
  rwa [List.isEmpty_nil, Bool.not_true, Bool.false_and, List.length_nil] at begins

/-- The block carries the current segment of the oldest message (R115, R117). -/
theorem linkFrameStart_segment {o : OutMessage} {rest : List OutMessage} (queue : q.1.outQueue = o :: rest)
    (ready : q.1.chan.peerRdy = true) :
    let segment := (o.bytes.drop (11 * q.1.chan.segIndex)).take 11
    linkFrameStart frame down l = (q.1.formed l.state down (phaseOf frame) .run
      (makeHeader q.1.chan.sendSeq (q.1.chan.lastSeq.getD true)
        (decide (segment ≠ [] ∧ q.1.chan.segIndex + 1 = (o.bytes.length + 10) / 11))
        (decide (l.inQueue.length < 4)) segment.length) segment
      (decide (l.inQueue.length < 4)), q.2) := by
  rw [← settled] at queue ready ⊢
  intro segment
  rw [← atLast_iff queue]
  exact linkFrameStart_carries start sending state rfl (carriedSegment_ready queue ready)

end

end Sys2Proof.Machine
end

section
/-! SUPPORT. The eight links at a frame start (log entries 2, 3, 7 and 8), and the statement about the framer settled
from the facts before. -/

namespace Sys2Proof.Machine

/-! ### What is still due when a frame starts (log entry 3) -/

/-- A link with its due timer and its looped frame taken. -/
def Link.caughtUp (l : Link) (n : LinkId) (frame : Word) : Link :=
  (examineLoop n frame (expireAnyDue n l).1).1

theorem catchUp_links (s : State) : (catchUp s).links = Table.ofFn fun n => (s.links.get n).caughtUp n s.frame := by
  have timers : (eachLink expireAnyDue s).links = Table.ofFn fun n => (expireAnyDue n (s.links.get n)).1 := by
    rw [eachLink_eq, emit_links, withLinks_links]
  have loops : (catchUp s).links =
      (eachLink (fun n => examineLoop n (eachLink expireAnyDue s).frame) (eachLink expireAnyDue s)).links := by
    unfold catchUp
    simp
  rw [loops, eachLink_eq, emit_links, withLinks_links, timers, eachLink_frame]
  simp only [Table.get_ofFn]
  rfl

theorem changeState_loopFrame {n : LinkId} {c : Change} {l : Link} (other : c.target ≠ .loop) :
    (changeState n c l).1.loopFrame = none := by
  rw [changeState_eq]
  exact if_neg other

theorem expire_loopFrame (n : LinkId) (kind : TimerKind) (l : Link) : (expire n kind l).1.loopFrame = none := by
  cases kind <;> exact changeState_loopFrame fun loop => by cases loop

section
variable {l : Link} {n : LinkId} {frame : Word}

theorem caughtUp_of_due {kind : TimerKind} (due : l.timer = some (kind, 0)) :
    l.caughtUp n frame = (expire n kind l).1 := by
  have expires : expireAnyDue n l = expire n kind l := by
    unfold expireAnyDue
    simp only [due]
  rw [Link.caughtUp, expires]
  unfold examineLoop
  rw [expire_loopFrame]

theorem expireAnyDue_waits (waits : ∀ kind, l.timer ≠ some (kind, 0)) : expireAnyDue n l = (l, []) := by
  unfold expireAnyDue
  split
  · next due => exact absurd due (waits _)
  · rfl

theorem caughtUp_of_waits (waits : ∀ kind, l.timer ≠ some (kind, 0)) :
    l.caughtUp n frame = (examineLoop n frame l).1 := by
  rw [Link.caughtUp, expireAnyDue_waits waits]

theorem caughtUp_same (waits : ∀ kind, l.timer ≠ some (kind, 0)) (idle : l.loopFrame = none) :
    l.caughtUp n frame = l := by
  rw [caughtUp_of_waits waits]
  unfold examineLoop
  rw [idle]

end

/-- A looped frame is taken as its row would take it (log entry 7). -/
theorem exec_examineLoop {s : State} {n : LinkId} {g : LineFrame} (running : s.held = false)
    (looped : (s.links.get n).loopFrame = some g) :
    exec (if (s.links.get n).aligner.frameAlign = .hunt then .candidateMarker n 0 else .upstreamFrame n g) s =
      .next (s.onLink n (examineLoop n s.frame)) := by
  have step : s.onLink n (examineLoop n s.frame) =
      if (s.links.get n).aligner.frameAlign = .hunt then s.onLink n (lineCandidate 0)
      else s.onLink n (lineFrame n s.frame g) := by
    have examines : examineLoop n s.frame (s.links.get n) =
        if (s.links.get n).aligner.frameAlign = .hunt then lineCandidate 0 (s.links.get n)
        else lineFrame n s.frame g (s.links.get n) := by
      unfold examineLoop
      rw [looped]
    split
    · next hunts => rw [onLink_of (by rw [examines, if_pos hunts])]; rfl
    · next found => rw [onLink_of (by rw [examines, if_neg found])]; rfl
  rw [step]
  split
  · exact exec_effect rfl running
  · exact exec_effect rfl running

/-! ### The eight links -/

/-- What a frame start does at link `n` (log entry 8). -/
def State.linkBegun (s : State) (n : LinkId) : LinkStep :=
  linkFrameStart (s.frame + 1) (s.core.down.get n) ((s.links.get n).caughtUp n s.frame)

theorem startLinks_catchUp (s : State) : startLinks (advanceFrame (catchUp s)) =
    emit ((List.finRange 8).flatMap fun n => (s.linkBegun n).2)
      { advanceFrame (catchUp s) with links := Table.ofFn fun n => (s.linkBegun n).1 } := by
  unfold startLinks
  rw [eachLink_eq, advanceFrame_links, advanceFrame_frame, advanceFrame_core, catchUp_links, catchUp_frame,
    catchUp_down]
  simp only [Table.get_ofFn]
  rfl

theorem exec_frameStart_begun {s : State} (running : s.held = false) :
    exec .frameStart s = .next (startTaps (framePass (startSchedule
      (emit ((List.finRange 8).flatMap fun n => (s.linkBegun n).2)
        { advanceFrame (catchUp s) with links := Table.ofFn fun n => (s.linkBegun n).1 })))) := by
  rw [exec_frameStart running, startFrame, startLinks_catchUp]

theorem exec_frameStart_allLinks {s : State} (running : s.held = false) :
    ∃ t, exec .frameStart s = .next t ∧ ∀ n, t.links.get n = (s.linkBegun n).1 := by
  refine ⟨_, exec_frameStart_begun running, fun n => ?_⟩
  rw [startTaps_links, framePass_links, startSchedule_links, emit_links, Table.get_ofFn]

/-- A link with nothing due takes the frame start as it is. -/
theorem exec_frameStart_quietLink {s : State} {n : LinkId} {l : Link} {es : List Effect} (running : s.held = false)
    (waits : ∀ kind, (s.links.get n).timer ≠ some (kind, 0)) (idle : (s.links.get n).loopFrame = none)
    (begins : linkFrameStart (s.frame + 1) (s.core.down.get n) (s.links.get n) = (l, es)) :
    ∃ t, exec .frameStart s = .next t ∧ t.links.get n = l := by
  obtain ⟨t, run, links⟩ := exec_frameStart_allLinks running
  refine ⟨t, run, ?_⟩
  rw [links, State.linkBegun, caughtUp_same waits idle, begins]

/-- Settles O53: a link with nothing due sends its frame, one with something due is caught up first, and the frame
start of a link follows its phase and its session. -/
theorem framerSendsFramesAndBlocks : Obligations.FramerSendsFramesAndBlocks := by
  refine ⟨fun s n block p running => ?within, fun s n word block running => ?word, fun s running => ?hub,
    fun frame down l p same => ?start, fun word lamps header segment => makeBlock_items,
    fun seq ack last rdy len => makeHeader_fields seq ack last rdy,
    fun m status result => rfl, fun l => ⟨settleOldest_none, fun o rest queue => ?settle⟩⟩
  case within =>
    rintro l sending line idle waits formed rfl within
    obtain ⟨t, run, link⟩ := exec_frameStart_quietLink running waits idle (linkFrameStart_block within sending formed)
    refine ⟨t, run, link.trans ?_⟩
    rw [Link.withFrame_line line idle, frameOfBlock_line line]
  case word =>
    rintro l sending idle waits start session rfl
    have line : l.state ≠ .loop := by
      obtain ⟨state, -⟩ | ⟨state, -⟩ | ⟨state, -⟩ := session <;> simp [state]
    have mute : ¬ (l.state = .active ∨ l.state = .degraded ∨ l.state = .loop) := by
      obtain ⟨state, -⟩ | ⟨state, -⟩ | ⟨state, -⟩ := session <;> simp [state]
    obtain ⟨t, run, link⟩ := exec_frameStart_quietLink running waits idle (linkFrameStart_word start sending session)
    refine ⟨t, run, link.trans ?_⟩
    unfold Link.formed
    rw [Link.withFrame_line (by exact line) (by exact idle), frameOfBlock, if_neg (by exact mute), start]
    rfl
  case hub =>
    refine ⟨fun n => (s.links.get n).caughtUp n s.frame, exec_frameStart_begun running, exec_frameStart_allLinks running,
      fun n => ⟨caughtUp_same, fun g waits looped => ?_, fun kind due => ?_⟩⟩
    · refine ⟨_, exec_examineLoop running looped, ?_⟩
      rw [onLink_links, Table.get_set_same]
      exact caughtUp_of_waits waits
    · refine ⟨s.onLink n (expireIfDue n kind), ?_, ?_⟩
      · have row := exec_timerRow (n := n) running kind
        cases kind <;> exact row
      · rw [onLink_links, Table.get_set_same, expireIfDue_due due]
        exact caughtUp_of_due due
  case start =>
    subst same
    refine ⟨rfl, linkFrameStart_none, fun within sending b => linkFrameStart_block within sending,
      linkFrameStart_rests, fun start sending word => linkFrameStart_word start sending,
      linkFrameStart_degraded, fun start sending state => ?carries⟩
    intro q m rdy
    exact ⟨linkFrameStart_empty start sending state (down := down) (q := q) rfl,
      fun o rest queue => linkFrameStart_segment start sending state (down := down) (q := q) rfl queue⟩
  case settle =>
    refine ⟨fun below ready => ?_, fun below waits few => ?_, fun below waits limit => ?_,
      fun limit ready => ?_, fun limit waits => ?_⟩
    · rw [settleOldest_counts queue below (.inl ready), settleCount_ready queue ready]
    · rw [settleOldest_counts queue below (.inr few), settleCount_waits queue waits]
    · rw [settleOldest_notReady queue below waits limit, settleCount_next_waits waits]
    · rw [settleOldest_noAck queue limit, settleCount_next_ready ready]
    · rw [settleOldest_noAck queue limit, settleCount_next_waits waits]

end Sys2Proof.Machine
end
